-- ==== Sys2Proof/Word.lean ====
section
/-! DEFINITION. The two word types of the part: a byte of the request link and a time of the Seconds Clock. -/

namespace Sys2Proof

/-- One byte of a request or reply frame (R179), and of the attention causes and mask (R187). -/
abbrev Byte := BitVec 8

/-- A time of the Seconds Clock, 0 to 4294967295, whose arithmetic follows the wrap (R186). -/
abbrev Time := BitVec 32

end Sys2Proof
end

