-- ==== Sys2Proof/Syntax.lean ====
section
/-! DEFINITION. The commands of the LC48: one constructor for each row of spec/opcode_table.json. A request's operands are the raw field values of its frame body (R183), so that a value outside its coding is a command too, answered as the rules say. -/

namespace Sys2Proof

/-- How a RESTORE names its case (R39): by handle, or by the zone and class of a key of the requester's own. -/
inductive RestoreTarget where
  | byHandle (handle : Nat)
  | byKey (zone cls : Nat)
  deriving DecidableEq, Repr

/-- The commands: the requests of the link (R182), the other link events, resets and clock, the Arbiter's pass,
and the events of the lines and of the contact inputs. -/
inductive Instr where
  -- requests on cases (chapter 2)
  | post (source zone cls : Nat) (detail : Option Nat)
  | restore (source : Nat) (target : RestoreTarget)
  | withdraw (source handle : Nat)
  | find (source keySource zone cls : Nat)
  | readCase (source handle : Nat)
  | nextCase (source start filter : Nat)
  | clear (source handle : Nat)
  | rearm (source handle : Nat)
  -- configuration requests
  | writeAdmission (source linkSource cls entry : Nat)
  | writeCaseLimits (source reserve threshold : Nat)
  | writeClass (source cls base ageStep ageCap retryBase retryMax : Nat)
  | writeDestination (source dest d1 d2 d3 d4 policy : Nat) (symbols : List Nat)
  | setDestinationState (source dest state : Nat)
  | writePlan (source cls : Nat) (dests : List Nat) (attempts rounds : Nat)
  | writeLine (source line enable forced mode : Nat)
  | writeLineTiming (source stagger check settle dialTone guardTime hold differential filter : Nat)
  | writeExchangeTiming (source handshake response repeats blocks linger : Nat)
  | writeInput (source input cls zone latch sampling filter retard : Nat)
  | setInputState (source input state : Nat)
  | unlatchInput (source input : Nat)
  | writeTestTimer (source mode period : Nat)
  | startTest (source : Nat)
  -- reading requests, attention and reset
  | readConfig (source item index : Nat)
  | readLine (source line : Nat)
  | readDestination (source dest : Nat)
  | readInput (source input : Nat)
  | readStatus (source : Nat)
  | writeMask (source mask : Nat)
  | readTime (source : Nat)
  | softReset (source : Nat)
  -- other events of the link
  | badRequest (frame : List Byte)
  | readTransaction (clocked : Nat)
  -- reset, clock and Arbiter
  | powerOnReset
  | secondsClockAdvance
  | testTimerExpiry
  | dispatchPass
  -- line events
  | lineSample (line : Fin 4) (volts milliamps : Nat)
  | dialToneOn (line : Fin 4)
  | dialToneOff (line : Fin 4)
  | busyTone (line : Fin 4)
  | receivedSymbol (line : Fin 4) (symbol : Nat)
  | classificationFilterExpiry (line : Fin 4)
  | recoveryTimerExpiry (line : Fin 4)
  | staggerTimerExpiry
  | offHookCheckExpiry (line : Fin 4)
  | settleTimerExpiry (line : Fin 4)
  | dialToneWaitExpiry (line : Fin 4)
  | intrusionFilterExpiry (line : Fin 4)
  | guardExpiry (line : Fin 4)
  | faultHoldExpiry (line : Fin 4)
  | elementTimerExpiry (line : Fin 4)
  | adaptiveCheckExpiry (line : Fin 4)
  | handshakeWaitExpiry (line : Fin 4)
  | blockSent (line : Fin 4)
  | responseWaitExpiry (line : Fin 4)
  | lingerExpiry (line : Fin 4)
  -- contact input events
  | inputSample (input : Fin 8) (count : Nat)
  | levelFilterExpiry (input : Fin 8)
  | retardTimerExpiry (input : Fin 8)
  deriving DecidableEq, Repr

end Sys2Proof
end

