-- ==== Sys2Proof/Decode.lean ====
section
/-! DEFINITION. The frames of the request link: the command a transaction's bytes spell (R179, R182, R183), and the bytes of a link command. `decodeTableWord` stands here too: the opcode table gives no row any bits, so no word spells a command. -/

namespace Sys2Proof

/-- Two bytes, most significant first, as a number (R183). -/
def word16 (hi lo : Nat) : Nat := hi * 256 + lo

/-- POST: 4 bytes without detail, 6 with (R182, R183). -/
def parsePost : List Nat → Option Instr
  | [src, z1, z0, c] => some (.post src (word16 z1 z0) c none)
  | [src, z1, z0, c, d1, d0] => some (.post src (word16 z1 z0) c (some (word16 d1 d0)))
  | _ => none

/-- RESTORE: form 0 by handle, form 1 by key; another form has no defined length (R182). -/
def parseRestore : List Nat → Option Instr
  | [src, form, h1, h0] => if form = 0 then some (.restore src (.byHandle (word16 h1 h0))) else none
  | [src, form, z1, z0, c] => if form = 1 then some (.restore src (.byKey (word16 z1 z0) c)) else none
  | _ => none

/-- A body of a source and a handle: WITHDRAW, READ CASE, CLEAR, REARM (R183). -/
def parseHandle (mk : Nat → Nat → Instr) : List Nat → Option Instr
  | [src, h1, h0] => some (mk src (word16 h1 h0))
  | _ => none

/-- A body of one byte, the source (R183). -/
def parse1 (mk : Nat → Instr) : List Nat → Option Instr
  | [src] => some (mk src)
  | _ => none

/-- A body of two one-byte fields (R183). -/
def parse2 (mk : Nat → Nat → Instr) : List Nat → Option Instr
  | [src, a] => some (mk src a)
  | _ => none

/-- A body of three one-byte fields (R183). -/
def parse3 (mk : Nat → Nat → Nat → Instr) : List Nat → Option Instr
  | [src, a, b] => some (mk src a b)
  | _ => none

/-- A body of four one-byte fields (R183). -/
def parse4 (mk : Nat → Nat → Nat → Nat → Instr) : List Nat → Option Instr
  | [src, a, b, c] => some (mk src a b c)
  | _ => none

/-- A body of five one-byte fields (R183). -/
def parse5 (mk : Nat → Nat → Nat → Nat → Nat → Instr) : List Nat → Option Instr
  | [src, a, b, c, d] => some (mk src a b c d)
  | _ => none

/-- A body of six one-byte fields (R183). -/
def parse6 (mk : Nat → Nat → Nat → Nat → Nat → Nat → Instr) : List Nat → Option Instr
  | [src, a, b, c, d, e] => some (mk src a b c d e)
  | _ => none

/-- FIND: source, key source, zone, class (R183). -/
def parseFind : List Nat → Option Instr
  | [src, ks, z1, z0, c] => some (.find src ks (word16 z1 z0) c)
  | _ => none

/-- NEXT CASE: source, start, filter (R183). -/
def parseNextCase : List Nat → Option Instr
  | [src, s1, s0, f] => some (.nextCase src (word16 s1 s0) f)
  | _ => none

/-- WRITE CLASS: source, class, base, age step, age cap, retry base, retry maximum (R183). -/
def parseWriteClass : List Nat → Option Instr
  | [src, c, base, step, cap, b1, b0, m1, m0] =>
    some (.writeClass src c base step cap (word16 b1 b0) (word16 m1 m0))
  | _ => none

/-- WRITE DESTINATION: the body is 8 bytes and as many symbols as its count field says (R182, R183). -/
def parseWriteDestination : List Nat → Option Instr
  | src :: d :: a1 :: a2 :: a3 :: a4 :: pol :: n :: syms =>
    if syms.length = n then some (.writeDestination src d a1 a2 a3 a4 pol syms) else none
  | _ => none

/-- WRITE PLAN: the body is 5 bytes and as many destinations as its list length says (R182, R183). -/
def parseWritePlan : List Nat → Option Instr
  | src :: c :: n :: rest =>
    match rest.drop n with
    | [att, rounds] => some (.writePlan src c (rest.take n) att rounds)
    | _ => none
  | _ => none

/-- WRITE LINE TIMING (R183). -/
def parseWriteLineTiming : List Nat → Option Instr
  | [src, a1, a0, b1, b0, c1, c0, d, e, f1, f0, g, h1, h0] =>
    some (.writeLineTiming src (word16 a1 a0) (word16 b1 b0) (word16 c1 c0) d e (word16 f1 f0) g (word16 h1 h0))
  | _ => none

/-- WRITE INPUT (R183). -/
def parseWriteInput : List Nat → Option Instr
  | [src, i, c, z1, z0, latch, sampling, f1, f0, retard] =>
    some (.writeInput src i c (word16 z1 z0) latch sampling (word16 f1 f0) retard)
  | _ => none

/-- The body of a request of the table of R182 by its code; none where the code names no request or the length is not
the defined one. -/
def parseBody (code : Nat) (b : List Nat) : Option Instr :=
  match code with
  | 0x01 => parsePost b
  | 0x02 => parseRestore b
  | 0x03 => parseHandle .withdraw b
  | 0x04 => parseFind b
  | 0x05 => parseHandle .readCase b
  | 0x06 => parseNextCase b
  | 0x07 => parseHandle .clear b
  | 0x08 => parseHandle .rearm b
  | 0x10 => parse4 .writeAdmission b
  | 0x11 => parse3 .writeCaseLimits b
  | 0x12 => parseWriteClass b
  | 0x13 => parseWriteDestination b
  | 0x14 => parse3 .setDestinationState b
  | 0x15 => parseWritePlan b
  | 0x16 => parse5 .writeLine b
  | 0x17 => parseWriteLineTiming b
  | 0x18 => parse6 .writeExchangeTiming b
  | 0x19 => parseWriteInput b
  | 0x1A => parse3 .setInputState b
  | 0x1B => parse2 .unlatchInput b
  | 0x1C => parse3 .writeTestTimer b
  | 0x1D => parse1 .startTest b
  | 0x20 => parse3 .readConfig b
  | 0x21 => parse2 .readLine b
  | 0x22 => parse2 .readDestination b
  | 0x23 => parse2 .readInput b
  | 0x24 => parse1 .readStatus b
  | 0x25 => parse2 .writeMask b
  | 0x26 => parse1 .readTime b
  | 0x3F => parse1 .softReset b
  | _ => none

/-- The request of a well-formed frame; none for each of the malformed frames of R182. -/
def decodeFrame : List Byte → Option Instr
  | code :: len :: body =>
    if len.toNat ≤ 60 ∧ body.length = len.toNat then parseBody code.toNat (body.map BitVec.toNat) else none
  | _ => none

/-- The command a transaction's bytes spell (R179): none for no byte, a read transaction for a first byte 0x00, and
otherwise a request frame, which is a BAD_REQUEST where R182 finds it malformed. -/
def decodeTransaction : List Byte → Option Instr
  | [] => none
  | first :: rest =>
    if first = 0 then some (.readTransaction rest.length)
    else some ((decodeFrame (first :: rest)).getD (.badRequest (first :: rest)))

/-- A two-byte field, most significant byte first (R183). -/
def be16 (x : Nat) : List Nat := [x / 256, x % 256]

/-- The request code and body of a request (R182, R183); none for the commands that are no request. -/
def encodeRequest : Instr → Option (Nat × List Nat)
  | .post src z c none => some (0x01, src :: be16 z ++ [c])
  | .post src z c (some d) => some (0x01, src :: be16 z ++ c :: be16 d)
  | .restore src (.byHandle h) => some (0x02, src :: 0 :: be16 h)
  | .restore src (.byKey z c) => some (0x02, src :: 1 :: be16 z ++ [c])
  | .withdraw src h => some (0x03, src :: be16 h)
  | .find src ks z c => some (0x04, src :: ks :: be16 z ++ [c])
  | .readCase src h => some (0x05, src :: be16 h)
  | .nextCase src st f => some (0x06, src :: be16 st ++ [f])
  | .clear src h => some (0x07, src :: be16 h)
  | .rearm src h => some (0x08, src :: be16 h)
  | .writeAdmission src ls c e => some (0x10, [src, ls, c, e])
  | .writeCaseLimits src r t => some (0x11, [src, r, t])
  | .writeClass src c base step cap rb rm => some (0x12, [src, c, base, step, cap] ++ be16 rb ++ be16 rm)
  | .writeDestination src d a1 a2 a3 a4 pol syms => some (0x13, [src, d, a1, a2, a3, a4, pol, syms.length] ++ syms)
  | .setDestinationState src d st => some (0x14, [src, d, st])
  | .writePlan src c ds att rounds => some (0x15, [src, c, ds.length] ++ ds ++ [att, rounds])
  | .writeLine src l en fo mo => some (0x16, [src, l, en, fo, mo])
  | .writeLineTiming src a b c d e f g h =>
    some (0x17, src :: be16 a ++ be16 b ++ be16 c ++ [d, e] ++ be16 f ++ [g] ++ be16 h)
  | .writeExchangeTiming src a b c d e => some (0x18, [src, a, b, c, d, e])
  | .writeInput src i c z la sa f r => some (0x19, [src, i, c] ++ be16 z ++ [la, sa] ++ be16 f ++ [r])
  | .setInputState src i st => some (0x1A, [src, i, st])
  | .unlatchInput src i => some (0x1B, [src, i])
  | .writeTestTimer src m p => some (0x1C, [src, m, p])
  | .startTest src => some (0x1D, [src])
  | .readConfig src it ix => some (0x20, [src, it, ix])
  | .readLine src n => some (0x21, [src, n])
  | .readDestination src n => some (0x22, [src, n])
  | .readInput src n => some (0x23, [src, n])
  | .readStatus src => some (0x24, [src])
  | .writeMask src m => some (0x25, [src, m])
  | .readTime src => some (0x26, [src])
  | .softReset src => some (0x3F, [src])
  | _ => none

/-- The bytes of one request frame: code, body length, body (R179). -/
def frameOf (code : Nat) (body : List Nat) : List Byte :=
  BitVec.ofNat 8 code :: BitVec.ofNat 8 body.length :: body.map (BitVec.ofNat 8)

/-- The bytes of the transaction that delivers a link command; none for the commands that come from elsewhere. -/
def encodeTransaction : Instr → Option (List Byte)
  | .badRequest frame => some frame
  | .readTransaction clocked => some (0 :: List.replicate clocked 0)
  | i => (encodeRequest i).map fun p => frameOf p.1 p.2

/-- The host's reading of a table word: the table gives its rows no bits, so no word spells a command. -/
def decodeTableWord (_nbits _w : Nat) : Option Instr := none

end Sys2Proof
end

