-- ==== Sys2Proof/Config.lean ====
section
/-! DEFINITION. The durations and limits the manual fixes, and the free values it leaves open (no body: nothing can be proved of them). Durations are in milliseconds unless the name says otherwise. -/

namespace Sys2Proof.Config

/-- The no-line time: how long a LOW band must hold (R107). -/
def noLineMs : Nat := 10000
/-- How long a MID band must hold (R107). -/
def inUseMs : Nat := 200
/-- How long a HIGH band must hold (R107). -/
def idleMs : Nat := 1000
/-- The recovery timer of FAULT (NO VOLTAGE) (R109). -/
def recoveryMs : Nat := 10000
/-- A loop current below this is no loop (R112). -/
def loopMinMa : Nat := 8
/-- A loop current above this is an overcurrent (R114). -/
def overcurrentMa : Nat := 120
/-- A measured current above this is taken as this (R105). -/
def currentMaxMa : Nat := 150
/-- One tone dial symbol: 100 ms of tone and 100 ms of gap (R132). -/
def toneSymbolMs : Nat := 200
/-- One break of a pulse digit: 60 ms broken and 40 ms made (R133). -/
def breakMs : Nat := 100
/-- The inter-digit time that ends a pulse digit (R133). -/
def interDigitMs : Nat := 700
/-- A pause of a dial string (R134). -/
def pauseMs : Nat := 2000
/-- The adaptive check (R135). -/
def adaptiveCheckMs : Nat := 2000
/-- The number of symbols of a report block (R145). -/
def blockSymbols : Nat := 14

/-- FREE VALUE (log entry 9): the `n`-th draw for the part of a second, 0 or 1 whole seconds after rounding down,
by which a running retard is further on than the Seconds Clock shows. -/
opaque freeRetardSecond : Nat → Bool

end Sys2Proof.Config
end

