-- ==== Sys2Proof/Machine/State.lean ====
section
/-! DEFINITION. The state of the LC48 as plain data: every record, setting, timer and indication the manual names, the queue of waiting commands, and the state right after power-on reset. -/

namespace Sys2Proof.Machine

/-- A timer: none while it does not run, and while it runs the milliseconds it was started for, which a later change of a
setting does not change (R126, R156). -/
abbrev Timer := Option Nat

/-! ### Cases (chapter 1) -/

/-- The five classes, in the manual's order. -/
inductive Cls where
  | fire | waterflow | boiler | trouble | test
  deriving DecidableEq, Repr

/-- The place of a class in the class table and among the call plans. -/
def Cls.idx : Cls → Fin 5
  | .fire => 0
  | .waterflow => 1
  | .boiler => 2
  | .trouble => 3
  | .test => 4

/-- The three report kinds. -/
inductive ReportKind where
  | alarm | restore | test
  deriving DecidableEq, Repr

inductive Mark where
  | verified | flagged
  deriving DecidableEq, Repr

inductive Condition where
  | active | restored
  deriving DecidableEq, Repr

/-- The four delivery states (R9). -/
inductive CaseState where
  | pending | sending | held | stranded
  deriving DecidableEq, Repr

/-- The outcome kinds, with NONE for a record that has none yet. -/
inductive OutcomeKind where
  | none | accepted | busy | noAnswer | noResponse | refused | yielded | abandoned | noDialTone | noLoop
  deriving DecidableEq, Repr

/-- A case's key: source, zone and class (R4). -/
structure Key where
  source : Nat
  zone : Nat
  cls : Cls
  deriving DecidableEq, Repr

/-- A case's position in its class call plan (R6). -/
structure Progress where
  step : Nat
  attempts : Nat
  round : Nat
  deriving DecidableEq, Repr

/-- The case record. The handle is not held twice: it is the slot's generation and number (R1). The head is in flight
exactly while the state is SENDING (R15). -/
structure Case where
  key : Key
  detail : Option Nat
  mark : Mark
  condition : Condition
  state : CaseState
  owed : List ReportKind
  reported : Bool
  chatter : Nat
  posted : Time
  progress : Progress
  failed : Nat
  retry : Time
  last : OutcomeKind
  line : Option (Fin 4)
  deriving DecidableEq, Repr

/-- One of the 48 slots: its generation, kept whether the slot is free or occupied, and the case in it (R1). -/
structure Slot where
  gen : Fin 16
  occ : Option Case
  deriving DecidableEq, Repr

/-- An entry of the admission table (R34). -/
inductive Admission where
  | allow | flag | deny
  deriving DecidableEq, Repr

/-! ### Arbiter, destinations and plans (chapters 3 to 5) -/

/-- The class table entry of a class (R53). -/
structure ClassEntry where
  base : Nat
  ageStep : Nat
  ageCap : Nat
  retryBase : Nat
  retryMax : Nat
  deriving DecidableEq, Repr

/-- A symbol of a dial string (R69). -/
inductive DialSym where
  | digit (d : Fin 10)
  | star
  | hash
  | pause
  deriving DecidableEq, Repr

/-- A subscriber account of four decimal digits (R69). -/
structure Account where
  d1 : Fin 10
  d2 : Fin 10
  d3 : Fin 10
  d4 : Fin 10
  deriving DecidableEq, Repr

inductive DestState where
  | enabled | disabled | refusing
  deriving DecidableEq, Repr

inductive TogglePolicy where
  | carry | perCall
  deriving DecidableEq, Repr

/-- A destination record (section "The Destination Record" of chapter 4). `toggle` is true for toggle 1. -/
structure Destination where
  dial : List DialSym
  account : Account
  state : DestState
  toggle : Bool
  policy : TogglePolicy
  last : OutcomeKind
  callLine : Option (Fin 4)
  deriving DecidableEq, Repr

/-- A call plan (R80). -/
structure Plan where
  dests : List (Fin 8)
  attempts : Nat
  rounds : Nat
  deriving DecidableEq, Repr

/-! ### Lines (chapters 6 to 8) -/

inductive DialMode where
  | auto | tone | pulse
  deriving DecidableEq, Repr

inductive LearnedMode where
  | unknown | tone | pulse
  deriving DecidableEq, Repr

/-- The eleven line states (section 6.2). -/
inductive LineState where
  | off | idle | inUse | fault | awaitPermit | offHook | dialling | awaitHandshake | exchange | linger | guarded
  deriving DecidableEq, Repr

inductive FaultCause where
  | none | noVoltage | noDialTone | noLoop | overcurrent
  deriving DecidableEq, Repr

/-- The voltage bands of on-hook classification (R107). -/
inductive Band where
  | low | mid | high
  deriving DecidableEq, Repr

/-- A line sample: whole volts and whole milliamperes (R105). -/
structure LineSample where
  volts : Nat
  milliamps : Nat
  deriving DecidableEq, Repr

/-- How far the off-hook check of a seizure has come (R112). -/
inductive CheckPhase where
  | notStarted
  | running (ms : Nat)
  | awaitingSample
  | judged
  deriving DecidableEq, Repr

/-- The manner of a dialling (R130). -/
inductive Manner where
  | tone | pulse
  deriving DecidableEq, Repr

/-- The dialling context (R130): `position` is the number, from 1, of the next element to be sent; `learning` holds while the
adaptive check of this dialling has still to decide (R135); `leavesLearned` is the model's mark, for R139, that the dial mode was written
TONE or PULSE while no adaptive check ran (log entry 29). -/
structure Dialling where
  manner : Manner
  position : Nat
  adaptiveCheck : Timer
  learning : Bool
  element : Timer
  leavesLearned : Bool
  deriving DecidableEq, Repr

inductive BlockPhase where
  | sending | awaiting
  deriving DecidableEq, Repr

/-- The block in progress with its phase, repeat count and response wait (R142). -/
structure BlockRun where
  symbols : List Nat
  phase : BlockPhase
  repeats : Nat
  response : Timer
  deriving DecidableEq, Repr

/-- The call context of a line (R106, R142). `lead` is the lead case's handle, `current` the current case's slot. -/
structure Call where
  dest : Fin 8
  lead : Nat
  current : Option (Fin 48)
  carried : Nat
  dialTone : Bool
  reference : Option Nat
  intrusion : Timer
  closePending : Bool
  check : CheckPhase
  sampled : Bool
  settleTimer : Timer
  settled : Bool
  dialToneWait : Timer
  dialling : Option Dialling
  handshake : Timer
  block : Option BlockRun
  linger : Timer
  deriving DecidableEq, Repr

/-- One Line Unit (chapter 6). `failureCause` is the cause of the latest failure counted, which R116 asks for. -/
structure Line where
  enabled : Bool
  forced : Bool
  mode : DialMode
  learned : LearnedMode
  state : LineState
  cause : FaultCause
  failures : Nat
  failureCause : FaultCause
  sample : Option LineSample
  band : Band
  classFilter : Timer
  recovery : Timer
  guardTimer : Timer
  faultHold : Timer
  call : Option Call
  deriving DecidableEq, Repr

/-- The line timings of R126; milliseconds but for the dial-tone wait, guard and fault hold, which are seconds. -/
structure LineTiming where
  stagger : Nat
  check : Nat
  settle : Nat
  dialToneWait : Nat
  guardTime : Nat
  faultHold : Nat
  differential : Nat
  intrusion : Nat
  deriving DecidableEq, Repr

/-- The exchange settings of R156; the waits and the linger in seconds. -/
structure ExchangeTiming where
  handshake : Nat
  response : Nat
  repeatLimit : Nat
  blockLimit : Nat
  linger : Nat
  deriving DecidableEq, Repr

/-- A line in the permit queue with the group it stands in (R110). -/
structure PermitWait where
  line : Fin 4
  fire : Bool
  deriving DecidableEq, Repr

/-- The Seize Permit (R110). -/
structure Permit where
  holder : Option (Fin 4)
  stagger : Timer
  queue : List PermitWait
  deriving DecidableEq, Repr

/-! ### Contact inputs and test timer (chapters 9 and 10) -/

inductive LatchMode where
  | following | latching
  deriving DecidableEq, Repr

inductive Sampling where
  | filtered | fast
  deriving DecidableEq, Repr

inductive Level where
  | normal | active | opened | short
  deriving DecidableEq, Repr

inductive AlarmStage where
  | quiet | retarding | raised | cleared
  deriving DecidableEq, Repr

inductive TroubleStage where
  | quiet | raised | cleared
  deriving DecidableEq, Repr

/-- A running retard timer: the seconds it was started for and the clock at its start (R163, R171). -/
structure RetardRun where
  seconds : Nat
  started : Time
  deriving DecidableEq, Repr

/-- A channel record (R160). `written` is the model's mark, for R172, that WRITE INPUT has written the channel since power-on reset
(log entry 30). -/
structure Channel where
  enabled : Bool
  cls : Cls
  zone : Nat
  latch : LatchMode
  sampling : Sampling
  filterMs : Nat
  retard : Nat
  sample : Option Nat
  accepted : Level
  candidate : Option Level
  levelFilter : Timer
  alarm : AlarmStage
  retardTimer : Option RetardRun
  trouble : TroubleStage
  written : Bool
  deriving DecidableEq, Repr

inductive TestMode where
  | off | single | auto
  deriving DecidableEq, Repr

/-- The Test Timer: mode, period in hours, seconds remaining (R173). -/
structure TestTimer where
  mode : TestMode
  period : Nat
  remaining : Nat
  deriving DecidableEq, Repr

/-! ### Request link (chapter 11) -/

/-- The statuses of R180. -/
inductive Status where
  | ok | created | existing | renewed | adjusted | unchanged
  | noCase | full | denied | notOwner | inFlight | delivered | wrongState | busy | badValue | badRequest | noReply
  deriving DecidableEq, Repr

/-- A reply: its status and body (R180). -/
structure Reply where
  status : Status
  body : List Byte
  deriving DecidableEq, Repr

/-! ### The machine -/

/-- The whole state of the part. `passesDue`, `freeCount`, `serialOut` and `pending` are the model's own: the notices whose
dispatch passes are still to be taken (R90), the draw of the next free value, the bytes that stood on serial data out in the
latest transaction (R179, R180), and the queue of waiting commands. -/
structure State where
  slots : Vector Slot 48
  reserve : Nat
  lowThreshold : Nat
  heldPosts : Vector (Option Key) 21
  admission : Vector (Vector Admission 4) 16
  classes : Vector ClassEntry 5
  fireWaiting : Bool
  passesDue : Nat
  dests : Vector Destination 8
  plans : Vector Plan 5
  lines : Vector Line 4
  timing : LineTiming
  exchange : ExchangeTiming
  permit : Permit
  inputs : Vector Channel 8
  testTimer : TestTimer
  causes : Byte
  mask : Byte
  clock : Time
  reply : Option Reply
  serialOut : List Byte
  freeCount : Nat
  pending : List Instr
  deriving DecidableEq, Repr

/-- Nothing stops the part: every command of the table has its effect or is ignored by a rule, so the machine raises no
fault and this type has no constructor (log entry 17). -/
inductive Fault where
  deriving DecidableEq, Repr

/-- Why the model may refuse a command. -/
inductive Refusal where
  /-- Raised only by an arm of `exec` whose command has no meaning yet; safe: the machine stops where the part goes on. -/
  | notModelled (mnemonic : String)
  deriving DecidableEq, Repr

/-- What one command answers. -/
abbrev Result := Host.Outcome State Fault Refusal

/-! ### Power-on reset -/

/-- The class table defaults (R53), in the manual's class order. -/
def defaultClasses : Vector ClassEntry 5 :=
  #v[⟨180, 8, 31, 2, 20⟩, ⟨160, 8, 40, 5, 60⟩, ⟨100, 15, 60, 10, 240⟩, ⟨80, 30, 60, 30, 600⟩, ⟨20, 60, 40, 60, 900⟩]

/-- A destination after power-on reset (R84). -/
def Destination.atPowerOn : Destination :=
  { dial := [], account := ⟨0, 0, 0, 0⟩, state := .disabled, toggle := false, policy := .carry, last := .none,
    callLine := none }

/-- A plan after power-on reset (R85). -/
def Plan.atPowerOn : Plan := { dests := [], attempts := 2, rounds := 2 }

/-- A line after power-on reset (R128). -/
def Line.atPowerOn : Line :=
  { enabled := true, forced := true, mode := .auto, learned := .unknown, state := .idle, cause := .none, failures := 0,
    failureCause := .none, sample := none, band := .high, classFilter := none, recovery := none, guardTimer := none,
    faultHold := none, call := none }

/-- The default line timings (R126). -/
def LineTiming.default : LineTiming :=
  { stagger := 300, check := 250, settle := 1000, dialToneWait := 3, guardTime := 2, faultHold := 300, differential := 9,
    intrusion := 200 }

/-- The default exchange settings (R156). -/
def ExchangeTiming.default : ExchangeTiming :=
  { handshake := 25, response := 4, repeatLimit := 3, blockLimit := 16, linger := 5 }

/-- A channel after power-on reset (R160, R172). -/
def Channel.atPowerOn : Channel :=
  { enabled := false, cls := .fire, zone := 0, latch := .following, sampling := .filtered, filterMs := 500, retard := 0,
    sample := none, accepted := .normal, candidate := none, levelFilter := none, alarm := .quiet, retardTimer := none,
    trouble := .quiet, written := false }

/-- The part right after power-on reset (R30, R34, R53, R84, R85, R86, R128, R156, R172, R173, R179, R186, R187). The four
entries to IDLE are told to the Arbiter (R128), so four passes are due (log entry 4). -/
def State.reset : State :=
  { slots := Vector.replicate 48 { gen := 0, occ := none }
    reserve := 8
    lowThreshold := 4
    heldPosts := Vector.replicate 21 none
    admission := Vector.replicate 16 (Vector.replicate 4 .allow)
    classes := defaultClasses
    fireWaiting := false
    passesDue := 4
    dests := Vector.replicate 8 Destination.atPowerOn
    plans := Vector.replicate 5 Plan.atPowerOn
    lines := Vector.replicate 4 Line.atPowerOn
    timing := LineTiming.default
    exchange := ExchangeTiming.default
    permit := { holder := none, stagger := none, queue := [] }
    inputs := Vector.replicate 8 Channel.atPowerOn
    testTimer := { mode := .off, period := 24, remaining := 86400 }
    causes := 0
    mask := 0x40
    clock := 0
    reply := none
    serialOut := []
    freeCount := 0
    pending := [] }

end Sys2Proof.Machine
end

