-- ==== Sys2Proof/Machine/Ops.lean ====
section
/-! DEFINITION. Reading and writing one record of the state: slots and cases, destinations, plans, lines and their calls, channels, held posts, the admission table; the notices to the Dispatch Arbiter; and the arithmetic of the Seconds Clock. -/

namespace Sys2Proof.Machine

/-! ### Records -/

def State.slot (s : State) (k : Fin 48) : Slot := s.slots[k]

def State.setSlot (s : State) (k : Fin 48) (x : Slot) : State := { s with slots := s.slots.set k x }

/-- The case in slot `k`, if the slot is occupied. -/
def State.caseAt (s : State) (k : Fin 48) : Option Case := (s.slot k).occ

/-- Slot `k` holds case `c`; its generation is kept (R1). -/
def State.setCase (s : State) (k : Fin 48) (c : Case) : State := s.setSlot k { s.slot k with occ := some c }

def State.dest (s : State) (d : Fin 8) : Destination := s.dests[d]

def State.setDest (s : State) (d : Fin 8) (x : Destination) : State := { s with dests := s.dests.set d x }

def State.updDest (s : State) (d : Fin 8) (f : Destination → Destination) : State := s.setDest d (f (s.dest d))

def State.plan (s : State) (c : Cls) : Plan := s.plans[c.idx]

def State.setPlan (s : State) (c : Cls) (p : Plan) : State := { s with plans := s.plans.set c.idx p }

def State.classEntry (s : State) (c : Cls) : ClassEntry := s.classes[c.idx]

def State.setClassEntry (s : State) (c : Cls) (e : ClassEntry) : State := { s with classes := s.classes.set c.idx e }

def State.line (s : State) (n : Fin 4) : Line := s.lines[n]

def State.setLine (s : State) (n : Fin 4) (l : Line) : State := { s with lines := s.lines.set n l }

def State.updLine (s : State) (n : Fin 4) (f : Line → Line) : State := s.setLine n (f (s.line n))

/-- The call context of line `n` while a call is open (R106). -/
def State.call (s : State) (n : Fin 4) : Option Call := (s.line n).call

/-- Change the call context of line `n`, if a call is open. -/
def State.updCall (s : State) (n : Fin 4) (f : Call → Call) : State :=
  s.updLine n fun l => { l with call := l.call.map f }

def State.input (s : State) (i : Fin 8) : Channel := s.inputs[i]

def State.setInput (s : State) (i : Fin 8) (c : Channel) : State := { s with inputs := s.inputs.set i c }

def State.updInput (s : State) (i : Fin 8) (f : Channel → Channel) : State := s.setInput i (f (s.input i))

def State.heldAt (s : State) (p : Fin 21) : Option Key := s.heldPosts[p]

def State.setHeld (s : State) (p : Fin 21) (k : Option Key) : State := { s with heldPosts := s.heldPosts.set p k }

def State.admissionOf (s : State) (src : Fin 16) (c : Fin 4) : Admission := s.admission[src][c]

def State.setAdmission (s : State) (src : Fin 16) (c : Fin 4) (a : Admission) : State :=
  { s with admission := s.admission.set src (s.admission[src].set c a) }

/-! ### Handles and keys -/

/-- The handle of the case in slot `k`: the slot's generation times 64 plus the slot number (R1). -/
def State.handleOf (s : State) (k : Fin 48) : Nat := (s.slot k).gen.val * 64 + k.val

/-- The slot of the case a handle names: the slot part is a slot, the slot is occupied, and its generation is the
handle's (R1). -/
def State.caseOfHandle (s : State) (h : Nat) : Option (Fin 48) :=
  if hk : h % 64 < 48 then
    let k : Fin 48 := ⟨h % 64, hk⟩
    if (s.caseAt k).isSome ∧ (s.slot k).gen.val = h / 64 then some k else none
  else none

/-- The slot of the case that holds a key, if one does (R3, R44). -/
def State.caseOfKey (s : State) (key : Key) : Option (Fin 48) :=
  (List.finRange 48).find? fun k => ((s.caseAt k).map Case.key) = some key

/-- The cases held. -/
def State.cases (s : State) : List Case := s.slots.toList.filterMap Slot.occ

/-- The lowest-numbered free slot (R3). -/
def State.lowestFree (s : State) : Option (Fin 48) :=
  (List.finRange 48).find? fun k => (s.caseAt k).isNone

/-! ### Plans -/

/-- The current destination of a case: the entry of its class plan at its step (R80). A case whose plan is empty has
none (R67). -/
def State.currentDest (s : State) (c : Case) : Option (Fin 8) := (s.plan c.key.cls).dests[c.progress.step]?

/-- A destination is usable when it is ENABLED (R70). -/
def State.usable (s : State) (d : Fin 8) : Bool := (s.dest d).state = .enabled

/-! ### Notices to the Dispatch Arbiter (R90) -/

/-- A notice that starts one dispatch pass. -/
def State.notify (s : State) : State := { s with passesDue := s.passesDue + 1 }

/-- A notice of the last group of R90, given only while the fire-waiting indication is true. -/
def State.notifyWhileFire (s : State) : State := if s.fireWaiting then s.notify else s

/-! ### The Seconds Clock (R186) -/

/-- The age of a time on the clock: now less that time, following the wrap. -/
def State.since (s : State) (t : Time) : Nat := (s.clock - t).toNat

/-- A retry time is at or before now when now less it, following the wrap, is below 2147483648 (R186). -/
def State.reached (s : State) (t : Time) : Bool := s.since t < 2147483648

/-- The time of application plus a delay in seconds, following the wrap (R186). -/
def State.after (s : State) (seconds : Nat) : Time := s.clock + BitVec.ofNat 32 seconds

/-- The first line, by number, of which a property holds. -/
def firstLine (p : Fin 4 → Bool) : Option (Fin 4) := (List.finRange 4).find? p

end Sys2Proof.Machine
end

