-- ==== Sys2Proof/Machine/Flags.lean ====
section
/-! DEFINITION. The Attention Unit's sticky causes, and the outputs of the part computed from the state: ATTENTION, REPLY READY, and each line's hook relay, break drive and symbol drive. -/

namespace Sys2Proof.Machine

/-- The eight sticky causes (R187). -/
inductive Cause where
  | caseStranded | destinationRefused | lineFault | inputTrouble | tableLow | postHeld | delivered | linkOverrun
  deriving DecidableEq, Repr

/-- The byte with a cause's bit alone (R187). -/
def Cause.bit : Cause → Byte
  | .caseStranded => 0x01
  | .destinationRefused => 0x02
  | .lineFault => 0x04
  | .inputTrouble => 0x08
  | .tableLow => 0x10
  | .postHeld => 0x20
  | .delivered => 0x40
  | .linkOverrun => 0x80

/-- Raise a cause; raising one that is set leaves it set (R187). -/
def State.raise (s : State) (c : Cause) : State := { s with causes := s.causes ||| c.bit }

/-- A cause is set. -/
def State.isSet (s : State) (c : Cause) : Bool := s.causes &&& c.bit ≠ 0

/-- The ATTENTION output: asserted while at least one cause is set whose mask entry is not masked (R187). -/
def State.attention (s : State) : Bool := s.causes &&& ~~~s.mask ≠ 0

/-- The REPLY READY output: asserted while a reply is waiting (R179). -/
def State.replyReady (s : State) : Bool := s.reply.isSome

/-- The states in which a line is off-hook (R105). -/
def LineState.offHookState : LineState → Bool
  | .offHook | .dialling | .awaitHandshake | .exchange | .linger => true
  | .off | .idle | .inUse | .fault | .awaitPermit | .guarded => false

/-- The states in which a call is open (section 6.2). -/
def LineState.inCall : LineState → Bool
  | .awaitPermit | .offHook | .dialling | .awaitHandshake | .exchange | .linger => true
  | .off | .idle | .inUse | .fault | .guarded => false

/-- The hook relay of a line: true while it holds the line off-hook (R105). -/
def State.hookDrive (s : State) (n : Fin 4) : Bool := (s.line n).state.offHookState

/-- What a line sends on its symbol drive: one dial symbol, or the symbols of a block (R132, R147). -/
inductive Drive where
  | silent
  | dial (sym : DialSym)
  | block (symbols : List Nat)
  deriving DecidableEq, Repr

/-- The element of the dial string a line in DIALLING is sending at present (R130): the one before the position, while the
element timer runs. -/
def State.elementInProgress (s : State) (n : Fin 4) : Option DialSym :=
  match (s.line n).state, s.call n with
  | .dialling, some c =>
    match c.dialling with
    | some g => if g.element.isSome then (s.dest c.dest).dial[g.position - 2]? else none
    | none => none
  | _, _ => none

/-- The manner of the dialling in progress on a line, if any (R130). -/
def State.manner (s : State) (n : Fin 4) : Option Manner := ((s.call n).bind Call.dialling).map Dialling.manner

/-- The symbol drive of a line: a tone dial symbol (R132), the block in phase SENDING (R147), or nothing (R134, R147). -/
def State.symbolDrive (s : State) (n : Fin 4) : Drive :=
  match (s.line n).state with
  | .dialling =>
    match s.manner n, s.elementInProgress n with
    | some .tone, some .pause => .silent
    | some .tone, some sym => .dial sym
    | _, _ => .silent
  | .exchange =>
    match (s.call n).bind Call.block with
    | some b => if b.phase = .sending then .block b.symbols else .silent
    | none => .silent
  | _ => .silent

/-- How many breaks a pulse digit is sent as: its value, and 10 for the digit 0 (R133). -/
def breaksOf (d : Fin 10) : Nat := if d.val = 0 then 10 else d.val

/-- The break drive of a line: the number of breaks of the pulse digit being sent, 0 when none is (R133). -/
def State.breakDrive (s : State) (n : Fin 4) : Nat :=
  match s.manner n, s.elementInProgress n with
  | some .pulse, some (.digit d) => breaksOf d
  | _, _ => 0

end Sys2Proof.Machine
end

