-- ==== Sys2Proof/Machine/Escalation.lean ====
section
/-! DEFINITION. Retry spacing and escalation (chapter 3), and the plan rule of R10: where a case that is left PENDING, or whose attempts are used up, comes to rest or strands. -/

namespace Sys2Proof.Machine

/-- A case of class FIRE. -/
def Case.isFire (c : Case) : Bool := c.key.cls = .fire

/-- A FIRE case whose head report is an ALARM (R57). -/
def Case.isFireAlarm (c : Case) : Bool := c.isFire && c.owed.head? = some .alarm

/-- The start of a plan: progress (0,0,0). -/
def Progress.zero : Progress := ⟨0, 0, 0⟩

/-! ### Spacing -/

/-- The delay after the `k`-th charged failure: the retry base times 2 to the lesser of k - 1 and 12, limited to the retry
maximum (R60). -/
def ClassEntry.spacing (e : ClassEntry) (k : Nat) : Nat := min (e.retryBase * 2 ^ min (k - 1) 12) e.retryMax

/-! ### The advance along a plan (R65) -/

/-- Where an advance ends: at rest at a destination, or stranded. -/
inductive AdvanceEnd where
  | rest (d : Fin 8) (p : Progress)
  | strand (p : Progress)
  deriving DecidableEq, Repr

/-- The moves of an advance from a step and round, at most `moves` of them. Each move adds one to the step, wrapping at the
plan's length into the next round; the arrival strands when the rounds are used up, rests when its destination is usable,
strands when it is the last of the sweep, and is passed over otherwise (R65). -/
def Plan.sweep (p : Plan) (usable : Fin 8 → Bool) : Nat → Nat → Nat → AdvanceEnd
  | 0, step, round => .strand ⟨step, 0, round⟩
  | moves + 1, step, round =>
    let wraps := p.dests.length ≤ step + 1
    let step' := if wraps then 0 else step + 1
    let round' := if wraps then round + 1 else round
    if p.rounds ≤ round' then .strand ⟨0, 0, p.rounds - 1⟩
    else
      match p.dests[step']? with
      | some d => if usable d then .rest d ⟨step', 0, round'⟩ else p.sweep usable moves step' round'
      | none => .strand ⟨step', 0, round'⟩

/-- A case strands: its state and progress change, CASE STRANDED is raised (R66), and the Arbiter is told of a FIRE case
while fire waits (R90). -/
def State.strand (s : State) (k : Fin 48) (c : Case) (p : Progress) : State :=
  let t := (s.setCase k { c with state := .stranded, progress := p }).raise .caseStranded
  if c.isFire then t.notifyWhileFire else t

/-- Advance the case in slot `k` (R65). `charged` is the destination of a charged failure just applied, where there is one:
resting there again sets the retry time to now plus the spacing, and resting anywhere else to now (R61). The Arbiter is told
of a case that comes to rest. A case whose plan is empty is never advanced (R67). -/
def State.advance (s : State) (k : Fin 48) (charged : Option (Fin 8)) : State :=
  match s.caseAt k with
  | none => s
  | some c =>
    let p := s.plan c.key.cls
    if p.dests = [] then s
    else
      match p.sweep s.usable p.dests.length c.progress.step c.progress.round with
      | .rest d q =>
        let retry := if charged = some d then s.after ((s.classEntry c.key.cls).spacing c.failed) else s.clock
        (s.setCase k { c with state := .pending, progress := q, retry := retry }).notify
      | .strand q => s.strand k c q

/-- The plan rule for a case just left PENDING (R10): it stays where its current destination is usable, and the Arbiter is
told; it is advanced where that destination is DISABLED or REFUSING; and it waits where its plan is empty (R67). The Arbiter is
told of a case that may be eligible, so of one that strands here it is not (but as `State.strand` says), which R37, R41 and R90 do
not settle (DESIGN CHOICE, log entry 32). -/
def State.settle (s : State) (k : Fin 48) : State :=
  match s.caseAt k with
  | none => s
  | some c =>
    match s.currentDest c with
    | none => s.notify
    | some d => if s.usable d then s.notify else s.advance k none

/-- The case in slot `k` is PENDING at destination `d` (R63, R98). -/
def State.pendingAt (s : State) (d : Fin 8) (k : Fin 48) : Bool :=
  match s.caseAt k with
  | some c => decide (c.state = .pending) && decide (s.currentDest c = some d)
  | none => false

/-- Every PENDING case whose current destination is `d` is advanced (R63, R76, R78). -/
def State.advanceWaiting (s : State) (d : Fin 8) : State :=
  (List.finRange 48).foldl (fun t k => if t.pendingAt d k then t.advance k none else t) s

end Sys2Proof.Machine
end

