-- ==== Sys2Proof/Machine/CaseTable.lean ====
section
/-! DEFINITION. The Case Table (chapter 1): what a post, a restore and a line's outcome do to a case, admission and capacity, retirement, the internal posting path and the held posts. -/

namespace Sys2Proof.Machine

/-! ### What posts and restores do to one case -/

/-- The tail RESTORE of a RESTORED case is in flight: the case is SENDING and the RESTORE is its whole list (R13). -/
def Case.tailInFlight (c : Case) : Bool := decide (c.state = .sending) && decide (c.owed.length ≤ 1)

/-- A post for an existing case (R5, R13, R14): the detail it carries replaces the one held; a RESTORED non-TEST case becomes
ACTIVE, its tail RESTORE folded away, or followed by an ALARM where it is in flight. R13's table is followed where R29 says that a
post and another outcome than an acceptance agree in either order, and where R51 says it of a post and REARM (log entries 25, 26). -/
def Case.reposted (c : Case) (detail : Option Nat) : Case :=
  let c := { c with detail := detail.or c.detail }
  if c.key.cls = .test ∨ c.condition = .active then c
  else if c.tailInFlight then { c with owed := c.owed ++ [.alarm], condition := .active }
  else
    let rest := c.owed.dropLast
    if rest = [] then
      { c with owed := [], condition := .active, state := .held, progress := .zero, failed := 0 }
    else
      { c with owed := rest, condition := .active,
               chatter := if rest.contains .alarm then min 9 (c.chatter + 1) else c.chatter }

/-- A post finds the case as it wants it: the reply is EXISTING and not RENEWED (R14, R38). -/
def Case.stays (c : Case) : Bool := decide (c.key.cls = .test) || decide (c.condition = .active)

/-- A restore of an existing case (R12): RESTORE joins the tail of an ACTIVE non-TEST case, and a HELD one becomes PENDING
at the start of its plan. -/
def Case.restored (c : Case) (now : Time) : Case :=
  if c.key.cls = .test ∨ c.condition = .restored then c
  else
    let d := { c with owed := c.owed ++ [.restore], condition := .restored }
    if c.state = .held then { d with state := .pending, progress := .zero, retry := now } else d

/-- ACCEPTED removes the head; an accepted ALARM sets reported and zeroes chatter; failed total, progress and retry time
start again (R26). -/
def Case.acceptedBy (c : Case) (now : Time) : Case :=
  let d := { c with owed := c.owed.tail, failed := 0, progress := .zero, retry := now,
                    state := if c.owed.tail = [] then .held else .pending }
  if c.owed.head? = some .alarm then { d with reported := true, chatter := 0 } else d

/-- A post is applied to the case in slot `k` (R13, R14). -/
def State.postCase (s : State) (k : Fin 48) (detail : Option Nat) : State :=
  match s.caseAt k with
  | none => s
  | some c => s.setCase k (c.reposted detail)

/-- A restore is applied to the case in slot `k` (R12); a HELD case that becomes PENDING passes under the plan rule. -/
def State.restoreCase (s : State) (k : Fin 48) : State :=
  match s.caseAt k with
  | none => s
  | some c =>
    let t := s.setCase k (c.restored s.clock)
    if c.state = .held ∧ (c.restored s.clock).state = .pending then t.settle k else t

/-! ### Capacity and creation -/

/-- The number of FIRE cases held (R17). -/
def State.fireCount (s : State) : Nat := s.cases.countP Case.isFire

/-- The number of non-FIRE cases held (R17). -/
def State.otherCount (s : State) : Nat := s.cases.countP fun c => !c.isFire

/-- The capacity test of R17. -/
def State.hasRoom (s : State) (c : Cls) : Bool :=
  decide (s.fireCount + s.otherCount < 48) && (decide (c = .fire) || decide (s.otherCount < 48 - s.reserve))

/-- The free non-FIRE capacity of R18. -/
def State.freeCapacity (s : State) : Nat := 48 - s.reserve - s.otherCount

/-- The record of a case at creation (R3). -/
def Case.new (key : Key) (detail : Option Nat) (mark : Mark) (now : Time) : Case :=
  { key := key, detail := detail, mark := mark
    condition := if key.cls = .test then .restored else .active
    state := .pending
    owed := if key.cls = .test then [.test] else [.alarm]
    reported := false, chatter := 0, posted := now, progress := .zero, failed := 0, retry := now, last := .none,
    line := none }

/-- TABLE LOW is raised after an admission of a non-FIRE case that leaves the free non-FIRE capacity at or below the
threshold (R18). -/
def State.noteAdmission (s : State) (c : Cls) : State :=
  if c ≠ .fire ∧ s.freeCapacity ≤ s.lowThreshold then s.raise .tableLow else s

/-- A case is created in slot `k` (R3), TABLE LOW noted (R18), and the plan rule applied (R10). -/
def State.createAt (s : State) (k : Fin 48) (key : Key) (detail : Option Nat) (mark : Mark) : State :=
  ((s.setCase k (Case.new key detail mark s.clock)).noteAdmission key.cls).settle k

/-- Admit a post for a key no case holds: where the capacity test passes, a case is created in the lowest free slot and
the slot is given; otherwise nothing (R3, R17). -/
def State.acceptPost (s : State) (key : Key) (detail : Option Nat) (mark : Mark) : Option (Fin 48 × State) :=
  if s.hasRoom key.cls ∧ s.caseOfKey key = none then
    s.lowestFree.map fun k => (k, s.createAt k key detail mark)
  else none

/-! ### Held posts (R22 to R24) -/

/-- The posters, in the order in which freed space is offered: one for each held-post position. -/
inductive Poster where
  | inputAlarm (i : Fin 8)
  | inputTrouble (i : Fin 8)
  | line (n : Fin 4)
  | test
  deriving DecidableEq, Repr

/-- The held-post position of a poster, numbered in the offer order of R23. -/
def Poster.position : Poster → Fin 21
  | .inputAlarm i => ⟨2 * i.val, by omega⟩
  | .inputTrouble i => ⟨2 * i.val + 1, by omega⟩
  | .line n => ⟨16 + n.val, by omega⟩
  | .test => 20

/-- The posters in the order of R23. -/
def Poster.order : List Poster :=
  (List.finRange 8).flatMap (fun i => [.inputAlarm i, .inputTrouble i]) ++ (List.finRange 4).map .line ++ [.test]

/-- The poster's condition is present (R24, R165, R167, R117). The test post has none to ask for. -/
def State.conditionPresent (s : State) : Poster → Bool
  | .inputAlarm i => (s.input i).alarm = .raised
  | .inputTrouble i => (s.input i).accepted = .opened ∨ (s.input i).accepted = .short
  | .line n => (s.line n).state = .fault
  | .test => true

/-- The held post of one position is offered free space: it is admitted where its capacity test passes, and restored at once
where its poster's condition is no longer present (R23, R24). -/
def State.offerHeld (s : State) (p : Poster) : State :=
  match s.heldAt p.position with
  | none => s
  | some key =>
    match s.acceptPost key none .verified with
    | none => s
    | some (k, t) =>
      let t := t.setHeld p.position none
      if t.conditionPresent p then t else t.restoreCase k

/-- Freed space is offered to every held post, in order (R23). -/
def State.offerSpace (s : State) : State := Poster.order.foldl State.offerHeld s

/-! ### Retirement -/

/-- The case in slot `k` is discarded, the slot freed and its generation advanced (R2, R16); the Arbiter is told of a FIRE
case while fire waits (R90). -/
def State.vacate (s : State) (k : Fin 48) : State :=
  match s.caseAt k with
  | none => s
  | some c =>
    let t := s.setSlot k { gen := (s.slot k).gen + 1, occ := none }
    if c.isFire then t.notifyWhileFire else t

/-- A case is retired and its space offered to the held posts (R16). -/
def State.retire (s : State) (k : Fin 48) : State := (s.vacate k).offerSpace

/-! ### The internal posting path (R20, R21) -/

/-- What an internal post came to (R20, R176). -/
inductive PostResult where
  | created (k : Fin 48)
  | applied (k : Fin 48)
  | held
  deriving DecidableEq, Repr

/-- A held post is recorded in the poster's position and POST HELD raised (R20). A held post under an older key stands until it is
admitted (R22, R48), and its position holds no other: the post under the new key is then not recorded, and POST HELD is raised all the
same (log entry 6). -/
def State.recordHeld (s : State) (p : Poster) (key : Key) : State :=
  match s.heldAt p.position with
  | none => (s.setHeld p.position (some key)).raise .postHeld
  | some _ => s.raise .postHeld

/-- An internal post (R20). -/
def State.internalPost (s : State) (p : Poster) (key : Key) : PostResult × State :=
  match s.caseOfKey key with
  | some k => (.applied k, s.postCase k none)
  | none =>
    if s.heldAt p.position = some key then (.held, s)
    else
      match s.acceptPost key none .verified with
      | some (k, t) => (.created k, t)
      | none => (.held, s.recordHeld p key)

/-- An internal restore (R21): it acts on the case that holds the key, and on nothing else. -/
def State.internalRestore (s : State) (key : Key) : State :=
  match s.caseOfKey key with
  | some k => s.restoreCase k
  | none => s

/-- The alarm key of input `i` as its record stands (R160). -/
def State.alarmKey (s : State) (i : Fin 8) : Key := ⟨16 + i.val, (s.input i).zone, (s.input i).cls⟩

/-- The trouble key of input `i` as its record stands (R160). -/
def State.troubleKey (s : State) (i : Fin 8) : Key := ⟨16 + i.val, (s.input i).zone, .trouble⟩

/-- The trouble key of line `n` (R178). -/
def lineKey (n : Fin 4) : Key := ⟨24, 901 + n.val, .trouble⟩

/-- The key of the TEST case (R177). -/
def testKey : Key := ⟨24, 0, .test⟩

/-! ### Outcomes (R25 to R28) -/

/-- The charged outcomes (R27). -/
def OutcomeKind.charged : OutcomeKind → Bool
  | .busy | .noAnswer | .noResponse => true
  | .none | .accepted | .refused | .yielded | .abandoned | .noDialTone | .noLoop => false

/-- An outcome treated as uncharged: the case is PENDING with retry time now, its progress and failed total kept (R28). -/
def State.uncharged (s : State) (k : Fin 48) (c : Case) : State :=
  (s.setCase k { c with state := .pending, retry := s.clock }).settle k

/-- A charged failure at the case's current destination `d` (R27, R60, R64). -/
def State.charge (s : State) (k : Fin 48) (c : Case) (d : Fin 8) : State :=
  let c := { c with state := .pending, failed := min 255 (c.failed + 1)
                    progress := { c.progress with attempts := c.progress.attempts + 1 } }
  if c.progress.attempts < (s.plan c.key.cls).attempts then
    (s.setCase k { c with retry := s.after ((s.classEntry c.key.cls).spacing c.failed) }).settle k
  else (s.setCase k c).advance k (some d)

/-- An acceptance (R26): the case is retired, HELD, or PENDING under the plan rule, by the list that remains. -/
def State.acceptCase (s : State) (k : Fin 48) (c : Case) : State :=
  let a := c.acceptedBy s.clock
  if a.owed = [] then
    if a.condition = .restored then s.retire k else s.setCase k a
  else (s.setCase k a).settle k

/-- The Case Table applies an outcome of a call to destination `d` to the case in slot `k`, which is SENDING (R25). -/
def State.applyOutcome (s : State) (k : Fin 48) (kind : OutcomeKind) (d : Fin 8) : State :=
  match s.caseAt k with
  | none => s
  | some c =>
    if c.state = .sending then
      let c := { c with last := kind, line := none }
      if kind = .accepted then s.acceptCase k c
      else if s.currentDest c = some d then
        if kind.charged then s.charge k c d
        else if kind = .refused then (s.setCase k { c with state := .pending }).advance k none
        else s.uncharged k c
      else s.uncharged k c
    else s

end Sys2Proof.Machine
end

