-- ==== Sys2Proof/Machine/Operands.lean ====
section
/-! DEFINITION. The coding of values in request and reply frames (R180, R183): codes to values for the operands of requests, values to codes for the bodies of replies. A code that names no value gives none. -/

namespace Sys2Proof.Machine

/-- A class from its class symbol, 1 to 5 (R183). -/
def clsOfCode : Nat → Option Cls
  | 1 => some .fire
  | 2 => some .waterflow
  | 3 => some .boiler
  | 4 => some .trouble
  | 5 => some .test
  | _ => none

def Cls.code : Cls → Nat
  | .fire => 1
  | .waterflow => 2
  | .boiler => 3
  | .trouble => 4
  | .test => 5

/-- The place of a postable class, FIRE to TROUBLE, in the admission table (R34); none for TEST. -/
def Cls.postable : Cls → Option (Fin 4)
  | .fire => some 0
  | .waterflow => some 1
  | .boiler => some 2
  | .trouble => some 3
  | .test => none

/-- A class a link source may post: its class and its place in the admission table (R36). -/
def postableOfCode (code : Nat) : Option (Cls × Fin 4) :=
  match clsOfCode code with
  | some c => c.postable.map fun p => (c, p)
  | none => none

/-- A class of a contact input: FIRE, WATERFLOW or BOILER (R169). -/
def inputClsOfCode (code : Nat) : Option Cls :=
  match clsOfCode code with
  | some .fire => some .fire
  | some .waterflow => some .waterflow
  | some .boiler => some .boiler
  | _ => none

def ReportKind.code : ReportKind → Nat
  | .alarm => 1
  | .restore => 2
  | .test => 3

def CaseState.code : CaseState → Nat
  | .pending => 0
  | .sending => 1
  | .held => 2
  | .stranded => 3

/-- The NEXT CASE filter: 5 for ANY, which is `some none`, and the state codes for the states (R46, R183). -/
def filterOfCode : Nat → Option (Option CaseState)
  | 0 => some (some .pending)
  | 1 => some (some .sending)
  | 2 => some (some .held)
  | 3 => some (some .stranded)
  | 5 => some none
  | _ => none

def OutcomeKind.code : OutcomeKind → Nat
  | .none => 0
  | .accepted => 1
  | .busy => 2
  | .noAnswer => 3
  | .noResponse => 4
  | .refused => 5
  | .yielded => 6
  | .abandoned => 7
  | .noDialTone => 8
  | .noLoop => 9

def admissionOfCode : Nat → Option Admission
  | 0 => some .allow
  | 1 => some .flag
  | 2 => some .deny
  | _ => none

def Admission.code : Admission → Nat
  | .allow => 0
  | .flag => 1
  | .deny => 2

/-- A dial symbol: 0 to 9 for the digits, 10 star, 11 hash, 12 pause (R183). -/
def dialSymOfCode (x : Nat) : Option DialSym :=
  if h : x < 10 then some (.digit ⟨x, h⟩)
  else if x = 10 then some .star
  else if x = 11 then some .hash
  else if x = 12 then some .pause
  else none

def DialSym.code : DialSym → Nat
  | .digit d => d.val
  | .star => 10
  | .hash => 11
  | .pause => 12

/-- A dial string of 1 to 24 symbols, at least one of them no pause (R69, R74). -/
def dialStringOfCodes (xs : List Nat) : Option (List DialSym) :=
  if 1 ≤ xs.length ∧ xs.length ≤ 24 then
    match xs.mapM dialSymOfCode with
    | some ds => if ds.all (· = .pause) then none else some ds
    | none => none
  else none

def digitOfCode (x : Nat) : Option (Fin 10) := if h : x < 10 then some ⟨x, h⟩ else none

/-- An account of four digits, most significant first (R74, R183). -/
def accountOfCodes (a b c d : Nat) : Option Account :=
  match digitOfCode a, digitOfCode b, digitOfCode c, digitOfCode d with
  | some a, some b, some c, some d => some ⟨a, b, c, d⟩
  | _, _, _, _ => none

def Account.digits (a : Account) : List Nat := [a.d1.val, a.d2.val, a.d3.val, a.d4.val]

/-- A two-valued setting: 0 for the first value named in its rule and 1 for the second (R183). -/
def firstOfTwo : Nat → Option Bool
  | 0 => some true
  | 1 => some false
  | _ => none

def codeOfFirst (b : Bool) : Nat := if b then 0 else 1

def policyOfCode (x : Nat) : Option TogglePolicy := (firstOfTwo x).map fun b => if b then .carry else .perCall

def TogglePolicy.code : TogglePolicy → Nat
  | .carry => 0
  | .perCall => 1

def latchOfCode (x : Nat) : Option LatchMode := (firstOfTwo x).map fun b => if b then .following else .latching

def LatchMode.code : LatchMode → Nat
  | .following => 0
  | .latching => 1

def samplingOfCode (x : Nat) : Option Sampling := (firstOfTwo x).map fun b => if b then .filtered else .fast

def Sampling.code : Sampling → Nat
  | .filtered => 0
  | .fast => 1

def DestState.code : DestState → Nat
  | .enabled => 0
  | .disabled => 1
  | .refusing => 2

def LineState.code : LineState → Nat
  | .off => 0
  | .idle => 1
  | .inUse => 2
  | .fault => 3
  | .awaitPermit => 4
  | .offHook => 5
  | .dialling => 6
  | .awaitHandshake => 7
  | .exchange => 8
  | .linger => 9
  | .guarded => 10

def FaultCause.code : FaultCause → Nat
  | .none => 0
  | .noVoltage => 1
  | .noDialTone => 2
  | .noLoop => 3
  | .overcurrent => 4

def Level.code : Level → Nat
  | .normal => 0
  | .active => 1
  | .opened => 2
  | .short => 3

def AlarmStage.code : AlarmStage → Nat
  | .quiet => 0
  | .retarding => 1
  | .raised => 2
  | .cleared => 3

def TroubleStage.code : TroubleStage → Nat
  | .quiet => 0
  | .raised => 1
  | .cleared => 2

def dialModeOfCode : Nat → Option DialMode
  | 0 => some .auto
  | 1 => some .tone
  | 2 => some .pulse
  | _ => none

def DialMode.code : DialMode → Nat
  | .auto => 0
  | .tone => 1
  | .pulse => 2

def LearnedMode.code : LearnedMode → Nat
  | .unknown => 0
  | .tone => 1
  | .pulse => 2

def testModeOfCode : Nat → Option TestMode
  | 0 => some .off
  | 1 => some .single
  | 2 => some .auto
  | _ => none

def TestMode.code : TestMode → Nat
  | .off => 0
  | .single => 1
  | .auto => 2

/-- The status codes of R180. -/
def Status.code : Status → Nat
  | .ok => 0x00
  | .created => 0x01
  | .existing => 0x02
  | .renewed => 0x03
  | .adjusted => 0x04
  | .unchanged => 0x05
  | .noCase => 0x10
  | .full => 0x11
  | .denied => 0x12
  | .notOwner => 0x13
  | .inFlight => 0x14
  | .delivered => 0x15
  | .wrongState => 0x16
  | .busy => 0x17
  | .badValue => 0x18
  | .badRequest => 0x19
  | .noReply => 0x1A

/-- A number as the index of one of `n` records, where it is one. -/
def indexOf (n x : Nat) : Option (Fin n) := if h : x < n then some ⟨x, h⟩ else none

/-- The nearest value of a permitted range (section 3.6 of the introduction). -/
def clamp (lo hi x : Nat) : Nat := min hi (max lo x)

/-! ### Reply fields -/

def byteOf (x : Nat) : Byte := BitVec.ofNat 8 x

/-- A one-byte field. -/
def field1 (x : Nat) : List Byte := [byteOf x]

/-- A two-byte field, most significant byte first (R183). -/
def field2 (x : Nat) : List Byte := [byteOf (x / 256), byteOf x]

/-- A four-byte field, most significant byte first: a time on the clock or a count of seconds (R183). -/
def field4 (x : Nat) : List Byte := [byteOf (x / 16777216), byteOf (x / 65536), byteOf (x / 256), byteOf x]

/-- A field that may be absent: a byte of 1 and the field when present, 0 and zeros of the field's width when absent
(R183). -/
def fieldOpt (width : Nat) : Option (List Byte) → List Byte
  | some bytes => byteOf 1 :: bytes
  | none => byteOf 0 :: List.replicate width 0

/-- A key in a reply: source, zone, class (R185 item 8). -/
def fieldKey (k : Key) : List Byte := field1 k.source ++ field2 k.zone ++ field1 k.cls.code

end Sys2Proof.Machine
end

