-- ==== Sys2Proof/Machine/Report.lean ====
section
/-! DEFINITION. The report block (R145, R146): fourteen symbol values composed from a case's head report and the call's destination. -/

namespace Sys2Proof.Machine

/-- The qualifier: 1 for an ALARM of a VERIFIED case, 7 of a FLAGGED one, 3 for a RESTORE, 6 for a TEST (R145). -/
def qualifier (kind : ReportKind) (mark : Mark) : Nat :=
  match kind with
  | .alarm => if mark = .flagged then 7 else 1
  | .restore => 3
  | .test => 6

/-- Positions 1 to 13 of a block (R145). -/
def blockBody (c : Case) (kind : ReportKind) (d : Destination) : List Nat :=
  d.account.digits ++
    [qualifier kind c.mark, c.key.cls.code,
     c.key.zone / 100 % 10, c.key.zone / 10 % 10, c.key.zone % 10,
     c.key.source / 10 % 10, c.key.source % 10,
     if kind = .alarm then c.chatter else 0,
     if d.toggle then 1 else 0]

/-- The check value: 15 less the remainder of the sum divided by 15, and 0 for remainder 0 (R146). -/
def checkSymbol (sum : Nat) : Nat := if sum % 15 = 0 then 0 else 15 - sum % 15

/-- The block of a case's head report (R145, R146); none where the case owes nothing. -/
def composeBlock (c : Case) (d : Destination) : Option (List Nat) :=
  c.owed.head?.map fun kind => let b := blockBody c kind d; b ++ [checkSymbol b.sum]

/-- A block just composed, its sending begun and its repeat count 0 (R142, R147). -/
def State.newBlock (s : State) (k : Fin 48) (d : Fin 8) : Option BlockRun :=
  match s.caseAt k with
  | some c => (composeBlock c (s.dest d)).map fun b => { symbols := b, phase := .sending, repeats := 0, response := none }
  | none => none

end Sys2Proof.Machine
end

