-- ==== Sys2Proof/Machine/LineUnit.lean ====
section
/-! DEFINITION. The Line Unit's shared operations (chapters 6 to 8): classification, fault entry and exit, the Seize Permit, outcomes handed over, the end of a call and the release. -/

namespace Sys2Proof.Machine

/-! ### Classification (R107, R108) -/

/-- The band of a voltage (R107). -/
def Band.ofVolts (v : Nat) : Band := if v ≤ 2 then .low else if v ≤ 19 then .mid else .high

/-- The filter time of a band (R107). -/
def Band.filterMs : Band → Nat
  | .low => Config.noLineMs
  | .mid => Config.inUseMs
  | .high => Config.idleMs

/-- The band of the line's own state: HIGH in IDLE and MID in IN USE (R107). -/
def LineState.ownBand : LineState → Band
  | .inUse => .mid
  | _ => .high

/-- The Arbiter is told of an entry to IDLE always, and of an entry to IN USE while fire waits (R90, R106). -/
def State.tellEntry (s : State) (st : LineState) : State := if st = .idle then s.notify else s.notifyWhileFire

/-- Line `n` enters IDLE or IN USE by its latest sample, the filter started where the sample's band is not the line's
own (R108). Without a latest sample the line enters IDLE (R108), and the candidate band is HIGH with no filter running, which R128
says at power-on reset alone (DESIGN CHOICE, log entry 33). -/
def State.classify (s : State) (n : Fin 4) : State :=
  let band := ((s.line n).sample.map fun x => Band.ofVolts x.volts).getD .high
  let st := if band = .high then LineState.idle else .inUse
  let filter := if band = st.ownBand then none else some band.filterMs
  (s.updLine n fun l => { l with state := st, band := band, classFilter := filter }).tellEntry st

/-! ### Faults (R117) -/

/-- Line `n` enters FAULT: its cause is set, LINE FAULT raised and its trouble case posted; the fault hold starts but for
NO VOLTAGE (R116, R117); an entry from GUARD is told while fire waits (R106). -/
def State.enterFault (s : State) (n : Fin 4) (cause : FaultCause) : State :=
  let fromGuard := (s.line n).state = .guarded
  let hold := if cause = .noVoltage then none else some (s.timing.faultHold * 1000)
  let t := s.updLine n fun l =>
    { l with state := .fault, cause := cause, classFilter := none, recovery := none, guardTimer := none, faultHold := hold }
  let t := t.raise .lineFault
  let t := if fromGuard then t.notifyWhileFire else t
  (t.internalPost (.line n) (lineKey n)).2

/-- Line `n` leaves FAULT for the state `st`, its hold and recovery timers cancelled: the cause becomes NONE, LINE FAULT is
raised again and the trouble case restored (R117). -/
def State.exitFault (s : State) (n : Fin 4) (st : LineState) : State :=
  let t := s.updLine n fun l => { l with state := st, cause := .none, faultHold := none, recovery := none }
  (t.raise .lineFault).internalRestore (lineKey n)

/-- A counted failure of line `n` (R115), with the cause R116 asks for at the guard expiry. -/
def State.countFailure (s : State) (n : Fin 4) (cause : FaultCause) : State :=
  s.updLine n fun l => { l with failures := min 3 (l.failures + 1), failureCause := cause }

/-! ### The Seize Permit (R110, R111) -/

/-- Line `n` is granted the permit: it goes off-hook, the stagger timer and the seizure's three timers start (R111). -/
def State.grantPermit (s : State) (n : Fin 4) : State :=
  let t := { s with permit := { s.permit with holder := some n, stagger := some s.timing.stagger } }
  let t := t.updLine n fun l => { l with state := .offHook }
  t.updCall n fun c =>
    { c with check := .running s.timing.check, settleTimer := some s.timing.settle,
             dialToneWait := some (s.timing.dialToneWait * 1000) }

/-- A line joins the queue at the tail of its group: FIRE lead cases first (R110). -/
def joinQueue (q : List PermitWait) (w : PermitWait) : List PermitWait :=
  if w.fire then q.filter PermitWait.fire ++ [w] ++ q.filter (fun x => !x.fire) else q ++ [w]

/-- Line `n` asks for the permit: granted at once where it is free and the queue empty (R111). -/
def State.askPermit (s : State) (n : Fin 4) (fire : Bool) : State :=
  if s.permit.holder = none ∧ s.permit.queue = [] then s.grantPermit n
  else { s with permit := { s.permit with queue := joinQueue s.permit.queue ⟨n, fire⟩ } }

/-- Line `n` leaves the queue, the lines behind it moving up (R110). -/
def State.leaveQueue (s : State) (n : Fin 4) : State :=
  { s with permit := { s.permit with queue := s.permit.queue.filter fun w => w.line ≠ n } }

/-! ### Calls -/

/-- Line `n` hands an outcome to its current case, with the call's destination, which records it (R25, R73). The current case
and its block are then absent (R142). -/
def State.handOutcome (s : State) (n : Fin 4) (kind : OutcomeKind) : State :=
  match s.call n with
  | none => s
  | some c =>
    match c.current with
    | none => s
    | some k =>
      let t := s.updDest c.dest fun d => { d with last := kind }
      let t := t.updCall n fun c => { c with current := none, block := none }
      t.applyOutcome k kind c.dest

/-- The call of line `n` ends: its context is discarded with its timers, the destination's call line removed, and the
Arbiter told that the call has ended (R71, R106). -/
def State.endCall (s : State) (n : Fin 4) : State :=
  match s.call n with
  | none => s
  | some c =>
    let t := s.updDest c.dest fun d => { d with callLine := none }
    (t.updLine n fun l => { l with call := none }).notify

/-- Close pending is set on the call of line `n` (R124). -/
def State.closing (s : State) (n : Fin 4) : Bool := ((s.call n).map Call.closePending).getD false

/-- A release (R121): on-hook, the call ended, and the line in OFF where close pending was set, else in GUARD. -/
def State.release (s : State) (n : Fin 4) : State :=
  let closing := s.closing n
  let guardMs := s.timing.guardTime * 1000
  (s.endCall n).updLine n fun l =>
    if closing then { l with state := .off } else { l with state := .guarded, guardTimer := some guardMs }

/-- An outcome is handed over and the line releases (R121). -/
def State.failCall (s : State) (n : Fin 4) (kind : OutcomeKind) : State := (s.handOutcome n kind).release n

/-- NO_LOOP or NO_DIAL_TONE: handed over, counted against the line, and the line releases (R112, R113, R138). -/
def State.failLine (s : State) (n : Fin 4) (kind : OutcomeKind) (cause : FaultCause) : State :=
  ((s.handOutcome n kind).countFailure n cause).release n

/-- An overcurrent (R114): ABANDONED to the current case, if any; on-hook and the call ended; OFF where close pending was
set, else FAULT without GUARD. -/
def State.overcurrent (s : State) (n : Fin 4) : State :=
  let closing := s.closing n
  let t := (s.handOutcome n .abandoned).endCall n
  if closing then t.updLine n fun l => { l with state := .off } else t.enterFault n .overcurrent

end Sys2Proof.Machine
end

