-- ==== Sys2Proof/Machine/Arbiter.lean ====
section
/-! DEFINITION. The Dispatch Arbiter (chapters 3 and 5): urgency and rank, eligibility, the lines it may use, the dispatch pass with its fire measures, and the answers to lines that ask for their next case. -/

namespace Sys2Proof.Machine

/-! ### Urgency and order (R56 to R59) -/

/-- The age of a case in seconds, saturating at 65535 (R56). -/
def State.age (s : State) (c : Case) : Nat := min (s.since c.posted) 65535

/-- The urgency of a case (R56, R57, R58). The subtraction stops at 0, which is the clamp of R58 from below. -/
def State.urgency (s : State) (c : Case) : Nat :=
  let e := s.classEntry c.key.cls
  let credit := fun cap => min (s.age c / e.ageStep) cap
  if c.isFireAlarm then 224 + credit (min e.ageCap 31)
  else
    let restoreDebit := if c.owed.head? = some .restore then 32 else 0
    let attemptDebit := min (4 * c.failed) 32
    min 223 (e.base + credit e.ageCap - (restoreDebit + attemptDebit))

/-- A ranked case: its urgency, its age before saturation, which orders posted times on the wrapping clock (log entry 14),
and its slot. -/
structure Rank where
  urgency : Nat
  elapsed : Nat
  slot : Fin 48
  deriving DecidableEq, Repr

/-- The order of R59: higher urgency, then earlier posted time, then lower slot. -/
def Rank.before (a b : Rank) : Bool :=
  decide (b.urgency < a.urgency) ||
    (decide (a.urgency = b.urgency) &&
      (decide (b.elapsed < a.elapsed) || (decide (a.elapsed = b.elapsed) && decide (a.slot ≤ b.slot))))

/-- The rank of the case in slot `k` at this moment. -/
def State.rankOf (s : State) (k : Fin 48) : Rank :=
  match s.caseAt k with
  | some c => ⟨s.urgency c, s.since c.posted, k⟩
  | none => ⟨0, 0, k⟩

/-- A rank is put in its place in a list in the order of R59. -/
def insertRank (r : Rank) : List Rank → List Rank
  | [] => [r]
  | x :: xs => if r.before x then r :: x :: xs else x :: insertRank r xs

/-- A set of slots in the order of R59, the first case first. -/
def State.ranked (s : State) (p : Fin 48 → Bool) : List (Fin 48) :=
  (((List.finRange 48).filter p).foldr (fun k rs => insertRank (s.rankOf k) rs) []).map Rank.slot

/-! ### Eligibility and lines (R87 to R89) -/

/-- The case in slot `k` is eligible for a new call (R87). -/
def State.eligible (s : State) (k : Fin 48) : Bool :=
  match s.caseAt k with
  | none => false
  | some c =>
    decide (c.state = .pending) && s.reached c.retry &&
      match s.currentDest c with
      | none => false
      | some d => s.usable d && (s.dest d).callLine.isNone

/-- A dial string holds a star or a hash (R69, R88). -/
def Destination.toneOnly (d : Destination) : Bool := d.dial.any fun x => decide (x = .star) || decide (x = .hash)

/-- A line dials in pulse, by its setting or by what an AUTO line has learned (R88). -/
def Line.dialsPulse (l : Line) : Bool :=
  decide (l.mode = .pulse) || (decide (l.mode = .auto) && decide (l.learned = .pulse))

/-- Line `n` is dial-compatible with destination `d` (R88). -/
def State.compatible (s : State) (n : Fin 4) (d : Fin 8) : Bool := !((s.dest d).toneOnly && (s.line n).dialsPulse)

/-- Line `n` is selectable for destination `d` (R89). -/
def State.selectable (s : State) (d : Fin 8) (n : Fin 4) : Bool :=
  decide ((s.line n).state = .idle) && (s.line n).enabled && s.compatible n d

/-- Line `n` is in state `st` and dial-compatible with `d`. -/
def State.compatibleIn (s : State) (d : Fin 8) (st : LineState) (n : Fin 4) : Bool :=
  decide ((s.line n).state = st) && s.compatible n d

/-- Line `n` may be taken from a tenant for destination `d` (R94). -/
def State.forceable (s : State) (d : Fin 8) (n : Fin 4) : Bool := s.compatibleIn d .inUse n && (s.line n).forced

/-! ### Binding (R92, R96) -/

/-- The call context of a call just bound (R92, R106, R142). -/
def Call.opened (d : Fin 8) (lead : Nat) (k : Fin 48) : Call :=
  { dest := d, lead := lead, current := some k, carried := 1, dialTone := false, reference := none, intrusion := none,
    closePending := false, check := .notStarted, sampled := false, settleTimer := none, settled := false,
    dialToneWait := none, dialling := none, handshake := none, block := none, linger := none }

/-- The case in slot `k` becomes SENDING on line `n`, its head in flight (R8, R15). -/
def State.sendOn (s : State) (k : Fin 48) (n : Fin 4) : State :=
  match s.caseAt k with
  | none => s
  | some c => s.setCase k { c with state := .sending, line := some n }

/-- Bind the case in slot `k`, destination `d` and line `n` into a call (R92, R96): the line enters AWAIT PERMIT, its
classification filter cancelled, and asks for the permit (R111). -/
def State.bind (s : State) (k : Fin 48) (d : Fin 8) (n : Fin 4) : State :=
  let fire := ((s.caseAt k).map Case.isFire).getD false
  let lead := s.handleOf k
  let t := s.sendOn k n
  let t := t.updDest d fun x => { x with callLine := some n }
  let t := t.updLine n fun l => { l with state := .awaitPermit, classFilter := none, call := some (Call.opened d lead k) }
  t.askPermit n fire

/-! ### The dispatch pass (R91, R94, R86) -/

/-- A pass under way: the state, and the lines counted for a FIRE case so far in it (R94). -/
structure PassRun where
  st : State
  counted : List (Fin 4)

/-- The fire measures for the case in slot `k` at destination `d` (R94): a line in GUARD not yet counted, else a linger cut
(R95), else a forced seizure (R96), else nothing. -/
def PassRun.fireMeasure (r : PassRun) (k : Fin 48) (d : Fin 8) : PassRun :=
  match firstLine fun n => r.st.compatibleIn d .guarded n && !r.counted.contains n with
  | some n => { r with counted := n :: r.counted }
  | none =>
    match firstLine (r.st.compatibleIn d .linger) with
    | some n => { st := r.st.release n, counted := n :: r.counted }
    | none =>
      match firstLine (r.st.forceable d) with
      | some n => { r with st := r.st.bind k d n }
      | none => r

/-- The turn of the case in slot `k` (R91, R93): skipped where a call to its destination is open, bound to the lowest-numbered
selectable line, served by the fire measures where it is a fire alarm, and passed over otherwise. -/
def PassRun.take (r : PassRun) (k : Fin 48) : PassRun :=
  match r.st.caseAt k with
  | none => r
  | some c =>
    match r.st.currentDest c with
    | none => r
    | some d =>
      if (r.st.dest d).callLine.isSome then r
      else
        match firstLine (r.st.selectable d) with
        | some n => { r with st := r.st.bind k d n }
        | none => if c.isFireAlarm then r.fireMeasure k d else r

/-- The case in slot `k` is a fire alarm still unbound. -/
def State.fireUnbound (s : State) (k : Fin 48) : Bool :=
  match s.caseAt k with
  | some c => c.isFireAlarm && decide (c.state = .pending)
  | none => false

/-- A dispatch pass (R91), at whose end the fire-waiting indication is set (R86). -/
def State.pass (s : State) : State :=
  let list := s.ranked s.eligible
  let r := list.foldl PassRun.take ⟨s, []⟩
  { r.st with fireWaiting := list.any r.st.fireUnbound }

/-! ### The next-case request (R97 to R102) -/

/-- The Arbiter's answer to a next-case request (R99). -/
inductive Answer where
  | over
  | nothing
  | give (k : Fin 48)
  deriving DecidableEq, Repr

/-- The answer to a request for destination `d` from a call that has carried `carried` reports (R98, R99): END by the block
limit, NONE without a candidate, END as a yield while fire waits and the best candidate is no fire alarm, or the best
candidate. -/
def State.answerFor (s : State) (d : Fin 8) (carried : Nat) : Answer :=
  if s.exchange.blockLimit ≤ carried then .over
  else
    match (s.ranked (s.pendingAt d)).head? with
    | none => .nothing
    | some k =>
      let fireAlarm := ((s.caseAt k).map Case.isFireAlarm).getD false
      if s.fireWaiting ∧ ¬ fireAlarm then .over else .give k

/-- The call of line `n` takes up the case in slot `k` (R100, R153, R155): it is SENDING on the line and the current case, one
more report is carried, and its block is composed and begun. -/
def State.takeUp (s : State) (n : Fin 4) (k : Fin 48) : State :=
  match s.call n with
  | none => s
  | some c =>
    let block := s.newBlock k c.dest
    let t := s.sendOn k n
    t.updLine n fun l =>
      { l with state := .exchange,
               call := l.call.map fun c =>
                 { c with current := some k, carried := c.carried + 1, block := block, linger := none } }

/-- Line `n` enters LINGER: the linger timer starts and the Arbiter is told while fire waits (R90, R154). -/
def State.enterLinger (s : State) (n : Fin 4) : State :=
  let ms := s.exchange.linger * 1000
  (s.updLine n fun l => { l with state := .linger, call := l.call.map fun c => { c with linger := some ms } }).notifyWhileFire

/-- Line `n` asks for its next case after an acceptance and acts on the answer (R97, R153). -/
def State.askNext (s : State) (n : Fin 4) : State :=
  match s.call n with
  | none => s
  | some c =>
    match s.answerFor c.dest c.carried with
    | .over => s.release n
    | .nothing => if s.exchange.linger = 0 then s.release n else s.enterLinger n
    | .give k => s.takeUp n k

/-- The standing request of line `n` is answered where the line lingers and its destination has a candidate (R101, R155). -/
def State.answerLinger (s : State) (n : Fin 4) : State :=
  match s.call n with
  | none => s
  | some c =>
    if (s.line n).state = .linger ∧ (List.finRange 48).any (s.pendingAt c.dest) then
      match s.answerFor c.dest c.carried with
      | .over => s.release n
      | .nothing => s
      | .give k => s.takeUp n k
    else s

/-- The standing requests of all lingering lines are answered: the end of every event that can leave a case PENDING
(R101, log entry 8). -/
def State.answerLingers (s : State) : State := (List.finRange 4).foldl State.answerLinger s

end Sys2Proof.Machine
end

