-- ==== Sys2Proof/Machine/InputEvents.lean ====
section
/-! DEFINITION. The Contact Input Unit (chapter 9): levels and their acceptance, the trouble and alarm stages, and the meanings of the input events. -/

namespace Sys2Proof.Machine

/-- The level of a sample by its count (R161). -/
def Level.ofCount (x : Nat) : Level :=
  if x ≤ 15 then .short else if x ≤ 79 then .active else if x ≤ 175 then .normal else .opened

/-- OPEN or SHORT: the loop is in trouble (R167). -/
def Level.troubled : Level → Bool
  | .opened | .short => true
  | .normal | .active => false

/-- Input `i` posts `key` through the internal posting path (R20); until a WRITE INPUT has written the channel nothing is posted (R172,
log entry 30). -/
def State.channelPost (s : State) (i : Fin 8) (p : Poster) (key : Key) : State :=
  if (s.input i).written then (s.internalPost p key).2 else s

/-- Input `i` posts its alarm key with its stage RAISED (R163, R164). -/
def State.raiseAlarm (s : State) (i : Fin 8) : State :=
  let t := s.updInput i fun c => { c with alarm := .raised, retardTimer := none }
  t.channelPost i (.inputAlarm i) (t.alarmKey i)

/-- The trouble stage at an acceptance from level `old` to level `new` (R167). -/
def State.troubleStep (s : State) (i : Fin 8) (old new : Level) : State :=
  if new.troubled then
    if old.troubled then s
    else
      let t := s.raise .inputTrouble
      if (s.input i).trouble = .quiet then
        let t := t.updInput i fun c => { c with trouble := .raised }
        t.channelPost i (.inputTrouble i) (t.troubleKey i)
      else t
  else if old.troubled then
    let t := if (s.input i).trouble = .raised then s.internalRestore (s.troubleKey i) else s
    t.updInput i fun c => { c with trouble := .quiet }
  else s

/-- The alarm stage at an acceptance of level `new` (R163, R164, R165, R168). -/
def State.alarmStep (s : State) (i : Fin 8) (new : Level) : State :=
  let c := s.input i
  match c.alarm with
  | .quiet =>
    if new = .active then
      if c.retard = 0 then s.raiseAlarm i
      else s.updInput i fun c => { c with alarm := .retarding, retardTimer := some ⟨c.retard, s.clock⟩ }
    else s
  | .retarding =>
    if new = .active then s else s.updInput i fun c => { c with alarm := .quiet, retardTimer := none }
  | .raised =>
    if new = .normal ∧ c.latch = .following then
      (s.internalRestore (s.alarmKey i)).updInput i fun c => { c with alarm := .quiet }
    else s
  | .cleared => if new = .normal then s.updInput i fun c => { c with alarm := .quiet } else s

/-- An acceptance of level `new` (R162): the candidate and the level filter go, then the trouble stage is acted on, then the
alarm stage. -/
def State.acceptLevel (s : State) (i : Fin 8) (new : Level) : State :=
  let old := (s.input i).accepted
  let t := s.updInput i fun c => { c with accepted := new, candidate := none, levelFilter := none }
  (t.troubleStep i old new).alarmStep i new

/-- INPUT_SAMPLE (R160, R162): the sample becomes the latest sample; an enabled channel judges its level, at once in FAST and by
the level filter in FILTERED. -/
def State.takeInput (s : State) (i : Fin 8) (count : Nat) : State :=
  let c := s.input i
  let level := Level.ofCount count
  let t := s.updInput i fun c => { c with sample := some count }
  if !c.enabled then t
  else
    match c.sampling with
    | .fast => if level = c.accepted then t else t.acceptLevel i level
    | .filtered =>
      if level = c.accepted then t.updInput i fun c => { c with candidate := none, levelFilter := none }
      else if c.candidate = some level then t
      else t.updInput i fun c => { c with candidate := some level, levelFilter := some c.filterMs }

def execInputSample (i : Fin 8) (count : Nat) (s : State) : Result := .next (s.takeInput i count).answerLingers

/-- LEVEL_FILTER_EXPIRY (R162): the candidate becomes the accepted level. -/
def execLevelFilterExpiry (i : Fin 8) (s : State) : Result :=
  let c := s.input i
  match c.levelFilter, c.candidate with
  | some _, some level => .next (s.acceptLevel i level).answerLingers
  | _, _ => .next s

/-- RETARD_TIMER_EXPIRY (R164): the alarm stage becomes RAISED and the alarm key is posted. -/
def execRetardTimerExpiry (i : Fin 8) (s : State) : Result :=
  let c := s.input i
  if c.retardTimer.isSome ∧ c.alarm = .retarding then .next (s.raiseAlarm i).answerLingers else .next s

/-- The working state of a channel starts again (R169, R170, R172). -/
def Channel.restart (c : Channel) : Channel :=
  { c with accepted := .normal, candidate := none, levelFilter := none, alarm := .quiet, retardTimer := none,
           trouble := .quiet }

/-- A channel is latched (R160). -/
def Channel.latched (c : Channel) : Bool := decide (c.latch = .latching) && decide (c.alarm = .raised)

/-- The notice to a poster that its case was cleared (R48, R168): channel `i` compares the key with those its record gives. -/
def State.clearNotice (s : State) (key : Key) (i : Fin 8) : State :=
  let c := s.input i
  if key = s.alarmKey i ∧ c.alarm = .raised then s.updInput i fun c => { c with alarm := .cleared }
  else if key = s.troubleKey i ∧ c.trouble = .raised then s.updInput i fun c => { c with trouble := .cleared }
  else s

end Sys2Proof.Machine
end

