-- ==== Sys2Proof/Machine/Link.lean ====
section
/-! DEFINITION. The request link and the Request Handler (R31 to R33, R179 to R182): taking a frame, the source checks, and the reply. -/

namespace Sys2Proof.Machine

/-- A request frame of `len` bytes is taken (R179, R181): the part sends 0x00 for every byte of it, and an unread reply is
discarded with LINK OVERRUN raised. -/
def State.takeFrame (s : State) (len : Nat) : State :=
  let t := { s with serialOut := List.replicate len 0 }
  if s.reply.isSome then { t with reply := none }.raise .linkOverrun else t

/-- The reply waiting once the frame has ended (R179). -/
def State.answer (s : State) (st : Status) (body : List Byte := []) : State := { s with reply := some ⟨st, body⟩ }

/-- A request that sources 0 to 15 and 31 may make: any other source is answered BAD_VALUE (R32). -/
def State.anySource (s : State) (src : Nat) (f : State → State) : State :=
  if src ≤ 15 ∨ src = 31 then f s else s.answer .badValue

/-- A controller request (R32): a link source is answered NOT_OWNER, and any other source than 31 BAD_VALUE. -/
def State.controller (s : State) (src : Nat) (f : State → State) : State :=
  if src = 31 then f s else if src ≤ 15 then s.answer .notOwner else s.answer .badValue

/-- The case a handle names, or the reply that a handle above 1023 or one that names no case gets (R33, R1). -/
def State.withHandle (s : State) (h : Nat) (f : Fin 48 → Case → State) : State :=
  if 1023 < h then s.answer .badValue
  else
    match s.caseOfHandle h with
    | none => s.answer .noCase
    | some k =>
      match s.caseAt k with
      | none => s.answer .noCase
      | some c => f k c

/-- The reply of a request that names a case by its handle (R52). -/
def State.answerHandle (s : State) (st : Status) (k : Fin 48) : State := s.answer st (field2 (s.handleOf k))

/-- The reply to a write that clamps: ADJUSTED where a value was changed and OK otherwise. -/
def State.answerWrite (s : State) (changed : Bool) : State := s.answer (if changed then .adjusted else .ok)

end Sys2Proof.Machine
end

