-- ==== Sys2Proof/Machine/CaseRequests.lean ====
section
/-! DEFINITION. The meanings of the requests on cases (chapter 2): POST, RESTORE, WITHDRAW, FIND, READ CASE, NEXT CASE, CLEAR and REARM. -/

namespace Sys2Proof.Machine

/-- A POST that has passed its checks (R37, R38): it is applied to the case that holds its key, or creates one, or is answered
FULL. -/
def State.postAdmitted (s : State) (key : Key) (detail : Option Nat) (mark : Mark) : State :=
  match s.caseOfKey key with
  | some k =>
    let renewed := ((s.caseAt k).map fun c => !c.stays).getD false
    (s.postCase k detail).answerHandle (if renewed then .renewed else .existing) k
  | none =>
    match s.acceptPost key detail mark with
    | none => s.answer .full
    | some (k, t) => t.answerLingers.answerHandle .created k

/-- POST (R36): the source, the zone and class, and the admission entry are checked in that order. -/
def State.post (s : State) (src zone cls : Nat) (detail : Option Nat) : State :=
  match indexOf 16 src with
  | none => s.answer .badValue
  | some i =>
    if 999 < zone then s.answer .badValue
    else
      match postableOfCode cls with
      | none => s.answer .badValue
      | some (c, p) =>
        match s.admissionOf i p with
        | .deny => s.answer .denied
        | .allow => s.postAdmitted ⟨src, zone, c⟩ detail .verified
        | .flag => s.postAdmitted ⟨src, zone, c⟩ detail .flagged

def execPost (src zone cls : Nat) (detail : Option Nat) (s : State) : Result :=
  .next ((s.takeFrame (if detail.isSome then 8 else 6)).post src zone cls detail)

/-- A RESTORE that has passed its checks (R41): OK where the case was ACTIVE, UNCHANGED where it was RESTORED. -/
def State.restoreNamed (s : State) (k : Fin 48) (c : Case) : State :=
  if c.condition = .restored then s.answerHandle .unchanged k
  else (s.restoreCase k).answerLingers.answerHandle .ok k

/-- RESTORE by handle (R39, R40): the requester must own the case. -/
def State.restoreByHandle (s : State) (src h : Nat) : State :=
  s.withHandle h fun k c => if c.key.source = src then s.restoreNamed k c else s.answer .notOwner

/-- RESTORE by key (R39): the key is the requester's with the zone and class given. -/
def State.restoreByKey (s : State) (src zone cls : Nat) : State :=
  if 999 < zone then s.answer .badValue
  else
    match postableOfCode cls with
    | none => s.answer .badValue
    | some (c, _) =>
      match s.caseOfKey ⟨src, zone, c⟩ with
      | none => s.answer .noCase
      | some k =>
        match s.caseAt k with
        | none => s.answer .noCase
        | some c => s.restoreNamed k c

def execRestore (src : Nat) (target : RestoreTarget) (s : State) : Result :=
  match target with
  | .byHandle h => .next ((s.takeFrame 6).anySource src fun s => s.restoreByHandle src h)
  | .byKey zone cls => .next ((s.takeFrame 7).anySource src fun s => s.restoreByKey src zone cls)

/-- WITHDRAW (R42, R43): owner, class, reported and state are checked in that order, and the case is retired. -/
def State.withdraw (s : State) (src h : Nat) : State :=
  s.withHandle h fun k c =>
    if c.key.source ≠ src then s.answer .notOwner
    else if c.isFire then s.answer .denied
    else if c.reported then s.answer .delivered
    else if c.state = .sending then s.answer .inFlight
    else (s.retire k).answerLingers.answer .ok

def execWithdraw (src h : Nat) (s : State) : Result :=
  .next ((s.takeFrame 5).anySource src fun s => s.withdraw src h)

/-- FIND (R44). -/
def State.findKey (s : State) (ks zone cls : Nat) : State :=
  if 24 < ks ∨ 999 < zone then s.answer .badValue
  else
    match clsOfCode cls with
    | none => s.answer .badValue
    | some c =>
      match s.caseOfKey ⟨ks, zone, c⟩ with
      | none => s.answer .noCase
      | some k => s.answerHandle .ok k

def execFind (src ks zone cls : Nat) (s : State) : Result :=
  .next ((s.takeFrame 7).anySource src fun s => s.findKey ks zone cls)

/-- The flags byte of the READ CASE reply (R184). -/
def Case.flags (c : Case) : Nat :=
  (if c.detail.isSome then 1 else 0) + (if c.mark = .flagged then 2 else 0) +
    (if c.condition = .restored then 4 else 0) + (if c.reported then 8 else 0) +
    (if c.state = .sending then 16 else 0) + (if c.line.isSome then 32 else 0)

/-- Entry `i` of the owed list in a reply, 0 beyond the list (R184). -/
def Case.owedCode (c : Case) (i : Nat) : Nat := (c.owed[i]?.map ReportKind.code).getD 0

/-- The 29 bytes of the READ CASE reply (R184). -/
def State.caseBody (s : State) (k : Fin 48) (c : Case) : List Byte :=
  field2 (s.handleOf k) ++ field1 c.key.source ++ field2 c.key.zone ++ field1 c.key.cls.code ++ field1 c.flags ++
    field2 (c.detail.getD 0) ++ field1 c.state.code ++ field1 c.owed.length ++
    field1 (c.owedCode 0) ++ field1 (c.owedCode 1) ++ field1 (c.owedCode 2) ++ field1 c.chatter ++
    field4 c.posted.toNat ++ field1 c.progress.step ++ field1 c.progress.attempts ++ field1 c.progress.round ++
    field1 c.failed ++ field4 c.retry.toNat ++ field1 c.last.code ++ field1 ((c.line.map Fin.val).getD 0)

def execReadCase (src h : Nat) (s : State) : Result :=
  .next ((s.takeFrame 5).anySource src fun s => s.withHandle h fun k c => s.answer .ok (s.caseBody k c))

/-- The occupied slots from slot number `lo` on whose case matches a filter (R46). -/
def State.matchesFrom (s : State) (lo : Nat) (filter : Option CaseState) (k : Fin 48) : Bool :=
  decide (lo ≤ k.val) &&
    match s.caseAt k, filter with
    | none, _ => false
    | some _, none => true
    | some c, some st => decide (c.state = st)

/-- NEXT CASE (R46): the scan starts at slot 0 for a start of 65535, and after the slot part of a start handle otherwise. -/
def State.next (s : State) (start filter : Nat) : State :=
  if 1023 < start ∧ start ≠ 65535 then s.answer .badValue
  else
    match filterOfCode filter with
    | none => s.answer .badValue
    | some f =>
      let lo := if start = 65535 then 0 else start % 64 + 1
      match (List.finRange 48).find? (s.matchesFrom lo f) with
      | none => s.answer .noCase
      | some k => s.answerHandle .ok k

def execNextCase (src start filter : Nat) (s : State) : Result :=
  .next ((s.takeFrame 6).anySource src fun s => s.next start filter)

/-- The case in slot `k` with key `key` is removed by CLEAR (R47, R48): it is retired, the poster of an internal key is told,
and then the space is offered (log entry 7). -/
def State.clearCase (s : State) (k : Fin 48) (key : Key) : State :=
  let t := s.vacate k
  let t := (List.finRange 8).foldl (fun t i => t.clearNotice key i) t
  t.offerSpace

/-- CLEAR (R47). -/
def State.clear (s : State) (h : Nat) : State :=
  s.withHandle h fun k c =>
    if c.state = .sending then s.answer .inFlight else (s.clearCase k c.key).answerLingers.answer .ok

def execClear (src h : Nat) (s : State) : Result :=
  .next ((s.takeFrame 5).controller src fun s => s.clear h)

/-- A STRANDED case starts its plan again (R49) and passes under the plan rule (R50). -/
def State.rearmCase (s : State) (k : Fin 48) (c : Case) : State :=
  (s.setCase k { c with state := .pending, progress := .zero, failed := 0, retry := s.clock }).settle k

/-- REARM (R49, R50): the reply gives the case's state after the request, PENDING or STRANDED. The retry time is set by R49, also
where R51 says that a post and REARM give one record in either order (log entry 26). -/
def State.rearm (s : State) (h : Nat) : State :=
  s.withHandle h fun k c =>
    if c.state = .stranded then
      let t := s.rearmCase k c
      let code := ((t.caseAt k).map fun c => c.state.code).getD 0
      t.answerLingers.answer .ok (field1 code)
    else s.answer .wrongState

def execRearm (src h : Nat) (s : State) : Result :=
  .next ((s.takeFrame 5).controller src fun s => s.rearm h)

end Sys2Proof.Machine
end

