-- ==== Sys2Proof/Machine/Dialling.lean ====
section
/-! DEFINITION. Seizure and dialling (R112, R113, chapter 7): the judgement of the loop, the reference current, the start of dialling, the elements of the dial string, the adaptive check and the completion. -/

namespace Sys2Proof.Machine

/-! ### Dialling (chapter 7) -/

/-- Change the dialling context of line `n`. -/
def State.updDialling (s : State) (n : Fin 4) (f : Dialling → Dialling) : State :=
  s.updCall n fun c => { c with dialling := c.dialling.map f }

/-- The time an element occupies in a manner (R132, R133, R134). Star and hash have no pulse form; they are never sent in
pulse (R131, R138). -/
def elementMs (m : Manner) (x : DialSym) : Nat :=
  match x with
  | .pause => Config.pauseMs
  | .digit d =>
    match m with
    | .tone => Config.toneSymbolMs
    | .pulse => breaksOf d * Config.breakMs + Config.interDigitMs
  | .star | .hash => Config.toneSymbolMs

/-- An element of the string begins (R130, R135): its timer runs, the position names the next element, and the first dial symbol
of a dialling that has still to learn starts the adaptive check, also after a WRITE LINE taken during leading pauses (R123, log entry
29). -/
def Dialling.begin (g : Dialling) (x : DialSym) : Dialling :=
  { g with element := some (elementMs g.manner x), position := g.position + 1,
           adaptiveCheck := if g.learning ∧ x ≠ .pause ∧ g.adaptiveCheck = none then some Config.adaptiveCheckMs
                            else g.adaptiveCheck }

/-- Dialling is complete (R141): the dialling context is discarded, the line enters AWAIT HANDSHAKE and the handshake wait
starts. -/
def State.dialled (s : State) (n : Fin 4) : State :=
  let ms := s.exchange.handshake * 1000
  s.updLine n fun l =>
    { l with state := .awaitHandshake, call := l.call.map fun c => { c with dialling := none, handshake := some ms } }

/-- The element at the position begins, or dialling is complete where the string has none left (R132, R141). -/
def State.nextElement (s : State) (n : Fin 4) : State :=
  match s.call n with
  | none => s
  | some c =>
    match c.dialling with
    | none => s
    | some g =>
      match (s.dest c.dest).dial[g.position - 1]? with
      | some x => s.updDialling n fun g => g.begin x
      | none => s.dialled n

/-- The dialling context at entry: the manner by dial mode and learned mode, and whether the adaptive check is used (R130,
R135), which the settings at entry fix for the whole dialling (log entry 29). -/
def Line.startDialling (l : Line) : Dialling :=
  { manner := if l.dialsPulse then .pulse else .tone, position := 1, adaptiveCheck := none,
    learning := decide (l.mode = .auto) && decide (l.learned = .unknown), element := none,
    leavesLearned := false }

/-- A WRITE LINE sets dial mode `m` during this dialling (R123, R139): from a write to TONE or PULSE the learned mode stays UNKNOWN, unless
the adaptive check was running at that write. -/
def Dialling.rewritten (g : Dialling) (m : DialMode) : Dialling :=
  { g with leavesLearned := decide (m ≠ .auto) && g.adaptiveCheck.isNone }

/-- The adaptive check sets the learned mode (R136, R137), unless the line's dial mode was written TONE or PULSE before the check ran
(R139). -/
def Line.learn (l : Line) (m : LearnedMode) : Line :=
  if (l.call.bind Call.dialling).any Dialling.leavesLearned then l else { l with learned := m }

/-- The line enters DIALLING (R113, R118, R130): the timers of the seizure are cancelled, the reference and the intrusion filter
discarded. A pulse dialling of a string with a star or a hash is abandoned at once (R131). -/
def State.startDialling (s : State) (n : Fin 4) : State :=
  match s.call n with
  | none => s
  | some c =>
    let t := s.updLine n fun l =>
      { l with state := .dialling,
               call := l.call.map fun c =>
                 { c with dialling := some l.startDialling, reference := none, intrusion := none, check := .judged,
                          settleTimer := none, dialToneWait := none } }
    if (s.line n).dialsPulse && (s.dest c.dest).toneOnly then t.failCall n .abandoned else t.nextElement n

/-! ### Seizure (R112, R113) -/

/-- Dialling starts once the settle timer has expired, the reference is captured and dial tone is present (R113). -/
def State.tryDial (s : State) (n : Fin 4) : State :=
  match s.call n with
  | none => s
  | some c =>
    if (s.line n).state = .offHook ∧ c.settled ∧ c.reference.isSome ∧ c.dialTone then s.startDialling n else s

/-- The loop current `i` is judged at the off-hook check (R112, R114): no loop, an overcurrent, or a sound loop, whose sample is
also the reference where settle has expired without one (R113). -/
def State.judgeLoop (s : State) (n : Fin 4) (i : Nat) : State :=
  if i < Config.loopMinMa then s.failLine n .noLoop .noLoop
  else if Config.overcurrentMa < i then s.overcurrent n
  else
    (s.updCall n fun c =>
      { c with check := .judged,
               reference := if c.settled ∧ c.reference = none then some i else c.reference }).tryDial n

/-! ### Intrusion (R118) -/

/-- A sample of current `i` judged against the reference: a low one starts the intrusion filter where it does not run, any
other cancels it (R118). -/
def Call.judgeIntrusion (c : Call) (reference i differential filter : Nat) : Call :=
  if differential ≤ reference - i then { c with intrusion := some (c.intrusion.getD filter) }
  else { c with intrusion := none }

/-- Intrusion monitoring of a sample after dialling (R118): the first sample is the reference, the later ones are judged. -/
def State.monitor (s : State) (n : Fin 4) (i : Nat) : State :=
  s.updCall n fun c =>
    match c.reference with
    | none => { c with reference := some i }
    | some r => c.judgeIntrusion r i s.timing.differential s.timing.intrusion

/-- Intrusion monitoring in OFF HOOK, where the reference is captured at settle (R113, R118). -/
def State.monitorSettled (s : State) (n : Fin 4) (i : Nat) : State :=
  s.updCall n fun c =>
    match c.reference with
    | none => c
    | some r => c.judgeIntrusion r i s.timing.differential s.timing.intrusion

end Sys2Proof.Machine
end

