-- ==== Sys2Proof/Machine/Exchange.lean ====
section
/-! DEFINITION. The report exchange (chapter 8): the ready symbol, acceptance, repeat and refusal. -/

namespace Sys2Proof.Machine

/-- Change the block in progress on line `n`. -/
def State.updBlock (s : State) (n : Fin 4) (f : BlockRun → BlockRun) : State :=
  s.updCall n fun c => { c with block := c.block.map f }

/-- The phase of the block in progress on line `n`, where the line is in EXCHANGE and has one. -/
def State.blockPhase (s : State) (n : Fin 4) : Option BlockPhase :=
  if (s.line n).state = .exchange then ((s.call n).bind Call.block).map BlockRun.phase else none

/-- The station's 'D' in AWAIT HANDSHAKE (R143): the line enters EXCHANGE with failure count 0, the toggle is set to 0 under
PER CALL (R72), and the current case's block is composed and begun. -/
def State.ready (s : State) (n : Fin 4) : State :=
  match s.call n with
  | none => s
  | some c =>
    let t := s.updDest c.dest fun d => if d.policy = .perCall then { d with toggle := false } else d
    let block := c.current.bind fun k => t.newBlock k c.dest
    t.updLine n fun l =>
      { l with state := .exchange, failures := 0, call := l.call.map fun c => { c with handshake := none, block := block } }

/-- The station's 'A' for a block AWAITING (R148): the toggle flips, ACCEPTED is recorded and applied, DELIVERED raised, and
the line asks for its next case, or releases where close pending is set. The case's block and response wait go with the
outcome. -/
def State.accept (s : State) (n : Fin 4) : State :=
  match s.call n with
  | none => s
  | some c =>
    let t := s.updDest c.dest fun d => { d with toggle := !d.toggle }
    let t := (t.handOutcome n .accepted).raise .delivered
    if c.closePending then t.release n else t.askNext n

/-- A repeat decision (R150): the kept block is sent again while the repeat count is within the limit, and otherwise
NO_RESPONSE ends the call. -/
def State.repeatBlock (s : State) (n : Fin 4) : State :=
  match (s.call n).bind Call.block with
  | none => s
  | some b =>
    let t := s.updBlock n fun b => { b with repeats := b.repeats + 1, response := none }
    if b.repeats + 1 ≤ s.exchange.repeatLimit then t.updBlock n fun b => { b with phase := .sending }
    else t.failCall n .noResponse

/-- The Destination Table's part of a refusal (R78, steps 1 to 3): an ENABLED destination becomes REFUSING, DESTINATION REFUSED is
raised, and the waiting cases are advanced. -/
def State.refuseDest (s : State) (d : Fin 8) : State :=
  let t := s.updDest d fun x =>
    { x with last := .refused, state := if x.state = .enabled then .refusing else x.state }
  (t.raise .destinationRefused).advanceWaiting d

/-- The station's 'C' for a block AWAITING (R151, R78): the destination refuses, the outcome is applied, the line releases. -/
def State.refuse (s : State) (n : Fin 4) : State :=
  match s.call n with
  | none => s
  | some c => (s.refuseDest c.dest).failCall n .refused

end Sys2Proof.Machine
end

