-- ==== Sys2Proof/Machine/LineEvents.lean ====
section
/-! DEFINITION. The meanings of the line events: samples, tones, symbols, and the expiries of the line timers, the permit's stagger timer and the call's timers (chapters 6 to 8). An expiry of a timer that is not running does not arrive: it changes nothing (log entry 2). Every event that can leave a case PENDING ends with the answers to the lingering lines (R101). -/

namespace Sys2Proof.Machine

/-! ### Samples and tones -/

/-- On-hook classification of a sample in IDLE or IN USE (R107). -/
def Line.classifySample (l : Line) (band : Band) : Line :=
  if band = l.state.ownBand then { l with band := band, classFilter := none }
  else if band ≠ l.band then { l with band := band, classFilter := some band.filterMs }
  else l

/-- Recovery from NO VOLTAGE (R109): a sample of 3 V or more starts the recovery timer where it does not run, a LOW one
cancels it. -/
def Line.watchRecovery (l : Line) (band : Band) : Line :=
  if band = .low then { l with recovery := none } else { l with recovery := some (l.recovery.getD Config.recoveryMs) }

/-- A sample's current once the line is off-hook and the off-hook check is over: overcurrent (R114), else the monitoring of the
line's state (R118). -/
def State.judgeCurrent (s : State) (n : Fin 4) (i : Nat) (watch : State → State) : State :=
  if Config.overcurrentMa < i then s.overcurrent n else watch s

/-- LINE_SAMPLE (R105): the sample becomes the latest sample, and is judged as the line's state requires. -/
def State.takeSample (s : State) (n : Fin 4) (volts milliamps : Nat) : State :=
  let i := min Config.currentMaxMa milliamps
  let band := Band.ofVolts volts
  let t := s.updLine n fun l => { l with sample := some ⟨volts, i⟩ }
  match (s.line n).state with
  | .idle | .inUse => t.updLine n fun l => l.classifySample band
  | .fault => if (s.line n).cause = .noVoltage then t.updLine n fun l => l.watchRecovery band else t
  | .offHook =>
    let t := t.updCall n fun c => { c with sampled := true }
    match (s.call n).map Call.check with
    | some .awaitingSample => t.judgeLoop n i
    | some .judged => t.judgeCurrent n i fun u => u.monitorSettled n i
    | _ => t
  | .dialling => t.judgeCurrent n i id
  | .awaitHandshake | .exchange | .linger => t.judgeCurrent n i fun u => u.monitor n i
  | .off | .awaitPermit | .guarded => t

def execLineSample (n : Fin 4) (volts milliamps : Nat) (s : State) : Result :=
  .next (s.takeSample n volts milliamps).answerLingers

/-- DIAL_TONE_ON (R113, R140): sets the dial-tone present indication in OFF HOOK, where dialling may start, and in DIALLING;
ignored elsewhere (R105). -/
def execDialToneOn (n : Fin 4) (s : State) : Result :=
  match (s.line n).state with
  | .offHook => .next ((s.updCall n fun c => { c with dialTone := true }).tryDial n).answerLingers
  | .dialling => .next (s.updCall n fun c => { c with dialTone := true })
  | _ => .next s

/-- A DIAL TONE OFF while the adaptive check runs decides for tone (R136): the check is cancelled, the learned mode becomes TONE
(but as R139 says), and the next element begins at once where the line is waiting for the decision. -/
def State.decideTone (s : State) (n : Fin 4) (g : Dialling) : State :=
  let t := s.updLine n fun l => l.learn .tone
  let t := t.updDialling n fun g => { g with adaptiveCheck := none, learning := false }
  if g.element = none then t.nextElement n else t

/-- DIAL_TONE_OFF (R113, R136, R140): clears the indication in OFF HOOK and in DIALLING, where it decides a running adaptive
check for tone; ignored elsewhere. -/
def execDialToneOff (n : Fin 4) (s : State) : Result :=
  let t := s.updCall n fun c => { c with dialTone := false }
  match (s.line n).state with
  | .offHook => .next t
  | .dialling =>
    match (s.call n).bind Call.dialling with
    | some g => if g.adaptiveCheck.isSome then .next (t.decideTone n g) else .next t
    | none => .next t
  | _ => .next s

/-- BUSY_TONE (R143): in AWAIT HANDSHAKE, BUSY to the lead case and a release; ignored elsewhere. -/
def execBusyTone (n : Fin 4) (s : State) : Result :=
  if (s.line n).state = .awaitHandshake then .next (s.failCall n .busy).answerLingers else .next s

/-- RECEIVED_SYMBOL (R143, R147, R152): 'D' (15) in AWAIT HANDSHAKE; 'A' (12), 'B' (13) and 'C' (14) for a block AWAITING in
EXCHANGE; discarded or ignored otherwise. -/
def execReceivedSymbol (n : Fin 4) (sym : Nat) (s : State) : Result :=
  match (s.line n).state with
  | .awaitHandshake => if sym = 15 then .next (s.ready n) else .next s
  | .exchange =>
    if s.blockPhase n = some .awaiting then
      if sym = 12 then .next (s.accept n).answerLingers
      else if sym = 13 then .next (s.repeatBlock n).answerLingers
      else if sym = 14 then .next (s.refuse n).answerLingers
      else .next s
    else .next s
  | _ => .next s

/-! ### On-hook timers -/

/-- CLASSIFICATION_FILTER_EXPIRY (R107): the line enters the state its candidate band leads to. -/
def execClassificationFilterExpiry (n : Fin 4) (s : State) : Result :=
  let l := s.line n
  if l.classFilter.isSome ∧ (l.state = .idle ∨ l.state = .inUse) then
    match l.band with
    | .low => .next (s.enterFault n .noVoltage).answerLingers
    | .mid => .next ((s.updLine n fun l => { l with state := .inUse, classFilter := none }).tellEntry .inUse)
    | .high => .next ((s.updLine n fun l => { l with state := .idle, classFilter := none }).tellEntry .idle)
  else .next s

/-- RECOVERY_TIMER_EXPIRY (R109): the line leaves FAULT (NO VOLTAGE) and is classified. -/
def execRecoveryTimerExpiry (n : Fin 4) (s : State) : Result :=
  let l := s.line n
  if l.recovery.isSome ∧ l.state = .fault then .next ((s.exitFault n .idle).classify n).answerLingers else .next s

/-- GUARD_EXPIRY (R122, R116): FAULT where the failure count is 3, else IDLE or IN USE by the latest sample. -/
def execGuardExpiry (n : Fin 4) (s : State) : Result :=
  let l := s.line n
  if l.guardTimer.isSome ∧ l.state = .guarded then
    if l.failures = 3 then .next (s.enterFault n l.failureCause).answerLingers
    else .next ((s.updLine n fun l => { l with guardTimer := none }).classify n)
  else .next s

/-- FAULT_HOLD_EXPIRY (R116): the line leaves FAULT and is classified; the failure count of a NO DIAL TONE or NO LOOP fault becomes 2
(R115). -/
def execFaultHoldExpiry (n : Fin 4) (s : State) : Result :=
  let l := s.line n
  if l.faultHold.isSome ∧ l.state = .fault then
    let t := if l.cause = .overcurrent then s else s.updLine n fun l => { l with failures := 2 }
    .next ((t.exitFault n .idle).classify n).answerLingers
  else .next s

/-! ### The permit and the seizure -/

/-- STAGGER_TIMER_EXPIRY (R110, R111): the permit becomes free and is granted to the head of the queue. -/
def execStaggerTimerExpiry (s : State) : Result :=
  if s.permit.stagger.isSome then
    let t := { s with permit := { s.permit with holder := none, stagger := none } }
    match s.permit.queue with
    | [] => .next t
    | w :: q => .next ({ t with permit := { t.permit with queue := q } }.grantPermit w.line)
  else .next s

/-- OFF_HOOK_CHECK_EXPIRY (R112): the loop is judged by the latest sample since the line went off-hook, or by the first that
arrives. -/
def execOffHookCheckExpiry (n : Fin 4) (s : State) : Result :=
  match s.call n with
  | none => .next s
  | some c =>
    match c.check with
    | .running _ =>
      if (s.line n).state = .offHook then
        match c.sampled, (s.line n).sample with
        | true, some x => .next (s.judgeLoop n x.milliamps).answerLingers
        | _, _ => .next (s.updCall n fun c => { c with check := .awaitingSample })
      else .next s
    | _ => .next s

/-- SETTLE_TIMER_EXPIRY (R113): the current of the latest sample becomes the reference, unless the off-hook check still waits for its
first sample, and dialling starts if dial tone is present. -/
def execSettleTimerExpiry (n : Fin 4) (s : State) : Result :=
  match s.call n with
  | none => .next s
  | some c =>
    if c.settleTimer.isSome ∧ (s.line n).state = .offHook then
      let reference := if c.check = .awaitingSample then none else (s.line n).sample.map LineSample.milliamps
      let t := s.updCall n fun c => { c with settleTimer := none, settled := true, reference := reference }
      .next (t.tryDial n).answerLingers
    else .next s

/-- DIAL_TONE_WAIT_EXPIRY (R113): NO_DIAL_TONE, counted against the line, and a release. -/
def execDialToneWaitExpiry (n : Fin 4) (s : State) : Result :=
  match s.call n with
  | none => .next s
  | some c =>
    if c.dialToneWait.isSome ∧ (s.line n).state = .offHook then
      .next (s.failLine n .noDialTone .noDialTone).answerLingers
    else .next s

/-- The current case of line `n` is of class FIRE (R119). -/
def State.carriesFire (s : State) (n : Fin 4) : Bool :=
  match (s.call n).bind Call.current with
  | some k => ((s.caseAt k).map Case.isFire).getD false
  | none => false

/-- INTRUSION_FILTER_EXPIRY (R119): a lingering line releases without outcome; a FIRE case's call ignores the intrusion, the filter
started again; any other call yields. -/
def execIntrusionFilterExpiry (n : Fin 4) (s : State) : Result :=
  match s.call n with
  | none => .next s
  | some c =>
    if c.intrusion.isSome then
      match (s.line n).state with
      | .linger => .next (s.release n)
      | .offHook | .awaitHandshake | .exchange =>
        if s.carriesFire n then .next (s.updCall n fun c => { c with intrusion := some s.timing.intrusion })
        else .next (s.failCall n .yielded).answerLingers
      | _ => .next s
    else .next s

/-! ### Dialling -/

/-- ELEMENT_TIMER_EXPIRY (R132, R135, R141): the element ends; the next begins or dialling is complete, but a line whose adaptive
check runs waits for the check to decide. -/
def execElementTimerExpiry (n : Fin 4) (s : State) : Result :=
  match (s.call n).bind Call.dialling with
  | none => .next s
  | some g =>
    if g.element.isSome ∧ (s.line n).state = .dialling then
      let t := s.updDialling n fun g => { g with element := none }
      if g.adaptiveCheck.isSome then .next t else .next (t.nextElement n)
    else .next s

/-- The adaptive check decides for pulse (R137): the whole string is dialled again in pulse. -/
def State.redial (s : State) (n : Fin 4) : State :=
  (s.updDialling n fun g =>
    { g with manner := .pulse, position := 1, adaptiveCheck := none, learning := false, element := none }).nextElement n

/-- ADAPTIVE_CHECK_EXPIRY (R137, R138): the learned mode becomes PULSE (but as R139 says); a string with a star or a hash ends the call with
NO_DIAL_TONE, any other is dialled again in pulse. -/
def execAdaptiveCheckExpiry (n : Fin 4) (s : State) : Result :=
  match s.call n with
  | none => .next s
  | some c =>
    if (c.dialling.bind Dialling.adaptiveCheck).isSome ∧ (s.line n).state = .dialling then
      let t := s.updLine n fun l => l.learn .pulse
      if (s.dest c.dest).toneOnly then .next (t.failLine n .noDialTone .noDialTone).answerLingers
      else .next (t.redial n)
    else .next s

/-! ### The exchange -/

/-- HANDSHAKE_WAIT_EXPIRY (R143): NO_ANSWER to the lead case and a release. -/
def execHandshakeWaitExpiry (n : Fin 4) (s : State) : Result :=
  match s.call n with
  | none => .next s
  | some c =>
    if c.handshake.isSome ∧ (s.line n).state = .awaitHandshake then .next (s.failCall n .noAnswer).answerLingers
    else .next s

/-- BLOCK_SENT (R147): the phase becomes AWAITING and the response wait starts. -/
def execBlockSent (n : Fin 4) (s : State) : Result :=
  if s.blockPhase n = some .sending then
    .next (s.updBlock n fun b => { b with phase := .awaiting, response := some (s.exchange.response * 1000) })
  else .next s

/-- RESPONSE_WAIT_EXPIRY (R150): a repeat decision. -/
def execResponseWaitExpiry (n : Fin 4) (s : State) : Result :=
  if s.blockPhase n = some .awaiting ∧ (((s.call n).bind Call.block).bind BlockRun.response).isSome then
    .next (s.repeatBlock n).answerLingers
  else .next s

/-- LINGER_EXPIRY (R154): the line releases with no outcome. -/
def execLingerExpiry (n : Fin 4) (s : State) : Result :=
  match s.call n with
  | none => .next s
  | some c => if c.linger.isSome ∧ (s.line n).state = .linger then .next (s.release n) else .next s

end Sys2Proof.Machine
end

