-- ==== Sys2Proof/Machine/ConfigRequests.lean ====
section
/-! DEFINITION. The meanings of the configuration requests: admission, case limits, classes, destinations, plans, lines, timings, inputs and the test timer, with START TEST. -/

namespace Sys2Proof.Machine

/-! ### Case Table and classes -/

/-- WRITE ADMISSION (R35): link source, class and entry are checked in that order. -/
def State.writeAdmission (s : State) (linkSource cls entry : Nat) : State :=
  match indexOf 16 linkSource, postableOfCode cls, admissionOfCode entry with
  | some i, some (_, p), some a => (s.setAdmission i p a).answer .ok
  | _, _, _ => s.answer .badValue

def execWriteAdmission (src linkSource cls entry : Nat) (s : State) : Result :=
  .next ((s.takeFrame 6).controller src fun s => s.writeAdmission linkSource cls entry)

/-- WRITE CASE LIMITS (R19): both values are clamped to 16, and a lowered reserve offers the free space to the held posts. -/
def State.writeCaseLimits (s : State) (reserve threshold : Nat) : State :=
  let r := clamp 0 16 reserve
  let th := clamp 0 16 threshold
  let t := { s with reserve := r, lowThreshold := th }
  let t := if r < s.reserve then t.offerSpace.answerLingers else t
  t.answerWrite (decide (r ≠ reserve) || decide (th ≠ threshold))

def execWriteCaseLimits (src reserve threshold : Nat) (s : State) : Result :=
  .next ((s.takeFrame 5).controller src fun s => s.writeCaseLimits reserve threshold)

/-- The values of WRITE CLASS clamped to their ranges, the retry maximum then raised to the retry base (R54). -/
def ClassEntry.clamped (base step cap rb rm : Nat) : ClassEntry :=
  let retryBase := clamp 1 600 rb
  { base := clamp 0 223 base, ageStep := clamp 1 255 step, ageCap := clamp 0 63 cap, retryBase := retryBase,
    retryMax := max retryBase (clamp 1 3600 rm) }

/-- WRITE CLASS (R54): ADJUSTED wherever a value was clamped or raised, also where the entry held already is what is stored (log
entry 27). -/
def State.writeClass (s : State) (cls base step cap rb rm : Nat) : State :=
  match clsOfCode cls with
  | none => s.answer .badValue
  | some c =>
    let e := ClassEntry.clamped base step cap rb rm
    (s.setClassEntry c e).answerWrite (decide (e ≠ ⟨base, step, cap, rb, rm⟩))

def execWriteClass (src cls base step cap rb rm : Nat) (s : State) : Result :=
  .next ((s.takeFrame 11).controller src fun s => s.writeClass cls base step cap rb rm)

/-! ### Destinations and plans -/

/-- WRITE DESTINATION (R74): the destination, account, policy, dial string and call line are checked in that order; the toggle
and last outcome start again, and the Arbiter is told of a rewrite of an ENABLED destination. -/
def State.writeDestination (s : State) (dest d1 d2 d3 d4 policy : Nat) (symbols : List Nat) : State :=
  match indexOf 8 dest, accountOfCodes d1 d2 d3 d4, policyOfCode policy, dialStringOfCodes symbols with
  | some d, some a, some p, some dial =>
    if (s.dest d).callLine.isSome then s.answer .busy
    else
      let t := s.updDest d fun x =>
        { x with dial := dial, account := a, policy := p, toggle := false, last := .none }
      (if s.usable d then t.notify else t).answer .ok
  | _, _, _, _ => s.answer .badValue

def execWriteDestination (src dest d1 d2 d3 d4 policy : Nat) (symbols : List Nat) (s : State) : Result :=
  .next ((s.takeFrame (10 + symbols.length)).controller src fun s =>
    s.writeDestination dest d1 d2 d3 d4 policy symbols)

/-- SET DESTINATION STATE ENABLED (R75): a dial string must have been written; the Arbiter is told. -/
def State.enableDest (s : State) (d : Fin 8) : State :=
  if (s.dest d).dial = [] then s.answer .wrongState
  else if (s.dest d).state = .enabled then s.answer .unchanged
  else ((s.updDest d fun x => { x with state := .enabled }).notify).answer .ok

/-- SET DESTINATION STATE DISABLED (R76): the PENDING cases that wait at the destination are advanced. -/
def State.disableDest (s : State) (d : Fin 8) : State :=
  if (s.dest d).state = .disabled then s.answer .unchanged
  else (((s.updDest d fun x => { x with state := .disabled }).advanceWaiting d).answerLingers).answer .ok

/-- SET DESTINATION STATE (R75). -/
def State.setDestinationState (s : State) (dest state : Nat) : State :=
  match indexOf 8 dest, firstOfTwo state with
  | some d, some on => if on then s.enableDest d else s.disableDest d
  | _, _ => s.answer .badValue

def execSetDestinationState (src dest state : Nat) (s : State) : Result :=
  .next ((s.takeFrame 5).controller src fun s => s.setDestinationState dest state)

/-- A plan's destination list: at most four destinations, none twice (R80, R81). -/
def planListOfCodes (xs : List Nat) : Option (List (Fin 8)) :=
  if xs.length ≤ 4 then
    match xs.mapM (indexOf 8) with
    | some ds => if ds.Nodup then some ds else none
    | none => none
  else none

/-- The case in slot `k` is of class `c` (R82). -/
def State.ofClass (s : State) (c : Cls) (k : Fin 48) : Bool :=
  match s.caseAt k with
  | some x => decide (x.key.cls = c)
  | none => false

/-- A case of a rewritten plan's class starts the plan again, and is examined by the plan rule where it is PENDING (R82). -/
def State.restartCase (s : State) (k : Fin 48) : State :=
  match s.caseAt k with
  | none => s
  | some c =>
    let t := s.setCase k { c with progress := .zero, failed := 0 }
    if c.state = .pending then
      match t.currentDest { c with progress := .zero, failed := 0 } with
      | none => t
      | some d => if t.usable d then t else t.advance k none
    else t

/-- A plan is replaced and every case of its class starts it again; the Arbiter is then told (R82). -/
def State.replacePlan (s : State) (c : Cls) (p : Plan) : State :=
  ((List.finRange 48).foldl (fun t k => if t.ofClass c k then t.restartCase k else t) (s.setPlan c p)).notify

/-- WRITE PLAN (R81): class, list and duplicates are checked in that order, attempts and rounds clamped. -/
def State.writePlan (s : State) (cls : Nat) (dests : List Nat) (attempts rounds : Nat) : State :=
  match clsOfCode cls, planListOfCodes dests with
  | some c, some ds =>
    let a := clamp 1 8 attempts
    let r := clamp 1 3 rounds
    (s.replacePlan c ⟨ds, a, r⟩).answerLingers.answerWrite (decide (a ≠ attempts) || decide (r ≠ rounds))
  | _, _ => s.answer .badValue

def execWritePlan (src cls : Nat) (dests : List Nat) (attempts rounds : Nat) (s : State) : Result :=
  .next ((s.takeFrame (7 + dests.length)).controller src fun s => s.writePlan cls dests attempts rounds)

/-! ### Lines -/

/-- A disable (R124): what WRITE LINE with enable no does in each state of the line. -/
def State.disableLine (s : State) (n : Fin 4) : State :=
  match (s.line n).state with
  | .off => s
  | .idle | .inUse => s.updLine n fun l => { l with state := .off, classFilter := none }
  | .guarded => (s.updLine n fun l => { l with state := .off, guardTimer := none }).notifyWhileFire
  | .fault => s.exitFault n .off
  | .awaitPermit =>
    (((s.handOutcome n .abandoned).leaveQueue n).endCall n).updLine n fun l => { l with state := .off }
  | .offHook | .dialling | .awaitHandshake =>
    ((s.handOutcome n .abandoned).endCall n).updLine n fun l => { l with state := .off }
  | .exchange => s.updCall n fun c => { c with closePending := true }
  | .linger => (s.endCall n).updLine n fun l => { l with state := .off }

/-- An enable (R125): what WRITE LINE with enable yes does in each state of the line. A line in DIALLING is left to finish, and the
dialling notes the dial mode written (R123, R139). -/
def State.enableLine (s : State) (n : Fin 4) : State :=
  match (s.line n).state with
  | .off => (s.updLine n fun l => { l with failures := 0 }).classify n
  | .fault =>
    if (s.line n).cause = .noVoltage then s
    else ((s.updLine n fun l => { l with failures := 0 }).exitFault n .idle).classify n
  | .exchange => s.updCall n fun c => { c with closePending := false }
  | .idle | .inUse => s.updLine n fun l => { l with failures := 0 }
  | .dialling => s.updDialling n fun g => g.rewritten (s.line n).mode
  | .awaitPermit | .offHook | .awaitHandshake | .linger | .guarded => s

/-- WRITE LINE (R123): the settings are written, the learned mode becomes UNKNOWN, the enable acts, and the Arbiter is told. -/
def State.writeLine (s : State) (line enable forced mode : Nat) : State :=
  match indexOf 4 line, firstOfTwo enable, firstOfTwo forced, dialModeOfCode mode with
  | some n, some en, some fo, some m =>
    let t := s.updLine n fun l => { l with enabled := en, forced := fo, mode := m, learned := .unknown }
    let t := if en then t.enableLine n else t.disableLine n
    t.notify.answerLingers.answer .ok
  | _, _, _, _ => s.answer .badValue

def execWriteLine (src line enable forced mode : Nat) (s : State) : Result :=
  .next ((s.takeFrame 7).controller src fun s => s.writeLine line enable forced mode)

/-- The eight line timings clamped to their ranges, the differential first rounded down to a multiple of 3 (R126). -/
def LineTiming.clamped (x : LineTiming) : LineTiming :=
  { stagger := clamp 100 1000 x.stagger, check := clamp 100 500 x.check, settle := clamp 500 2000 x.settle,
    dialToneWait := clamp 2 10 x.dialToneWait, guardTime := clamp 1 10 x.guardTime, faultHold := clamp 60 3600 x.faultHold,
    differential := clamp 3 30 (x.differential / 3 * 3), intrusion := clamp 50 1000 x.intrusion }

/-- WRITE LINE TIMING (R126). -/
def State.writeLineTiming (s : State) (x : LineTiming) : State :=
  { s with timing := x.clamped }.answerWrite (decide (x.clamped ≠ x))

def execWriteLineTiming (src stagger check settle dialTone guardTime hold differential filter : Nat) (s : State) :
    Result :=
  .next ((s.takeFrame 16).controller src fun s =>
    s.writeLineTiming ⟨stagger, check, settle, dialTone, guardTime, hold, differential, filter⟩)

/-- The five exchange settings clamped to their ranges (R156). -/
def ExchangeTiming.clamped (x : ExchangeTiming) : ExchangeTiming :=
  { handshake := clamp 10 60 x.handshake, response := clamp 2 10 x.response, repeatLimit := clamp 0 5 x.repeatLimit,
    blockLimit := clamp 1 32 x.blockLimit, linger := clamp 0 30 x.linger }

/-- WRITE EXCHANGE TIMING (R156). -/
def State.writeExchangeTiming (s : State) (x : ExchangeTiming) : State :=
  { s with exchange := x.clamped }.answerWrite (decide (x.clamped ≠ x))

def execWriteExchangeTiming (src handshake response repeats blocks linger : Nat) (s : State) : Result :=
  .next ((s.takeFrame 8).controller src fun s =>
    s.writeExchangeTiming ⟨handshake, response, repeats, blocks, linger⟩)

/-! ### Contact inputs -/

/-- The Case Table holds a case whose source is that of input `i` (R169). -/
def State.inputHasCase (s : State) (i : Fin 8) : Bool := s.cases.any fun c => c.key.source = 16 + i.val

/-- WRITE INPUT (R169): input, class, zone, latch mode and sampling are checked, then the cases of the input; the filter time
and retard are clamped, the working state starts again, and the channel is marked written (R172, log entry 30). -/
def State.writeInput (s : State) (input cls zone latch sampling filter retard : Nat) : State :=
  match indexOf 8 input, inputClsOfCode cls, latchOfCode latch, samplingOfCode sampling with
  | some i, some c, some la, some sa =>
    if 999 < zone then s.answer .badValue
    else if s.inputHasCase i then s.answer .busy
    else
      let f := clamp 50 5000 filter
      let r := clamp 0 120 retard
      (s.updInput i fun x =>
        { x.restart with
          cls := c, zone := zone, latch := la, sampling := sa, filterMs := f, retard := r, written := true }).answerWrite
        (decide (f ≠ filter) || decide (r ≠ retard))
  | _, _, _, _ => s.answer .badValue

def execWriteInput (src input cls zone latch sampling filter retard : Nat) (s : State) : Result :=
  .next ((s.takeFrame 12).controller src fun s => s.writeInput input cls zone latch sampling filter retard)

/-- A disable of a channel (R170): its raised cases are restored and its working state starts again. -/
def State.disableInput (s : State) (i : Fin 8) : State :=
  let t := if (s.input i).alarm = .raised then s.internalRestore (s.alarmKey i) else s
  let t := if (s.input i).trouble = .raised then t.internalRestore (t.troubleKey i) else t
  t.updInput i fun x => { x.restart with enabled := false }

/-- SET INPUT STATE (R170). An enable is taken on a channel never written since power-on reset too: it then judges its samples, and
`State.channelPost` withholds its posts (R172, log entry 30). -/
def State.setInputState (s : State) (input state : Nat) : State :=
  match indexOf 8 input, firstOfTwo state with
  | some i, some on =>
    if (s.input i).enabled = on then s.answer .unchanged
    else if on then (s.updInput i fun x => { x with enabled := true }).answer .ok
    else (s.disableInput i).answerLingers.answer .ok
  | _, _ => s.answer .badValue

def execSetInputState (src input state : Nat) (s : State) : Result :=
  .next ((s.takeFrame 5).controller src fun s => s.setInputState input state)

/-- UNLATCH INPUT (R166). -/
def State.unlatchInput (s : State) (input : Nat) : State :=
  match indexOf 8 input with
  | none => s.answer .badValue
  | some i =>
    let c := s.input i
    if !c.latched then s.answer .unchanged
    else if c.accepted ≠ .normal then s.answer .wrongState
    else
      ((s.internalRestore (s.alarmKey i)).updInput i fun x => { x with alarm := .quiet }).answerLingers.answer .ok

def execUnlatchInput (src input : Nat) (s : State) : Result :=
  .next ((s.takeFrame 4).controller src fun s => s.unlatchInput input)

/-! ### Test Timer -/

/-- WRITE TEST TIMER (R175). -/
def State.writeTestTimer (s : State) (mode period : Nat) : State :=
  match testModeOfCode mode with
  | none => s.answer .badValue
  | some m =>
    let p := clamp 1 168 period
    { s with testTimer := ⟨m, p, p * 3600⟩ }.answerWrite (decide (p ≠ period))

def execWriteTestTimer (src mode period : Nat) (s : State) : Result :=
  .next ((s.takeFrame 5).controller src fun s => s.writeTestTimer mode period)

/-- START TEST (R176): the test key is posted, and the reply shows what came of it. -/
def State.startTest (s : State) : State :=
  match s.internalPost .test testKey with
  | (.created k, t) => t.answerLingers.answerHandle .created k
  | (.applied k, t) => t.answerHandle .existing k
  | (.held, t) => t.answer .ok

def execStartTest (src : Nat) (s : State) : Result :=
  .next ((s.takeFrame 3).controller src fun s => s.startTest)

end Sys2Proof.Machine
end

