-- ==== Sys2Proof/Machine/PartEvents.lean ====
section
/-! DEFINITION. The meanings of the part's own events: malformed frames and read transactions, the two resets, the Seconds Clock, the Test Timer's expiry and the dispatch pass. -/

namespace Sys2Proof.Machine

/-! ### The link -/

/-- BAD_REQUEST (R182): a malformed frame changes nothing but the reply, and the overrun its taking may cause (R181). -/
def execBadRequest (frame : List Byte) (s : State) : Result :=
  .next ((s.takeFrame frame.length).answer .badRequest)

/-- The bytes of a reply on serial data out: status, body length, body (R180). -/
def Reply.bytes (r : Reply) : List Byte := field1 r.status.code ++ field1 r.body.length ++ r.body

/-- READ_TRANSACTION (R180): `clocked` bytes follow the first; on them the part sends the waiting reply, or NO_REPLY with body
length 0, and then 0x00; the reply has then been read. -/
def execReadTransaction (clocked : Nat) (s : State) : Result :=
  let bytes := match s.reply with
    | some r => r.bytes
    | none => Reply.bytes ⟨.noReply, []⟩
  .next { s with reply := none, serialOut := (bytes ++ List.replicate clocked 0).take clocked }

/-! ### Resets -/

/-- POWER_ON_RESET (R30, R128 and the rules named at `State.reset`). The model's queue and draw of free values go on. -/
def execPowerOnReset (s : State) : Result :=
  .next { State.reset with pending := s.pending, freeCount := s.freeCount }

/-- A line at SOFT RESET (R129): on-hook without a call, its timers cancelled, its settings and latest sample kept; GUARD where it
is enabled and OFF where it is not (log entry 22). -/
def Line.softReset (l : Line) (guardMs : Nat) : Line :=
  { l with
    learned := .unknown, failures := 0, cause := .none, failureCause := .none, classFilter := none, recovery := none
    faultHold := none, call := none
    state := if l.enabled then .guarded else .off
    guardTimer := if l.enabled then some guardMs else none }

/-- The part after SOFT RESET (R189, R30, R84, R86, R129, R172, R173, R186, R187). Each call that ends is told to the
Arbiter (R71, log entry 4); a FIRE case discarded while fire waits is not (log entry 28). -/
def State.afterSoftReset (s : State) : State :=
  { s with
    slots := Vector.replicate 48 { gen := 0, occ := none }
    heldPosts := Vector.replicate 21 none
    fireWaiting := false
    passesDue := s.passesDue + s.lines.toList.countP fun l => l.call.isSome
    dests := s.dests.map fun d => { d with callLine := none }
    lines := s.lines.map fun l => l.softReset (s.timing.guardTime * 1000)
    permit := { s.permit with queue := [] }
    inputs := s.inputs.map Channel.restart
    testTimer := { s.testTimer with remaining := s.testTimer.period * 3600 }
    causes := 0
    clock := 0 }

/-- SOFT_RESET (R189): a controller request, its own reply waiting after the reset. -/
def execSoftReset (src : Nat) (s : State) : Result :=
  .next ((s.takeFrame 3).controller src fun s => s.afterSoftReset.answer .ok)

/-! ### Clock, Test Timer, Arbiter -/

/-- The case in slot `k` is PENDING and its retry time is the clock's time (R62, R186). -/
def State.retryDue (s : State) (k : Fin 48) : Bool :=
  match s.caseAt k with
  | some c => decide (c.state = .pending) && decide (c.retry = s.clock)
  | none => false

/-- SECONDS_CLOCK_ADVANCE (R186): the clock moves on one second, the notices of R62 are given, and a running Test Timer counts
down (R173). -/
def execSecondsClockAdvance (s : State) : Result :=
  let t := { s with clock := s.clock + 1 }
  let due := (List.finRange 48).countP t.retryDue
  let timer := if s.testTimer.mode = .off then s.testTimer
    else { s.testTimer with remaining := s.testTimer.remaining - 1 }
  .next { t with passesDue := s.passesDue + due, testTimer := timer }

/-- TEST_TIMER_EXPIRY (R174): a running timer that has reached 0 posts the test key, and then reloads in AUTO or turns OFF in
SINGLE. A timer that is OFF or has seconds remaining does not expire (log entry 5). -/
def execTestTimerExpiry (s : State) : Result :=
  if s.testTimer.mode ≠ .off ∧ s.testTimer.remaining = 0 then
    let t := (s.internalPost .test testKey).2
    let timer := if s.testTimer.mode = .auto then { s.testTimer with remaining := s.testTimer.period * 3600 }
      else { s.testTimer with mode := .off }
    .next { t with testTimer := timer }.answerLingers
  else .next s

/-- DISPATCH_PASS (R90, R91): one notice is taken and a pass made. Without a notice no pass starts (log entry 3). -/
def execDispatchPass (s : State) : Result :=
  if s.passesDue = 0 then .next s else .next { s with passesDue := s.passesDue - 1 }.pass

end Sys2Proof.Machine
end

