-- ==== Sys2Proof/Machine/ReadRequests.lean ====
section
/-! DEFINITION. The meanings of the reading requests (READ CONFIG, READ LINE, READ DESTINATION, READ INPUT, READ STATUS, READ TIME) and of WRITE MASK, with the layouts of their replies (R183, R185). -/

namespace Sys2Proof.Machine

/-! ### READ CONFIG (R185) -/

/-- The body of READ CONFIG for an item and index; none outside the table of R185. The fire-waiting indication is 1 for true and 0 for
false (log entry 31). -/
def State.configBody (s : State) (item index : Nat) : Option (List Byte) :=
  match item with
  | 0 => if index = 0 then some (field1 s.reserve ++ field1 s.lowThreshold) else none
  | 1 =>
    (indexOf 16 index).map fun i =>
      (List.finRange 4).flatMap fun p => field1 (s.admissionOf i p).code
  | 2 =>
    (clsOfCode index).map fun c =>
      let e := s.classEntry c
      field1 e.base ++ field1 e.ageStep ++ field1 e.ageCap ++ field2 e.retryBase ++ field2 e.retryMax ++
        field1 (if s.fireWaiting then 1 else 0)
  | 3 =>
    (clsOfCode index).map fun c =>
      let p := s.plan c
      let entry := fun i => field1 ((p.dests[i]?.map Fin.val).getD 0)
      field1 p.dests.length ++ entry 0 ++ entry 1 ++ entry 2 ++ entry 3 ++ field1 p.attempts ++ field1 p.rounds
  | 4 =>
    if index = 0 then
      let x := s.timing
      some (field2 x.stagger ++ field2 x.check ++ field2 x.settle ++ field1 x.dialToneWait ++ field1 x.guardTime ++
        field2 x.faultHold ++ field1 x.differential ++ field2 x.intrusion)
    else none
  | 5 =>
    if index = 0 then
      let x := s.exchange
      some (field1 x.handshake ++ field1 x.response ++ field1 x.repeatLimit ++ field1 x.blockLimit ++ field1 x.linger)
    else none
  | 6 =>
    if index = 0 then
      some ((List.finRange 8).flatMap fun i =>
        let c := s.input i
        field1 (codeOfFirst c.enabled) ++ field1 c.cls.code ++ field2 c.zone)
    else none
  | 7 =>
    if index = 0 then
      some (field1 s.testTimer.mode.code ++ field1 s.testTimer.period ++ field4 s.testTimer.remaining)
    else none
  | 8 => (indexOf 21 index).map fun p => fieldOpt 4 ((s.heldAt p).map fieldKey)
  | _ => none

/-- READ CONFIG (R185). -/
def State.readConfig (s : State) (item index : Nat) : State :=
  match s.configBody item index with
  | none => s.answer .badValue
  | some body => s.answer .ok body

def execReadConfig (src item index : Nat) (s : State) : Result :=
  .next ((s.takeFrame 5).anySource src fun s => s.readConfig item index)

/-! ### READ LINE (R127) -/

/-- The body of READ LINE, its fields in the order of R127. -/
def State.lineBody (s : State) (n : Fin 4) : List Byte :=
  let l := s.line n
  field1 l.state.code ++ field1 l.cause.code ++ field1 l.learned.code ++ field1 l.failures ++
    fieldOpt 1 ((l.call.bind Call.reference).map field1) ++
    fieldOpt 2 (l.sample.map fun x => field1 x.volts ++ field1 x.milliamps) ++
    field1 (codeOfFirst l.enabled) ++ field1 (codeOfFirst l.forced) ++ field1 l.mode.code ++
    fieldOpt 1 (l.call.map fun c => field1 c.dest.val)

/-- READ LINE (R127). -/
def State.readLine (s : State) (line : Nat) : State :=
  match indexOf 4 line with
  | none => s.answer .badValue
  | some n => s.answer .ok (s.lineBody n)

def execReadLine (src line : Nat) (s : State) : Result :=
  .next ((s.takeFrame 4).anySource src fun s => s.readLine line)

/-! ### READ DESTINATION (R77) -/

/-- The body of READ DESTINATION, its fields in the order of R77, the dial string after its symbol count. -/
def Destination.body (x : Destination) : List Byte :=
  field1 x.dial.length ++ x.dial.flatMap (fun y => field1 y.code) ++ x.account.digits.flatMap field1 ++
    field1 x.state.code ++ field1 (if x.toggle then 1 else 0) ++ field1 x.policy.code ++ field1 x.last.code ++
    fieldOpt 1 (x.callLine.map fun n => field1 n.val)

/-- READ DESTINATION (R77). -/
def State.readDestination (s : State) (dest : Nat) : State :=
  match indexOf 8 dest with
  | none => s.answer .badValue
  | some d => s.answer .ok (s.dest d).body

def execReadDestination (src dest : Nat) (s : State) : Result :=
  .next ((s.takeFrame 4).anySource src fun s => s.readDestination dest)

/-! ### READ INPUT (R171) -/

/-- The whole seconds of a running retard that are left, rounded down (R183): the seconds it was started for less those the
clock shows since, less one where the part of a second gone by, a free value, makes it so (log entry 9). -/
def State.retardLeft (s : State) (r : RetardRun) : Nat :=
  r.seconds - s.since r.started - (if Config.freeRetardSecond s.freeCount then 1 else 0)

/-- The retard remaining field: present while the alarm stage is RETARDING (R183). -/
def State.retardField (s : State) (c : Channel) : Option (List Byte) :=
  if c.alarm = .retarding then c.retardTimer.map fun r => field1 (s.retardLeft r) else none

/-- The body of READ INPUT, its fields in the order of R171 and R160. -/
def State.inputBody (s : State) (i : Fin 8) : List Byte :=
  let c := s.input i
  field1 (codeOfFirst c.enabled) ++ field1 c.cls.code ++ field2 c.zone ++ field1 c.latch.code ++
    field1 c.sampling.code ++ field2 c.filterMs ++ field1 c.retard ++
    fieldOpt 1 (c.sample.map field1) ++ field1 c.accepted.code ++
    fieldOpt 1 (c.candidate.map fun x => field1 x.code) ++ field1 c.alarm.code ++
    fieldOpt 1 (s.retardField c) ++ field1 (if c.latched then 1 else 0) ++ field1 c.trouble.code ++
    fieldOpt 4 ((s.heldAt (Poster.inputAlarm i).position).map fieldKey) ++
    fieldOpt 4 ((s.heldAt (Poster.inputTrouble i).position).map fieldKey)

/-- READ INPUT (R171): it changes nothing of the part; the model's draw of free values moves on where one was used. -/
def State.readInput (s : State) (input : Nat) : State :=
  match indexOf 8 input with
  | none => s.answer .badValue
  | some i =>
    let t := s.answer .ok (s.inputBody i)
    if (s.input i).alarm = .retarding then { t with freeCount := s.freeCount + 1 } else t

def execReadInput (src input : Nat) (s : State) : Result :=
  .next ((s.takeFrame 4).anySource src fun s => s.readInput input)

/-! ### Attention and time -/

/-- READ STATUS (R188): the causes and the mask are returned and every cause is cleared. -/
def State.readStatus (s : State) : State := { s with causes := 0 }.answer .ok [s.causes, s.mask]

def execReadStatus (src : Nat) (s : State) : Result :=
  .next ((s.takeFrame 3).controller src fun s => s.readStatus)

/-- WRITE MASK (R187). -/
def execWriteMask (src mask : Nat) (s : State) : Result :=
  .next ((s.takeFrame 4).controller src fun s => { s with mask := byteOf mask }.answer .ok)

/-- READ TIME (R186). -/
def execReadTime (src : Nat) (s : State) : Result :=
  .next ((s.takeFrame 3).anySource src fun s => s.answer .ok (field4 s.clock.toNat))

end Sys2Proof.Machine
end

