-- ==== Sys2Proof/Machine/Dispatch.lean ====
section
/-! DEFINITION. exec: one arm per command, each one call of its meaning. -/

namespace Sys2Proof.Machine

def exec (i : Instr) (s : State) : Host.Outcome State Fault Refusal :=
  match i with
  | .post source zone cls detail => Sys2Proof.Machine.execPost source zone cls detail s
  | .restore source target => Sys2Proof.Machine.execRestore source target s
  | .withdraw source handle => Sys2Proof.Machine.execWithdraw source handle s
  | .find source keySource zone cls => Sys2Proof.Machine.execFind source keySource zone cls s
  | .readCase source handle => Sys2Proof.Machine.execReadCase source handle s
  | .nextCase source start filter => Sys2Proof.Machine.execNextCase source start filter s
  | .clear source handle => Sys2Proof.Machine.execClear source handle s
  | .rearm source handle => Sys2Proof.Machine.execRearm source handle s
  | .writeAdmission source linkSource cls entry => Sys2Proof.Machine.execWriteAdmission source linkSource cls entry s
  | .writeCaseLimits source reserve threshold => Sys2Proof.Machine.execWriteCaseLimits source reserve threshold s
  | .writeClass source cls base ageStep ageCap retryBase retryMax => Sys2Proof.Machine.execWriteClass source cls base ageStep ageCap retryBase retryMax s
  | .writeDestination source dest d1 d2 d3 d4 policy symbols => Sys2Proof.Machine.execWriteDestination source dest d1 d2 d3 d4 policy symbols s
  | .setDestinationState source dest state => Sys2Proof.Machine.execSetDestinationState source dest state s
  | .writePlan source cls dests attempts rounds => Sys2Proof.Machine.execWritePlan source cls dests attempts rounds s
  | .writeLine source line enable forced mode => Sys2Proof.Machine.execWriteLine source line enable forced mode s
  | .writeLineTiming source stagger check settle dialTone guardTime hold differential filter => Sys2Proof.Machine.execWriteLineTiming source stagger check settle dialTone guardTime hold differential filter s
  | .writeExchangeTiming source handshake response repeats blocks linger => Sys2Proof.Machine.execWriteExchangeTiming source handshake response repeats blocks linger s
  | .writeInput source input cls zone latch sampling filter retard => Sys2Proof.Machine.execWriteInput source input cls zone latch sampling filter retard s
  | .setInputState source input state => Sys2Proof.Machine.execSetInputState source input state s
  | .unlatchInput source input => Sys2Proof.Machine.execUnlatchInput source input s
  | .writeTestTimer source mode period => Sys2Proof.Machine.execWriteTestTimer source mode period s
  | .startTest source => Sys2Proof.Machine.execStartTest source s
  | .readConfig source item index => Sys2Proof.Machine.execReadConfig source item index s
  | .readLine source line => Sys2Proof.Machine.execReadLine source line s
  | .readDestination source dest => Sys2Proof.Machine.execReadDestination source dest s
  | .readInput source input => Sys2Proof.Machine.execReadInput source input s
  | .readStatus source => Sys2Proof.Machine.execReadStatus source s
  | .writeMask source mask => Sys2Proof.Machine.execWriteMask source mask s
  | .readTime source => Sys2Proof.Machine.execReadTime source s
  | .softReset source => Sys2Proof.Machine.execSoftReset source s
  | .badRequest frame => Sys2Proof.Machine.execBadRequest frame s
  | .readTransaction clocked => Sys2Proof.Machine.execReadTransaction clocked s
  | .powerOnReset => Sys2Proof.Machine.execPowerOnReset s
  | .secondsClockAdvance => Sys2Proof.Machine.execSecondsClockAdvance s
  | .testTimerExpiry => Sys2Proof.Machine.execTestTimerExpiry s
  | .dispatchPass => Sys2Proof.Machine.execDispatchPass s
  | .lineSample line volts milliamps => Sys2Proof.Machine.execLineSample line volts milliamps s
  | .dialToneOn line => Sys2Proof.Machine.execDialToneOn line s
  | .dialToneOff line => Sys2Proof.Machine.execDialToneOff line s
  | .busyTone line => Sys2Proof.Machine.execBusyTone line s
  | .receivedSymbol line symbol => Sys2Proof.Machine.execReceivedSymbol line symbol s
  | .classificationFilterExpiry line => Sys2Proof.Machine.execClassificationFilterExpiry line s
  | .recoveryTimerExpiry line => Sys2Proof.Machine.execRecoveryTimerExpiry line s
  | .staggerTimerExpiry => Sys2Proof.Machine.execStaggerTimerExpiry s
  | .offHookCheckExpiry line => Sys2Proof.Machine.execOffHookCheckExpiry line s
  | .settleTimerExpiry line => Sys2Proof.Machine.execSettleTimerExpiry line s
  | .dialToneWaitExpiry line => Sys2Proof.Machine.execDialToneWaitExpiry line s
  | .intrusionFilterExpiry line => Sys2Proof.Machine.execIntrusionFilterExpiry line s
  | .guardExpiry line => Sys2Proof.Machine.execGuardExpiry line s
  | .faultHoldExpiry line => Sys2Proof.Machine.execFaultHoldExpiry line s
  | .elementTimerExpiry line => Sys2Proof.Machine.execElementTimerExpiry line s
  | .adaptiveCheckExpiry line => Sys2Proof.Machine.execAdaptiveCheckExpiry line s
  | .handshakeWaitExpiry line => Sys2Proof.Machine.execHandshakeWaitExpiry line s
  | .blockSent line => Sys2Proof.Machine.execBlockSent line s
  | .responseWaitExpiry line => Sys2Proof.Machine.execResponseWaitExpiry line s
  | .lingerExpiry line => Sys2Proof.Machine.execLingerExpiry line s
  | .inputSample input count => Sys2Proof.Machine.execInputSample input count s
  | .levelFilterExpiry input => Sys2Proof.Machine.execLevelFilterExpiry input s
  | .retardTimerExpiry input => Sys2Proof.Machine.execRetardTimerExpiry input s

end Sys2Proof.Machine
end

