-- ==== Sys2Proof/Safety.lean ====
section
/-! DEFINITION. What a sound state of the part is, in the terms the claims use: the records' own rules, the agreements between records, the ranges of the settings, and the named ways a state can stand around an event. -/

namespace Sys2Proof.Machine

/-! ### Case records -/

/-- The owed lists a case can hold, by class and condition (R11). -/
def Case.owedAllowed (c : Case) : Prop :=
  if c.key.cls = .test then c.condition = .restored ∧ c.owed = [.test]
  else
    match c.condition with
    | .active => c.owed = [] ∨ c.owed = [.alarm] ∨ c.owed = [.restore, .alarm]
    | .restored => c.owed = [.restore] ∨ c.owed = [.alarm, .restore] ∨ c.owed = [.restore, .alarm, .restore]

/-- A sound case record: its list is one of R11's, it is HELD exactly when it owes nothing (R9), it names a line exactly while it
is SENDING (R8), chatter is at most 9 and 0 without an owed ALARM (R7), and the failed total is at most 255 (R6). -/
structure Case.Sound (c : Case) : Prop where
  owed : c.owedAllowed
  held : c.state = .held ↔ c.owed = []
  line : c.line.isSome ↔ c.state = .sending
  chatter : c.chatter ≤ 9
  quiet : ReportKind.alarm ∉ c.owed → c.chatter = 0
  failed : c.failed ≤ 255

/-- Every case held is sound. -/
def State.CasesSound (s : State) : Prop := ∀ (k : Fin 48) (c : Case), s.caseAt k = some c → c.Sound

/-- No two cases held at the same time have the same key (R3). -/
def State.KeysDistinct (s : State) : Prop :=
  ∀ (j k : Fin 48) (a b : Case), s.caseAt j = some a → s.caseAt k = some b → a.key = b.key → j = k

/-! ### Progress along the plans -/

/-- Every plan allows at least one attempt and one round (R80); a PENDING or SENDING case whose plan is not empty stands within it
(R64); and no PENDING case rests at a destination that is not usable (R10). -/
structure State.PlanSound (s : State) : Prop where
  limits : ∀ c : Cls, 1 ≤ (s.plan c).attempts ∧ 1 ≤ (s.plan c).rounds
  within : ∀ (k : Fin 48) (c : Case), s.caseAt k = some c → c.state = .pending ∨ c.state = .sending →
    (s.plan c.key.cls).dests ≠ [] →
      c.progress.step < (s.plan c.key.cls).dests.length ∧ c.progress.attempts < (s.plan c.key.cls).attempts ∧
        c.progress.round < (s.plan c.key.cls).rounds
  usable : ∀ (d : Fin 8) (k : Fin 48), s.pendingAt d k = true → s.usable d = true

/-! ### Lines, calls and the permit -/

/-- A line has a call context exactly in the states in which a call is open (R106); a destination's call line is the line that
holds the call to it (R71); and the permit queue holds each line in AWAIT PERMIT once and no other (R110). -/
structure State.CallsSound (s : State) : Prop where
  opened : ∀ n : Fin 4, (s.call n).isSome = (s.line n).state.inCall
  callLine : ∀ (d : Fin 8) (n : Fin 4), (s.dest d).callLine = some n ↔ (s.call n).map Call.dest = some d
  queued : ∀ n : Fin 4, n ∈ s.permit.queue.map PermitWait.line ↔ (s.line n).state = .awaitPermit
  once : (s.permit.queue.map PermitWait.line).Nodup

/-- The calls are sound, and the cases and the calls name one another: a SENDING case names the line whose call has it as its current
case, a current case is SENDING on that line (R8), and only a lingering call has none (R142). -/
structure State.CarriedSound (s : State) : Prop where
  calls : s.CallsSound
  sending : ∀ (k : Fin 48) (c : Case), s.caseAt k = some c → c.state = .sending →
    ∃ n : Fin 4, c.line = some n ∧ (s.call n).bind Call.current = some k
  current : ∀ (n : Fin 4) (k : Fin 48), (s.call n).bind Call.current = some k →
    ∃ c : Case, s.caseAt k = some c ∧ c.state = .sending ∧ c.line = some n
  carried : ∀ (n : Fin 4) (c : Call), s.call n = some c → (c.current = none ↔ (s.line n).state = .linger)

/-- A line is disabled exactly where it is OFF or closing, and only a line in EXCHANGE is closing (R124, R125). -/
structure State.EnablesSound (s : State) : Prop where
  closing : ∀ n : Fin 4, s.closing n = true → (s.line n).state = .exchange
  disabled : ∀ n : Fin 4, (s.line n).enabled = false ↔ (s.line n).state = .off ∨ s.closing n = true

/-- The permit is held exactly while the stagger timer runs, no line waits for a free permit (R110, R111), and the lines whose lead
case is FIRE stand first (R110). -/
structure State.PermitSound (s : State) : Prop where
  stagger : s.permit.holder.isSome = s.permit.stagger.isSome
  waiting : s.permit.queue ≠ [] → s.permit.holder.isSome = true
  fireFirst : s.permit.queue.Pairwise fun a b => b.fire = true → a.fire = true

/-- The destination a line lingers on, if it lingers. -/
def State.lingersOn (s : State) (n : Fin 4) : Option (Fin 8) :=
  if (s.line n).state = .linger then (s.call n).map Call.dest else none

/-- No lingering line has a PENDING case at its destination: every standing request that can be answered has been (R101). -/
abbrev State.NoOffer (s : State) : Prop :=
  ∀ (n : Fin 4) (d : Fin 8), s.lingersOn n = some d → ∀ k : Fin 48, s.pendingAt d k = false

/-- No line lingers on a destination. -/
abbrev State.NobodyOn (s : State) (d : Fin 8) : Prop := ∀ n : Fin 4, s.lingersOn n ≠ some d

/-- No post is held. -/
abbrev State.NoHeld (s : State) : Prop := ∀ p : Fin 21, s.heldAt p = none

/-! ### Settings -/

/-- A key within the ranges of the case record (chapter 1). -/
def Key.InRange (k : Key) : Prop := k.source ≤ 24 ∧ k.zone ≤ 999

def ClassEntry.InRange (e : ClassEntry) : Prop :=
  e.base ≤ 223 ∧ 1 ≤ e.ageStep ∧ e.ageStep ≤ 255 ∧ e.ageCap ≤ 63 ∧ 1 ≤ e.retryBase ∧ e.retryBase ≤ 600 ∧
    e.retryBase ≤ e.retryMax ∧ e.retryMax ≤ 3600

def Plan.InRange (p : Plan) : Prop :=
  p.dests.length ≤ 4 ∧ p.dests.Nodup ∧ 1 ≤ p.attempts ∧ p.attempts ≤ 8 ∧ 1 ≤ p.rounds ∧ p.rounds ≤ 3

def LineTiming.InRange (x : LineTiming) : Prop :=
  100 ≤ x.stagger ∧ x.stagger ≤ 1000 ∧ 100 ≤ x.check ∧ x.check ≤ 500 ∧ 500 ≤ x.settle ∧ x.settle ≤ 2000 ∧
    2 ≤ x.dialToneWait ∧ x.dialToneWait ≤ 10 ∧ 1 ≤ x.guardTime ∧ x.guardTime ≤ 10 ∧ 60 ≤ x.faultHold ∧
    x.faultHold ≤ 3600 ∧ 3 ≤ x.differential ∧ x.differential ≤ 30 ∧ x.differential % 3 = 0 ∧ 50 ≤ x.intrusion ∧
    x.intrusion ≤ 1000

def ExchangeTiming.InRange (x : ExchangeTiming) : Prop :=
  10 ≤ x.handshake ∧ x.handshake ≤ 60 ∧ 2 ≤ x.response ∧ x.response ≤ 10 ∧ x.repeatLimit ≤ 5 ∧ 1 ≤ x.blockLimit ∧
    x.blockLimit ≤ 32 ∧ x.linger ≤ 30

def Channel.InRange (c : Channel) : Prop :=
  (c.cls = .fire ∨ c.cls = .waterflow ∨ c.cls = .boiler) ∧ c.zone ≤ 999 ∧ 50 ≤ c.filterMs ∧ c.filterMs ≤ 5000 ∧ c.retard ≤ 120

/-- A dial string that is still empty or is one of R69: at most 24 symbols, one of them no pause. -/
def Destination.InRange (x : Destination) : Prop := x.dial = [] ∨ (x.dial.length ≤ 24 ∧ ∃ y ∈ x.dial, y ≠ .pause)

def TestTimer.InRange (x : TestTimer) : Prop := 1 ≤ x.period ∧ x.period ≤ 168 ∧ x.remaining ≤ 604800

/-- Every setting lies in the range its rule gives it, and every key in the ranges of the case record. -/
structure State.SettingsInRange (s : State) : Prop where
  reserve : s.reserve ≤ 16
  threshold : s.lowThreshold ≤ 16
  classes : ∀ c : Cls, (s.classEntry c).InRange
  plans : ∀ c : Cls, (s.plan c).InRange
  dests : ∀ d : Fin 8, (s.dest d).InRange
  timing : s.timing.InRange
  exchange : s.exchange.InRange
  inputs : ∀ i : Fin 8, (s.input i).InRange
  testTimer : s.testTimer.InRange
  failures : ∀ n : Fin 4, (s.line n).failures ≤ 3
  held : ∀ (p : Fin 21) (k : Key), s.heldAt p = some k → k.InRange
  keys : ∀ (k : Fin 48) (c : Case), s.caseAt k = some c → c.key.InRange

/-! ### Contact inputs -/

/-- A disabled channel judges nothing: no filter or retard runs, its accepted level is NORMAL, its candidate none and its stages QUIET
(R160). -/
def Channel.Idle (c : Channel) : Prop :=
  c.accepted = .normal ∧ c.candidate = none ∧ c.levelFilter = none ∧ c.alarm = .quiet ∧ c.retardTimer = none ∧ c.trouble = .quiet

/-- Every disabled channel is idle. -/
def State.ChannelsIdle (s : State) : Prop := ∀ i : Fin 8, (s.input i).enabled = false → (s.input i).Idle

/-- The source of a channel never written since power-on reset has no case and no held post (R172). -/
structure State.UnwrittenSilent (s : State) : Prop where
  cases : ∀ (i : Fin 8) (k : Fin 48) (c : Case), (s.input i).written = false → s.caseAt k = some c → c.key.source ≠ 16 + i.val
  held : ∀ (i : Fin 8) (p : Fin 21) (key : Key), (s.input i).written = false → s.heldAt p = some key → key.source ≠ 16 + i.val

/-! ### The requests of the link -/

/-- The codes of the controller requests (R182). -/
def controllerCodes : List Nat :=
  [0x07, 0x08, 0x10, 0x11, 0x12, 0x13, 0x14, 0x15, 0x16, 0x17, 0x18, 0x19, 0x1A, 0x1B, 0x1C, 0x1D, 0x24, 0x25, 0x3F]

/-- The statuses by which a request is refused (R31, R74, R169, R182). -/
def Status.refusal : Status → Bool
  | .noCase | .full | .denied | .notOwner | .inFlight | .delivered | .wrongState | .busy | .badValue | .badRequest => true
  | .ok | .created | .existing | .renewed | .adjusted | .unchanged | .noReply => false

/-- The number of non-FIRE cases held (R17). -/
abbrev State.otherCases (s : State) : Nat := s.cases.countP fun c => c.key.cls ≠ .fire

/-- A RESTORE of the source `src` names the case in slot `k`: by its handle, or by zone and class of a key of its own (R39). -/
def State.restoreNames (s : State) (src : Nat) (target : RestoreTarget) (k : Fin 48) : Prop :=
  match target with
  | .byHandle h => s.caseOfHandle h = some k
  | .byKey zone code => zone ≤ 999 ∧ ∃ c p, postableOfCode code = some (c, p) ∧ s.caseOfKey ⟨src, zone, c⟩ = some k

/-- The length of a RESTORE frame (R182). -/
def restoreBytes : RestoreTarget → Nat
  | .byHandle _ => 6
  | .byKey _ _ => 7

/-! ### Ends of a call -/

/-- A case after an outcome that is treated as uncharged (R25, R28). -/
def Case.uncharged (x : Case) (kind : OutcomeKind) (now : Time) : Case :=
  { x with state := .pending, last := kind, line := none, retry := now }

/-- A case after a charged failure with attempts left at its destination (R25, R27). -/
def Case.chargedBy (x : Case) (kind : OutcomeKind) (retry : Time) : Case :=
  { x with state := .pending, last := kind, line := none, retry := retry, failed := min 255 (x.failed + 1),
           progress := { x.progress with attempts := x.progress.attempts + 1 } }

/-- A line just released (R121). -/
def Line.released (l : Line) (guardMs : Nat) : Line := { l with state := .guarded, guardTimer := some guardMs, call := none }

/-- The call of line `n` to `d` has ended with outcome `kind` for the case in slot `k`, which is now `x` and waits, and the line is
now `l`: two notices reach the Arbiter, for the case and for the call (R71, R73, R90). -/
def State.callOver (s : State) (k : Fin 48) (x : Case) (d : Fin 8) (kind : OutcomeKind) (n : Fin 4) (l : Line) : State :=
  { ((s.setCase k x).setDest d { s.dest d with last := kind, callLine := none }).setLine n l with
    passesDue := s.passesDue + 2 }

/-- The call of line `n` to `d` has ended without an outcome, and the line is now `l` (R71, R90). -/
def State.callDropped (s : State) (d : Fin 8) (n : Fin 4) (l : Line) : State :=
  { (s.setDest d { s.dest d with callLine := none }).setLine n l with passesDue := s.passesDue + 1 }

/-- Line `n` has a call `c` open that carries the case `x` in slot `k`: it is SENDING, its plan still names the call's destination,
that destination is usable, and no lingering line stands in the way of the case's return (R8, R25). -/
structure State.Carries (s : State) (n : Fin 4) (c : Call) (k : Fin 48) (x : Case) : Prop where
  call : s.call n = some c
  current : c.current = some k
  case : s.caseAt k = some x
  sending : x.state = .sending
  onPlan : s.currentDest x = some c.dest
  usable : s.usable c.dest = true
  noOffer : s.NoOffer
  nobody : ∀ m : Fin 4, m ≠ n → s.lingersOn m ≠ some c.dest

/-! ### What the Case Table does for a poster -/

/-- The case `y`, just left PENDING in slot `k`, passes under the plan rule, and `u` is the part then (R10): it stays where its current
destination is usable or its plan is empty, comes to rest where a sweep of its plan does, or strands, of which the Arbiter is told
only where a FIRE case strands while fire waits (log entry 32). No line lingers on the destination it rests at. -/
inductive State.SettledTo (s : State) (k : Fin 48) (y : Case) : State → Prop
  | stays : (∀ d : Fin 8, s.currentDest y = some d → s.usable d = true ∧ s.NobodyOn d) →
      SettledTo s k y { s.setCase k y with passesDue := s.passesDue + 1 }
  | moves (d e : Fin 8) (q : Progress) : s.currentDest y = some d → s.usable d = false →
      (s.plan y.key.cls).sweep s.usable (s.plan y.key.cls).dests.length y.progress.step y.progress.round = .rest e q →
      s.NobodyOn e →
      SettledTo s k y { s.setCase k { y with progress := q, retry := s.clock } with passesDue := s.passesDue + 1 }
  | strands (d : Fin 8) (q : Progress) : s.currentDest y = some d → s.usable d = false →
      (s.plan y.key.cls).sweep s.usable (s.plan y.key.cls).dests.length y.progress.step y.progress.round = .strand q →
      SettledTo s k y
        { s.setCase k { y with state := .stranded, progress := q } with
          causes := s.causes ||| 0x01
          passesDue := s.passesDue + (if y.key.cls = .fire ∧ s.fireWaiting = true then 1 else 0) }

/-- `u` is the part after an internal restore of `key` (R12, R21): nothing changes where no case holds the key or its case is RESTORED;
RESTORE joins the tail of an ACTIVE case, and one that was HELD is PENDING at the start of its plan, under the plan rule. -/
inductive State.RestoredTo (s : State) (key : Key) : State → Prop
  | absent : s.caseOfKey key = none → RestoredTo s key s
  | already (k : Fin 48) (x : Case) : s.caseOfKey key = some k → s.caseAt k = some x → x.condition = .restored →
      RestoredTo s key s
  | joins (k : Fin 48) (x : Case) : key.cls ≠ .test → s.caseOfKey key = some k → s.caseAt k = some x → x.condition = .active →
      x.state ≠ .held → RestoredTo s key (s.setCase k { x with owed := x.owed ++ [.restore], condition := .restored })
  | leavesHeld (k : Fin 48) (x : Case) (u : State) : key.cls ≠ .test → s.caseOfKey key = some k → s.caseAt k = some x →
      x.condition = .active → x.state = .held →
      s.SettledTo k
        { x with owed := x.owed ++ [.restore], condition := .restored, state := .pending, progress := ⟨0, 0, 0⟩,
                 retry := s.clock } u →
      RestoredTo s key u

/-- `y` is the RESTORED case `x` after a post without a detail (R13). -/
inductive Case.RenewedTo (x : Case) : Case → Prop
  | emptied : x.owed = [.restore] → x.state ≠ .sending →
      RenewedTo x { x with owed := [], condition := .active, state := .held, progress := ⟨0, 0, 0⟩, failed := 0 }
  | followed : x.owed = [.restore] → x.state = .sending → RenewedTo x { x with owed := [.restore, .alarm], condition := .active }
  | counted (rest : List ReportKind) : rest = [.alarm] ∨ rest = [.restore, .alarm] → x.owed = rest ++ [.restore] →
      RenewedTo x { x with owed := rest, condition := .active, chatter := min 9 (x.chatter + 1) }

/-- There is no room for a case of class `c` (R17). -/
abbrev State.NoRoom (s : State) (c : Cls) : Prop := 48 ≤ s.cases.length ∨ (c ≠ .fire ∧ 48 - s.reserve ≤ s.otherCases)

/-- `u` is the part after an internal post of `key`, not a TEST key, by the poster `p` (R20): a case that holds the key is left as it was
where it is ACTIVE and renewed where it is RESTORED; a post held under the key takes it in; where there is room a case is
created, TABLE LOW raised where R18 calls for it, and passes under the plan rule; and where there is none the post is held with
POST HELD raised, but that a held post under an older key stands and the new one is not recorded (R22, R48, log entry 6). -/
inductive State.PostedTo (s : State) (p : Poster) (key : Key) : State → Prop
  | stands (k : Fin 48) (x : Case) : s.caseOfKey key = some k → s.caseAt k = some x → x.condition = .active → PostedTo s p key s
  | renews (k : Fin 48) (x y : Case) : key.cls ≠ .test → s.caseOfKey key = some k → s.caseAt k = some x →
      x.condition = .restored → x.RenewedTo y → PostedTo s p key (s.setCase k y)
  | takenIn : s.caseOfKey key = none → s.heldAt p.position = some key → PostedTo s p key s
  | creates (k : Fin 48) (u : State) : key.cls ≠ .test → s.caseOfKey key = none → s.heldAt p.position ≠ some key →
      ¬ s.NoRoom key.cls → s.lowestFree = some k →
      s.SettledTo k
        { key := key, detail := none, mark := .verified, condition := .active, state := .pending, owed := [.alarm]
          reported := false, chatter := 0, posted := s.clock, progress := ⟨0, 0, 0⟩, failed := 0, retry := s.clock
          last := .none, line := none } u →
      PostedTo s p key
        { u with causes := u.causes |||
            (if key.cls ≠ .fire ∧ 48 - s.reserve - (s.otherCases + 1) ≤ s.lowThreshold then 0x10 else 0) }
  | isHeld : s.caseOfKey key = none → s.heldAt p.position = none → s.NoRoom key.cls →
      PostedTo s p key { s.setHeld p.position (some key) with causes := s.causes ||| 0x20 }
  | oldStands (old : Key) : s.caseOfKey key = none → s.heldAt p.position = some old → old ≠ key → s.NoRoom key.cls →
      PostedTo s p key { s with causes := s.causes ||| 0x20 }

/-- `u` is the part after channel `i` calls for a post of `key` by its poster `p`: a channel that WRITE INPUT has written posts it (R20),
and one never written since power-on reset posts nothing (R172). -/
def State.ChannelPostedTo (s : State) (i : Fin 8) (p : Poster) (key : Key) (u : State) : Prop :=
  if (s.input i).written = true then s.PostedTo p key u else u = s

/-- From `s` to `t` every post held in `s` has been offered the free space of the table (R23, R24): it is admitted, its position empty
and its case in the table with a RESTORE behind the ALARM where its poster's condition is absent; or it is still held, and then it
does not fit. -/
def State.HeldOffered (s t : State) : Prop :=
  ∀ (p : Poster) (key : Key), s.heldAt p.position = some key →
    (t.heldAt p.position = none ∧ ∃ (k : Fin 48) (x : Case), t.caseAt k = some x ∧ x.key = key ∧ x.mark = .verified ∧
      x.detail = none ∧ x.posted = s.clock ∧ x.reported = false ∧
      x.owed = (if key.cls = .test then [.test] else if t.conditionPresent p then [.alarm] else [.alarm, .restore])) ∨
    (t.heldAt p.position = some key ∧ (t.caseOfKey key ≠ none ∨ t.NoRoom key.cls))

/-- Each post held in `s` stands in `t`, or its position is empty in `t` and a case holds its key: it has been admitted (R22, R24, R48). -/
def State.HeldStand (s t : State) : Prop :=
  ∀ (p : Fin 21) (key : Key), s.heldAt p = some key →
    t.heldAt p = some key ∨ (t.heldAt p = none ∧ ∃ (k : Fin 48) (x : Case), t.caseAt k = some x ∧ x.key = key)

/-- The retirement of case `x` of `s` leads to `t`, and the post held first in the order of the positions is admitted where its class has
room once `x` is gone: its position is empty and a case holds its key (R23, R24). -/
def State.FirstAdmitted (s : State) (x : Case) (t : State) : Prop :=
  ∀ (p : Poster) (key : Key), s.heldAt p.position = some key →
    (∀ q : Poster, q.position < p.position → s.heldAt q.position = none) → s.caseOfKey key = none →
    (key.cls ≠ .fire → s.otherCases < 48 - s.reserve + (if x.key.cls = .fire then 0 else 1)) →
    t.heldAt p.position = none ∧ ∃ (k : Fin 48) (y : Case), t.caseAt k = some y ∧ y.key = key

/-- The command `event` makes channel `i` accept `level`, another than the accepted one, and leaves `sample` as its latest sample (R161,
R162): a sample of that level in FAST sampling, or the expiry of the level filter. -/
def State.Accepts (s : State) (i : Fin 8) (level : Level) (event : Instr) (sample : Option Nat) : Prop :=
  level ≠ (s.input i).accepted ∧
    ((∃ count : Nat, event = .inputSample i count ∧ sample = some count ∧ (s.input i).enabled = true ∧
        (s.input i).sampling = .fast ∧
        level = (if count ≤ 15 then .short else if count ≤ 79 then .active else if count ≤ 175 then .normal else .opened)) ∨
      (event = .levelFilterExpiry i ∧ sample = (s.input i).sample ∧ (s.input i).levelFilter.isSome ∧
        (s.input i).candidate = some level))

end Sys2Proof.Machine
end

