-- ==== Sys2Proof/WellFormed.lean ====
section
/-! DEFINITION. Well-formed commands: the operands a frame, a module or the link can carry. -/

namespace Sys2Proof

/-- A value fits a one-byte field (R183). -/
def fits8 (x : Nat) : Bool := x < 256

/-- A value fits a two-byte field (R183). -/
def fits16 (x : Nat) : Bool := x < 65536

/-- The operands of a command are ones it can carry: each field of a request fits its bytes and its lists fit the frame of
60 body bytes (R179, R182, R183); a BAD_REQUEST is a frame that R182 finds malformed; a line sample holds 0 to 120 volts
(R105), a received symbol is one of sixteen, an input sample holds 0 to 255 counts (R160). -/
def Instr.wellFormed : Instr → Bool
  | .post src z c d => fits8 src && fits16 z && fits8 c && (d.map fits16).getD true
  | .restore src (.byHandle h) => fits8 src && fits16 h
  | .restore src (.byKey z c) => fits8 src && fits16 z && fits8 c
  | .withdraw src h | .readCase src h | .clear src h | .rearm src h => fits8 src && fits16 h
  | .find src ks z c => fits8 src && fits8 ks && fits16 z && fits8 c
  | .nextCase src st f => fits8 src && fits16 st && fits8 f
  | .writeAdmission src ls c e => fits8 src && fits8 ls && fits8 c && fits8 e
  | .writeCaseLimits src r t => fits8 src && fits8 r && fits8 t
  | .writeClass src c base step cap rb rm =>
    fits8 src && fits8 c && fits8 base && fits8 step && fits8 cap && fits16 rb && fits16 rm
  | .writeDestination src d a1 a2 a3 a4 pol syms =>
    fits8 src && fits8 d && fits8 a1 && fits8 a2 && fits8 a3 && fits8 a4 && fits8 pol && syms.all fits8 &&
      decide (syms.length ≤ 52)
  | .setDestinationState src d st => fits8 src && fits8 d && fits8 st
  | .writePlan src c ds att rounds =>
    fits8 src && fits8 c && ds.all fits8 && fits8 att && fits8 rounds && decide (ds.length ≤ 55)
  | .writeLine src l en fo mo => fits8 src && fits8 l && fits8 en && fits8 fo && fits8 mo
  | .writeLineTiming src a b c d e f g h =>
    fits8 src && fits16 a && fits16 b && fits16 c && fits8 d && fits8 e && fits16 f && fits8 g && fits16 h
  | .writeExchangeTiming src a b c d e => fits8 src && fits8 a && fits8 b && fits8 c && fits8 d && fits8 e
  | .writeInput src i c z la sa f r =>
    fits8 src && fits8 i && fits8 c && fits16 z && fits8 la && fits8 sa && fits16 f && fits8 r
  | .setInputState src i st => fits8 src && fits8 i && fits8 st
  | .writeTestTimer src m p => fits8 src && fits8 m && fits8 p
  | .readConfig src it ix => fits8 src && fits8 it && fits8 ix
  | .unlatchInput src n | .readLine src n | .readDestination src n | .readInput src n | .writeMask src n =>
    fits8 src && fits8 n
  | .startTest src | .readStatus src | .readTime src | .softReset src => fits8 src
  | .badRequest frame => decide (decodeTransaction frame = some (.badRequest frame))
  | .readTransaction _ => true
  | .powerOnReset | .secondsClockAdvance | .testTimerExpiry | .dispatchPass | .staggerTimerExpiry => true
  | .lineSample _ volts _ => decide (volts ≤ 120)
  | .receivedSymbol _ sym => decide (sym < 16)
  | .inputSample _ count => fits8 count
  | .dialToneOn _ | .dialToneOff _ | .busyTone _ | .classificationFilterExpiry _ | .recoveryTimerExpiry _
  | .offHookCheckExpiry _ | .settleTimerExpiry _ | .dialToneWaitExpiry _ | .intrusionFilterExpiry _
  | .guardExpiry _ | .faultHoldExpiry _ | .elementTimerExpiry _ | .adaptiveCheckExpiry _
  | .handshakeWaitExpiry _ | .blockSent _ | .responseWaitExpiry _ | .lingerExpiry _
  | .levelFilterExpiry _ | .retardTimerExpiry _ => true

end Sys2Proof
end

