-- ==== Sys2Proof/Certificates/Slice0/Obligations.lean ====
section
/-! DEFINITION. The statements for the provers. Each follows the rules of spec/ its docstring names; a next state is written out as the state before with the records a command changes, so that all else is left as it was. -/

open Sys2Proof Sys2Proof.Machine

/-! ### The queue and the frames -/

/-- A step takes the command at the front of the queue and runs it on the state with the queue's rest; with an empty queue
nothing happens (the model's choice, log entry 1). -/
def Obligations.StepRunsFront : Prop :=
  (∀ (c : Instr) (rest : List Instr) (s : State),
    step { s with pending := c :: rest } = exec c { s with pending := rest }) ∧
  ∀ s : State, s.pending = [] → step s = .next s

/-- The bytes of the transaction that delivers a well-formed link command are read back as that command, every operand at
every value its field carries (R179, R182, R183). That a request is the field values of its frame is the form of the
model (log entry 15). -/
def Obligations.FrameDecodesBack : Prop :=
  ∀ (i : Instr) (bytes : List Byte), i.wellFormed = true → encodeTransaction i = some bytes →
    decodeTransaction bytes = some i

/-- Every transaction of at least one byte is a command, that command is well-formed, and no byte of it is lost: it is a
read transaction of that many bytes, or a command whose transaction is exactly those bytes (R179, R182, R183). That a
malformed frame is the command BAD_REQUEST with its bytes is the form of the model (log entry 15). -/
def Obligations.FrameReadWhole : Prop :=
  ∀ bytes : List Byte, bytes ≠ [] →
    ∃ i : Instr, decodeTransaction bytes = some i ∧ i.wellFormed = true ∧
      ((bytes.head? = some 0 ∧ i = .readTransaction (bytes.length - 1)) ∨
        (bytes.head? ≠ some 0 ∧ encodeTransaction i = some bytes))

/-- A frame taken while a reply is unread discards it and raises LINK OVERRUN first, and is then taken as any other;
taking a frame does nothing else (R181). A frame answered BAD_REQUEST changes nothing but the reply and the overrun
its taking may cause (R182). -/
def Obligations.FrameTaken : Prop :=
  ((∀ (s : State) (len : Nat), s.takeFrame len =
     { s with serialOut := List.replicate len 0, reply := none,
              causes := if s.reply.isSome then s.causes ||| 0x80 else s.causes }) ∧
   ∀ (i : Instr) (s : State) (r : Reply), (encodeRequest i).isSome ∨ (∃ f, i = .badRequest f) → s.reply = some r →
     exec i s = exec i { s with reply := none, causes := s.causes ||| 0x80 }) ∧
  (∀ (frame : List Byte) (s : State),
     exec (.badRequest frame) s = .next { s.takeFrame frame.length with reply := some ⟨.badRequest, []⟩ })

/-- A read transaction sends the waiting reply from its second byte on, NO_REPLY with body length 0 where none waits, and
0x00 beyond the end; the reply has then been read, however few of its bytes were clocked, and nothing else changes
(R180). -/
def Obligations.ReplyReadOnce : Prop :=
  ∀ (clocked : Nat) (s : State), ∃ out : List Byte,
    exec (.readTransaction clocked) s = .next { s with reply := none, serialOut := out } ∧
    out.length = clocked ∧
    ∀ j : Nat, j < clocked → out[j]? = some
      (match s.reply with
        | some r =>
          if j = 0 then byteOf r.status.code else if j = 1 then byteOf r.body.length else r.body.getD (j - 2) 0
        | none => if j = 0 then 0x1A else 0)

/-! ### The requester's checks -/

/-- The source check: a source of 16 to 30 or of 32 and above is answered BAD_VALUE whatever the request, and a controller
request of a link source NOT_OWNER, before any other value is examined; nothing else changes (R32). -/
def Obligations.SourceCheckedFirst : Prop :=
  ∀ (i : Instr) (code src : Nat) (rest : List Nat) (s : State), encodeRequest i = some (code, src :: rest) →
    (¬ (src ≤ 15 ∨ src = 31) →
      exec i s = .next { s.takeFrame (rest.length + 3) with reply := some ⟨.badValue, []⟩ }) ∧
    (src ≤ 15 → code ∈ controllerCodes →
      exec i s = .next { s.takeFrame (rest.length + 3) with reply := some ⟨.notOwner, []⟩ })

/-- A request that is refused leaves every record of the part as it was, apart from the overrun that taking its frame may
cause, and carries no body (R31, R52). -/
def Obligations.RefusalChangesNothing : Prop :=
  ∀ (i : Instr) (s t : State) (r : Reply), (encodeRequest i).isSome ∨ (∃ f, i = .badRequest f) →
    exec i s = .next t → t.reply = some r → r.status.refusal = true →
    r.body = [] ∧
    t = { s with reply := some r, serialOut := t.serialOut,
                 causes := if s.reply.isSome then s.causes ||| 0x80 else s.causes }

/-! ### Requests on cases -/

/-- Whatever the plan and the lines, the case a POST creates is in the lowest free slot under the handle replied, with the
key, detail and mark of the post, ACTIVE, owing one ALARM, unreported, with chatter and failed total 0 and posted now;
no slot's generation and no other slot's key changes. Only its delivery state, progress, retry time and line hang on
the plan rule and on a lingering line (R3, R10, R37, R101). -/
def Obligations.PostAlwaysRecords : Prop :=
  ∀ (s : State) (i : Fin 16) (zone code : Nat) (detail : Option Nat) (c : Cls) (p : Fin 4) (k : Fin 48),
    zone ≤ 999 → postableOfCode code = some (c, p) → s.admissionOf i p ≠ .deny →
    s.caseOfKey ⟨i.val, zone, c⟩ = none →
    s.cases.length < 48 → (c ≠ .fire → s.otherCases < 48 - s.reserve) → s.lowestFree = some k →
    ∃ (t : State) (x : Case), exec (.post i.val zone code detail) s = .next t ∧
      t.reply = some ⟨.created, field2 ((s.slot k).gen.val * 64 + k.val)⟩ ∧
      t.caseAt k = some x ∧ x.key = ⟨i.val, zone, c⟩ ∧ x.detail = detail ∧
      x.mark = (if s.admissionOf i p = .flag then .flagged else .verified) ∧ x.condition = .active ∧ x.owed = [.alarm] ∧
      x.reported = false ∧ x.chatter = 0 ∧ x.failed = 0 ∧ x.posted = s.clock ∧ x.last = .none ∧ x.state ≠ .held ∧
      (∀ j : Fin 48, (t.slot j).gen = (s.slot j).gen) ∧
      ∀ j : Fin 48, j ≠ k → (t.caseAt j).map Case.key = (s.caseAt j).map Case.key

/-- POST of a key that the case `x` in slot `k` holds: the detail carried replaces the one held; an ACTIVE case is
otherwise left as it was (EXISTING); of a RESTORED one the tail RESTORE is folded away, or, in flight, followed by an
ALARM (RENEWED). Chatter counts a fold that leaves an ALARM owed, and a fold that leaves nothing makes the case HELD
at the start of its plan (R5, R13, R14, R38). -/
def Obligations.PostMeetsCase : Prop :=
  ∀ (s : State) (i : Fin 16) (zone code : Nat) (detail : Option Nat) (c : Cls) (p : Fin 4) (k : Fin 48) (x : Case),
    zone ≤ 999 → postableOfCode code = some (c, p) → s.admissionOf i p ≠ .deny →
    s.caseOfKey ⟨i.val, zone, c⟩ = some k → s.caseAt k = some x →
    let d := detail.or x.detail
    let becomes (st : Status) (y : Case) := exec (.post i.val zone code detail) s = .next
      { (s.takeFrame (if detail.isSome then 8 else 6)).setCase k y with
        reply := some ⟨st, field2 (s.handleOf k)⟩ }
    (x.condition = .active → becomes .existing { x with detail := d }) ∧
    (x.condition = .restored →
      (x.owed = [.restore] ∧ x.state ≠ .sending →
        becomes .renewed
          { x with detail := d, owed := [], condition := .active, state := .held, progress := ⟨0, 0, 0⟩, failed := 0 }) ∧
      (x.owed = [.restore] ∧ x.state = .sending →
        becomes .renewed { x with detail := d, owed := [.restore, .alarm], condition := .active }) ∧
      (x.owed = [.alarm, .restore] →
        becomes .renewed { x with detail := d, owed := [.alarm], condition := .active, chatter := min 9 (x.chatter + 1) }) ∧
      (x.owed = [.restore, .alarm, .restore] →
        becomes .renewed
          { x with detail := d, owed := [.restore, .alarm], condition := .active, chatter := min 9 (x.chatter + 1) }))

/-- POST is turned away, in this order, for a source, zone or class out of range (BAD_VALUE), by a DENY entry (DENIED),
and, where no case holds its key, for want of room (FULL); each leaves all but the reply as it was (R36, R37, R17).
POST of a key that no case holds, with room by R17 and an entry that is not DENY: the case of R3 is created in the
lowest free slot, with the mark of the entry; TABLE LOW is raised where R18 calls for it; where the first plan entry
is usable or the plan empty, the case rests there, the Arbiter is told, and the reply is CREATED with its handle;
nothing else changes (R3, R17, R18, R36, R37). -/
def Obligations.PostAnswered : Prop :=
  (∀ (s : State) (src zone code : Nat) (detail : Option Nat),
     let refused (st : Status) := exec (.post src zone code detail) s =
       .next { s.takeFrame (if detail.isSome then 8 else 6) with reply := some ⟨st, []⟩ }
     (15 < src ∨ 999 < zone ∨ code = 0 ∨ 4 < code → refused .badValue) ∧
     ∀ (i : Fin 16) (c : Cls) (p : Fin 4), src = i.val → zone ≤ 999 → postableOfCode code = some (c, p) →
       (s.admissionOf i p = .deny → refused .denied) ∧
       (s.admissionOf i p ≠ .deny → s.caseOfKey ⟨src, zone, c⟩ = none →
         48 ≤ s.cases.length ∨ (c ≠ .fire ∧ 48 - s.reserve ≤ s.otherCases) → refused .full)) ∧
  (∀ (s : State) (i : Fin 16) (zone code : Nat) (detail : Option Nat) (c : Cls) (p : Fin 4) (k : Fin 48),
     zone ≤ 999 → postableOfCode code = some (c, p) → s.admissionOf i p ≠ .deny →
     s.caseOfKey ⟨i.val, zone, c⟩ = none →
     s.cases.length < 48 → (c ≠ .fire → s.otherCases < 48 - s.reserve) → s.lowestFree = some k →
     s.NoOffer → (∀ d : Fin 8, (s.plan c).dests.head? = some d → s.usable d = true ∧ s.NobodyOn d) →
     exec (.post i.val zone code detail) s = .next
       { (s.takeFrame (if detail.isSome then 8 else 6)).setCase k
           { key := ⟨i.val, zone, c⟩, detail := detail
             mark := if s.admissionOf i p = .flag then .flagged else .verified
             condition := .active, state := .pending, owed := [.alarm], reported := false, chatter := 0
             posted := s.clock, progress := ⟨0, 0, 0⟩, failed := 0, retry := s.clock, last := .none, line := none } with
         causes := (s.takeFrame 0).causes |||
           (if c ≠ .fire ∧ 48 - s.reserve - (s.otherCases + 1) ≤ s.lowThreshold then 0x10 else 0)
         passesDue := s.passesDue + 1
         reply := some ⟨.created, field2 ((s.slot k).gen.val * 64 + k.val)⟩ })

/-- RESTORE by the owner: RESTORE joins the tail of an ACTIVE case, which becomes RESTORED and keeps its state, but that a
HELD case becomes PENDING at the start of its plan with retry time now, and the Arbiter is told; the reply is OK. A
RESTORED case is left as it was (UNCHANGED). Nothing else changes (R12, R41). A HELD case that becomes PENDING at the
destination a line lingers on is offered to that line in the same event: it is SENDING on the line, which leaves
LINGER for EXCHANGE with the case as its current case, one more report carried, its linger timer cancelled and the
case's block composed and begun; no pass is needed (R100, R101, R153, R155). A RESTORE is refused BAD_VALUE for a
handle, zone or class out of range, NO_CASE where its handle names no case or no case holds its key, and NOT_OWNER
where the case its handle names has another source; nothing else changes (R39, R40). -/
def Obligations.RestoreTakesEffect : Prop :=
  (∀ (s : State) (src : Nat) (target : RestoreTarget) (k : Fin 48) (x : Case),
     src ≤ 15 ∨ src = 31 → s.restoreNames src target k → s.caseAt k = some x → x.key.source = src → x.key.cls ≠ .test →
     s.NoOffer →
     let taken := s.takeFrame (restoreBytes target)
     let handle := field2 (s.handleOf k)
     (x.condition = .restored → exec (.restore src target) s = .next { taken with reply := some ⟨.unchanged, handle⟩ }) ∧
     (x.condition = .active → x.state ≠ .held →
       exec (.restore src target) s = .next
         { taken.setCase k { x with owed := x.owed ++ [.restore], condition := .restored } with
           reply := some ⟨.ok, handle⟩ }) ∧
     (x.condition = .active → x.state = .held →
       (∀ d : Fin 8, (s.plan x.key.cls).dests.head? = some d → s.usable d = true ∧ s.NobodyOn d) →
       exec (.restore src target) s = .next
         { taken.setCase k { x with owed := x.owed ++ [.restore], condition := .restored, state := .pending,
                                    progress := ⟨0, 0, 0⟩, retry := s.clock } with
           passesDue := s.passesDue + 1, reply := some ⟨.ok, handle⟩ })) ∧
  (∀ (s : State) (src : Nat) (target : RestoreTarget) (k : Fin 48) (x : Case) (n : Fin 4) (c : Call),
     src ≤ 15 ∨ src = 31 → s.restoreNames src target k → s.caseAt k = some x → x.key.source = src → x.key.cls ≠ .test →
     x.condition = .active → x.state = .held → x.owed = [] → s.NoOffer →
     (s.plan x.key.cls).dests.head? = some c.dest → s.usable c.dest = true →
     s.lingersOn n = some c.dest → s.call n = some c → (∀ m : Fin 4, m ≠ n → s.lingersOn m = none) →
     s.fireWaiting = false → c.carried < s.exchange.blockLimit →
     let y : Case := { x with owed := [.restore], condition := .restored, state := .sending, progress := ⟨0, 0, 0⟩,
                              retry := s.clock, line := some n }
     exec (.restore src target) s = .next
       { ((s.takeFrame (restoreBytes target)).setCase k y).setLine n
           { s.line n with
             state := .exchange
             call := some { c with
               current := some k, carried := c.carried + 1, linger := none
               block := (composeBlock y (s.dest c.dest)).map fun b =>
                 { symbols := b, phase := .sending, repeats := 0, response := none } } } with
         passesDue := s.passesDue + 1, reply := some ⟨.ok, field2 (s.handleOf k)⟩ }) ∧
  (∀ (s : State) (src : Nat), src ≤ 15 ∨ src = 31 →
     let refused (target : RestoreTarget) (st : Status) :=
       exec (.restore src target) s = .next { s.takeFrame (restoreBytes target) with reply := some ⟨st, []⟩ }
     (∀ h : Nat,
       (1023 < h → refused (.byHandle h) .badValue) ∧
       (h ≤ 1023 → s.caseOfHandle h = none → refused (.byHandle h) .noCase) ∧
       ∀ (k : Fin 48) (x : Case), s.caseOfHandle h = some k → s.caseAt k = some x → x.key.source ≠ src →
         refused (.byHandle h) .notOwner) ∧
     ∀ zone code : Nat,
       (999 < zone ∨ code = 0 ∨ 4 < code → refused (.byKey zone code) .badValue) ∧
       ∀ (c : Cls) (p : Fin 4), zone ≤ 999 → postableOfCode code = some (c, p) → s.caseOfKey ⟨src, zone, c⟩ = none →
         refused (.byKey zone code) .noCase)

/-- WITHDRAW's checks in their order, each answered with its status and leaving the case as it was; one that passes them
all is answered OK (R42). -/
def Obligations.WithdrawChecks : Prop :=
  ∀ (s : State) (src h : Nat),
    let refused (st : Status) := exec (.withdraw src h) s = .next { s.takeFrame 5 with reply := some ⟨st, []⟩ }
    if ¬ (src ≤ 15 ∨ src = 31) ∨ 1023 < h then refused .badValue
    else
      match s.caseOfHandle h with
      | none => refused .noCase
      | some k =>
        ∃ x : Case, s.caseAt k = some x ∧
          if x.key.source ≠ src then refused .notOwner
          else if x.key.cls = .fire then refused .denied
          else if x.reported = true then refused .delivered
          else if x.state = .sending then refused .inFlight
          else ∃ t : State, exec (.withdraw src h) s = .next t ∧ t.reply = some ⟨.ok, []⟩

/-- A WITHDRAW that passes every check retires the case: the slot's generation advances, so that the handle names nothing,
whatever held post takes the slot. Where no post is held the slot is free and nothing else changes (R2, R16, R42,
R43). CLEAR retires any case that is not SENDING, and turns one in flight away; where no post is held the slot is
free, its generation advanced, the channel whose raised alarm or trouble the case's key is becomes CLEARED, the
Arbiter is told of a FIRE case while fire waits, and nothing else changes (R16, R47, R48, R90, R168). CLEAR is refused
BAD_VALUE for a handle above 1023 and NO_CASE where its handle names none (R47). The space that a WITHDRAW, a CLEAR or
the acceptance of a last report frees is offered to the held posts: the one held first in the order of the positions is
admitted where its class has room, and of all of them each is admitted or is still held and does not fit (R16, R23,
R24, R26); in a CLEAR the offer comes after the notice to the poster (the model's choice, log entry 7). -/
def Obligations.CasesRetired : Prop :=
  (∀ (s : State) (src h : Nat) (k : Fin 48) (x : Case), src ≤ 15 → s.caseOfHandle h = some k → s.caseAt k = some x →
     x.key.source = src → x.key.cls ≠ .fire → x.reported = false → x.state ≠ .sending →
     (∃ t : State, exec (.withdraw src h) s = .next t ∧ t.reply = some ⟨.ok, []⟩ ∧
       (t.slot k).gen = (s.slot k).gen + 1 ∧ t.caseOfHandle h = none ∧ s.HeldOffered t ∧ s.FirstAdmitted x t) ∧
     (s.NoHeld → s.NoOffer → exec (.withdraw src h) s = .next
       { (s.takeFrame 5).setSlot k { gen := (s.slot k).gen + 1, occ := none } with reply := some ⟨.ok, []⟩ })) ∧
  (∀ (s : State) (h : Nat) (k : Fin 48) (x : Case), s.caseOfHandle h = some k → s.caseAt k = some x →
     (x.state = .sending → exec (.clear 31 h) s = .next { s.takeFrame 5 with reply := some ⟨.inFlight, []⟩ }) ∧
     (x.state ≠ .sending →
       (∃ t : State, exec (.clear 31 h) s = .next t ∧ t.reply = some ⟨.ok, []⟩ ∧
         (t.slot k).gen = (s.slot k).gen + 1 ∧ t.caseOfHandle h = none ∧ s.HeldOffered t ∧ s.FirstAdmitted x t) ∧
       (s.NoHeld → s.NoOffer →
         let freed : State :=
           { (s.takeFrame 5).setSlot k { gen := (s.slot k).gen + 1, occ := none } with
             passesDue := s.passesDue + (if x.key.cls = .fire ∧ s.fireWaiting = true then 1 else 0)
             reply := some ⟨.ok, []⟩ }
         (x.key.source ≤ 15 ∨ 24 ≤ x.key.source → exec (.clear 31 h) s = .next freed) ∧
         ∀ i : Fin 8, x.key.source = 16 + i.val →
           (x.key = ⟨16 + i.val, (s.input i).zone, (s.input i).cls⟩ → (s.input i).alarm = .raised →
             exec (.clear 31 h) s = .next (freed.setInput i { s.input i with alarm := .cleared })) ∧
           (x.key = ⟨16 + i.val, (s.input i).zone, .trouble⟩ → (s.input i).cls ≠ .trouble → (s.input i).trouble = .raised →
             exec (.clear 31 h) s = .next (freed.setInput i { s.input i with trouble := .cleared })) ∧
           ((x.key = ⟨16 + i.val, (s.input i).zone, (s.input i).cls⟩ → (s.input i).alarm ≠ .raised) →
             (x.key = ⟨16 + i.val, (s.input i).zone, .trouble⟩ → (s.input i).trouble ≠ .raised) →
             exec (.clear 31 h) s = .next freed)))) ∧
  (∀ (s : State) (h : Nat),
     (1023 < h → exec (.clear 31 h) s = .next { s.takeFrame 5 with reply := some ⟨.badValue, []⟩ }) ∧
     (h ≤ 1023 → s.caseOfHandle h = none → exec (.clear 31 h) s = .next { s.takeFrame 5 with reply := some ⟨.noCase, []⟩ })) ∧
  (∀ (s : State) (n : Fin 4) (c : Call) (b : BlockRun) (k : Fin 48) (x : Case) (kind : ReportKind),
     (s.line n).state = .exchange → s.call n = some c → c.block = some b → b.phase = .awaiting → c.current = some k →
     s.caseAt k = some x → x.state = .sending → x.owed = [kind] → x.condition = .restored →
     ∃ t : State, exec (.receivedSymbol n 12) s = .next t ∧ (t.slot k).gen = (s.slot k).gen + 1 ∧
       t.caseOfHandle (s.handleOf k) = none ∧ s.HeldOffered t ∧ s.FirstAdmitted x t)

/-- REARM of a STRANDED case starts its plan again: where the first plan entry is usable or the plan empty it is
PENDING there, and the Arbiter is told; where no entry of its plan is usable it strands again at once and CASE
STRANDED is raised again; its list, condition, chatter, reported and last outcome stay. A case in another state is
answered WRONG_STATE (R49, R50, R66). REARM is refused BAD_VALUE for a handle above 1023 and NO_CASE where its handle
names none (R49). Of a case that strands under the plan rule at once the Arbiter is told only where it is FIRE and
fire waits, which is the model's choice (log entry 32). -/
def Obligations.RearmStartsAgain : Prop :=
  (∀ (s : State) (h : Nat) (k : Fin 48) (x : Case), s.caseOfHandle h = some k → s.caseAt k = some x → s.NoOffer →
     (x.state ≠ .stranded → exec (.rearm 31 h) s = .next { s.takeFrame 5 with reply := some ⟨.wrongState, []⟩ }) ∧
     (x.state = .stranded →
       ((∀ d : Fin 8, (s.plan x.key.cls).dests.head? = some d → s.usable d = true ∧ s.NobodyOn d) →
         exec (.rearm 31 h) s = .next
           { (s.takeFrame 5).setCase k { x with state := .pending, progress := ⟨0, 0, 0⟩, failed := 0, retry := s.clock } with
             passesDue := s.passesDue + 1, reply := some ⟨.ok, [0]⟩ }) ∧
       ((s.plan x.key.cls).dests ≠ [] → (∀ d ∈ (s.plan x.key.cls).dests, s.usable d = false) →
         ∃ p : Progress, p.attempts = 0 ∧
           exec (.rearm 31 h) s = .next
             { (s.takeFrame 5).setCase k { x with progress := p, failed := 0, retry := s.clock } with
               causes := (s.takeFrame 5).causes ||| 0x01
               passesDue := s.passesDue + (if x.key.cls = .fire ∧ s.fireWaiting = true then 1 else 0)
               reply := some ⟨.ok, [3]⟩ }))) ∧
  (∀ (s : State) (h : Nat),
     (1023 < h → exec (.rearm 31 h) s = .next { s.takeFrame 5 with reply := some ⟨.badValue, []⟩ }) ∧
     (h ≤ 1023 → s.caseOfHandle h = none → exec (.rearm 31 h) s = .next { s.takeFrame 5 with reply := some ⟨.noCase, []⟩ }))

/-- FIND answers the handle of the case that holds the key, NO_CASE where none does, and BAD_VALUE for a key out of range,
and changes nothing (R44). -/
def Obligations.FindLooksUp : Prop :=
  ∀ (s : State) (src ks zone code : Nat), src ≤ 15 ∨ src = 31 →
    let answered (st : Status) (body : List Byte) :=
      exec (.find src ks zone code) s = .next { s.takeFrame 7 with reply := some ⟨st, body⟩ }
    (24 < ks ∨ 999 < zone ∨ code = 0 ∨ 5 < code → answered .badValue []) ∧
    ∀ c : Cls, c.code = code → ks ≤ 24 → zone ≤ 999 →
      (∀ (k : Fin 48) (x : Case), s.KeysDistinct → s.caseAt k = some x → x.key = ⟨ks, zone, c⟩ →
        answered .ok (field2 ((s.slot k).gen.val * 64 + k.val))) ∧
      ((∀ (k : Fin 48) (x : Case), s.caseAt k = some x → x.key ≠ ⟨ks, zone, c⟩) → answered .noCase [])

/-- READ CASE answers OK with the 29 bytes of R184, each field of the record in its place, and changes nothing (R45,
R184). It is refused BAD_VALUE for a handle above 1023 and NO_CASE where its handle names none (R45). -/
def Obligations.ReadCaseLayout : Prop :=
  (∀ (s : State) (src h : Nat) (k : Fin 48) (x : Case), src ≤ 15 ∨ src = 31 → s.caseOfHandle h = some k →
     s.caseAt k = some x →
     ∃ body : List Byte, exec (.readCase src h) s = .next { s.takeFrame 5 with reply := some ⟨.ok, body⟩ } ∧
       body.length = 29 ∧
       body.take 2 = field2 h ∧ body[2]? = some (byteOf x.key.source) ∧
       (body.drop 3).take 2 = field2 x.key.zone ∧ body[5]? = some (byteOf x.key.cls.code) ∧
       (∀ f : Byte, body[6]? = some f →
         (f.getLsbD 0 = true ↔ x.detail.isSome) ∧ (f.getLsbD 1 = true ↔ x.mark = .flagged) ∧
         (f.getLsbD 2 = true ↔ x.condition = .restored) ∧ (f.getLsbD 3 = true ↔ x.reported = true) ∧
         (f.getLsbD 4 = true ↔ x.state = .sending) ∧ (f.getLsbD 5 = true ↔ x.line.isSome) ∧
         f.getLsbD 6 = false ∧ f.getLsbD 7 = false) ∧
       (body.drop 7).take 2 = field2 (x.detail.getD 0) ∧ body[9]? = some (byteOf x.state.code) ∧
       body[10]? = some (byteOf x.owed.length) ∧
       (∀ j : Nat, j < 3 → body[11 + j]? = some (byteOf ((x.owed[j]?.map ReportKind.code).getD 0))) ∧
       body[14]? = some (byteOf x.chatter) ∧ (body.drop 15).take 4 = field4 x.posted.toNat ∧
       body[19]? = some (byteOf x.progress.step) ∧ body[20]? = some (byteOf x.progress.attempts) ∧
       body[21]? = some (byteOf x.progress.round) ∧ body[22]? = some (byteOf x.failed) ∧
       (body.drop 23).take 4 = field4 x.retry.toNat ∧ body[27]? = some (byteOf x.last.code) ∧
       body[28]? = some (byteOf ((x.line.map Fin.val).getD 0))) ∧
  (∀ (s : State) (src h : Nat), src ≤ 15 ∨ src = 31 →
     (1023 < h → exec (.readCase src h) s = .next { s.takeFrame 5 with reply := some ⟨.badValue, []⟩ }) ∧
     (h ≤ 1023 → s.caseOfHandle h = none → exec (.readCase src h) s = .next { s.takeFrame 5 with reply := some ⟨.noCase, []⟩ }))

/-- NEXT CASE answers the first case, by slot number, from the slot after the start's slot part, or from slot 0 for a
start of 65535, whose state the filter takes, and NO_CASE where there is none; it changes nothing (R46). -/
def Obligations.NextCaseScans : Prop :=
  ∀ (s : State) (src start code : Nat), src ≤ 15 ∨ src = 31 →
    let answered (st : Status) (body : List Byte) :=
      exec (.nextCase src start code) s = .next { s.takeFrame 6 with reply := some ⟨st, body⟩ }
    let low := if start = 65535 then 0 else start % 64 + 1
    let fits (k : Fin 48) : Prop := low ≤ k.val ∧ ∃ x : Case, s.caseAt k = some x ∧ (code = 5 ∨ code = x.state.code)
    ((1023 < start ∧ start ≠ 65535) ∨ code = 4 ∨ 5 < code → answered .badValue []) ∧
    (start ≤ 1023 ∨ start = 65535 → code ≤ 5 → code ≠ 4 →
      (∀ k : Fin 48, fits k → (∀ j : Fin 48, j < k → ¬ fits j) → answered .ok (field2 (s.handleOf k))) ∧
      ((∀ k : Fin 48, ¬ fits k) → answered .noCase []))

/-! ### Configuration requests -/

/-- WRITE ADMISSION replaces the one entry of a link source and postable class, answered OK; a source, class or entry out
of range is answered BAD_VALUE; nothing else changes (R35). WRITE CASE LIMITS writes both values, each at most 16, and
is answered ADJUSTED where one was above it and OK otherwise; where the reserve is not lowered, or no post is held,
nothing else changes (R19). A WRITE CASE LIMITS that lowers the reserve offers the space to the held posts: where the
post held first in the order of the positions has room under the new reserve, its case is in the table afterwards
under its key and the position holds nothing (R19, R23, R24). WRITE CLASS clamps each value to its range, raises the
retry maximum to the retry base, writes the whole entry, and is answered ADJUSTED where a value was changed and OK
otherwise; nothing else changes, no pass is due for it, and a class code out of range is answered BAD_VALUE (R54,
R55). That a value clamped to the one already held is answered ADJUSTED, where R54 also says OK, is the model's choice
(log entry 27). -/
def Obligations.TableSettingsWritten : Prop :=
  (∀ (s : State) (ls code entry : Nat),
     (∀ (i : Fin 16) (c : Cls) (p : Fin 4) (a : Admission), ls = i.val → postableOfCode code = some (c, p) → a.code = entry →
       ∃ t : State, exec (.writeAdmission 31 ls code entry) s = .next { t with reply := some ⟨.ok, []⟩ } ∧
         t = { s.takeFrame 6 with admission := t.admission } ∧ t.admissionOf i p = a ∧
         ∀ (j : Fin 16) (q : Fin 4), ¬ (j = i ∧ q = p) → t.admissionOf j q = s.admissionOf j q) ∧
     (15 < ls ∨ code = 0 ∨ 4 < code ∨ 2 < entry →
       exec (.writeAdmission 31 ls code entry) s = .next { s.takeFrame 6 with reply := some ⟨.badValue, []⟩ })) ∧
  (∀ (s : State) (reserve threshold : Nat), s.reserve ≤ min 16 reserve ∨ s.NoHeld → s.NoOffer →
     exec (.writeCaseLimits 31 reserve threshold) s = .next
       { s.takeFrame 5 with
         reserve := min 16 reserve, lowThreshold := min 16 threshold
         reply := some ⟨if 16 < reserve ∨ 16 < threshold then .adjusted else .ok, []⟩ }) ∧
  (∀ (s : State) (reserve threshold : Nat) (p : Poster) (key : Key),
     min 16 reserve < s.reserve → s.heldAt p.position = some key →
     (∀ q : Poster, q.position < p.position → s.heldAt q.position = none) →
     s.caseOfKey key = none → s.cases.length < 48 → (key.cls ≠ .fire → s.otherCases < 48 - min 16 reserve) →
     ∃ (t : State) (k : Fin 48) (x : Case), exec (.writeCaseLimits 31 reserve threshold) s = .next t ∧
       t.reserve = min 16 reserve ∧ t.heldAt p.position = none ∧
       s.lowestFree = some k ∧ t.caseAt k = some x ∧ x.key = key ∧ x.mark = .verified ∧ x.detail = none ∧ x.posted = s.clock ∧
       (key.cls ≠ .test → x.owed = if s.conditionPresent p then [.alarm] else [.alarm, .restore])) ∧
  (∀ (s : State) (code base step cap rb rm : Nat),
     let rb' := min 600 (max 1 rb)
     let e : ClassEntry := ⟨min 223 base, min 255 (max 1 step), min 63 cap, rb', max rb' (min 3600 (max 1 rm))⟩
     (∀ c : Cls, c.code = code →
       exec (.writeClass 31 code base step cap rb rm) s = .next
         { (s.takeFrame 11).setClassEntry c e with
           reply := some ⟨if e.base = base ∧ e.ageStep = step ∧ e.ageCap = cap ∧ e.retryBase = rb ∧ e.retryMax = rm
             then .ok else .adjusted, []⟩ }) ∧
     (code = 0 ∨ 5 < code →
       exec (.writeClass 31 code base step cap rb rm) s = .next { s.takeFrame 11 with reply := some ⟨.badValue, []⟩ }))

/-- WRITE DESTINATION: the checks in their order; a write that passes sets dial string, account and policy, the toggle to
0 and the last outcome to NONE, keeps state and call line, and tells the Arbiter where the destination is ENABLED;
nothing else changes (R74). -/
def Obligations.DestinationWritten : Prop :=
  ∀ (s : State) (dest d1 d2 d3 d4 policy : Nat) (symbols : List Nat),
    let request := Instr.writeDestination 31 dest d1 d2 d3 d4 policy symbols
    let taken := s.takeFrame (10 + symbols.length)
    (7 < dest ∨ 9 < d1 ∨ 9 < d2 ∨ 9 < d3 ∨ 9 < d4 ∨ 1 < policy ∨ symbols = [] ∨ 24 < symbols.length ∨
        (∃ y ∈ symbols, 12 < y) ∨ (∀ y ∈ symbols, y = 12) →
      exec request s = .next { taken with reply := some ⟨.badValue, []⟩ }) ∧
    ∀ (d : Fin 8) (a : Account) (p : TogglePolicy) (dial : List DialSym), dest = d.val → a.digits = [d1, d2, d3, d4] →
      p.code = policy → dial.map DialSym.code = symbols → 1 ≤ dial.length → dial.length ≤ 24 → (∃ y ∈ dial, y ≠ .pause) →
      ((s.dest d).callLine.isSome → exec request s = .next { taken with reply := some ⟨.busy, []⟩ }) ∧
      ((s.dest d).callLine = none →
        exec request s = .next
          { taken.setDest d { s.dest d with dial := dial, account := a, policy := p, toggle := false, last := .none } with
            passesDue := s.passesDue + (if (s.dest d).state = .enabled then 1 else 0)
            reply := some ⟨.ok, []⟩ })

/-- SET DESTINATION STATE ENABLED makes a DISABLED or REFUSING destination with a dial string ENABLED and tells the
Arbiter, and touches no case; without a dial string it is answered WRONG_STATE, and on an ENABLED destination
UNCHANGED (R70, R75). SET DESTINATION STATE DISABLED: the destination is DISABLED and keeps its dial string, account,
toggle, policy, last outcome and call line, and no case is left PENDING there. Each case that waited there is advanced
by a sweep of its own plan with attempts 0 and its failed total kept: it is at rest at a later usable entry with retry
time now, where a line that lingers on that destination may take it up at once, or it is STRANDED with CASE STRANDED
raised. A case that is not PENDING is left exactly as it was, and a PENDING one that waited elsewhere keeps all but
what a lingering line's take-up sets (lingering lines are answered when the request is done: the model's choice, log
entry 8). Nothing changes but the cases, the lines that linger with the call lines of their destinations, and the
notices to the Arbiter. On a DISABLED destination it is answered UNCHANGED (R65, R66, R75, R76, R101). -/
def Obligations.DestinationStateSet : Prop :=
  (∀ (s : State) (d : Fin 8),
     let request := Instr.setDestinationState 31 d.val 0
     ((s.dest d).dial = [] → exec request s = .next { s.takeFrame 5 with reply := some ⟨.wrongState, []⟩ }) ∧
     ((s.dest d).dial ≠ [] →
       exec request s = .next
         (if (s.dest d).state = .enabled then { s.takeFrame 5 with reply := some ⟨.unchanged, []⟩ }
           else { (s.takeFrame 5).setDest d { s.dest d with state := .enabled } with
                  passesDue := s.passesDue + 1, reply := some ⟨.ok, []⟩ })) ∧
     ∀ (dest state : Nat), 7 < dest ∨ 1 < state →
       exec (.setDestinationState 31 dest state) s = .next { s.takeFrame 5 with reply := some ⟨.badValue, []⟩ }) ∧
  (∀ (s : State) (d : Fin 8),
     let request := Instr.setDestinationState 31 d.val 1
     ((s.dest d).state = .disabled → exec request s = .next { s.takeFrame 5 with reply := some ⟨.unchanged, []⟩ }) ∧
     ((s.dest d).state ≠ .disabled →
       ∃ t : State, exec request s = .next t ∧
         t = { s.takeFrame 5 with
               slots := t.slots, dests := t.dests, lines := t.lines, causes := t.causes, passesDue := t.passesDue
               reply := some ⟨.ok, []⟩ } ∧
         t.dest d = { s.dest d with state := .disabled } ∧
         (∀ e : Fin 8, e ≠ d → t.dest e = { s.dest e with callLine := (t.dest e).callLine }) ∧
         (∀ n : Fin 4, s.lingersOn n = none → t.line n = s.line n) ∧
         (∀ k : Fin 48, (t.slot k).gen = (s.slot k).gen ∧ t.pendingAt d k = false ∧ (s.caseAt k = none → t.caseAt k = none)) ∧
         (∀ (k : Fin 48) (x : Case), s.caseAt k = some x → x.state ≠ .pending → t.caseAt k = some x) ∧
         (∀ (k : Fin 48) (x : Case), s.caseAt k = some x → s.pendingAt d k = false →
           ∃ y : Case, t.caseAt k = some y ∧ y = { x with state := y.state, line := y.line }) ∧
         ∀ (k : Fin 48) (x : Case), s.caseAt k = some x → s.pendingAt d k = true →
           let p := s.plan x.key.cls
           match p.sweep t.usable p.dests.length x.progress.step x.progress.round with
           | .rest e q => e ≠ d ∧ s.usable e = true ∧ p.dests[q.step]? = some e ∧ q.attempts = 0 ∧
               ∃ y : Case, t.caseAt k = some y ∧
                 y = { x with state := y.state, line := y.line, progress := q, retry := s.clock } ∧
                 ((y.state = .pending ∧ y.line = x.line) ∨
                   ∃ n : Fin 4, s.lingersOn n = some e ∧ y.state = .sending ∧ y.line = some n)
           | .strand q => q.attempts = 0 ∧ t.caseAt k = some { x with state := .stranded, progress := q } ∧
               t.causes.getLsbD 0 = true))

/-- WRITE PLAN: the checks in their order, and attempts and rounds clamped; a write that passes replaces the whole plan,
and every case of the class starts it again with failed total 0, all its other fields kept, but that a PENDING case
may move by the plan rule or be taken up; the cases of other classes that are not PENDING are left exactly as they
were (R81, R82). -/
def Obligations.PlanWritten : Prop :=
  ∀ (s : State) (code attempts rounds : Nat) (dests : List Nat),
    let request := Instr.writePlan 31 code dests attempts rounds
    (code = 0 ∨ 5 < code ∨ 4 < dests.length ∨ (∃ y ∈ dests, 7 < y) ∨ ¬ dests.Nodup →
      exec request s = .next { s.takeFrame (7 + dests.length) with reply := some ⟨.badValue, []⟩ }) ∧
    ∀ (c : Cls) (ds : List (Fin 8)), c.code = code → ds.map Fin.val = dests → ds.length ≤ 4 → ds.Nodup →
      ∃ t : State, exec request s = .next t ∧
        t.reply = some ⟨if 1 ≤ attempts ∧ attempts ≤ 8 ∧ 1 ≤ rounds ∧ rounds ≤ 3 then .ok else .adjusted, []⟩ ∧
        t.plan c = ⟨ds, min 8 (max 1 attempts), min 3 (max 1 rounds)⟩ ∧ (∀ e : Cls, e ≠ c → t.plan e = s.plan e) ∧
        s.passesDue + 1 ≤ t.passesDue ∧
        (∀ (k : Fin 48) (x : Case), s.caseAt k = some x → x.state ≠ .pending →
          t.caseAt k = some (if x.key.cls = c then { x with progress := ⟨0, 0, 0⟩, failed := 0 } else x)) ∧
        (∀ (k : Fin 48) (x : Case), s.caseAt k = some x → x.state = .pending → x.key.cls = c →
          ∃ y : Case, t.caseAt k = some y ∧ y.failed = 0 ∧ y.progress.attempts = 0 ∧
            y = { x with state := y.state, line := y.line, progress := y.progress, failed := 0, retry := y.retry } ∧
            (∀ d : Fin 8, ds.head? = some d → s.usable d = true → y.progress = ⟨0, 0, 0⟩ ∧ y.retry = x.retry))

/-- WRITE LINE with enable yes writes the settings and sets the learned mode to UNKNOWN; by the line's state it also
sets the failure count to 0 (IDLE, IN USE), or brings the line from OFF to the state its latest sample shows, or
clears close pending, or notes in a dialling under way that the dial mode was written TONE or PULSE while no adaptive
check ran, a mark that is the model's for R139 (log entry 29); the Arbiter is told; nothing else changes (R108, R123,
R125, R139). That the candidate band of a line with no latest sample is HIGH there, with no filter running, is the
model's choice (log entry 33). -/
def Obligations.LineEnabled : Prop :=
  ∀ (s : State) (n : Fin 4) (forced mode : Nat) (f : Bool) (m : DialMode), firstOfTwo forced = some f → m.code = mode →
    s.NoOffer →
    let request := Instr.writeLine 31 n.val 0 forced mode
    let l : Line := { s.line n with enabled := true, forced := f, mode := m, learned := .unknown }
    let written (l : Line) (more : Nat) := exec request s = .next
      { (s.takeFrame 7).setLine n l with passesDue := s.passesDue + more, reply := some ⟨.ok, []⟩ }
    ((s.line n).state = .idle ∨ (s.line n).state = .inUse → written { l with failures := 0 } 1) ∧
    ((s.line n).state = .off → (∀ x : LineSample, (s.line n).sample = some x → 20 ≤ x.volts) →
      written { l with failures := 0, state := .idle, band := .high, classFilter := none } 2) ∧
    ((s.line n).state = .off → (∃ x : LineSample, (s.line n).sample = some x ∧ 3 ≤ x.volts ∧ x.volts < 20) →
      written { l with failures := 0, state := .inUse, band := .mid, classFilter := none }
        (if s.fireWaiting = true then 2 else 1)) ∧
    ((s.line n).state = .off → (∃ x : LineSample, (s.line n).sample = some x ∧ x.volts < 3) →
      written { l with failures := 0, state := .inUse, band := .low, classFilter := some 10000 }
        (if s.fireWaiting = true then 2 else 1)) ∧
    ((s.line n).state = .exchange → written { l with call := l.call.map fun c => { c with closePending := false } } 1) ∧
    ((s.line n).state = .dialling →
      written { l with call := l.call.map fun c => { c with
        dialling := c.dialling.map fun g => { g with leavesLearned := decide (m ≠ .auto) && g.adaptiveCheck.isNone } } } 1) ∧
    ((s.line n).state = .awaitPermit ∨ (s.line n).state = .offHook ∨
        (s.line n).state = .awaitHandshake ∨ (s.line n).state = .linger ∨ (s.line n).state = .guarded ∨
        ((s.line n).state = .fault ∧ (s.line n).cause = .noVoltage) → written l 1)

/-- WRITE LINE with enable no: in EXCHANGE close pending is set and the call goes on; in every other state the line is
OFF without a call at once, in AWAIT PERMIT out of the queue as well; and its settings are written (R120, R123, R124).
A disable in OFF HOOK, DIALLING or AWAIT HANDSHAKE hands ABANDONED to the current case, which returns to PENDING
uncharged, and takes the line on-hook to OFF with its call ended; nothing else changes but the settings (R28, R73,
R124). In AWAIT PERMIT the disable hands ABANDONED to the lead case in the same way and takes the line out of the
queue (R120). In FAULT it is an exit from FAULT: the cause is NONE, the fault hold or recovery timer is cancelled,
LINE FAULT is raised again and the line's trouble case restored (R12, R21, R117, R124). Of a case that strands under
the plan rule at once the Arbiter is told only where it is FIRE and fire waits, which is the model's choice (log entry
32). -/
def Obligations.LineDisabled : Prop :=
  (∀ (s : State) (n : Fin 4) (forced mode : Nat) (f : Bool) (m : DialMode), firstOfTwo forced = some f → m.code = mode →
     s.CallsSound →
     let request := Instr.writeLine 31 n.val 1 forced mode
     let l : Line := { s.line n with enabled := false, forced := f, mode := m, learned := .unknown }
     ((s.line n).state = .exchange → s.NoOffer →
       exec request s = .next
         { (s.takeFrame 7).setLine n { l with call := l.call.map fun c => { c with closePending := true } } with
           passesDue := s.passesDue + 1, reply := some ⟨.ok, []⟩ }) ∧
     ((s.line n).state = .idle ∨ (s.line n).state = .inUse → s.NoOffer →
       exec request s = .next
         { (s.takeFrame 7).setLine n { l with state := .off, classFilter := none } with
           passesDue := s.passesDue + 1, reply := some ⟨.ok, []⟩ }) ∧
     ((s.line n).state ≠ .exchange →
       ∃ t : State, exec request s = .next t ∧ t.reply = some ⟨.ok, []⟩ ∧
         (t.line n).state = .off ∧ (t.line n).enabled = false ∧ (t.line n).forced = f ∧ (t.line n).mode = m ∧
         (t.line n).learned = .unknown ∧ (t.line n).failures = (s.line n).failures ∧ t.call n = none ∧
         (∀ d : Fin 8, (t.dest d).callLine ≠ some n) ∧ n ∉ t.permit.queue.map PermitWait.line) ∧
     ∀ line enable permit dial : Nat, 3 < line ∨ 1 < enable ∨ 1 < permit ∨ 2 < dial →
       exec (.writeLine 31 line enable permit dial) s = .next { s.takeFrame 7 with reply := some ⟨.badValue, []⟩ }) ∧
  (∀ (s : State) (n : Fin 4) (forced mode : Nat) (f : Bool) (m : DialMode) (c : Call) (k : Fin 48) (x : Case),
     firstOfTwo forced = some f → m.code = mode → s.Carries n c k x →
     (s.line n).state = .offHook ∨ (s.line n).state = .dialling ∨ (s.line n).state = .awaitHandshake →
     exec (.writeLine 31 n.val 1 forced mode) s = .next
       { (s.takeFrame 7).callOver k (x.uncharged .abandoned s.clock) c.dest .abandoned n
           { s.line n with enabled := false, forced := f, mode := m, learned := .unknown, state := .off, call := none } with
         passesDue := s.passesDue + 3, reply := some ⟨.ok, []⟩ }) ∧
  (∀ (s : State) (n : Fin 4) (forced mode : Nat) (f : Bool) (m : DialMode), firstOfTwo forced = some f → m.code = mode →
     let request := Instr.writeLine 31 n.val 1 forced mode
     let l : Line := { s.line n with enabled := false, forced := f, mode := m, learned := .unknown, state := .off }
     (∀ (c : Call) (k : Fin 48) (x : Case), s.Carries n c k x → (s.line n).state = .awaitPermit →
       exec request s = .next
         { (s.takeFrame 7).callOver k (x.uncharged .abandoned s.clock) c.dest .abandoned n { l with call := none } with
           permit := { s.permit with queue := s.permit.queue.filter fun w => w.line ≠ n }
           passesDue := s.passesDue + 3, reply := some ⟨.ok, []⟩ }) ∧
     (∀ u : State, (s.line n).state = .fault → s.NoOffer → s.RestoredTo (lineKey n) u →
       exec request s = .next
         { u.setLine n { l with cause := .none, faultHold := none, recovery := none } with
           serialOut := List.replicate 7 0, causes := u.causes ||| (s.takeFrame 7).causes ||| 0x04
           passesDue := u.passesDue + 1, reply := some ⟨.ok, []⟩ }))

/-- WRITE LINE TIMING and WRITE EXCHANGE TIMING clamp every value to its range (a differential first rounded down to a
multiple of 3), write them all, and are answered ADJUSTED where one was changed and OK otherwise; no timer already
running and nothing else changes (R126, R156). WRITE TEST TIMER writes mode and period, the period clamped to 1 to 168
hours, starts the count at the full period, and is answered ADJUSTED where the period was clamped and OK otherwise;
another mode is answered BAD_VALUE; nothing else changes (R175). -/
def Obligations.TimersWritten : Prop :=
  ((∀ (s : State) (stagger check settle tone guardTime hold differential filter : Nat),
     let x : LineTiming := ⟨min 1000 (max 100 stagger), min 500 (max 100 check), min 2000 (max 500 settle),
       min 10 (max 2 tone), min 10 (max 1 guardTime), min 3600 (max 60 hold), min 30 (max 3 (differential - differential % 3)),
       min 1000 (max 50 filter)⟩
     exec (.writeLineTiming 31 stagger check settle tone guardTime hold differential filter) s = .next
       { s.takeFrame 16 with
         timing := x
         reply := some ⟨if x = ⟨stagger, check, settle, tone, guardTime, hold, differential, filter⟩ then .ok
           else .adjusted, []⟩ }) ∧
   ∀ (s : State) (handshake response repeats blocks linger : Nat),
     let x : ExchangeTiming := ⟨min 60 (max 10 handshake), min 10 (max 2 response), min 5 repeats, min 32 (max 1 blocks),
       min 30 linger⟩
     exec (.writeExchangeTiming 31 handshake response repeats blocks linger) s = .next
       { s.takeFrame 8 with
         exchange := x
         reply := some ⟨if x = ⟨handshake, response, repeats, blocks, linger⟩ then .ok else .adjusted, []⟩ }) ∧
  (∀ (s : State) (code period : Nat),
     (∀ m : TestMode, m.code = code →
       exec (.writeTestTimer 31 code period) s = .next
         { s.takeFrame 5 with
           testTimer := ⟨m, min 168 (max 1 period), min 168 (max 1 period) * 3600⟩
           reply := some ⟨if 1 ≤ period ∧ period ≤ 168 then .ok else .adjusted, []⟩ }) ∧
     (2 < code → exec (.writeTestTimer 31 code period) s = .next { s.takeFrame 5 with reply := some ⟨.badValue, []⟩ }))

/-- WRITE INPUT: the checks in their order, BUSY while a case of the input's source is held; a write that passes writes
the six values, the filter time and retard clamped, keeps enabled and the latest sample, and starts the working state
again; nothing else changes but the model's mark that the channel has been written (R169; log entry 30). -/
def Obligations.InputWritten : Prop :=
  ∀ (s : State) (input code zone latch sampling filter retard : Nat),
    let request := Instr.writeInput 31 input code zone latch sampling filter retard
    (7 < input ∨ code = 0 ∨ 3 < code ∨ 999 < zone ∨ 1 < latch ∨ 1 < sampling →
      exec request s = .next { s.takeFrame 12 with reply := some ⟨.badValue, []⟩ }) ∧
    ∀ (i : Fin 8) (c : Cls) (la : LatchMode) (sa : Sampling), input = i.val → c.code = code → code ≤ 3 → zone ≤ 999 →
      la.code = latch → sa.code = sampling →
      ((∃ (k : Fin 48) (x : Case), s.caseAt k = some x ∧ x.key.source = 16 + i.val) →
        exec request s = .next { s.takeFrame 12 with reply := some ⟨.busy, []⟩ }) ∧
      ((∀ (k : Fin 48) (x : Case), s.caseAt k = some x → x.key.source ≠ 16 + i.val) →
        exec request s = .next
          { (s.takeFrame 12).setInput i
              { enabled := (s.input i).enabled, cls := c, zone := zone, latch := la, sampling := sa
                filterMs := min 5000 (max 50 filter), retard := min 120 retard, sample := (s.input i).sample
                accepted := .normal, candidate := none, levelFilter := none, alarm := .quiet, retardTimer := none
                trouble := .quiet, written := true } with
            reply := some ⟨if 50 ≤ filter ∧ filter ≤ 5000 ∧ retard ≤ 120 then .ok else .adjusted, []⟩ })

/-- SET INPUT STATE: the setting already held is answered UNCHANGED; an enable sets it and nothing else; a disable of
a channel with no alarm or trouble raised starts its working state again and sets it, and nothing else changes (R170).
A disable restores the alarm case of a channel whose alarm is RAISED, latched or not, before its working state starts
again (R170, R21). UNLATCH INPUT: a channel that is not latched is answered UNCHANGED, and a latched one whose
accepted level is not NORMAL WRONG_STATE; a latched channel at NORMAL becomes QUIET and its alarm case is restored:
RESTORE joins the tail of an ACTIVE case (R166). A disable restores the alarm case where the alarm is RAISED and then
the trouble case where the trouble is RAISED, and UNLATCH INPUT the alarm case, in whatever state the case is: a HELD
one becomes PENDING at the start of its plan, under the plan rule (R10, R12, R166, R170). Of a case that strands under
the plan rule at once the Arbiter is told only where it is FIRE and fire waits, which is the model's choice (log entry
32). -/
def Obligations.InputStateSet : Prop :=
  (∀ (s : State) (i : Fin 8), s.NoOffer →
     ((s.input i).enabled = true →
       exec (.setInputState 31 i.val 0) s = .next { s.takeFrame 5 with reply := some ⟨.unchanged, []⟩ }) ∧
     ((s.input i).enabled = false →
       exec (.setInputState 31 i.val 0) s = .next
         { (s.takeFrame 5).setInput i { s.input i with enabled := true } with reply := some ⟨.ok, []⟩ } ∧
       exec (.setInputState 31 i.val 1) s = .next { s.takeFrame 5 with reply := some ⟨.unchanged, []⟩ }) ∧
     ((s.input i).enabled = true → (s.input i).alarm ≠ .raised → (s.input i).trouble ≠ .raised →
       exec (.setInputState 31 i.val 1) s = .next
         { (s.takeFrame 5).setInput i
             { s.input i with enabled := false, accepted := .normal, candidate := none, levelFilter := none, alarm := .quiet,
                              retardTimer := none, trouble := .quiet } with
           reply := some ⟨.ok, []⟩ }) ∧
     ∀ (input state : Nat), 7 < input ∨ 1 < state →
       exec (.setInputState 31 input state) s = .next { s.takeFrame 5 with reply := some ⟨.badValue, []⟩ }) ∧
  (∀ (s : State) (i : Fin 8) (k : Fin 48) (x : Case), s.NoOffer → (s.input i).enabled = true →
     (s.input i).alarm = .raised → (s.input i).trouble ≠ .raised →
     s.caseOfKey ⟨16 + i.val, (s.input i).zone, (s.input i).cls⟩ = some k → s.caseAt k = some x → x.key.cls ≠ .test →
     x.condition = .active → x.state ≠ .held →
     exec (.setInputState 31 i.val 1) s = .next
       { ((s.takeFrame 5).setCase k { x with owed := x.owed ++ [.restore], condition := .restored }).setInput i
           { s.input i with enabled := false, accepted := .normal, candidate := none, levelFilter := none, alarm := .quiet,
                            retardTimer := none, trouble := .quiet } with
         reply := some ⟨.ok, []⟩ }) ∧
  (∀ (s : State) (i : Fin 8), s.NoOffer →
     let request := Instr.unlatchInput 31 i.val
     let latched := (s.input i).latch = .latching ∧ (s.input i).alarm = .raised
     (¬ latched → exec request s = .next { s.takeFrame 4 with reply := some ⟨.unchanged, []⟩ }) ∧
     (latched → (s.input i).accepted ≠ .normal →
       exec request s = .next { s.takeFrame 4 with reply := some ⟨.wrongState, []⟩ }) ∧
     (latched → (s.input i).accepted = .normal → s.caseOfKey ⟨16 + i.val, (s.input i).zone, (s.input i).cls⟩ = none →
       exec request s = .next
         { (s.takeFrame 4).setInput i { s.input i with alarm := .quiet } with reply := some ⟨.ok, []⟩ }) ∧
     (∀ (k : Fin 48) (x : Case), latched → (s.input i).accepted = .normal →
       s.caseOfKey ⟨16 + i.val, (s.input i).zone, (s.input i).cls⟩ = some k → s.caseAt k = some x → x.key.cls ≠ .test →
       x.condition = .active → x.state ≠ .held →
       exec request s = .next
         { ((s.takeFrame 4).setCase k { x with owed := x.owed ++ [.restore], condition := .restored }).setInput i
             { s.input i with alarm := .quiet } with
           reply := some ⟨.ok, []⟩ })) ∧
  (∀ (s u v : State) (i : Fin 8), s.NoOffer → (s.input i).enabled = true →
     (if (s.input i).alarm = .raised then s.RestoredTo ⟨16 + i.val, (s.input i).zone, (s.input i).cls⟩ u else u = s) →
     (if (s.input i).trouble = .raised then u.RestoredTo ⟨16 + i.val, (s.input i).zone, .trouble⟩ v else v = u) →
     exec (.setInputState 31 i.val 1) s = .next
       { v.setInput i
           { s.input i with enabled := false, accepted := .normal, candidate := none, levelFilter := none, alarm := .quiet,
                            retardTimer := none, trouble := .quiet } with
         serialOut := List.replicate 5 0, causes := v.causes ||| (s.takeFrame 5).causes, reply := some ⟨.ok, []⟩ }) ∧
  (∀ (s u : State) (i : Fin 8), s.NoOffer → (s.input i).latch = .latching → (s.input i).alarm = .raised →
     (s.input i).accepted = .normal → s.RestoredTo ⟨16 + i.val, (s.input i).zone, (s.input i).cls⟩ u →
     exec (.unlatchInput 31 i.val) s = .next
       { u.setInput i { s.input i with alarm := .quiet } with
         serialOut := List.replicate 4 0, causes := u.causes ||| (s.takeFrame 4).causes, reply := some ⟨.ok, []⟩ }) ∧
  (∀ (s : State) (input : Nat), 7 < input →
     exec (.unlatchInput 31 input) s = .next { s.takeFrame 4 with reply := some ⟨.badValue, []⟩ })

/-- START TEST: where a TEST case exists it is left unchanged (EXISTING); where the test post is held already nothing
changes (OK); where there is room the TEST case is created RESTORED, owing a TEST (CREATED); and where there is none
the post is held and POST HELD raised (OK). The timer is left as it was (R20, R174, R176). TEST_TIMER_EXPIRY with the
count run down: the test key is posted as by START TEST, and the timer reloads in AUTO and turns OFF in SINGLE. Shown
for a TEST case that exists, a held test post, a full table, and room with the first plan entry usable (R20, R173,
R174). -/
def Obligations.TestPosted : Prop :=
  (∀ s : State,
     let request := Instr.startTest 31
     let taken := s.takeFrame 3
     let key : Key := ⟨24, 0, .test⟩
     (∀ k : Fin 48, s.caseOfKey key = some k →
       exec request s = .next { taken with reply := some ⟨.existing, field2 (s.handleOf k)⟩ }) ∧
     (s.caseOfKey key = none → s.heldAt 20 = some key → exec request s = .next { taken with reply := some ⟨.ok, []⟩ }) ∧
     (s.caseOfKey key = none → s.heldAt 20 = none →
       (48 ≤ s.cases.length ∨ 48 - s.reserve ≤ s.otherCases →
         exec request s = .next
           { taken.setHeld 20 (some key) with causes := taken.causes ||| 0x20, reply := some ⟨.ok, []⟩ }) ∧
       (∀ k : Fin 48, s.cases.length < 48 → s.otherCases < 48 - s.reserve → s.lowestFree = some k → s.NoOffer →
         (∀ d : Fin 8, (s.plan .test).dests.head? = some d → s.usable d = true ∧ s.NobodyOn d) →
         exec request s = .next
           { taken.setCase k
               { key := key, detail := none, mark := .verified, condition := .restored, state := .pending, owed := [.test]
                 reported := false, chatter := 0, posted := s.clock, progress := ⟨0, 0, 0⟩, failed := 0, retry := s.clock
                 last := .none, line := none } with
             causes := taken.causes ||| (if 48 - s.reserve - (s.otherCases + 1) ≤ s.lowThreshold then 0x10 else 0)
             passesDue := s.passesDue + 1, reply := some ⟨.created, field2 (s.handleOf k)⟩ }))) ∧
  (∀ s : State, s.testTimer.mode ≠ .off → s.testTimer.remaining = 0 → s.NoOffer →
     let key : Key := ⟨24, 0, .test⟩
     let timer : TestTimer :=
       if s.testTimer.mode = .auto then { s.testTimer with remaining := s.testTimer.period * 3600 }
       else { s.testTimer with mode := .off }
     (s.caseOfKey key ≠ none ∨ s.heldAt 20 = some key →
       exec .testTimerExpiry s = .next { s with testTimer := timer }) ∧
     (s.caseOfKey key = none → s.heldAt 20 = none →
       (48 ≤ s.cases.length ∨ 48 - s.reserve ≤ s.otherCases →
         exec .testTimerExpiry s = .next
           { s.setHeld 20 (some key) with causes := s.causes ||| 0x20, testTimer := timer }) ∧
       (∀ k : Fin 48, s.cases.length < 48 → s.otherCases < 48 - s.reserve → s.lowestFree = some k →
         (∀ d : Fin 8, (s.plan .test).dests.head? = some d → s.usable d = true ∧ s.NobodyOn d) →
         exec .testTimerExpiry s = .next
           { s.setCase k
               { key := key, detail := none, mark := .verified, condition := .restored, state := .pending, owed := [.test]
                 reported := false, chatter := 0, posted := s.clock, progress := ⟨0, 0, 0⟩, failed := 0, retry := s.clock
                 last := .none, line := none } with
             causes := s.causes ||| (if 48 - s.reserve - (s.otherCases + 1) ≤ s.lowThreshold then 0x10 else 0)
             passesDue := s.passesDue + 1, testTimer := timer })))

/-! ### Reading requests, attention, time and resets -/

/-- READ CONFIG answers OK with the body R185 gives the item and index, coded by R183, and BAD_VALUE outside its table,
and changes nothing (R183, R185). That the enabled setting of item 6 is 0 for yes and an empty held-post position of
item 8 five bytes of 0 is the model's deduction from R183 (log entry 12). The fire-waiting indication of item 2 is sent as 1 for true and 0 for false, which no rule states (the
model's choice, log entry 31). -/
def Obligations.ConfigRead : Prop :=
  ∀ (s : State) (src item index : Nat), src ≤ 15 ∨ src = 31 →
    let answered (item index : Nat) (body : List Byte) :=
      exec (.readConfig src item index) s = .next { s.takeFrame 5 with reply := some ⟨.ok, body⟩ }
    answered 0 0 [byteOf s.reserve, byteOf s.lowThreshold] ∧
    (∀ i : Fin 16, answered 1 i.val [byteOf (s.admissionOf i 0).code, byteOf (s.admissionOf i 1).code,
      byteOf (s.admissionOf i 2).code, byteOf (s.admissionOf i 3).code]) ∧
    (∀ c : Cls, let e := s.classEntry c
      answered 2 c.code ([byteOf e.base, byteOf e.ageStep, byteOf e.ageCap] ++ field2 e.retryBase ++ field2 e.retryMax ++
        [if s.fireWaiting = true then 1 else 0])) ∧
    (∀ c : Cls, (s.plan c).dests.length ≤ 4 →
      answered 3 c.code (byteOf (s.plan c).dests.length :: (s.plan c).dests.map (fun d => byteOf d.val) ++
        List.replicate (4 - (s.plan c).dests.length) 0 ++ [byteOf (s.plan c).attempts, byteOf (s.plan c).rounds])) ∧
    answered 4 0 (field2 s.timing.stagger ++ field2 s.timing.check ++ field2 s.timing.settle ++
      [byteOf s.timing.dialToneWait, byteOf s.timing.guardTime] ++ field2 s.timing.faultHold ++
      [byteOf s.timing.differential] ++ field2 s.timing.intrusion) ∧
    answered 5 0 [byteOf s.exchange.handshake, byteOf s.exchange.response, byteOf s.exchange.repeatLimit,
      byteOf s.exchange.blockLimit, byteOf s.exchange.linger] ∧
    (∃ body : List Byte, answered 6 0 body ∧ body.length = 32 ∧ ∀ i : Fin 8, (body.drop (4 * i.val)).take 4 =
      [if (s.input i).enabled = true then 0 else 1, byteOf (s.input i).cls.code] ++ field2 (s.input i).zone) ∧
    answered 7 0 ([byteOf s.testTimer.mode.code, byteOf s.testTimer.period] ++ field4 s.testTimer.remaining) ∧
    (∀ p : Fin 21, answered 8 p.val
      (match s.heldAt p with
        | some k => [1, byteOf k.source] ++ field2 k.zone ++ [byteOf k.cls.code]
        | none => [0, 0, 0, 0, 0])) ∧
    (8 < item ∨ (item ∈ [0, 4, 5, 6, 7] ∧ index ≠ 0) ∨ (item = 1 ∧ 15 < index) ∨
        (item ∈ [2, 3] ∧ (index = 0 ∨ 5 < index)) ∨ (item = 8 ∧ 20 < index) →
      exec (.readConfig src item index) s = .next { s.takeFrame 5 with reply := some ⟨.badValue, []⟩ })

/-- READ LINE, READ DESTINATION and READ INPUT answer BAD_VALUE for a number out of range and else OK with the record's
fields, and change nothing; the body of READ DESTINATION holds its fields in the order of R77, the dial string after
its count and an absent call line as a byte of 0 and a 0 (R77, R127, R171, R183). The order and coding of the three
bodies are deduced from R77, R127, R171 and R183 (log entry 12), and the two values of the retard remaining, the whole
seconds left or one less, are the model's choice (log entry 9). -/
def Obligations.RecordsRead : Prop :=
  ∀ (s : State) (src : Nat), src ≤ 15 ∨ src = 31 →
    let held (p : Option Key) : List Byte :=
      match p with
      | some k => [1, byteOf k.source] ++ field2 k.zone ++ [byteOf k.cls.code]
      | none => [0, 0, 0, 0, 0]
    (∀ n : Fin 4, ∃ body : List Byte,
      exec (.readLine src n.val) s = .next { s.takeFrame 4 with reply := some ⟨.ok, body⟩ } ∧
      body.take 4 = [byteOf (s.line n).state.code, byteOf (s.line n).cause.code, byteOf (s.line n).learned.code,
        byteOf (s.line n).failures] ∧
      (body.drop 4).take 2 = (match (s.call n).bind Call.reference with
        | some i => [1, byteOf i]
        | none => [0, 0]) ∧
      (body.drop 6).take 3 = (match (s.line n).sample with
        | some x => [1, byteOf x.volts, byteOf x.milliamps]
        | none => [0, 0, 0]) ∧
      (body.drop 9).take 3 = [if (s.line n).enabled = true then 0 else 1, if (s.line n).forced = true then 0 else 1,
        byteOf (s.line n).mode.code] ∧
      body.drop 12 = (match s.call n with
        | some c => [1, byteOf c.dest.val]
        | none => [0, 0])) ∧
    (∀ d : Fin 8,
      exec (.readDestination src d.val) s = .next
        { s.takeFrame 4 with
          reply := some ⟨.ok,
            byteOf (s.dest d).dial.length :: (s.dest d).dial.map (fun y => byteOf y.code) ++
              (s.dest d).account.digits.map byteOf ++
              [byteOf (s.dest d).state.code, if (s.dest d).toggle = true then 1 else 0, byteOf (s.dest d).policy.code,
                byteOf (s.dest d).last.code] ++
              (match (s.dest d).callLine with
                | some n => [1, byteOf n.val]
                | none => [0, 0])⟩ }) ∧
    (∀ i : Fin 8, ∃ (body : List Byte) (draws : Nat),
      exec (.readInput src i.val) s = .next { s.takeFrame 4 with reply := some ⟨.ok, body⟩, freeCount := draws } ∧
      body.take 9 = [if (s.input i).enabled = true then 0 else 1, byteOf (s.input i).cls.code] ++ field2 (s.input i).zone ++
        [byteOf (s.input i).latch.code, byteOf (s.input i).sampling.code] ++ field2 (s.input i).filterMs ++
        [byteOf (s.input i).retard] ∧
      (body.drop 9).take 3 = (match (s.input i).sample with
        | some x => [1, byteOf x]
        | none => [0, 0]) ++ [byteOf (s.input i).accepted.code] ∧
      (body.drop 12).take 3 = (match (s.input i).candidate with
        | some x => [1, byteOf x.code]
        | none => [0, 0]) ++ [byteOf (s.input i).alarm.code] ∧
      (∀ r : RetardRun, (s.input i).alarm = .retarding → (s.input i).retardTimer = some r →
        body[15]? = some 1 ∧
          (body[16]? = some (byteOf (r.seconds - (s.clock - r.started).toNat)) ∨
            body[16]? = some (byteOf (r.seconds - (s.clock - r.started).toNat - 1)))) ∧
      ((s.input i).alarm ≠ .retarding → (body.drop 15).take 2 = [0, 0]) ∧
      (body.drop 17).take 2 = [if (s.input i).latch = .latching ∧ (s.input i).alarm = .raised then 1 else 0,
        byteOf (s.input i).trouble.code] ∧
      (body.drop 19).take 5 = held (s.heldAt (Poster.inputAlarm i).position) ∧
      body.drop 24 = held (s.heldAt (Poster.inputTrouble i).position)) ∧
    ∀ x : Nat,
      (3 < x → exec (.readLine src x) s = .next { s.takeFrame 4 with reply := some ⟨.badValue, []⟩ }) ∧
      (7 < x → exec (.readDestination src x) s = .next { s.takeFrame 4 with reply := some ⟨.badValue, []⟩ } ∧
        exec (.readInput src x) s = .next { s.takeFrame 4 with reply := some ⟨.badValue, []⟩ })

/-- READ STATUS answers the causes set at that moment, masked ones and an overrun its own frame caused included, and the
mask, and clears every cause, so that ATTENTION is deasserted; nothing else changes (R188, R181). WRITE MASK replaces
the mask with any byte, answered OK, and changes no cause; ATTENTION then follows the causes the new mask leaves
(R187). -/
def Obligations.AttentionServed : Prop :=
  (∀ s : State, ∃ t : State, exec (.readStatus 31) s = .next t ∧
     t = { s.takeFrame 3 with
           causes := 0
           reply := some ⟨.ok, [if s.reply.isSome then s.causes ||| 0x80 else s.causes, s.mask]⟩ } ∧
     t.attention = false) ∧
  (∀ (s : State) (m : Nat), ∃ t : State, exec (.writeMask 31 m) s = .next t ∧
     t = { s.takeFrame 4 with mask := BitVec.ofNat 8 m, reply := some ⟨.ok, []⟩ } ∧
     (t.attention = true ↔ ∃ b : Fin 8, t.causes.getLsbD b.val = true ∧ t.mask.getLsbD b.val = false))

/-- READ TIME answers the clock in four bytes, most significant first, and changes nothing (R186). SECONDS_CLOCK_ADVANCE
adds one second, modulo 2 to the 32; a running Test Timer's count goes down by one; the Arbiter is told of every
PENDING case whose retry time the clock has just reached, and of no other (one notice a case: log entry 3); nothing
else changes (R62, R173, R186). At a count of 0, where the expiry is still to be taken, the count stays 0 (the model's
choice, log entry 5). -/
def Obligations.ClockServed : Prop :=
  (∀ (s : State) (src : Nat), src ≤ 15 ∨ src = 31 →
     ∃ b3 b2 b1 b0 : Byte,
       exec (.readTime src) s = .next { s.takeFrame 3 with reply := some ⟨.ok, [b3, b2, b1, b0]⟩ } ∧
       b3.toNat * 16777216 + b2.toNat * 65536 + b1.toNat * 256 + b0.toNat = s.clock.toNat) ∧
  (∀ s : State,
     exec .secondsClockAdvance s = .next
       { s with
         clock := s.clock + 1
         passesDue := s.passesDue +
           s.cases.countP fun x => decide (x.state = .pending) && decide (x.retry = s.clock + 1)
         testTimer := if s.testTimer.mode = .off then s.testTimer
           else { s.testTimer with remaining := s.testTimer.remaining - 1 } })

/-- Power-on reset leaves every record at its reset value, whatever the state before, but for the model's own queue and
draw of free values: the values of R30, R34, R53, R84, R85, R86, R126, R128, R156, R160, R172, R173, R179, R186 and
R187. That the queue and the draw of free values are kept is the model's choice (log entry 23), and the mark that a
channel has been written, which is false, is the model's own (log entry 30). -/
def Obligations.PowerOnResets : Prop :=
  ∀ s : State, ∃ t : State, exec .powerOnReset s = .next t ∧ t.pending = s.pending ∧ t.freeCount = s.freeCount ∧
    (∀ k : Fin 48, t.slot k = ⟨0, none⟩) ∧ t.reserve = 8 ∧ t.lowThreshold = 4 ∧ t.NoHeld ∧
    (∀ (i : Fin 16) (p : Fin 4), t.admissionOf i p = .allow) ∧
    t.classEntry .fire = ⟨180, 8, 31, 2, 20⟩ ∧ t.classEntry .waterflow = ⟨160, 8, 40, 5, 60⟩ ∧
    t.classEntry .boiler = ⟨100, 15, 60, 10, 240⟩ ∧ t.classEntry .trouble = ⟨80, 30, 60, 30, 600⟩ ∧
    t.classEntry .test = ⟨20, 60, 40, 60, 900⟩ ∧ t.fireWaiting = false ∧
    (∀ d : Fin 8, (t.dest d).dial = [] ∧ (t.dest d).account.digits = [0, 0, 0, 0] ∧ (t.dest d).state = .disabled ∧
      (t.dest d).toggle = false ∧ (t.dest d).policy = .carry ∧ (t.dest d).last = .none ∧ (t.dest d).callLine = none) ∧
    (∀ c : Cls, t.plan c = ⟨[], 2, 2⟩) ∧
    (∀ n : Fin 4, let l := t.line n
      l.enabled = true ∧ l.forced = true ∧ l.mode = .auto ∧ l.learned = .unknown ∧ l.state = .idle ∧ l.cause = .none ∧
        l.failures = 0 ∧ l.sample = none ∧ l.band = .high ∧ l.classFilter = none ∧ l.recovery = none ∧
        l.guardTimer = none ∧ l.faultHold = none ∧ l.call = none) ∧
    t.timing = ⟨300, 250, 1000, 3, 2, 300, 9, 200⟩ ∧ t.exchange = ⟨25, 4, 3, 16, 5⟩ ∧ t.permit = ⟨none, none, []⟩ ∧
    (∀ i : Fin 8, t.input i = ⟨false, .fire, 0, .following, .filtered, 500, 0, none, .normal, none, none, .quiet, none, .quiet, false⟩) ∧
    t.testTimer = ⟨.off, 24, 86400⟩ ∧ t.causes = 0 ∧ t.mask = 0x40 ∧ t.attention = false ∧ t.clock = 0 ∧ t.reply = none

/-- SOFT RESET empties the Case Table with its generations and held posts, makes fire-waiting false, ends every call
without an outcome, takes every line on-hook to GUARD, or OFF where disabled, with what it has learned and counted
cleared, restarts the channels' working state and the Test Timer's count, clears the causes and returns the clock to
0; it keeps every setting, the destinations' toggles, states and last outcomes, the latest samples, the mask and a
permit held; its own reply is waiting (R30, R84, R129, R172, R173, R187, R189). That every disabled line is OFF, one
that was closing its call too, and that what it has learned and counted is cleared like an enabled line's is the
model's deduction (log entry 22). -/
def Obligations.SoftResets : Prop :=
  ∀ s : State, ∃ t : State, exec (.softReset 31) s = .next t ∧ t.reply = some ⟨.ok, []⟩ ∧
    (∀ k : Fin 48, t.slot k = ⟨0, none⟩) ∧ t.NoHeld ∧ t.fireWaiting = false ∧ t.causes = 0 ∧ t.clock = 0 ∧
    (∀ d : Fin 8, t.dest d = { s.dest d with callLine := none }) ∧
    (∀ n : Fin 4, let l := t.line n
      l.enabled = (s.line n).enabled ∧ l.forced = (s.line n).forced ∧ l.mode = (s.line n).mode ∧
        l.sample = (s.line n).sample ∧ l.learned = .unknown ∧ l.failures = 0 ∧ l.cause = .none ∧ l.call = none ∧
        l.classFilter = none ∧ l.recovery = none ∧ l.faultHold = none ∧
        ((s.line n).enabled = true → l.state = .guarded ∧ l.guardTimer = some (s.timing.guardTime * 1000)) ∧
        ((s.line n).enabled = false → l.state = .off ∧ l.guardTimer = none)) ∧
    t.permit = { s.permit with queue := [] } ∧
    (∀ i : Fin 8, t.input i =
      { s.input i with accepted := .normal, candidate := none, levelFilter := none, alarm := .quiet, retardTimer := none,
                       trouble := .quiet }) ∧
    t.testTimer = { s.testTimer with remaining := s.testTimer.period * 3600 } ∧
    t.reserve = s.reserve ∧ t.lowThreshold = s.lowThreshold ∧ t.admission = s.admission ∧ t.classes = s.classes ∧
    t.plans = s.plans ∧ t.timing = s.timing ∧ t.exchange = s.exchange ∧ t.mask = s.mask ∧ t.pending = s.pending ∧
    t.freeCount = s.freeCount

/-! ### Ranks, plans and the dispatch pass -/

/-- A FIRE case whose head is an ALARM has urgency 224 plus its age credit, limited to the lesser of the FIRE age cap and
31, so between 224 and 255 and above every case of another kind (R57, R58). The Arbiter takes each case it compares
exactly once, and in this order: higher urgency first, then the earlier posted time (the greater time since it: log
entry 14), then the lower slot (R59). -/
def Obligations.CasesRanked : Prop :=
  (∀ (s : State) (x : Case),
     let e := s.classEntry x.key.cls
     let age := min (s.clock - x.posted).toNat 65535
     (x.key.cls = .fire → x.owed.head? = some .alarm →
       s.urgency x = 224 + min (age / e.ageStep) (min e.ageCap 31) ∧ 224 ≤ s.urgency x ∧ s.urgency x ≤ 255) ∧
     (¬ (x.key.cls = .fire ∧ x.owed.head? = some .alarm) →
       (s.urgency x : Int) = max 0 (min 223
         (e.base + min (age / e.ageStep) e.ageCap - (if x.owed.head? = some .restore then 32 else 0) -
           min (4 * x.failed) 32 : Int)))) ∧
  (∀ (s : State) (p : Fin 48 → Bool),
     (s.ranked p).Perm ((List.finRange 48).filter p) ∧
     (s.ranked p).Pairwise fun j k => ∀ a b : Case, s.caseAt j = some a → s.caseAt k = some b →
       s.urgency b < s.urgency a ∨ (s.urgency a = s.urgency b ∧
         (s.since b.posted < s.since a.posted ∨ (s.since a.posted = s.since b.posted ∧ j ≤ k))))

/-- An advance sets attempts to 0, moves at most once round the plan, and comes to rest only at a usable destination
within the rounds; it strands only where no entry after the step it left, up to the end of the rounds or of one sweep,
is usable (R65). -/
def Obligations.AdvanceSweeps : Prop :=
  ∀ (p : Plan) (usable : Fin 8 → Bool) (step round : Nat), step < p.dests.length → round < p.rounds →
    let entry (j : Nat) := (step + j) % p.dests.length
    let roundAt (j : Nat) := round + (step + j) / p.dests.length
    let usableAt (j : Nat) : Prop := ∃ d : Fin 8, p.dests[entry j]? = some d ∧ usable d = true
    match p.sweep usable p.dests.length step round with
    | .rest d q => ∃ j : Nat, 1 ≤ j ∧ j ≤ p.dests.length ∧ roundAt j < p.rounds ∧ usable d = true ∧
        p.dests[entry j]? = some d ∧ q = ⟨entry j, 0, roundAt j⟩ ∧ ∀ i : Nat, 1 ≤ i → i < j → ¬ usableAt i
    | .strand q =>
        (∀ i : Nat, 1 ≤ i → i ≤ p.dests.length → roundAt i < p.rounds → ¬ usableAt i) ∧
        (if roundAt p.dests.length < p.rounds then q = ⟨step, 0, round + 1⟩ else q = ⟨0, 0, p.rounds - 1⟩)

/-- A line is selectable for a destination exactly where it is IDLE, enabled, and does not have to pulse a star or a hash:
with dial mode PULSE, or AUTO having learned PULSE, it is not dial-compatible with a string that holds one (R88, R89). -/
def Obligations.SelectableLines : Prop :=
  ∀ (s : State) (d : Fin 8) (n : Fin 4),
    let pulses := (s.line n).mode = .pulse ∨ ((s.line n).mode = .auto ∧ (s.line n).learned = .pulse)
    let starHash := .star ∈ (s.dest d).dial ∨ .hash ∈ (s.dest d).dial
    (s.compatible n d = true ↔ ¬ (starHash ∧ pulses)) ∧
    (s.selectable d n = true ↔ (s.line n).state = .idle ∧ (s.line n).enabled = true ∧ ¬ (starHash ∧ pulses))

/-- A dispatch pass binds its first-ranked eligible case to the lowest-numbered line selectable for its destination: the
case is SENDING on the line, the destination's call line is the line, and the line has left IDLE for AWAIT PERMIT, or,
where the permit is free, for OFF HOOK, with a call context that names destination, lead case and current case with
one report carried (R8, R71, R91, R92, R111). A pass takes one notice. Where no case is eligible it changes nothing
else but the fire-waiting indication, which becomes false; and where no notice is outstanding there is no pass (the
model's choice, log entry 3) (R86, R90). -/
def Obligations.PassBindsFirst : Prop :=
  (∀ (s : State) (k : Fin 48) (rest : List (Fin 48)) (x : Case) (d : Fin 8) (n : Fin 4),
     s.CallsSound → s.passesDue ≠ 0 → s.ranked s.eligible = k :: rest → s.caseAt k = some x → s.currentDest x = some d →
     s.selectable d n = true → (∀ m : Fin 4, m < n → s.selectable d m = false) →
     ∃ (t : State) (c : Call), exec .dispatchPass s = .next t ∧
       t.caseAt k = some { x with state := .sending, line := some n } ∧ (t.dest d).callLine = some n ∧
       t.call n = some c ∧ c.dest = d ∧ c.lead = s.handleOf k ∧ c.current = some k ∧ c.carried = 1 ∧
       c.reference = none ∧ c.closePending = false ∧ c.block = none ∧ (t.line n).classFilter = none ∧
       (s.permit.holder = none → s.permit.queue = [] →
         (t.line n).state = .offHook ∧ t.permit.holder = some n ∧ t.permit.stagger = some s.timing.stagger ∧
           c.check = .running s.timing.check ∧ c.settleTimer = some s.timing.settle ∧
           c.dialToneWait = some (s.timing.dialToneWait * 1000)) ∧
       (s.permit.holder ≠ none → (t.line n).state = .awaitPermit ∧ n ∈ t.permit.queue.map PermitWait.line)) ∧
  (∀ s : State,
     (s.passesDue = 0 → exec .dispatchPass s = .next s) ∧
     (s.passesDue ≠ 0 → (∀ k : Fin 48, s.eligible k = false) →
       exec .dispatchPass s = .next { s with passesDue := s.passesDue - 1, fireWaiting := false }) ∧
     ∀ (k : Fin 48) (x : Case) (d : Fin 8), s.passesDue ≠ 0 → s.ranked s.eligible = [k] → s.caseAt k = some x →
       s.currentDest x = some d → (∀ n : Fin 4, s.selectable d n = false) →
       ¬ (x.key.cls = .fire ∧ x.owed.head? = some .alarm) →
       exec .dispatchPass s = .next { s with passesDue := s.passesDue - 1, fireWaiting := false })

/-- The fire measures, for a fire alarm that is alone eligible and finds no selectable line: a compatible line in GUARD is
counted; else the lowest-numbered compatible lingering line is cut, its call ended without an outcome and the line in
GUARD; else the lowest-numbered compatible line IN USE that permits it is seized for the case; else nothing is done.
Fire waits after all but the seizure (R86, R94, R95, R96). -/
def Obligations.FireMeasures : Prop :=
  ∀ (s : State) (k : Fin 48) (x : Case) (d : Fin 8), s.passesDue ≠ 0 → s.ranked s.eligible = [k] →
    s.caseAt k = some x → s.currentDest x = some d → (∀ n : Fin 4, s.selectable d n = false) →
    x.key.cls = .fire → x.owed.head? = some .alarm →
    let in' (st : LineState) (n : Fin 4) : Prop := (s.line n).state = st ∧ s.compatible n d = true
    let waits : State := { s with passesDue := s.passesDue - 1, fireWaiting := true }
    ((∃ n : Fin 4, in' .guarded n) → exec .dispatchPass s = .next waits) ∧
    ((∀ n : Fin 4, ¬ in' .guarded n) →
      (∀ (n : Fin 4) (c : Call), in' .linger n → (∀ m : Fin 4, m < n → ¬ in' .linger m) → s.call n = some c →
        c.closePending = false →
        exec .dispatchPass s = .next
          { waits.callDropped c.dest n ((s.line n).released (s.timing.guardTime * 1000)) with
            passesDue := s.passesDue, fireWaiting := true }) ∧
      ((∀ n : Fin 4, ¬ in' .linger n) →
        (∀ n : Fin 4, in' .inUse n → (s.line n).forced = true →
          (∀ m : Fin 4, m < n → ¬ (in' .inUse m ∧ (s.line m).forced = true)) →
          ∃ (t : State) (c : Call), exec .dispatchPass s = .next t ∧ t.fireWaiting = false ∧
            t.caseAt k = some { x with state := .sending, line := some n } ∧ (t.dest d).callLine = some n ∧
            t.call n = some c ∧ c.dest = d ∧ c.lead = s.handleOf k ∧ c.current = some k ∧ c.carried = 1 ∧
            ((t.line n).state = .awaitPermit ∨ (t.line n).state = .offHook)) ∧
        ((∀ n : Fin 4, ¬ (in' .inUse n ∧ (s.line n).forced = true)) → exec .dispatchPass s = .next waits)))

/-! ### Lines and seizure -/

/-- LINE_SAMPLE is recorded as the latest sample in every state, a current above 150 taken as 150. In IDLE and IN USE its
band is then judged: the line's own band cancels the filter, another band than the candidate starts it afresh with
that band's time, the candidate's lets it run on. In FAULT (NO VOLTAGE) a sample of 3 V or more starts the recovery
timer where it does not run and a LOW one cancels it. In OFF, AWAIT PERMIT, GUARD and the other faults nothing more
happens (R105, R107, R109, R116). LINE_SAMPLE off-hook, of at most 120 mA: while the off-hook check runs it is
recorded alone; the first one after a check without a sample is a sound loop from 8 mA on (shown before settle); in
DIALLING intrusion is not judged; from AWAIT HANDSHAKE to LINGER the first sample is the reference; and there, and in
OFF HOOK once a reference is held, each later one is judged against it: a fall of at least the differential starts the
intrusion filter where it does not run, and any other sample cancels it (R112, R114, R118). A sample taken while the
off-hook check runs is recorded alone whatever its current, above 120 mA too (R112). -/
def Obligations.SampleTaken : Prop :=
  (∀ (s : State) (n : Fin 4) (volts milliamps : Nat), s.NoOffer →
     let band : Band := if volts ≤ 2 then .low else if volts ≤ 19 then .mid else .high
     let time : Nat := if volts ≤ 2 then 10000 else if volts ≤ 19 then 200 else 1000
     let l : Line := { s.line n with sample := some ⟨volts, min 150 milliamps⟩ }
     let becomes (l : Line) := exec (.lineSample n volts milliamps) s = .next (s.setLine n l)
     let own (b : Band) : Prop := ((s.line n).state = .idle ∧ b = .high) ∨ ((s.line n).state = .inUse ∧ b = .mid)
     ((s.line n).state = .off ∨ (s.line n).state = .awaitPermit ∨ (s.line n).state = .guarded ∨
       ((s.line n).state = .fault ∧ (s.line n).cause ≠ .noVoltage) → becomes l) ∧
     ((s.line n).state = .idle ∨ (s.line n).state = .inUse →
       (own band → becomes { l with band := band, classFilter := none }) ∧
       (¬ own band → band ≠ l.band → becomes { l with band := band, classFilter := some time }) ∧
       (¬ own band → band = l.band → becomes l)) ∧
     ((s.line n).state = .fault → (s.line n).cause = .noVoltage →
       becomes { l with recovery := if volts ≤ 2 then none else some (l.recovery.getD 10000) }) ∧
     (∀ (c : Call) (ms : Nat), (s.line n).state = .offHook → s.call n = some c → c.check = .running ms →
       becomes { l with call := some { c with sampled := true } })) ∧
  (∀ (s : State) (n : Fin 4) (volts milliamps : Nat) (c : Call), s.NoOffer → s.call n = some c → milliamps ≤ 120 →
     let l : Line := { s.line n with sample := some ⟨volts, milliamps⟩ }
     let becomes (c : Call) := exec (.lineSample n volts milliamps) s = .next (s.setLine n { l with call := some c })
     let low (r : Nat) : Prop := s.timing.differential ≤ r - milliamps ∧ milliamps < r
     (∀ ms : Nat, (s.line n).state = .offHook → c.check = .running ms → becomes { c with sampled := true }) ∧
     ((s.line n).state = .offHook → c.check = .awaitingSample → 8 ≤ milliamps → c.settled = false →
       becomes { c with sampled := true, check := .judged }) ∧
     ((s.line n).state = .offHook → c.check = .judged → 1 ≤ s.timing.differential →
       (c.reference = none → becomes { c with sampled := true }) ∧
       ∀ r : Nat, c.reference = some r →
         (low r → becomes { c with sampled := true, intrusion := some (c.intrusion.getD s.timing.intrusion) }) ∧
         (¬ low r → becomes { c with sampled := true, intrusion := none })) ∧
     ((s.line n).state = .dialling → becomes c) ∧
     ((s.line n).state = .awaitHandshake ∨ (s.line n).state = .exchange ∨ (s.line n).state = .linger →
       1 ≤ s.timing.differential →
       (c.reference = none → becomes { c with reference := some milliamps }) ∧
       ∀ r : Nat, c.reference = some r →
         (low r → becomes { c with intrusion := some (c.intrusion.getD s.timing.intrusion) }) ∧
         (¬ low r → becomes { c with intrusion := none })))

/-- CLASSIFICATION_FILTER_EXPIRY in IDLE or IN USE with a MID or HIGH candidate: the line enters IN USE or IDLE, of
which the Arbiter is told (of IN USE while fire waits); an expiry of a filter that does not run changes nothing (R106,
R107). GUARD_EXPIRY with a failure count below 3 places the line by its latest sample: IDLE for a HIGH or absent one,
else IN USE, with the no-line filter running for a LOW one; the Arbiter is told of IDLE, and of IN USE while fire
waits; nothing else changes (R108, R122). That an expiry of a filter or guard that does not run changes nothing is the
model's choice (log entry 2). That the candidate band of a line with no latest sample is HIGH there, with no filter
running, is the model's choice (log entry 33). -/
def Obligations.LineReclassified : Prop :=
  (∀ (s : State) (n : Fin 4),
     ((s.line n).classFilter = none → exec (.classificationFilterExpiry n) s = .next s) ∧
     ((s.line n).classFilter.isSome → (s.line n).state = .idle ∨ (s.line n).state = .inUse →
       ((s.line n).band = .high → exec (.classificationFilterExpiry n) s = .next
         { s.setLine n { s.line n with state := .idle, classFilter := none } with passesDue := s.passesDue + 1 }) ∧
       ((s.line n).band = .mid → exec (.classificationFilterExpiry n) s = .next
         { s.setLine n { s.line n with state := .inUse, classFilter := none } with
           passesDue := s.passesDue + (if s.fireWaiting = true then 1 else 0) }))) ∧
  (∀ (s : State) (n : Fin 4),
     ((s.line n).guardTimer = none → exec (.guardExpiry n) s = .next s) ∧
     ((s.line n).guardTimer.isSome → (s.line n).state = .guarded → (s.line n).failures ≠ 3 →
       ((∀ x : LineSample, (s.line n).sample = some x → 20 ≤ x.volts) → exec (.guardExpiry n) s = .next
         { s.setLine n { s.line n with guardTimer := none, state := .idle, band := .high, classFilter := none } with
           passesDue := s.passesDue + 1 }) ∧
       (∀ x : LineSample, (s.line n).sample = some x → x.volts < 20 → exec (.guardExpiry n) s = .next
         { s.setLine n { s.line n with
             guardTimer := none, state := .inUse, band := if x.volts ≤ 2 then .low else .mid
             classFilter := if x.volts ≤ 2 then some 10000 else none } with
           passesDue := s.passesDue + (if s.fireWaiting = true then 1 else 0) })))

/-- A line leaves FAULT at its recovery timer's expiry, at its fault hold's (a NO DIAL TONE or NO LOOP fault leaves
failure count 2), or by an enable (failure count 0): the cause is NONE, its timers cancelled, LINE FAULT raised again,
its trouble case restored, and with a HIGH or absent latest sample the line is IDLE, of which the Arbiter is told;
nothing else changes (R108, R109, R115, R116, R117, R125). The restore acts on the trouble case in whatever state it
is: a HELD one becomes PENDING at the start of its plan, under the plan rule, and where no case holds the key or it is
RESTORED already there is none (R10, R12, R21). Of a case that strands under the plan rule at once the Arbiter is told
only where it is FIRE and fire waits, which is the model's choice (log entry 32). That the candidate band of a line
with no latest sample is HIGH there, with no filter running, is the model's choice (log entry 33). -/
def Obligations.FaultLeft : Prop :=
  ∀ (s u : State) (n : Fin 4), (s.line n).state = .fault → s.NoOffer →
    (∀ x : LineSample, (s.line n).sample = some x → 20 ≤ x.volts) →
    s.RestoredTo (lineKey n) u →
    let idle (l : Line) : Line :=
      { l with state := .idle, cause := .none, faultHold := none, recovery := none, band := .high, classFilter := none }
    ((s.line n).recovery.isSome → exec (.recoveryTimerExpiry n) s = .next
      { u.setLine n (idle (s.line n)) with causes := u.causes ||| 0x04, passesDue := u.passesDue + 1 }) ∧
    ((s.line n).faultHold.isSome → exec (.faultHoldExpiry n) s = .next
      { u.setLine n (idle { s.line n with
          failures := if (s.line n).cause = .overcurrent then (s.line n).failures else 2 }) with
        causes := u.causes ||| 0x04, passesDue := u.passesDue + 1 }) ∧
    ((s.line n).cause ≠ .noVoltage → exec (.writeLine 31 n.val 0 0 0) s = .next
      { u.setLine n (idle { s.line n with
          enabled := true, forced := true, mode := .auto, learned := .unknown, failures := 0 }) with
        serialOut := List.replicate 7 0, causes := u.causes ||| (s.takeFrame 7).causes ||| 0x04
        passesDue := u.passesDue + 2, reply := some ⟨.ok, []⟩ })

/-- A line enters FAULT from IDLE or IN USE when the no-line filter expires (NO VOLTAGE, without a fault hold), and
from GUARD when it expires with failure count 3 (the failure's cause, with the hold): LINE FAULT is raised, and the
line's trouble case is created where there is room, or its post held with POST HELD raised (R20, R107, R109, R116,
R117, R178). A sample above 120 mA, in any off-hook state once the off-hook check is over, hands ABANDONED to the case
the call carries, which returns to PENDING uncharged, and ends the call: the line is in FAULT (OVERCURRENT) without
GUARD, the fault hold started, LINE FAULT raised and the failure count as it was; where close pending is set it is OFF
and nothing else changes (R114, R117). The first sample after an off-hook check without one, and the latest sample at
the check's expiry, end the call in the same way (R112). In LINGER no outcome is handed over and the destination's
last outcome stays; LINE FAULT is raised and the trouble case posted: created, renewed, left as it stands, or held
(R20, R114, R117). That the line keeps the cause of its latest counted failure in a record of its own is the model's
choice (log entry 21). Of a case that strands under the plan rule at once the Arbiter is told only where it is FIRE
and fire waits, which is the model's choice (log entry 32). -/
def Obligations.FaultEntered : Prop :=
  (∀ (s : State) (n : Fin 4), s.caseOfKey (lineKey n) = none → s.heldAt (Poster.line n).position = none →
     let entered (cause : FaultCause) (hold : Timer) (t : State) : Prop :=
       t.line n = { s.line n with state := .fault, cause := cause, classFilter := none, recovery := none, guardTimer := none,
                                  faultHold := hold } ∧
       t.causes.getLsbD 2 = true ∧
       (∀ k : Fin 48, s.cases.length < 48 → s.otherCases < 48 - s.reserve → s.lowestFree = some k →
         ∃ x : Case, t.caseAt k = some x ∧ x.key = ⟨24, 901 + n.val, .trouble⟩ ∧ x.condition = .active ∧ x.owed = [.alarm] ∧
           x.mark = .verified ∧ x.detail = none ∧ x.posted = s.clock) ∧
       (48 ≤ s.cases.length ∨ 48 - s.reserve ≤ s.otherCases →
         t.heldAt (Poster.line n).position = some ⟨24, 901 + n.val, .trouble⟩ ∧ t.causes.getLsbD 5 = true ∧
           t.slots = s.slots)
     ((s.line n).classFilter.isSome → (s.line n).state = .idle ∨ (s.line n).state = .inUse → (s.line n).band = .low →
       s.NoOffer →
       ∃ t : State, exec (.classificationFilterExpiry n) s = .next t ∧ entered .noVoltage none t) ∧
     ((s.line n).guardTimer.isSome → (s.line n).state = .guarded → (s.line n).failures = 3 →
       (s.line n).failureCause = .noDialTone ∨ (s.line n).failureCause = .noLoop → s.NoOffer →
       ∃ t : State, exec (.guardExpiry n) s = .next t ∧
         entered (s.line n).failureCause (some (s.timing.faultHold * 1000)) t)) ∧
  (∀ (s : State) (n : Fin 4) (c : Call) (k : Fin 48) (x : Case), s.Carries n c k x →
     let ended (event : Instr) (l : Line) : Prop :=
       (c.closePending = true →
         exec event s = .next
           (s.callOver k (x.uncharged .abandoned s.clock) c.dest .abandoned n { l with state := .off, call := none })) ∧
       (c.closePending = false → x.key ≠ lineKey n →
         ∃ t : State, exec event s = .next t ∧
           t.line n = { l with state := .fault, cause := .overcurrent, classFilter := none, recovery := none,
                               guardTimer := none, faultHold := some (s.timing.faultHold * 1000), call := none } ∧
           t.causes.getLsbD 2 = true ∧ t.caseAt k = some (x.uncharged .abandoned s.clock) ∧
           t.dest c.dest = { s.dest c.dest with last := .abandoned, callLine := none })
     (∀ volts milliamps : Nat, 120 < milliamps →
       ((s.line n).state = .offHook ∧ (c.check = .judged ∨ c.check = .awaitingSample)) ∨ (s.line n).state = .dialling ∨
         (s.line n).state = .awaitHandshake ∨ (s.line n).state = .exchange →
       ended (.lineSample n volts milliamps) { s.line n with sample := some ⟨volts, min 150 milliamps⟩ }) ∧
     (∀ (ms : Nat) (y : LineSample), (s.line n).state = .offHook → c.check = .running ms → c.sampled = true →
       (s.line n).sample = some y → 120 < y.milliamps → ended (.offHookCheckExpiry n) (s.line n))) ∧
  (∀ (s : State) (n : Fin 4) (volts milliamps : Nat) (c : Call), (s.line n).state = .linger → s.call n = some c →
     c.current = none → 120 < milliamps → s.NoOffer →
     let l : Line := { s.line n with sample := some ⟨volts, min 150 milliamps⟩, call := none }
     (c.closePending = true →
       exec (.lineSample n volts milliamps) s = .next (s.callDropped c.dest n { l with state := .off })) ∧
     (c.closePending = false → ∀ u : State,
       State.PostedTo
         { s.callDropped c.dest n
             { l with state := .fault, cause := .overcurrent, classFilter := none, recovery := none, guardTimer := none,
                      faultHold := some (s.timing.faultHold * 1000) } with
           causes := s.causes ||| 0x04 } (.line n) (lineKey n) u →
       exec (.lineSample n volts milliamps) s = .next u))

/-- STAGGER_TIMER_EXPIRY frees the permit and grants it to the head of the queue, which goes off-hook with the stagger
timer and its three seizure timers started; with an empty queue the permit stays free; nothing else changes (R110,
R111). OFF_HOOK_CHECK_EXPIRY: without a sample since off-hook the line waits for its first; a current of 8 to 120 mA
is a sound loop; one below 8 mA hands NO_LOOP to the lead case, uncharged, adds one to the failure count and releases
the line into GUARD (R112, R115, R121). SETTLE_TIMER_EXPIRY without dial tone: the latest sample's current is the
reference and the line waits on for dial tone (R113). DIAL_TONE_WAIT_EXPIRY hands NO_DIAL_TONE to the lead case,
uncharged, adds one to the failure count and releases the line (R113, R115). The first sample after a check without
one is judged in the same way: below 8 mA it is NO_LOOP (R112). That a stagger expiry without a running timer changes
nothing is the model's choice (log entry 2), and so is the record of the latest failure's cause (log entry 21). -/
def Obligations.SeizureTimed : Prop :=
  (∀ s : State,
     (s.permit.stagger = none → exec .staggerTimerExpiry s = .next s) ∧
     (s.permit.stagger.isSome → s.permit.queue = [] →
       exec .staggerTimerExpiry s = .next { s with permit := ⟨none, none, []⟩ }) ∧
     ∀ (w : PermitWait) (q : List PermitWait) (c : Call), s.permit.stagger.isSome → s.permit.queue = w :: q →
       s.call w.line = some c →
       exec .staggerTimerExpiry s = .next
         { s.setLine w.line { s.line w.line with
             state := .offHook
             call := some { c with
               check := .running s.timing.check, settleTimer := some s.timing.settle
               dialToneWait := some (s.timing.dialToneWait * 1000) } } with
           permit := ⟨some w.line, some s.timing.stagger, q⟩ }) ∧
  (∀ (s : State) (n : Fin 4) (c : Call) (ms : Nat), (s.line n).state = .offHook → s.call n = some c → c.check = .running ms →
     (c.sampled = false → exec (.offHookCheckExpiry n) s = .next
       (s.setLine n { s.line n with call := some { c with check := .awaitingSample } })) ∧
     (∀ x : LineSample, c.sampled = true → (s.line n).sample = some x → 8 ≤ x.milliamps → x.milliamps ≤ 120 →
       c.settled = false → s.NoOffer → exec (.offHookCheckExpiry n) s = .next
         (s.setLine n { s.line n with call := some { c with check := .judged } })) ∧
     (∀ (y : LineSample) (k : Fin 48) (x : Case), c.sampled = true → (s.line n).sample = some y → y.milliamps < 8 →
       s.Carries n c k x → c.closePending = false → exec (.offHookCheckExpiry n) s = .next
         (s.callOver k (x.uncharged .noLoop s.clock) c.dest .noLoop n
           { (s.line n).released (s.timing.guardTime * 1000) with
             failures := min 3 ((s.line n).failures + 1), failureCause := .noLoop }))) ∧
  (∀ (s : State) (n : Fin 4) (c : Call), (s.line n).state = .offHook → s.call n = some c →
     (∀ x : LineSample, c.settleTimer.isSome → c.check = .judged → c.dialTone = false → (s.line n).sample = some x → s.NoOffer →
       exec (.settleTimerExpiry n) s = .next
         (s.setLine n { s.line n with
           call := some { c with settleTimer := none, settled := true, reference := some x.milliamps } })) ∧
     (∀ (k : Fin 48) (x : Case), c.dialToneWait.isSome → s.Carries n c k x → c.closePending = false →
       exec (.dialToneWaitExpiry n) s = .next
         (s.callOver k (x.uncharged .noDialTone s.clock) c.dest .noDialTone n
           { (s.line n).released (s.timing.guardTime * 1000) with
             failures := min 3 ((s.line n).failures + 1), failureCause := .noDialTone }))) ∧
  (∀ (s : State) (n : Fin 4) (c : Call) (volts milliamps : Nat) (k : Fin 48) (x : Case), (s.line n).state = .offHook →
     c.check = .awaitingSample → milliamps < 8 → s.Carries n c k x → c.closePending = false →
     exec (.lineSample n volts milliamps) s = .next
       (s.callOver k (x.uncharged .noLoop s.clock) c.dest .noLoop n
         { (s.line n).released (s.timing.guardTime * 1000) with
           sample := some ⟨volts, milliamps⟩, failures := min 3 ((s.line n).failures + 1), failureCause := .noLoop }))

/-- Dialling starts at the later of settle expiry and DIAL_TONE_ON: the seizure's timers and the reference go, the manner
is chosen from dial mode and learned mode, the first element of the string begins, and the adaptive check runs where
an AUTO line that has learned nothing begins with a dial symbol (R113, R118, R130, R135). DIAL_TONE_ON and
DIAL_TONE_OFF set and clear the dial-tone indication in OFF HOOK before settle, and in DIALLING where no adaptive
check runs, and are ignored in every state but those two (R105, R113, R140). Where the manner is PULSE and the string
holds a star or a hash, nothing is dialled: ABANDONED is handed to the lead case, uncharged, and the line releases
with its failure count as it was (R131). That a check still running is cancelled at the entry to DIALLING is the
model's choice (log entry 11), and that the position is 2 once element 1 has begun is its deduction (log entry 16). -/
def Obligations.DialToneHeard : Prop :=
  (∀ (s : State) (n : Fin 4) (c : Call) (y : DialSym), (s.line n).state = .offHook → s.call n = some c → s.NoOffer →
     (s.dest c.dest).dial.head? = some y → s.compatible n c.dest = true →
     let pulses := (s.line n).mode = .pulse ∨ ((s.line n).mode = .auto ∧ (s.line n).learned = .pulse)
     let learns := (s.line n).mode = .auto ∧ (s.line n).learned = .unknown
     let manner : Manner := if pulses then .pulse else .tone
     let dials : Line := { s.line n with
       state := .dialling
       call := some { c with
         dialTone := true, settled := true, settleTimer := none, reference := none, intrusion := none, check := .judged
         dialToneWait := none
         dialling := some ⟨manner, 2, if learns ∧ y ≠ .pause then some 2000 else none, learns, some (elementMs manner y), false⟩ } }
     (∀ x : LineSample, c.settleTimer.isSome → c.check = .judged → c.dialTone = true → (s.line n).sample = some x →
       exec (.settleTimerExpiry n) s = .next (s.setLine n dials)) ∧
     (c.settled = true → c.reference.isSome → exec (.dialToneOn n) s = .next (s.setLine n dials))) ∧
  (∀ (s : State) (n : Fin 4),
     (∀ c : Call, s.call n = some c → s.NoOffer →
       (((s.line n).state = .offHook ∧ c.settled = false) ∨ (s.line n).state = .dialling →
         exec (.dialToneOn n) s = .next (s.setLine n { s.line n with call := some { c with dialTone := true } })) ∧
       ((s.line n).state = .offHook ∨
           ((s.line n).state = .dialling ∧ ∀ g : Dialling, c.dialling = some g → g.adaptiveCheck = none) →
         exec (.dialToneOff n) s = .next (s.setLine n { s.line n with call := some { c with dialTone := false } }))) ∧
     ((s.line n).state ≠ .offHook → (s.line n).state ≠ .dialling →
       exec (.dialToneOn n) s = .next s ∧ exec (.dialToneOff n) s = .next s)) ∧
  (∀ (s : State) (n : Fin 4) (c : Call) (k : Fin 48) (x : Case), (s.line n).state = .offHook → s.Carries n c k x →
     c.closePending = false → .star ∈ (s.dest c.dest).dial ∨ .hash ∈ (s.dest c.dest).dial →
     (s.line n).mode = .pulse ∨ ((s.line n).mode = .auto ∧ (s.line n).learned = .pulse) →
     let abandoned : State := s.callOver k (x.uncharged .abandoned s.clock) c.dest .abandoned n
       ((s.line n).released (s.timing.guardTime * 1000))
     (∀ y : LineSample, c.settleTimer.isSome → c.check = .judged → c.dialTone = true → (s.line n).sample = some y →
       exec (.settleTimerExpiry n) s = .next abandoned) ∧
     (c.settled = true → c.reference.isSome → exec (.dialToneOn n) s = .next abandoned))

/-- INTRUSION_FILTER_EXPIRY: in LINGER the line releases without outcome; on a call whose current case is FIRE the filter
starts again and nothing else happens; on any other the case is handed YIELDED, uncharged, and the line releases
(R119, R121). LINGER_EXPIRY releases the line into GUARD with no outcome: its call ends, the destination's last
outcome and toggle stay, and the Arbiter is told of the end of the call; nothing else changes (R71, R121, R154). -/
def Obligations.LineYields : Prop :=
  (∀ (s : State) (n : Fin 4) (c : Call), s.call n = some c → c.intrusion.isSome →
     ((s.line n).state = .linger → c.closePending = false →
       exec (.intrusionFilterExpiry n) s = .next
         (s.callDropped c.dest n ((s.line n).released (s.timing.guardTime * 1000)))) ∧
     (∀ (k : Fin 48) (x : Case), c.current = some k → s.caseAt k = some x →
       (s.line n).state = .offHook ∨ (s.line n).state = .awaitHandshake ∨ (s.line n).state = .exchange →
       (x.key.cls = .fire → exec (.intrusionFilterExpiry n) s = .next
         (s.setLine n { s.line n with call := some { c with intrusion := some s.timing.intrusion } })) ∧
       (x.key.cls ≠ .fire → s.Carries n c k x → c.closePending = false → exec (.intrusionFilterExpiry n) s = .next
         (s.callOver k (x.uncharged .yielded s.clock) c.dest .yielded n
           ((s.line n).released (s.timing.guardTime * 1000)))))) ∧
  (∀ (s : State) (n : Fin 4) (c : Call), (s.line n).state = .linger → s.call n = some c → c.linger.isSome → c.closePending = false →
     exec (.lingerExpiry n) s = .next (s.callDropped c.dest n ((s.line n).released (s.timing.guardTime * 1000))))

/-! ### Dialling -/

/-- The times of the elements: 200 ms for a tone symbol, breaks times 100 and 700 ms for a pulse digit with 10 breaks
for the digit 0, and 2 s for a pause in either manner (R132, R133, R134). ELEMENT_TIMER_EXPIRY ends the element: while
the adaptive check runs the line waits; else the element at the position begins, the first dial symbol of a dialling
that has still to learn starting the check; and after the last the line enters AWAIT HANDSHAKE with the handshake wait
running and the dialling context gone (R132, R135, R141). The adaptive check decides: a DIAL_TONE_OFF while it runs
for tone, dialling going on from the position, at once where the line was waiting; its expiry for pulse, the whole
string dialled again from its first element, or, for a star or a hash, NO_DIAL_TONE to the lead case, one failure
counted and a release (R136, R137, R138). That the position is 2 once element 1 of the redial has begun, where a row
of an example shows 1, and that an expiry of the check ends an element still being sent are the model's deductions
(log entries 16 and 18). The check sets the learned mode to TONE or PULSE, but leaves it as it is where the dial mode
was written TONE or PULSE before the check ran (R136, R137, R139). That the check still starts after such a write, its
use fixed at entry to DIALLING, is the model's deduction (log entry 29), and the record of the cause of a counted
failure is its own (log entry 21). -/
def Obligations.DiallingGoesOn : Prop :=
  ((∀ d : Fin 10, elementMs .tone (.digit d) = 200 ∧
     elementMs .pulse (.digit d) = (if d = 0 then 10 else d.val) * 100 + 700) ∧
   elementMs .tone .star = 200 ∧ elementMs .tone .hash = 200 ∧ elementMs .tone .pause = 2000 ∧ elementMs .pulse .pause = 2000) ∧
  (∀ (s : State) (n : Fin 4) (c : Call) (g : Dialling), (s.line n).state = .dialling → s.call n = some c →
     c.dialling = some g → g.element.isSome →
     let becomes (l : Line) := exec (.elementTimerExpiry n) s = .next (s.setLine n l)
     (g.adaptiveCheck.isSome →
       becomes { s.line n with call := some { c with dialling := some { g with element := none } } }) ∧
     (g.adaptiveCheck = none →
       (∀ y : DialSym, (s.dest c.dest).dial[g.position - 1]? = some y →
         becomes { s.line n with call := some { c with
           dialling := some { g with
             element := some (elementMs g.manner y), position := g.position + 1
             adaptiveCheck := if g.learning = true ∧ y ≠ .pause then some 2000 else none } } }) ∧
       ((s.dest c.dest).dial[g.position - 1]? = none →
         becomes { s.line n with
           state := .awaitHandshake
           call := some { c with dialling := none, handshake := some (s.exchange.handshake * 1000) } }))) ∧
  (∀ (s : State) (n : Fin 4) (c : Call) (g : Dialling), (s.line n).state = .dialling → s.call n = some c →
     c.dialling = some g → g.adaptiveCheck.isSome →
     (g.element.isSome → exec (.dialToneOff n) s = .next (s.setLine n { s.line n with
       learned := if g.leavesLearned = true then (s.line n).learned else .tone
       call := some { c with dialTone := false, dialling := some { g with adaptiveCheck := none, learning := false } } })) ∧
     (∀ y : DialSym, g.element = none → (s.dest c.dest).dial[g.position - 1]? = some y →
       exec (.dialToneOff n) s = .next (s.setLine n { s.line n with
         learned := if g.leavesLearned = true then (s.line n).learned else .tone
         call := some { c with
           dialTone := false
           dialling := some { g with
             adaptiveCheck := none, learning := false, element := some (elementMs g.manner y), position := g.position + 1 } } })) ∧
     (∀ y : DialSym, (s.dest c.dest).dial.head? = some y → .star ∉ (s.dest c.dest).dial → .hash ∉ (s.dest c.dest).dial →
       exec (.adaptiveCheckExpiry n) s = .next (s.setLine n { s.line n with
         learned := if g.leavesLearned = true then (s.line n).learned else .pulse
         call := some { c with
           dialling := some { g with
             manner := .pulse, adaptiveCheck := none, learning := false, element := some (elementMs .pulse y), position := 2 } } })) ∧
     (∀ (k : Fin 48) (x : Case), .star ∈ (s.dest c.dest).dial ∨ .hash ∈ (s.dest c.dest).dial → s.Carries n c k x →
       c.closePending = false → exec (.adaptiveCheckExpiry n) s = .next
         (s.callOver k (x.uncharged .noDialTone s.clock) c.dest .noDialTone n
           { (s.line n).released (s.timing.guardTime * 1000) with
             learned := if g.leavesLearned = true then (s.line n).learned else .pulse, failures := min 3 ((s.line n).failures + 1), failureCause := .noDialTone })))

/-! ### The exchange -/

/-- The check symbol makes the fourteen values of a block sum to a multiple of 15 and lies in 0 to 14 (R146). The block of
a head report: account, qualifier, class symbol, zone, source, chatter of an ALARM, and toggle, each in its position
(R145). -/
def Obligations.BlockComposed : Prop :=
  (∀ (x : Case) (d : Destination) (b : List Nat), composeBlock x d = some b →
     b.length = 14 ∧ b.sum % 15 = 0 ∧
     b[13]? = some (if (b.take 13).sum % 15 = 0 then 0 else 15 - (b.take 13).sum % 15) ∧ ∀ y : Nat, b[13]? = some y → y ≤ 14) ∧
  (∀ (x : Case) (d : Destination) (kind : ReportKind), x.owed.head? = some kind →
     ∃ b : List Nat, composeBlock x d = some b ∧ b.take 4 = d.account.digits ∧
       b[4]? = some (match kind with
         | .alarm => if x.mark = .flagged then 7 else 1
         | .restore => 3
         | .test => 6) ∧
       b[5]? = some x.key.cls.code ∧
       (x.key.zone ≤ 999 → (b.drop 6).take 3 = [x.key.zone / 100, x.key.zone / 10 % 10, x.key.zone % 10]) ∧
       (x.key.source ≤ 24 → (b.drop 9).take 2 = [x.key.source / 10, x.key.source % 10]) ∧
       b[11]? = some (if kind = .alarm then x.chatter else 0) ∧ b[12]? = some (if d.toggle = true then 1 else 0))

/-- The station's ready symbol in AWAIT HANDSHAKE: the line enters EXCHANGE with failure count 0, under PER CALL the
destination's toggle is 0, and the block of the lead case is composed and begun; any other symbol is ignored there
(R72, R115, R143). BLOCK_SENT: the phase becomes AWAITING and the response wait starts. While a block is SENDING every
received symbol is discarded, and while it is AWAITING every one but 'A', 'B' and 'C' is ignored; so is every symbol
on a line neither in AWAIT HANDSHAKE nor in EXCHANGE (R105, R147, R152). A repeat decision, by 'B' or by the response
wait's expiry, adds one to the repeat count; at or below the repeat limit the kept block is sent again, unchanged
(R150). -/
def Obligations.BlockExchanged : Prop :=
  (∀ (s : State) (n : Fin 4) (c : Call) (k : Fin 48) (x : Case), (s.line n).state = .awaitHandshake → s.call n = some c →
     c.current = some k → s.caseAt k = some x →
     let d : Destination := if (s.dest c.dest).policy = .perCall then { s.dest c.dest with toggle := false } else s.dest c.dest
     exec (.receivedSymbol n 15) s = .next
       ((s.setDest c.dest d).setLine n { s.line n with
         state := .exchange, failures := 0
         call := some { c with
           handshake := none
           block := (composeBlock x d).map fun b => { symbols := b, phase := .sending, repeats := 0, response := none } } }) ∧
     ∀ y : Nat, y ≠ 15 → exec (.receivedSymbol n y) s = .next s) ∧
  (∀ (s : State) (n : Fin 4),
     (∀ (c : Call) (b : BlockRun), (s.line n).state = .exchange → s.call n = some c → c.block = some b →
       (b.phase = .sending →
         exec (.blockSent n) s = .next (s.setLine n { s.line n with
           call := some { c with block := some { b with phase := .awaiting, response := some (s.exchange.response * 1000) } } }) ∧
         ∀ y : Nat, exec (.receivedSymbol n y) s = .next s) ∧
       (b.phase = .awaiting → ∀ y : Nat, y < 12 ∨ 14 < y → exec (.receivedSymbol n y) s = .next s)) ∧
     ((s.line n).state ≠ .awaitHandshake → (s.line n).state ≠ .exchange →
       ∀ y : Nat, exec (.receivedSymbol n y) s = .next s)) ∧
  (∀ (s : State) (n : Fin 4) (c : Call) (b : BlockRun), (s.line n).state = .exchange → s.call n = some c → c.block = some b →
     b.phase = .awaiting → b.repeats + 1 ≤ s.exchange.repeatLimit → s.NoOffer →
     let again : State := s.setLine n { s.line n with
       call := some { c with block := some { b with phase := .sending, repeats := b.repeats + 1, response := none } } }
     exec (.receivedSymbol n 13) s = .next again ∧
     (b.response.isSome → exec (.responseWaitExpiry n) s = .next again))

/-- A charged failure with attempts left, BUSY, NO_ANSWER at the handshake wait's expiry, or NO_RESPONSE at a repeat
decision above the limit: attempts and failed total of the case go up by one, the case waits at the same destination
for the spacing, the destination records the outcome, and the line releases into GUARD; nothing else changes (R27,
R60, R64, R73, R121, R143, R150). A charged failure that uses up the attempts advances the case along its plan: at
rest at the destination of the failed call it waits for the spacing, at another it may call at once, and it strands,
with CASE STRANDED raised, where the plan has no usable entry left; the failed total is charged in each case. Shown
for BUSY_TONE, without a lingering line (R27, R61, R64, R65, R66). An outcome for a case whose plan was rewritten away
from the call's destination is recorded but charges nothing: the case is PENDING with its progress and failed total as
they were and retry time now, while the destination records the outcome all the same. Shown for BUSY_TONE (R25, R28,
R73, R83). -/
def Obligations.ChargedFailures : Prop :=
  (∀ (s : State) (n : Fin 4) (c : Call) (k : Fin 48) (x : Case), s.Carries n c k x → c.closePending = false →
     x.progress.attempts + 1 < (s.plan x.key.cls).attempts →
     let e := s.classEntry x.key.cls
     let failed := min 255 (x.failed + 1)
     let retry := s.clock + BitVec.ofNat 32 (min (e.retryBase * 2 ^ min (failed - 1) 12) e.retryMax)
     let ended (kind : OutcomeKind) : State :=
       s.callOver k (x.chargedBy kind retry) c.dest kind n ((s.line n).released (s.timing.guardTime * 1000))
     ((s.line n).state = .awaitHandshake → exec (.busyTone n) s = .next (ended .busy)) ∧
     ((s.line n).state = .awaitHandshake → c.handshake.isSome → exec (.handshakeWaitExpiry n) s = .next (ended .noAnswer)) ∧
     (∀ b : BlockRun, (s.line n).state = .exchange → c.block = some b → b.phase = .awaiting →
       s.exchange.repeatLimit < b.repeats + 1 →
       exec (.receivedSymbol n 13) s = .next (ended .noResponse) ∧
       (b.response.isSome → exec (.responseWaitExpiry n) s = .next (ended .noResponse)))) ∧
  (∀ (s : State) (n : Fin 4) (c : Call) (k : Fin 48) (x : Case), s.Carries n c k x → (s.line n).state = .awaitHandshake →
     (∀ m : Fin 4, s.lingersOn m = none) → (s.plan x.key.cls).attempts ≤ x.progress.attempts + 1 →
     let p := s.plan x.key.cls
     let e := s.classEntry x.key.cls
     let failed := min 255 (x.failed + 1)
     let spaced := s.clock + BitVec.ofNat 32 (min (e.retryBase * 2 ^ min (failed - 1) 12) e.retryMax)
     ∃ t : State, exec (.busyTone n) s = .next t ∧
       match p.sweep s.usable p.dests.length x.progress.step x.progress.round with
       | .rest d q => t.caseAt k = some
           { x with state := .pending, last := .busy, line := none, failed := failed, progress := q
                    retry := if d = c.dest then spaced else s.clock }
       | .strand q => t.caseAt k = some
           { x with state := .stranded, last := .busy, line := none, failed := failed, progress := q } ∧
           t.causes.getLsbD 0 = true) ∧
  (∀ (s : State) (n : Fin 4) (c : Call) (k : Fin 48) (x : Case), (s.line n).state = .awaitHandshake → s.call n = some c →
     c.current = some k → s.caseAt k = some x → x.state = .sending → c.closePending = false → s.NoOffer →
     s.currentDest x ≠ some c.dest → (∀ d : Fin 8, s.currentDest x = some d → s.usable d = true ∧ s.NobodyOn d) →
     exec (.busyTone n) s = .next
       (s.callOver k (x.uncharged .busy s.clock) c.dest .busy n ((s.line n).released (s.timing.guardTime * 1000))))

/-- The station's 'A' for a block AWAITING: the toggle flips, ACCEPTED is recorded, DELIVERED is raised, and the ALARM
accepted leaves an ACTIVE case HELD, reported, with chatter and failed total 0 at the start of its plan. With no
further case for the destination the line lingers, or releases where the linger time is 0 or the block limit is
reached, and to OFF where close pending is set (R26, R72, R73, R99, R148, R153, R154). An accepted last RESTORE or
TEST retires its case: the slot is free and its generation advanced (R2, R16, R26). An accepted head with more behind
it leaves the case PENDING at the start of its plan, and the call takes it up again at once: its next report is in
flight and its block begun (R26, R100, R153). The Arbiter's answer to a request for a destination: END where the call
has carried the block limit; else NONE where no PENDING case has it as current destination; else END as a yield where
fire waits and the best such case is no fire alarm; else that best case, which no other such case ranks before (R97,
R98, R99). The earlier posted time is the greater time since it (the model's deduction, log entry 14). -/
def Obligations.AcceptanceApplied : Prop :=
  (∀ (s : State) (n : Fin 4) (c : Call) (b : BlockRun) (k : Fin 48) (x : Case), (s.line n).state = .exchange →
     s.call n = some c → c.block = some b → b.phase = .awaiting → c.current = some k → s.caseAt k = some x →
     x.state = .sending → x.owed = [.alarm] → x.condition = .active → s.NoOffer →
     (∀ j : Fin 48, s.pendingAt c.dest j = false) →
     let d : Destination := { s.dest c.dest with toggle := !(s.dest c.dest).toggle, last := .accepted }
     let y : Case := { x with owed := [], reported := true, chatter := 0, failed := 0, progress := ⟨0, 0, 0⟩, retry := s.clock
                              state := .held, last := .accepted, line := none }
     let after (d : Destination) (l : Line) (more : Nat) : State :=
       { ((s.setCase k y).setDest c.dest d).setLine n l with causes := s.causes ||| 0x40, passesDue := s.passesDue + more }
     let gone : Destination := { d with callLine := none }
     (c.closePending = false → c.carried < s.exchange.blockLimit → s.exchange.linger ≠ 0 →
       exec (.receivedSymbol n 12) s = .next (after d
         { s.line n with
           state := .linger
           call := some { c with current := none, block := none, linger := some (s.exchange.linger * 1000) } }
         (if s.fireWaiting = true then 1 else 0))) ∧
     (c.closePending = false → s.exchange.blockLimit ≤ c.carried ∨ s.exchange.linger = 0 →
       exec (.receivedSymbol n 12) s = .next
         (after gone ((s.line n).released (s.timing.guardTime * 1000)) 1)) ∧
     (c.closePending = true →
       exec (.receivedSymbol n 12) s = .next (after gone { s.line n with state := .off, call := none } 1))) ∧
  (∀ (s : State) (n : Fin 4) (c : Call) (b : BlockRun) (k : Fin 48) (x : Case), (s.line n).state = .exchange →
     s.call n = some c → c.block = some b → b.phase = .awaiting → c.current = some k → s.caseAt k = some x →
     x.state = .sending → s.NoOffer → c.closePending = false →
     (∀ j : Fin 48, s.pendingAt c.dest j = false) →
     let d : Destination := { s.dest c.dest with toggle := !(s.dest c.dest).toggle, last := .accepted }
     (∀ kind : ReportKind, x.owed = [kind] → x.condition = .restored → s.NoHeld →
       ∃ t : State, exec (.receivedSymbol n 12) s = .next t ∧ t.slot k = ⟨(s.slot k).gen + 1, none⟩ ∧
         (∀ j : Fin 48, j ≠ k → t.slot j = s.slot j) ∧ (t.dest c.dest).toggle = d.toggle ∧ (t.dest c.dest).last = .accepted ∧
         t.causes = s.causes ||| 0x40) ∧
     (∀ (kind : ReportKind) (rest : List ReportKind), x.owed = kind :: rest → rest ≠ [] →
       (s.plan x.key.cls).dests.head? = some c.dest → s.usable c.dest = true → c.carried < s.exchange.blockLimit →
       (∀ m : Fin 4, m ≠ n → s.lingersOn m = none) →
       s.fireWaiting = false →
       let y : Case := { x with owed := rest, failed := 0, progress := ⟨0, 0, 0⟩, retry := s.clock, last := .accepted
                                reported := x.reported || decide (kind = .alarm)
                                chatter := if kind = .alarm then 0 else x.chatter, state := .sending, line := some n }
       exec (.receivedSymbol n 12) s = .next
         { ((s.setCase k y).setDest c.dest d).setLine n { s.line n with
             call := some { c with
               current := some k, carried := c.carried + 1, linger := none
               block := (composeBlock y d).map fun b => { symbols := b, phase := .sending, repeats := 0, response := none } } } with
           causes := s.causes ||| 0x40, passesDue := s.passesDue + 1 })) ∧
  (∀ (s : State) (d : Fin 8) (carried : Nat),
     (s.exchange.blockLimit ≤ carried → s.answerFor d carried = .over) ∧
     (carried < s.exchange.blockLimit → (∀ k : Fin 48, s.pendingAt d k = false) → s.answerFor d carried = .nothing) ∧
     (∀ (k : Fin 48) (x : Case), carried < s.exchange.blockLimit → s.pendingAt d k = true → s.caseAt k = some x →
       (∀ (j : Fin 48) (y : Case), j ≠ k → s.pendingAt d j = true → s.caseAt j = some y →
         s.urgency y < s.urgency x ∨ (s.urgency x = s.urgency y ∧
           (s.since y.posted < s.since x.posted ∨ (s.since x.posted = s.since y.posted ∧ k < j)))) →
       s.answerFor d carried =
         if s.fireWaiting = true ∧ ¬ (x.key.cls = .fire ∧ x.owed.head? = some .alarm) then .over else .give k))

/-- The station's 'C' for a block AWAITING: an ENABLED destination becomes REFUSING and a DISABLED one stays so, it
records REFUSED and keeps its toggle, DESTINATION REFUSED is raised, no case is left PENDING there, the refused case's
failed total is not charged, and the line releases into GUARD with the call ended (R28, R70, R78, R151). -/
def Obligations.RefusalMovesCases : Prop :=
  ∀ (s : State) (n : Fin 4) (c : Call) (b : BlockRun) (k : Fin 48) (x : Case), (s.line n).state = .exchange →
    s.call n = some c → c.block = some b → b.phase = .awaiting → c.current = some k → s.caseAt k = some x →
    x.state = .sending → s.CallsSound → c.closePending = false →
    ∃ (t : State) (y : Case), exec (.receivedSymbol n 14) s = .next t ∧
      (t.dest c.dest).state = (if (s.dest c.dest).state = .enabled then .refusing else (s.dest c.dest).state) ∧
      (t.dest c.dest).last = .refused ∧ (t.dest c.dest).toggle = (s.dest c.dest).toggle ∧
      (t.dest c.dest).callLine = none ∧ t.causes.getLsbD 1 = true ∧
      (∀ j : Fin 48, t.pendingAt c.dest j = false) ∧
      t.caseAt k = some y ∧ y.failed = x.failed ∧ y.owed = x.owed ∧ y.last = .refused ∧
      (t.line n).state = .guarded ∧ (t.line n).guardTimer = some (s.timing.guardTime * 1000) ∧ t.call n = none

/-! ### Contact inputs -/

/-- INPUT_SAMPLE is recorded whether the channel is enabled or not. A disabled channel judges nothing. A FILTERED one
cancels its filter at a level equal to the accepted one, starts it afresh at a level that is neither that nor the
candidate, and lets it run on at the candidate; a FAST one does nothing more at the accepted level; nothing else
changes (R160, R161, R162). A level is accepted by a FAST sample of another level, or at LEVEL_FILTER_EXPIRY: ACTIVE
starts the retard of a QUIET channel that has one; NORMAL drops a RETARDING alarm, leaves a latched one RAISED, and
makes a CLEARED one QUIET without a restore; a FOLLOWING RAISED alarm whose key no case holds becomes QUIET; nothing
else changes (R162, R163, R164, R165, R168). NORMAL accepted on a FOLLOWING RAISED channel makes it QUIET and restores
its alarm case: RESTORE joins its tail, and a HELD one becomes PENDING at the start of its plan, under the plan rule
(R10, R12, R21, R165). ACTIVE accepted on a QUIET channel with retard 0 makes it RAISED and posts its alarm key in the
same event: a case is created, renewed or left as it stands, or the post is held; a channel not written since power-on
reset becomes RAISED and posts nothing (R13, R20, R163, R172; that its stage moves is the model's choice, log entry
30). Of a case that strands under the plan rule at once the Arbiter is told only where it is FIRE and fire waits,
which is the model's choice (log entry 32). -/
def Obligations.LevelsAccepted : Prop :=
  (∀ (s : State) (i : Fin 8) (count : Nat), s.NoOffer →
     let level : Level := if count ≤ 15 then .short else if count ≤ 79 then .active else if count ≤ 175 then .normal else .opened
     let ch : Channel := { s.input i with sample := some count }
     let becomes (ch : Channel) := exec (.inputSample i count) s = .next (s.setInput i ch)
     ((s.input i).enabled = false → becomes ch) ∧
     ((s.input i).enabled = true → (s.input i).sampling = .fast → level = (s.input i).accepted → becomes ch) ∧
     ((s.input i).enabled = true → (s.input i).sampling = .filtered →
       (level = (s.input i).accepted → becomes { ch with candidate := none, levelFilter := none }) ∧
       (level ≠ (s.input i).accepted → (s.input i).candidate = some level → becomes ch) ∧
       (level ≠ (s.input i).accepted → (s.input i).candidate ≠ some level →
         becomes { ch with candidate := some level, levelFilter := some (s.input i).filterMs }))) ∧
  (∀ (s : State) (i : Fin 8) (count : Nat) (level : Level), s.NoOffer →
     level = (if count ≤ 15 then .short else if count ≤ 79 then .active else if count ≤ 175 then .normal else .opened) →
     level ≠ (s.input i).accepted → level.troubled = false → (s.input i).accepted.troubled = false →
     let becomes (ch : Channel) : Prop :=
       ((s.input i).enabled = true → (s.input i).sampling = .fast →
         exec (.inputSample i count) s = .next
           (s.setInput i { ch with sample := some count, accepted := level, candidate := none, levelFilter := none })) ∧
       ((s.input i).levelFilter.isSome → (s.input i).candidate = some level →
         exec (.levelFilterExpiry i) s = .next
           (s.setInput i { ch with accepted := level, candidate := none, levelFilter := none }))
     (level = .active → (s.input i).alarm = .quiet → (s.input i).retard ≠ 0 →
       becomes { s.input i with alarm := .retarding, retardTimer := some ⟨(s.input i).retard, s.clock⟩ }) ∧
     (level = .active → (s.input i).alarm = .raised ∨ (s.input i).alarm = .cleared → becomes (s.input i)) ∧
     (level = .normal → (s.input i).alarm = .retarding → becomes { s.input i with alarm := .quiet, retardTimer := none }) ∧
     (level = .normal → (s.input i).alarm = .raised → (s.input i).latch = .latching → becomes (s.input i)) ∧
     (level = .normal → (s.input i).alarm = .cleared → becomes { s.input i with alarm := .quiet }) ∧
     (level = .normal → (s.input i).alarm = .raised → (s.input i).latch = .following →
       s.caseOfKey ⟨16 + i.val, (s.input i).zone, (s.input i).cls⟩ = none → becomes { s.input i with alarm := .quiet })) ∧
  (∀ (s : State) (i : Fin 8) (level : Level) (event : Instr) (sample : Option Nat), s.NoOffer → s.Accepts i level event sample →
     level.troubled = false → (s.input i).accepted.troubled = false →
     let key : Key := ⟨16 + i.val, (s.input i).zone, (s.input i).cls⟩
     let ch : Channel := { s.input i with sample := sample, accepted := level, candidate := none, levelFilter := none }
     (level = .normal → (s.input i).alarm = .raised → (s.input i).latch = .following → ∀ u : State, s.RestoredTo key u →
       exec event s = .next (u.setInput i { ch with alarm := .quiet })) ∧
     (level = .active → (s.input i).alarm = .quiet → (s.input i).retard = 0 → ∀ u : State,
       (s.setInput i { ch with alarm := .raised, retardTimer := none }).ChannelPostedTo i (.inputAlarm i) key u →
       exec event s = .next u))

/-- The acceptance of OPEN or SHORT from NORMAL or ACTIVE raises INPUT TROUBLE, drops a RETARDING alarm without a
post, and makes the trouble stage of a QUIET channel RAISED with its trouble key posted, in whatever way the post is
taken: a case is created where there is room, the post is held with POST HELD raised where there is none, a held post
of the key takes it in, and of a case that holds the key an ACTIVE one stands and a RESTORED one is renewed; from OPEN
to SHORT or back nothing is posted and no cause raised. The return to NORMAL or ACTIVE restores the trouble case where
the stage is RAISED and makes it QUIET, shown where the level leaves the alarm stage as it is (R12, R13, R20, R21,
R163, R164, R167). RETARD_TIMER_EXPIRY: the alarm stage becomes RAISED and the alarm key is posted: a case is created
where none holds the key and there is room, whatever the admission table says; without room the post is held and POST
HELD raised; a post already held under the key takes it in; and a case that holds the key stands or is renewed (R13,
R20, R164). A channel not written since power-on reset posts nothing, its stages and INPUT TROUBLE as otherwise (R172;
that they move is the model's choice, log entry 30). Where a held post of an older key stands in the position, it
stays and the new post is not recorded (R22, R48); that POST HELD is raised then is the model's choice (log entry 6).
Of a case that strands under the plan rule at once the Arbiter is told only where it is FIRE and fire waits, which is
the model's choice (log entry 32). -/
def Obligations.InputPosts : Prop :=
  (∀ (s : State) (i : Fin 8) (level : Level) (event : Instr) (sample : Option Nat), s.NoOffer → s.Accepts i level event sample →
     let key : Key := ⟨16 + i.val, (s.input i).zone, .trouble⟩
     let ch : Channel := { s.input i with sample := sample, accepted := level, candidate := none, levelFilter := none }
     let ch : Channel := if ch.alarm = .retarding then { ch with alarm := .quiet, retardTimer := none } else ch
     (level.troubled = true → (s.input i).accepted.troubled = false →
       ((s.input i).trouble = .quiet → ∀ u : State,
         State.ChannelPostedTo { s.setInput i { ch with trouble := .raised } with causes := s.causes ||| 0x08 }
           i (.inputTrouble i) key u →
         exec event s = .next u) ∧
       ((s.input i).trouble ≠ .quiet →
         exec event s = .next { s.setInput i ch with causes := s.causes ||| 0x08 })) ∧
     (level.troubled = true → (s.input i).accepted.troubled = true → exec event s = .next (s.setInput i ch)) ∧
     (level.troubled = false → (s.input i).accepted.troubled = true →
       (level = .normal ∧ ((s.input i).alarm = .quiet ∨ ((s.input i).alarm = .raised ∧ (s.input i).latch = .latching))) ∨
         (level = .active ∧ ((s.input i).alarm = .raised ∨ (s.input i).alarm = .cleared)) →
       ((s.input i).trouble = .raised → ∀ u : State, s.RestoredTo key u →
         exec event s = .next (u.setInput i { ch with trouble := .quiet })) ∧
       ((s.input i).trouble ≠ .raised → exec event s = .next (s.setInput i { ch with trouble := .quiet })))) ∧
  (∀ (s : State) (i : Fin 8), (s.input i).retardTimer.isSome → (s.input i).alarm = .retarding → s.NoOffer →
     let key : Key := ⟨16 + i.val, (s.input i).zone, (s.input i).cls⟩
     let position : Fin 21 := (Poster.inputAlarm i).position
     let raised : State := s.setInput i { s.input i with alarm := .raised, retardTimer := none }
     (s.input i).written = true → s.caseOfKey key = none → key.cls ≠ .test →
     (s.heldAt position = some key → exec (.retardTimerExpiry i) s = .next raised) ∧
     (s.heldAt position = none →
       (48 ≤ s.cases.length ∨ (key.cls ≠ .fire ∧ 48 - s.reserve ≤ s.otherCases) →
         exec (.retardTimerExpiry i) s = .next { raised.setHeld position (some key) with causes := s.causes ||| 0x20 }) ∧
       (∀ k : Fin 48, s.cases.length < 48 → (key.cls ≠ .fire → s.otherCases < 48 - s.reserve) → s.lowestFree = some k →
         (∀ d : Fin 8, (s.plan key.cls).dests.head? = some d → s.usable d = true ∧ s.NobodyOn d) →
         exec (.retardTimerExpiry i) s = .next
           { raised.setCase k
               { key := key, detail := none, mark := .verified, condition := .active, state := .pending, owed := [.alarm]
                 reported := false, chatter := 0, posted := s.clock, progress := ⟨0, 0, 0⟩, failed := 0, retry := s.clock
                 last := .none, line := none } with
             causes := s.causes |||
               (if key.cls ≠ .fire ∧ 48 - s.reserve - (s.otherCases + 1) ≤ s.lowThreshold then 0x10 else 0)
             passesDue := s.passesDue + 1 }))) ∧
  (∀ (s u : State) (i : Fin 8), (s.input i).retardTimer.isSome → (s.input i).alarm = .retarding → s.NoOffer →
     (s.setInput i { s.input i with alarm := .raised, retardTimer := none }).ChannelPostedTo i (.inputAlarm i)
       ⟨16 + i.val, (s.input i).zone, (s.input i).cls⟩ u →
     exec (.retardTimerExpiry i) s = .next u)

/-! ### What every step keeps -/

/-- At reset every invariant of the part holds. -/
def Obligations.ResetIsSound : Prop :=
  State.reset.CasesSound ∧ State.reset.KeysDistinct ∧ State.reset.PlanSound ∧ State.reset.CarriedSound ∧
    State.reset.EnablesSound ∧ State.reset.PermitSound ∧ State.reset.NoOffer ∧ State.reset.SettingsInRange ∧
    State.reset.ChannelsIdle ∧ State.reset.UnwrittenSilent

/-- Every step keeps every case record sound: its owed list one of those its class and condition allow, HELD exactly
when it owes nothing, its line present exactly while it is SENDING, chatter and failed total in their ranges, chatter
0 without an owed ALARM (R7, R8, R9, R11). No step makes two cases with one key (R3). A held post stands until it is
admitted, its position then empty and its case in the table, or a reset empties its position, whatever the posts of
its poster (R22, R24, R48; that a new post of that poster is then not recorded is the model's deduction, log entry 6).
-/
def Obligations.StepKeepsCaseRecords : Prop :=
  (∀ s t : State, s.CasesSound → step s = .next t → t.CasesSound) ∧
  (∀ s t : State, s.KeysDistinct → step s = .next t → t.KeysDistinct) ∧
  (∀ s t : State, s.pending.head? ≠ some .powerOnReset → s.pending.head? ≠ some (.softReset 31) → step s = .next t →
    s.HeldStand t)

/-- Every step keeps each PENDING or SENDING case within its plan and no case PENDING at a destination that is not usable
(R10, R64). -/
def Obligations.StepKeepsPlanRule : Prop :=
  ∀ s t : State, s.PlanSound → step s = .next t → t.PlanSound

/-- Every step keeps cases, calls and lines in agreement: a call context exactly in the call states, at most one call to a
destination, whose call line names it, the lines in AWAIT PERMIT queued once each; a SENDING case names the line whose
call has it as its current case, every current case is SENDING on its line, and a call has none only while it lingers;
a line is disabled exactly where it is OFF or closing its call (R8, R71, R106, R110, R124, R125, R142). Every step
keeps the permit held exactly while the stagger timer runs, with no line waiting for a free permit and the FIRE lines
first in the queue (R110, R111). -/
def Obligations.StepKeepsCalls : Prop :=
  (∀ s t : State, s.CarriedSound → s.EnablesSound → step s = .next t → t.CarriedSound ∧ t.EnablesSound) ∧
  (∀ s t : State, s.PermitSound → step s = .next t → t.PermitSound)

/-- After every step no lingering line has a PENDING case at its destination (R101). -/
def Obligations.StepAnswersOffers : Prop :=
  ∀ s t : State, s.NoOffer → step s = .next t → t.NoOffer

/-- Every step keeps every setting in its range and every key in the ranges of the case record (R19, R35, R54, R69, R80,
R115, R126, R156, R160, R173). Every step keeps each disabled channel idle, so that only an enabled channel posts, and
the source of each channel not written since power-on reset without a case or a held post (R160, R172; the mark of the
write is the model's, log entry 30). -/
def Obligations.StepKeepsRanges : Prop :=
  (∀ s t : State, s.SettingsInRange → step s = .next t → t.SettingsInRange) ∧
  (∀ s t : State, s.ChannelsIdle → step s = .next t → t.ChannelsIdle) ∧
  (∀ s t : State, s.UnwrittenSilent → step s = .next t → t.UnwrittenSilent)

/-! ### The outputs of a line -/

/-- The outputs of a line, which the model computes from the state (log entry 19). The hook relay holds the line off-hook
in OFF HOOK, DIALLING, AWAIT HANDSHAKE, EXCHANGE and LINGER and in no other state (R105). In DIALLING a tone dialling
sends the dial symbol in progress on the symbol drive and uses no break drive; a pulse dialling sends a digit as its
number of breaks, 10 for the digit 0, and nothing on the symbol drive; a pause, and the wait for the adaptive check,
send nothing on either; the element in progress is the one before the position (log entry 16) (R132, R133, R134,
R135). In EXCHANGE the symbol drive sends the symbols of a block in phase SENDING and nothing while it is AWAITING; in
every other state both drives are silent, in LINGER too (R147). So ELEMENT_TIMER_EXPIRY sends the next element, the
ready symbol begins the block and BLOCK_SENT ends it, all off-hook, and LINGER_EXPIRY takes the line on-hook. -/
def Obligations.LineOutputsDriven : Prop :=
  (∀ (s : State) (n : Fin 4),
     (s.hookDrive n = true ↔ (s.line n).state = .offHook ∨ (s.line n).state = .dialling ∨
       (s.line n).state = .awaitHandshake ∨ (s.line n).state = .exchange ∨ (s.line n).state = .linger) ∧
     ((s.line n).state ≠ .dialling → s.breakDrive n = 0) ∧
     ((s.line n).state ≠ .dialling → (s.line n).state ≠ .exchange → s.symbolDrive n = .silent) ∧
     (s.breakDrive n ≠ 0 → s.symbolDrive n = .silent ∧ s.hookDrive n = true ∧ s.breakDrive n ≤ 10) ∧
     (∀ (c : Call) (b : BlockRun), (s.line n).state = .exchange → s.call n = some c → c.block = some b →
       s.symbolDrive n = (match b.phase with
         | .sending => .block b.symbols
         | .awaiting => .silent)) ∧
     ∀ (c : Call) (g : Dialling), (s.line n).state = .dialling → s.call n = some c → c.dialling = some g →
       (g.element = none → s.symbolDrive n = .silent ∧ s.breakDrive n = 0) ∧
       ∀ y : DialSym, g.element.isSome → (s.dest c.dest).dial[g.position - 2]? = some y →
         (y = .pause → s.symbolDrive n = .silent ∧ s.breakDrive n = 0) ∧
         (y ≠ .pause → g.manner = .tone → s.symbolDrive n = .dial y ∧ s.breakDrive n = 0) ∧
         (g.manner = .pulse → s.symbolDrive n = .silent) ∧
         ∀ d : Fin 10, y = .digit d → g.manner = .pulse → s.breakDrive n = if d = 0 then 10 else d.val) ∧
  (∀ (s : State) (n : Fin 4) (c : Call) (g : Dialling) (y : DialSym), (s.line n).state = .dialling → s.call n = some c →
     c.dialling = some g → g.element.isSome → g.adaptiveCheck = none → 1 ≤ g.position →
     (s.dest c.dest).dial[g.position - 1]? = some y →
     ∃ t : State, exec (.elementTimerExpiry n) s = .next t ∧ t.hookDrive n = true ∧
       (g.manner = .tone → t.breakDrive n = 0 ∧ t.symbolDrive n = if y = .pause then .silent else .dial y) ∧
       (g.manner = .pulse → t.symbolDrive n = .silent ∧ ∀ d : Fin 10, y = .digit d → t.breakDrive n = if d = 0 then 10 else d.val) ∧
       (y = .pause → t.breakDrive n = 0)) ∧
  (∀ (s : State) (n : Fin 4) (c : Call) (k : Fin 48) (x : Case), (s.line n).state = .awaitHandshake → s.call n = some c →
     c.current = some k → s.caseAt k = some x → x.owed ≠ [] →
     ∃ (t : State) (b : List Nat), exec (.receivedSymbol n 15) s = .next t ∧ t.hookDrive n = true ∧
       composeBlock x (t.dest c.dest) = some b ∧ t.symbolDrive n = .block b ∧
       ∃ u : State, exec (.blockSent n) t = .next u ∧ u.hookDrive n = true ∧ u.symbolDrive n = .silent) ∧
  (∀ (s : State) (n : Fin 4) (c : Call), (s.line n).state = .linger → s.call n = some c → c.linger.isSome →
     ∃ t : State, exec (.lingerExpiry n) s = .next t ∧ t.hookDrive n = false ∧ t.symbolDrive n = .silent ∧ t.breakDrive n = 0)
end

