-- ==== Sys2Proof/Laws/State.lean ====
section
/-! SUPPORT. What each update of a record leaves in every field and in every record read: one lemma for each field and each read, so that no proof unfolds an update. -/

namespace Sys2Proof.Machine

variable (s : State)

/-! ### setSlot -/

@[simp] theorem State.setSlot_reserve (k : Fin 48) (x : Slot) : (s.setSlot k x).reserve = s.reserve := rfl
@[simp] theorem State.setSlot_lowThreshold (k : Fin 48) (x : Slot) : (s.setSlot k x).lowThreshold = s.lowThreshold := rfl
@[simp] theorem State.setSlot_heldPosts (k : Fin 48) (x : Slot) : (s.setSlot k x).heldPosts = s.heldPosts := rfl
@[simp] theorem State.setSlot_admission (k : Fin 48) (x : Slot) : (s.setSlot k x).admission = s.admission := rfl
@[simp] theorem State.setSlot_classes (k : Fin 48) (x : Slot) : (s.setSlot k x).classes = s.classes := rfl
@[simp] theorem State.setSlot_fireWaiting (k : Fin 48) (x : Slot) : (s.setSlot k x).fireWaiting = s.fireWaiting := rfl
@[simp] theorem State.setSlot_passesDue (k : Fin 48) (x : Slot) : (s.setSlot k x).passesDue = s.passesDue := rfl
@[simp] theorem State.setSlot_dests (k : Fin 48) (x : Slot) : (s.setSlot k x).dests = s.dests := rfl
@[simp] theorem State.setSlot_plans (k : Fin 48) (x : Slot) : (s.setSlot k x).plans = s.plans := rfl
@[simp] theorem State.setSlot_lines (k : Fin 48) (x : Slot) : (s.setSlot k x).lines = s.lines := rfl
@[simp] theorem State.setSlot_timing (k : Fin 48) (x : Slot) : (s.setSlot k x).timing = s.timing := rfl
@[simp] theorem State.setSlot_exchange (k : Fin 48) (x : Slot) : (s.setSlot k x).exchange = s.exchange := rfl
@[simp] theorem State.setSlot_permit (k : Fin 48) (x : Slot) : (s.setSlot k x).permit = s.permit := rfl
@[simp] theorem State.setSlot_inputs (k : Fin 48) (x : Slot) : (s.setSlot k x).inputs = s.inputs := rfl
@[simp] theorem State.setSlot_testTimer (k : Fin 48) (x : Slot) : (s.setSlot k x).testTimer = s.testTimer := rfl
@[simp] theorem State.setSlot_causes (k : Fin 48) (x : Slot) : (s.setSlot k x).causes = s.causes := rfl
@[simp] theorem State.setSlot_mask (k : Fin 48) (x : Slot) : (s.setSlot k x).mask = s.mask := rfl
@[simp] theorem State.setSlot_clock (k : Fin 48) (x : Slot) : (s.setSlot k x).clock = s.clock := rfl
@[simp] theorem State.setSlot_reply (k : Fin 48) (x : Slot) : (s.setSlot k x).reply = s.reply := rfl
@[simp] theorem State.setSlot_serialOut (k : Fin 48) (x : Slot) : (s.setSlot k x).serialOut = s.serialOut := rfl
@[simp] theorem State.setSlot_freeCount (k : Fin 48) (x : Slot) : (s.setSlot k x).freeCount = s.freeCount := rfl
@[simp] theorem State.setSlot_pending (k : Fin 48) (x : Slot) : (s.setSlot k x).pending = s.pending := rfl
@[simp] theorem State.setSlot_dest (k : Fin 48) (x : Slot) (e : Fin 8) : (s.setSlot k x).dest e = s.dest e := rfl
@[simp] theorem State.setSlot_usable (k : Fin 48) (x : Slot) (e : Fin 8) : (s.setSlot k x).usable e = s.usable e := rfl
@[simp] theorem State.setSlot_plan (k : Fin 48) (x : Slot) (q : Cls) : (s.setSlot k x).plan q = s.plan q := rfl
@[simp] theorem State.setSlot_classEntry (k : Fin 48) (x : Slot) (q : Cls) : (s.setSlot k x).classEntry q = s.classEntry q := rfl
@[simp] theorem State.setSlot_line (k : Fin 48) (x : Slot) (m : Fin 4) : (s.setSlot k x).line m = s.line m := rfl
@[simp] theorem State.setSlot_call (k : Fin 48) (x : Slot) (m : Fin 4) : (s.setSlot k x).call m = s.call m := rfl
@[simp] theorem State.setSlot_input (k : Fin 48) (x : Slot) (j : Fin 8) : (s.setSlot k x).input j = s.input j := rfl
@[simp] theorem State.setSlot_heldAt (k : Fin 48) (x : Slot) (q : Fin 21) : (s.setSlot k x).heldAt q = s.heldAt q := rfl

/-! ### setCase -/

@[simp] theorem State.setCase_reserve (k : Fin 48) (c : Case) : (s.setCase k c).reserve = s.reserve := rfl
@[simp] theorem State.setCase_lowThreshold (k : Fin 48) (c : Case) : (s.setCase k c).lowThreshold = s.lowThreshold := rfl
@[simp] theorem State.setCase_heldPosts (k : Fin 48) (c : Case) : (s.setCase k c).heldPosts = s.heldPosts := rfl
@[simp] theorem State.setCase_admission (k : Fin 48) (c : Case) : (s.setCase k c).admission = s.admission := rfl
@[simp] theorem State.setCase_classes (k : Fin 48) (c : Case) : (s.setCase k c).classes = s.classes := rfl
@[simp] theorem State.setCase_fireWaiting (k : Fin 48) (c : Case) : (s.setCase k c).fireWaiting = s.fireWaiting := rfl
@[simp] theorem State.setCase_passesDue (k : Fin 48) (c : Case) : (s.setCase k c).passesDue = s.passesDue := rfl
@[simp] theorem State.setCase_dests (k : Fin 48) (c : Case) : (s.setCase k c).dests = s.dests := rfl
@[simp] theorem State.setCase_plans (k : Fin 48) (c : Case) : (s.setCase k c).plans = s.plans := rfl
@[simp] theorem State.setCase_lines (k : Fin 48) (c : Case) : (s.setCase k c).lines = s.lines := rfl
@[simp] theorem State.setCase_timing (k : Fin 48) (c : Case) : (s.setCase k c).timing = s.timing := rfl
@[simp] theorem State.setCase_exchange (k : Fin 48) (c : Case) : (s.setCase k c).exchange = s.exchange := rfl
@[simp] theorem State.setCase_permit (k : Fin 48) (c : Case) : (s.setCase k c).permit = s.permit := rfl
@[simp] theorem State.setCase_inputs (k : Fin 48) (c : Case) : (s.setCase k c).inputs = s.inputs := rfl
@[simp] theorem State.setCase_testTimer (k : Fin 48) (c : Case) : (s.setCase k c).testTimer = s.testTimer := rfl
@[simp] theorem State.setCase_causes (k : Fin 48) (c : Case) : (s.setCase k c).causes = s.causes := rfl
@[simp] theorem State.setCase_mask (k : Fin 48) (c : Case) : (s.setCase k c).mask = s.mask := rfl
@[simp] theorem State.setCase_clock (k : Fin 48) (c : Case) : (s.setCase k c).clock = s.clock := rfl
@[simp] theorem State.setCase_reply (k : Fin 48) (c : Case) : (s.setCase k c).reply = s.reply := rfl
@[simp] theorem State.setCase_serialOut (k : Fin 48) (c : Case) : (s.setCase k c).serialOut = s.serialOut := rfl
@[simp] theorem State.setCase_freeCount (k : Fin 48) (c : Case) : (s.setCase k c).freeCount = s.freeCount := rfl
@[simp] theorem State.setCase_pending (k : Fin 48) (c : Case) : (s.setCase k c).pending = s.pending := rfl
@[simp] theorem State.setCase_dest (k : Fin 48) (c : Case) (e : Fin 8) : (s.setCase k c).dest e = s.dest e := rfl
@[simp] theorem State.setCase_usable (k : Fin 48) (c : Case) (e : Fin 8) : (s.setCase k c).usable e = s.usable e := rfl
@[simp] theorem State.setCase_plan (k : Fin 48) (c : Case) (q : Cls) : (s.setCase k c).plan q = s.plan q := rfl
@[simp] theorem State.setCase_classEntry (k : Fin 48) (c : Case) (q : Cls) : (s.setCase k c).classEntry q = s.classEntry q := rfl
@[simp] theorem State.setCase_line (k : Fin 48) (c : Case) (m : Fin 4) : (s.setCase k c).line m = s.line m := rfl
@[simp] theorem State.setCase_call (k : Fin 48) (c : Case) (m : Fin 4) : (s.setCase k c).call m = s.call m := rfl
@[simp] theorem State.setCase_input (k : Fin 48) (c : Case) (j : Fin 8) : (s.setCase k c).input j = s.input j := rfl
@[simp] theorem State.setCase_heldAt (k : Fin 48) (c : Case) (q : Fin 21) : (s.setCase k c).heldAt q = s.heldAt q := rfl

/-! ### setDest -/

@[simp] theorem State.setDest_slots (d : Fin 8) (x : Destination) : (s.setDest d x).slots = s.slots := rfl
@[simp] theorem State.setDest_reserve (d : Fin 8) (x : Destination) : (s.setDest d x).reserve = s.reserve := rfl
@[simp] theorem State.setDest_lowThreshold (d : Fin 8) (x : Destination) : (s.setDest d x).lowThreshold = s.lowThreshold := rfl
@[simp] theorem State.setDest_heldPosts (d : Fin 8) (x : Destination) : (s.setDest d x).heldPosts = s.heldPosts := rfl
@[simp] theorem State.setDest_admission (d : Fin 8) (x : Destination) : (s.setDest d x).admission = s.admission := rfl
@[simp] theorem State.setDest_classes (d : Fin 8) (x : Destination) : (s.setDest d x).classes = s.classes := rfl
@[simp] theorem State.setDest_fireWaiting (d : Fin 8) (x : Destination) : (s.setDest d x).fireWaiting = s.fireWaiting := rfl
@[simp] theorem State.setDest_passesDue (d : Fin 8) (x : Destination) : (s.setDest d x).passesDue = s.passesDue := rfl
@[simp] theorem State.setDest_plans (d : Fin 8) (x : Destination) : (s.setDest d x).plans = s.plans := rfl
@[simp] theorem State.setDest_lines (d : Fin 8) (x : Destination) : (s.setDest d x).lines = s.lines := rfl
@[simp] theorem State.setDest_timing (d : Fin 8) (x : Destination) : (s.setDest d x).timing = s.timing := rfl
@[simp] theorem State.setDest_exchange (d : Fin 8) (x : Destination) : (s.setDest d x).exchange = s.exchange := rfl
@[simp] theorem State.setDest_permit (d : Fin 8) (x : Destination) : (s.setDest d x).permit = s.permit := rfl
@[simp] theorem State.setDest_inputs (d : Fin 8) (x : Destination) : (s.setDest d x).inputs = s.inputs := rfl
@[simp] theorem State.setDest_testTimer (d : Fin 8) (x : Destination) : (s.setDest d x).testTimer = s.testTimer := rfl
@[simp] theorem State.setDest_causes (d : Fin 8) (x : Destination) : (s.setDest d x).causes = s.causes := rfl
@[simp] theorem State.setDest_mask (d : Fin 8) (x : Destination) : (s.setDest d x).mask = s.mask := rfl
@[simp] theorem State.setDest_clock (d : Fin 8) (x : Destination) : (s.setDest d x).clock = s.clock := rfl
@[simp] theorem State.setDest_reply (d : Fin 8) (x : Destination) : (s.setDest d x).reply = s.reply := rfl
@[simp] theorem State.setDest_serialOut (d : Fin 8) (x : Destination) : (s.setDest d x).serialOut = s.serialOut := rfl
@[simp] theorem State.setDest_freeCount (d : Fin 8) (x : Destination) : (s.setDest d x).freeCount = s.freeCount := rfl
@[simp] theorem State.setDest_pending (d : Fin 8) (x : Destination) : (s.setDest d x).pending = s.pending := rfl
@[simp] theorem State.setDest_slot (d : Fin 8) (x : Destination) (j : Fin 48) : (s.setDest d x).slot j = s.slot j := rfl
@[simp] theorem State.setDest_caseAt (d : Fin 8) (x : Destination) (j : Fin 48) : (s.setDest d x).caseAt j = s.caseAt j := rfl
@[simp] theorem State.setDest_handleOf (d : Fin 8) (x : Destination) (j : Fin 48) : (s.setDest d x).handleOf j = s.handleOf j := rfl
@[simp] theorem State.setDest_plan (d : Fin 8) (x : Destination) (q : Cls) : (s.setDest d x).plan q = s.plan q := rfl
@[simp] theorem State.setDest_classEntry (d : Fin 8) (x : Destination) (q : Cls) : (s.setDest d x).classEntry q = s.classEntry q := rfl
@[simp] theorem State.setDest_line (d : Fin 8) (x : Destination) (m : Fin 4) : (s.setDest d x).line m = s.line m := rfl
@[simp] theorem State.setDest_call (d : Fin 8) (x : Destination) (m : Fin 4) : (s.setDest d x).call m = s.call m := rfl
@[simp] theorem State.setDest_input (d : Fin 8) (x : Destination) (j : Fin 8) : (s.setDest d x).input j = s.input j := rfl
@[simp] theorem State.setDest_heldAt (d : Fin 8) (x : Destination) (q : Fin 21) : (s.setDest d x).heldAt q = s.heldAt q := rfl

/-! ### updDest -/

@[simp] theorem State.updDest_slots (d : Fin 8) (f : Destination → Destination) : (s.updDest d f).slots = s.slots := rfl
@[simp] theorem State.updDest_reserve (d : Fin 8) (f : Destination → Destination) : (s.updDest d f).reserve = s.reserve := rfl
@[simp] theorem State.updDest_lowThreshold (d : Fin 8) (f : Destination → Destination) : (s.updDest d f).lowThreshold = s.lowThreshold := rfl
@[simp] theorem State.updDest_heldPosts (d : Fin 8) (f : Destination → Destination) : (s.updDest d f).heldPosts = s.heldPosts := rfl
@[simp] theorem State.updDest_admission (d : Fin 8) (f : Destination → Destination) : (s.updDest d f).admission = s.admission := rfl
@[simp] theorem State.updDest_classes (d : Fin 8) (f : Destination → Destination) : (s.updDest d f).classes = s.classes := rfl
@[simp] theorem State.updDest_fireWaiting (d : Fin 8) (f : Destination → Destination) : (s.updDest d f).fireWaiting = s.fireWaiting := rfl
@[simp] theorem State.updDest_passesDue (d : Fin 8) (f : Destination → Destination) : (s.updDest d f).passesDue = s.passesDue := rfl
@[simp] theorem State.updDest_plans (d : Fin 8) (f : Destination → Destination) : (s.updDest d f).plans = s.plans := rfl
@[simp] theorem State.updDest_lines (d : Fin 8) (f : Destination → Destination) : (s.updDest d f).lines = s.lines := rfl
@[simp] theorem State.updDest_timing (d : Fin 8) (f : Destination → Destination) : (s.updDest d f).timing = s.timing := rfl
@[simp] theorem State.updDest_exchange (d : Fin 8) (f : Destination → Destination) : (s.updDest d f).exchange = s.exchange := rfl
@[simp] theorem State.updDest_permit (d : Fin 8) (f : Destination → Destination) : (s.updDest d f).permit = s.permit := rfl
@[simp] theorem State.updDest_inputs (d : Fin 8) (f : Destination → Destination) : (s.updDest d f).inputs = s.inputs := rfl
@[simp] theorem State.updDest_testTimer (d : Fin 8) (f : Destination → Destination) : (s.updDest d f).testTimer = s.testTimer := rfl
@[simp] theorem State.updDest_causes (d : Fin 8) (f : Destination → Destination) : (s.updDest d f).causes = s.causes := rfl
@[simp] theorem State.updDest_mask (d : Fin 8) (f : Destination → Destination) : (s.updDest d f).mask = s.mask := rfl
@[simp] theorem State.updDest_clock (d : Fin 8) (f : Destination → Destination) : (s.updDest d f).clock = s.clock := rfl
@[simp] theorem State.updDest_reply (d : Fin 8) (f : Destination → Destination) : (s.updDest d f).reply = s.reply := rfl
@[simp] theorem State.updDest_serialOut (d : Fin 8) (f : Destination → Destination) : (s.updDest d f).serialOut = s.serialOut := rfl
@[simp] theorem State.updDest_freeCount (d : Fin 8) (f : Destination → Destination) : (s.updDest d f).freeCount = s.freeCount := rfl
@[simp] theorem State.updDest_pending (d : Fin 8) (f : Destination → Destination) : (s.updDest d f).pending = s.pending := rfl
@[simp] theorem State.updDest_slot (d : Fin 8) (f : Destination → Destination) (j : Fin 48) : (s.updDest d f).slot j = s.slot j := rfl
@[simp] theorem State.updDest_caseAt (d : Fin 8) (f : Destination → Destination) (j : Fin 48) : (s.updDest d f).caseAt j = s.caseAt j := rfl
@[simp] theorem State.updDest_handleOf (d : Fin 8) (f : Destination → Destination) (j : Fin 48) : (s.updDest d f).handleOf j = s.handleOf j := rfl
@[simp] theorem State.updDest_plan (d : Fin 8) (f : Destination → Destination) (q : Cls) : (s.updDest d f).plan q = s.plan q := rfl
@[simp] theorem State.updDest_classEntry (d : Fin 8) (f : Destination → Destination) (q : Cls) : (s.updDest d f).classEntry q = s.classEntry q := rfl
@[simp] theorem State.updDest_line (d : Fin 8) (f : Destination → Destination) (m : Fin 4) : (s.updDest d f).line m = s.line m := rfl
@[simp] theorem State.updDest_call (d : Fin 8) (f : Destination → Destination) (m : Fin 4) : (s.updDest d f).call m = s.call m := rfl
@[simp] theorem State.updDest_input (d : Fin 8) (f : Destination → Destination) (j : Fin 8) : (s.updDest d f).input j = s.input j := rfl
@[simp] theorem State.updDest_heldAt (d : Fin 8) (f : Destination → Destination) (q : Fin 21) : (s.updDest d f).heldAt q = s.heldAt q := rfl

/-! ### setPlan -/

@[simp] theorem State.setPlan_slots (c : Cls) (p : Plan) : (s.setPlan c p).slots = s.slots := rfl
@[simp] theorem State.setPlan_reserve (c : Cls) (p : Plan) : (s.setPlan c p).reserve = s.reserve := rfl
@[simp] theorem State.setPlan_lowThreshold (c : Cls) (p : Plan) : (s.setPlan c p).lowThreshold = s.lowThreshold := rfl
@[simp] theorem State.setPlan_heldPosts (c : Cls) (p : Plan) : (s.setPlan c p).heldPosts = s.heldPosts := rfl
@[simp] theorem State.setPlan_admission (c : Cls) (p : Plan) : (s.setPlan c p).admission = s.admission := rfl
@[simp] theorem State.setPlan_classes (c : Cls) (p : Plan) : (s.setPlan c p).classes = s.classes := rfl
@[simp] theorem State.setPlan_fireWaiting (c : Cls) (p : Plan) : (s.setPlan c p).fireWaiting = s.fireWaiting := rfl
@[simp] theorem State.setPlan_passesDue (c : Cls) (p : Plan) : (s.setPlan c p).passesDue = s.passesDue := rfl
@[simp] theorem State.setPlan_dests (c : Cls) (p : Plan) : (s.setPlan c p).dests = s.dests := rfl
@[simp] theorem State.setPlan_lines (c : Cls) (p : Plan) : (s.setPlan c p).lines = s.lines := rfl
@[simp] theorem State.setPlan_timing (c : Cls) (p : Plan) : (s.setPlan c p).timing = s.timing := rfl
@[simp] theorem State.setPlan_exchange (c : Cls) (p : Plan) : (s.setPlan c p).exchange = s.exchange := rfl
@[simp] theorem State.setPlan_permit (c : Cls) (p : Plan) : (s.setPlan c p).permit = s.permit := rfl
@[simp] theorem State.setPlan_inputs (c : Cls) (p : Plan) : (s.setPlan c p).inputs = s.inputs := rfl
@[simp] theorem State.setPlan_testTimer (c : Cls) (p : Plan) : (s.setPlan c p).testTimer = s.testTimer := rfl
@[simp] theorem State.setPlan_causes (c : Cls) (p : Plan) : (s.setPlan c p).causes = s.causes := rfl
@[simp] theorem State.setPlan_mask (c : Cls) (p : Plan) : (s.setPlan c p).mask = s.mask := rfl
@[simp] theorem State.setPlan_clock (c : Cls) (p : Plan) : (s.setPlan c p).clock = s.clock := rfl
@[simp] theorem State.setPlan_reply (c : Cls) (p : Plan) : (s.setPlan c p).reply = s.reply := rfl
@[simp] theorem State.setPlan_serialOut (c : Cls) (p : Plan) : (s.setPlan c p).serialOut = s.serialOut := rfl
@[simp] theorem State.setPlan_freeCount (c : Cls) (p : Plan) : (s.setPlan c p).freeCount = s.freeCount := rfl
@[simp] theorem State.setPlan_pending (c : Cls) (p : Plan) : (s.setPlan c p).pending = s.pending := rfl
@[simp] theorem State.setPlan_slot (c : Cls) (p : Plan) (j : Fin 48) : (s.setPlan c p).slot j = s.slot j := rfl
@[simp] theorem State.setPlan_caseAt (c : Cls) (p : Plan) (j : Fin 48) : (s.setPlan c p).caseAt j = s.caseAt j := rfl
@[simp] theorem State.setPlan_handleOf (c : Cls) (p : Plan) (j : Fin 48) : (s.setPlan c p).handleOf j = s.handleOf j := rfl
@[simp] theorem State.setPlan_dest (c : Cls) (p : Plan) (e : Fin 8) : (s.setPlan c p).dest e = s.dest e := rfl
@[simp] theorem State.setPlan_usable (c : Cls) (p : Plan) (e : Fin 8) : (s.setPlan c p).usable e = s.usable e := rfl
@[simp] theorem State.setPlan_classEntry (c : Cls) (p : Plan) (q : Cls) : (s.setPlan c p).classEntry q = s.classEntry q := rfl
@[simp] theorem State.setPlan_line (c : Cls) (p : Plan) (m : Fin 4) : (s.setPlan c p).line m = s.line m := rfl
@[simp] theorem State.setPlan_call (c : Cls) (p : Plan) (m : Fin 4) : (s.setPlan c p).call m = s.call m := rfl
@[simp] theorem State.setPlan_input (c : Cls) (p : Plan) (j : Fin 8) : (s.setPlan c p).input j = s.input j := rfl
@[simp] theorem State.setPlan_heldAt (c : Cls) (p : Plan) (q : Fin 21) : (s.setPlan c p).heldAt q = s.heldAt q := rfl

/-! ### setClassEntry -/

@[simp] theorem State.setClassEntry_slots (c : Cls) (x : ClassEntry) : (s.setClassEntry c x).slots = s.slots := rfl
@[simp] theorem State.setClassEntry_reserve (c : Cls) (x : ClassEntry) : (s.setClassEntry c x).reserve = s.reserve := rfl
@[simp] theorem State.setClassEntry_lowThreshold (c : Cls) (x : ClassEntry) : (s.setClassEntry c x).lowThreshold = s.lowThreshold := rfl
@[simp] theorem State.setClassEntry_heldPosts (c : Cls) (x : ClassEntry) : (s.setClassEntry c x).heldPosts = s.heldPosts := rfl
@[simp] theorem State.setClassEntry_admission (c : Cls) (x : ClassEntry) : (s.setClassEntry c x).admission = s.admission := rfl
@[simp] theorem State.setClassEntry_fireWaiting (c : Cls) (x : ClassEntry) : (s.setClassEntry c x).fireWaiting = s.fireWaiting := rfl
@[simp] theorem State.setClassEntry_passesDue (c : Cls) (x : ClassEntry) : (s.setClassEntry c x).passesDue = s.passesDue := rfl
@[simp] theorem State.setClassEntry_dests (c : Cls) (x : ClassEntry) : (s.setClassEntry c x).dests = s.dests := rfl
@[simp] theorem State.setClassEntry_plans (c : Cls) (x : ClassEntry) : (s.setClassEntry c x).plans = s.plans := rfl
@[simp] theorem State.setClassEntry_lines (c : Cls) (x : ClassEntry) : (s.setClassEntry c x).lines = s.lines := rfl
@[simp] theorem State.setClassEntry_timing (c : Cls) (x : ClassEntry) : (s.setClassEntry c x).timing = s.timing := rfl
@[simp] theorem State.setClassEntry_exchange (c : Cls) (x : ClassEntry) : (s.setClassEntry c x).exchange = s.exchange := rfl
@[simp] theorem State.setClassEntry_permit (c : Cls) (x : ClassEntry) : (s.setClassEntry c x).permit = s.permit := rfl
@[simp] theorem State.setClassEntry_inputs (c : Cls) (x : ClassEntry) : (s.setClassEntry c x).inputs = s.inputs := rfl
@[simp] theorem State.setClassEntry_testTimer (c : Cls) (x : ClassEntry) : (s.setClassEntry c x).testTimer = s.testTimer := rfl
@[simp] theorem State.setClassEntry_causes (c : Cls) (x : ClassEntry) : (s.setClassEntry c x).causes = s.causes := rfl
@[simp] theorem State.setClassEntry_mask (c : Cls) (x : ClassEntry) : (s.setClassEntry c x).mask = s.mask := rfl
@[simp] theorem State.setClassEntry_clock (c : Cls) (x : ClassEntry) : (s.setClassEntry c x).clock = s.clock := rfl
@[simp] theorem State.setClassEntry_reply (c : Cls) (x : ClassEntry) : (s.setClassEntry c x).reply = s.reply := rfl
@[simp] theorem State.setClassEntry_serialOut (c : Cls) (x : ClassEntry) : (s.setClassEntry c x).serialOut = s.serialOut := rfl
@[simp] theorem State.setClassEntry_freeCount (c : Cls) (x : ClassEntry) : (s.setClassEntry c x).freeCount = s.freeCount := rfl
@[simp] theorem State.setClassEntry_pending (c : Cls) (x : ClassEntry) : (s.setClassEntry c x).pending = s.pending := rfl
@[simp] theorem State.setClassEntry_slot (c : Cls) (x : ClassEntry) (j : Fin 48) : (s.setClassEntry c x).slot j = s.slot j := rfl
@[simp] theorem State.setClassEntry_caseAt (c : Cls) (x : ClassEntry) (j : Fin 48) : (s.setClassEntry c x).caseAt j = s.caseAt j := rfl
@[simp] theorem State.setClassEntry_handleOf (c : Cls) (x : ClassEntry) (j : Fin 48) : (s.setClassEntry c x).handleOf j = s.handleOf j := rfl
@[simp] theorem State.setClassEntry_dest (c : Cls) (x : ClassEntry) (e : Fin 8) : (s.setClassEntry c x).dest e = s.dest e := rfl
@[simp] theorem State.setClassEntry_usable (c : Cls) (x : ClassEntry) (e : Fin 8) : (s.setClassEntry c x).usable e = s.usable e := rfl
@[simp] theorem State.setClassEntry_plan (c : Cls) (x : ClassEntry) (q : Cls) : (s.setClassEntry c x).plan q = s.plan q := rfl
@[simp] theorem State.setClassEntry_line (c : Cls) (x : ClassEntry) (m : Fin 4) : (s.setClassEntry c x).line m = s.line m := rfl
@[simp] theorem State.setClassEntry_call (c : Cls) (x : ClassEntry) (m : Fin 4) : (s.setClassEntry c x).call m = s.call m := rfl
@[simp] theorem State.setClassEntry_input (c : Cls) (x : ClassEntry) (j : Fin 8) : (s.setClassEntry c x).input j = s.input j := rfl
@[simp] theorem State.setClassEntry_heldAt (c : Cls) (x : ClassEntry) (q : Fin 21) : (s.setClassEntry c x).heldAt q = s.heldAt q := rfl

/-! ### setLine -/

@[simp] theorem State.setLine_slots (n : Fin 4) (l : Line) : (s.setLine n l).slots = s.slots := rfl
@[simp] theorem State.setLine_reserve (n : Fin 4) (l : Line) : (s.setLine n l).reserve = s.reserve := rfl
@[simp] theorem State.setLine_lowThreshold (n : Fin 4) (l : Line) : (s.setLine n l).lowThreshold = s.lowThreshold := rfl
@[simp] theorem State.setLine_heldPosts (n : Fin 4) (l : Line) : (s.setLine n l).heldPosts = s.heldPosts := rfl
@[simp] theorem State.setLine_admission (n : Fin 4) (l : Line) : (s.setLine n l).admission = s.admission := rfl
@[simp] theorem State.setLine_classes (n : Fin 4) (l : Line) : (s.setLine n l).classes = s.classes := rfl
@[simp] theorem State.setLine_fireWaiting (n : Fin 4) (l : Line) : (s.setLine n l).fireWaiting = s.fireWaiting := rfl
@[simp] theorem State.setLine_passesDue (n : Fin 4) (l : Line) : (s.setLine n l).passesDue = s.passesDue := rfl
@[simp] theorem State.setLine_dests (n : Fin 4) (l : Line) : (s.setLine n l).dests = s.dests := rfl
@[simp] theorem State.setLine_plans (n : Fin 4) (l : Line) : (s.setLine n l).plans = s.plans := rfl
@[simp] theorem State.setLine_timing (n : Fin 4) (l : Line) : (s.setLine n l).timing = s.timing := rfl
@[simp] theorem State.setLine_exchange (n : Fin 4) (l : Line) : (s.setLine n l).exchange = s.exchange := rfl
@[simp] theorem State.setLine_permit (n : Fin 4) (l : Line) : (s.setLine n l).permit = s.permit := rfl
@[simp] theorem State.setLine_inputs (n : Fin 4) (l : Line) : (s.setLine n l).inputs = s.inputs := rfl
@[simp] theorem State.setLine_testTimer (n : Fin 4) (l : Line) : (s.setLine n l).testTimer = s.testTimer := rfl
@[simp] theorem State.setLine_causes (n : Fin 4) (l : Line) : (s.setLine n l).causes = s.causes := rfl
@[simp] theorem State.setLine_mask (n : Fin 4) (l : Line) : (s.setLine n l).mask = s.mask := rfl
@[simp] theorem State.setLine_clock (n : Fin 4) (l : Line) : (s.setLine n l).clock = s.clock := rfl
@[simp] theorem State.setLine_reply (n : Fin 4) (l : Line) : (s.setLine n l).reply = s.reply := rfl
@[simp] theorem State.setLine_serialOut (n : Fin 4) (l : Line) : (s.setLine n l).serialOut = s.serialOut := rfl
@[simp] theorem State.setLine_freeCount (n : Fin 4) (l : Line) : (s.setLine n l).freeCount = s.freeCount := rfl
@[simp] theorem State.setLine_pending (n : Fin 4) (l : Line) : (s.setLine n l).pending = s.pending := rfl
@[simp] theorem State.setLine_slot (n : Fin 4) (l : Line) (j : Fin 48) : (s.setLine n l).slot j = s.slot j := rfl
@[simp] theorem State.setLine_caseAt (n : Fin 4) (l : Line) (j : Fin 48) : (s.setLine n l).caseAt j = s.caseAt j := rfl
@[simp] theorem State.setLine_handleOf (n : Fin 4) (l : Line) (j : Fin 48) : (s.setLine n l).handleOf j = s.handleOf j := rfl
@[simp] theorem State.setLine_dest (n : Fin 4) (l : Line) (e : Fin 8) : (s.setLine n l).dest e = s.dest e := rfl
@[simp] theorem State.setLine_usable (n : Fin 4) (l : Line) (e : Fin 8) : (s.setLine n l).usable e = s.usable e := rfl
@[simp] theorem State.setLine_plan (n : Fin 4) (l : Line) (q : Cls) : (s.setLine n l).plan q = s.plan q := rfl
@[simp] theorem State.setLine_classEntry (n : Fin 4) (l : Line) (q : Cls) : (s.setLine n l).classEntry q = s.classEntry q := rfl
@[simp] theorem State.setLine_input (n : Fin 4) (l : Line) (j : Fin 8) : (s.setLine n l).input j = s.input j := rfl
@[simp] theorem State.setLine_heldAt (n : Fin 4) (l : Line) (q : Fin 21) : (s.setLine n l).heldAt q = s.heldAt q := rfl

/-! ### updLine -/

@[simp] theorem State.updLine_slots (n : Fin 4) (f : Line → Line) : (s.updLine n f).slots = s.slots := rfl
@[simp] theorem State.updLine_reserve (n : Fin 4) (f : Line → Line) : (s.updLine n f).reserve = s.reserve := rfl
@[simp] theorem State.updLine_lowThreshold (n : Fin 4) (f : Line → Line) : (s.updLine n f).lowThreshold = s.lowThreshold := rfl
@[simp] theorem State.updLine_heldPosts (n : Fin 4) (f : Line → Line) : (s.updLine n f).heldPosts = s.heldPosts := rfl
@[simp] theorem State.updLine_admission (n : Fin 4) (f : Line → Line) : (s.updLine n f).admission = s.admission := rfl
@[simp] theorem State.updLine_classes (n : Fin 4) (f : Line → Line) : (s.updLine n f).classes = s.classes := rfl
@[simp] theorem State.updLine_fireWaiting (n : Fin 4) (f : Line → Line) : (s.updLine n f).fireWaiting = s.fireWaiting := rfl
@[simp] theorem State.updLine_passesDue (n : Fin 4) (f : Line → Line) : (s.updLine n f).passesDue = s.passesDue := rfl
@[simp] theorem State.updLine_dests (n : Fin 4) (f : Line → Line) : (s.updLine n f).dests = s.dests := rfl
@[simp] theorem State.updLine_plans (n : Fin 4) (f : Line → Line) : (s.updLine n f).plans = s.plans := rfl
@[simp] theorem State.updLine_timing (n : Fin 4) (f : Line → Line) : (s.updLine n f).timing = s.timing := rfl
@[simp] theorem State.updLine_exchange (n : Fin 4) (f : Line → Line) : (s.updLine n f).exchange = s.exchange := rfl
@[simp] theorem State.updLine_permit (n : Fin 4) (f : Line → Line) : (s.updLine n f).permit = s.permit := rfl
@[simp] theorem State.updLine_inputs (n : Fin 4) (f : Line → Line) : (s.updLine n f).inputs = s.inputs := rfl
@[simp] theorem State.updLine_testTimer (n : Fin 4) (f : Line → Line) : (s.updLine n f).testTimer = s.testTimer := rfl
@[simp] theorem State.updLine_causes (n : Fin 4) (f : Line → Line) : (s.updLine n f).causes = s.causes := rfl
@[simp] theorem State.updLine_mask (n : Fin 4) (f : Line → Line) : (s.updLine n f).mask = s.mask := rfl
@[simp] theorem State.updLine_clock (n : Fin 4) (f : Line → Line) : (s.updLine n f).clock = s.clock := rfl
@[simp] theorem State.updLine_reply (n : Fin 4) (f : Line → Line) : (s.updLine n f).reply = s.reply := rfl
@[simp] theorem State.updLine_serialOut (n : Fin 4) (f : Line → Line) : (s.updLine n f).serialOut = s.serialOut := rfl
@[simp] theorem State.updLine_freeCount (n : Fin 4) (f : Line → Line) : (s.updLine n f).freeCount = s.freeCount := rfl
@[simp] theorem State.updLine_pending (n : Fin 4) (f : Line → Line) : (s.updLine n f).pending = s.pending := rfl
@[simp] theorem State.updLine_slot (n : Fin 4) (f : Line → Line) (j : Fin 48) : (s.updLine n f).slot j = s.slot j := rfl
@[simp] theorem State.updLine_caseAt (n : Fin 4) (f : Line → Line) (j : Fin 48) : (s.updLine n f).caseAt j = s.caseAt j := rfl
@[simp] theorem State.updLine_handleOf (n : Fin 4) (f : Line → Line) (j : Fin 48) : (s.updLine n f).handleOf j = s.handleOf j := rfl
@[simp] theorem State.updLine_dest (n : Fin 4) (f : Line → Line) (e : Fin 8) : (s.updLine n f).dest e = s.dest e := rfl
@[simp] theorem State.updLine_usable (n : Fin 4) (f : Line → Line) (e : Fin 8) : (s.updLine n f).usable e = s.usable e := rfl
@[simp] theorem State.updLine_plan (n : Fin 4) (f : Line → Line) (q : Cls) : (s.updLine n f).plan q = s.plan q := rfl
@[simp] theorem State.updLine_classEntry (n : Fin 4) (f : Line → Line) (q : Cls) : (s.updLine n f).classEntry q = s.classEntry q := rfl
@[simp] theorem State.updLine_input (n : Fin 4) (f : Line → Line) (j : Fin 8) : (s.updLine n f).input j = s.input j := rfl
@[simp] theorem State.updLine_heldAt (n : Fin 4) (f : Line → Line) (q : Fin 21) : (s.updLine n f).heldAt q = s.heldAt q := rfl

/-! ### updCall -/

@[simp] theorem State.updCall_slots (n : Fin 4) (f : Call → Call) : (s.updCall n f).slots = s.slots := rfl
@[simp] theorem State.updCall_reserve (n : Fin 4) (f : Call → Call) : (s.updCall n f).reserve = s.reserve := rfl
@[simp] theorem State.updCall_lowThreshold (n : Fin 4) (f : Call → Call) : (s.updCall n f).lowThreshold = s.lowThreshold := rfl
@[simp] theorem State.updCall_heldPosts (n : Fin 4) (f : Call → Call) : (s.updCall n f).heldPosts = s.heldPosts := rfl
@[simp] theorem State.updCall_admission (n : Fin 4) (f : Call → Call) : (s.updCall n f).admission = s.admission := rfl
@[simp] theorem State.updCall_classes (n : Fin 4) (f : Call → Call) : (s.updCall n f).classes = s.classes := rfl
@[simp] theorem State.updCall_fireWaiting (n : Fin 4) (f : Call → Call) : (s.updCall n f).fireWaiting = s.fireWaiting := rfl
@[simp] theorem State.updCall_passesDue (n : Fin 4) (f : Call → Call) : (s.updCall n f).passesDue = s.passesDue := rfl
@[simp] theorem State.updCall_dests (n : Fin 4) (f : Call → Call) : (s.updCall n f).dests = s.dests := rfl
@[simp] theorem State.updCall_plans (n : Fin 4) (f : Call → Call) : (s.updCall n f).plans = s.plans := rfl
@[simp] theorem State.updCall_timing (n : Fin 4) (f : Call → Call) : (s.updCall n f).timing = s.timing := rfl
@[simp] theorem State.updCall_exchange (n : Fin 4) (f : Call → Call) : (s.updCall n f).exchange = s.exchange := rfl
@[simp] theorem State.updCall_permit (n : Fin 4) (f : Call → Call) : (s.updCall n f).permit = s.permit := rfl
@[simp] theorem State.updCall_inputs (n : Fin 4) (f : Call → Call) : (s.updCall n f).inputs = s.inputs := rfl
@[simp] theorem State.updCall_testTimer (n : Fin 4) (f : Call → Call) : (s.updCall n f).testTimer = s.testTimer := rfl
@[simp] theorem State.updCall_causes (n : Fin 4) (f : Call → Call) : (s.updCall n f).causes = s.causes := rfl
@[simp] theorem State.updCall_mask (n : Fin 4) (f : Call → Call) : (s.updCall n f).mask = s.mask := rfl
@[simp] theorem State.updCall_clock (n : Fin 4) (f : Call → Call) : (s.updCall n f).clock = s.clock := rfl
@[simp] theorem State.updCall_reply (n : Fin 4) (f : Call → Call) : (s.updCall n f).reply = s.reply := rfl
@[simp] theorem State.updCall_serialOut (n : Fin 4) (f : Call → Call) : (s.updCall n f).serialOut = s.serialOut := rfl
@[simp] theorem State.updCall_freeCount (n : Fin 4) (f : Call → Call) : (s.updCall n f).freeCount = s.freeCount := rfl
@[simp] theorem State.updCall_pending (n : Fin 4) (f : Call → Call) : (s.updCall n f).pending = s.pending := rfl
@[simp] theorem State.updCall_slot (n : Fin 4) (f : Call → Call) (j : Fin 48) : (s.updCall n f).slot j = s.slot j := rfl
@[simp] theorem State.updCall_caseAt (n : Fin 4) (f : Call → Call) (j : Fin 48) : (s.updCall n f).caseAt j = s.caseAt j := rfl
@[simp] theorem State.updCall_handleOf (n : Fin 4) (f : Call → Call) (j : Fin 48) : (s.updCall n f).handleOf j = s.handleOf j := rfl
@[simp] theorem State.updCall_dest (n : Fin 4) (f : Call → Call) (e : Fin 8) : (s.updCall n f).dest e = s.dest e := rfl
@[simp] theorem State.updCall_usable (n : Fin 4) (f : Call → Call) (e : Fin 8) : (s.updCall n f).usable e = s.usable e := rfl
@[simp] theorem State.updCall_plan (n : Fin 4) (f : Call → Call) (q : Cls) : (s.updCall n f).plan q = s.plan q := rfl
@[simp] theorem State.updCall_classEntry (n : Fin 4) (f : Call → Call) (q : Cls) : (s.updCall n f).classEntry q = s.classEntry q := rfl
@[simp] theorem State.updCall_input (n : Fin 4) (f : Call → Call) (j : Fin 8) : (s.updCall n f).input j = s.input j := rfl
@[simp] theorem State.updCall_heldAt (n : Fin 4) (f : Call → Call) (q : Fin 21) : (s.updCall n f).heldAt q = s.heldAt q := rfl

/-! ### setInput -/

@[simp] theorem State.setInput_slots (i : Fin 8) (c : Channel) : (s.setInput i c).slots = s.slots := rfl
@[simp] theorem State.setInput_reserve (i : Fin 8) (c : Channel) : (s.setInput i c).reserve = s.reserve := rfl
@[simp] theorem State.setInput_lowThreshold (i : Fin 8) (c : Channel) : (s.setInput i c).lowThreshold = s.lowThreshold := rfl
@[simp] theorem State.setInput_heldPosts (i : Fin 8) (c : Channel) : (s.setInput i c).heldPosts = s.heldPosts := rfl
@[simp] theorem State.setInput_admission (i : Fin 8) (c : Channel) : (s.setInput i c).admission = s.admission := rfl
@[simp] theorem State.setInput_classes (i : Fin 8) (c : Channel) : (s.setInput i c).classes = s.classes := rfl
@[simp] theorem State.setInput_fireWaiting (i : Fin 8) (c : Channel) : (s.setInput i c).fireWaiting = s.fireWaiting := rfl
@[simp] theorem State.setInput_passesDue (i : Fin 8) (c : Channel) : (s.setInput i c).passesDue = s.passesDue := rfl
@[simp] theorem State.setInput_dests (i : Fin 8) (c : Channel) : (s.setInput i c).dests = s.dests := rfl
@[simp] theorem State.setInput_plans (i : Fin 8) (c : Channel) : (s.setInput i c).plans = s.plans := rfl
@[simp] theorem State.setInput_lines (i : Fin 8) (c : Channel) : (s.setInput i c).lines = s.lines := rfl
@[simp] theorem State.setInput_timing (i : Fin 8) (c : Channel) : (s.setInput i c).timing = s.timing := rfl
@[simp] theorem State.setInput_exchange (i : Fin 8) (c : Channel) : (s.setInput i c).exchange = s.exchange := rfl
@[simp] theorem State.setInput_permit (i : Fin 8) (c : Channel) : (s.setInput i c).permit = s.permit := rfl
@[simp] theorem State.setInput_testTimer (i : Fin 8) (c : Channel) : (s.setInput i c).testTimer = s.testTimer := rfl
@[simp] theorem State.setInput_causes (i : Fin 8) (c : Channel) : (s.setInput i c).causes = s.causes := rfl
@[simp] theorem State.setInput_mask (i : Fin 8) (c : Channel) : (s.setInput i c).mask = s.mask := rfl
@[simp] theorem State.setInput_clock (i : Fin 8) (c : Channel) : (s.setInput i c).clock = s.clock := rfl
@[simp] theorem State.setInput_reply (i : Fin 8) (c : Channel) : (s.setInput i c).reply = s.reply := rfl
@[simp] theorem State.setInput_serialOut (i : Fin 8) (c : Channel) : (s.setInput i c).serialOut = s.serialOut := rfl
@[simp] theorem State.setInput_freeCount (i : Fin 8) (c : Channel) : (s.setInput i c).freeCount = s.freeCount := rfl
@[simp] theorem State.setInput_pending (i : Fin 8) (c : Channel) : (s.setInput i c).pending = s.pending := rfl
@[simp] theorem State.setInput_slot (i : Fin 8) (c : Channel) (j : Fin 48) : (s.setInput i c).slot j = s.slot j := rfl
@[simp] theorem State.setInput_caseAt (i : Fin 8) (c : Channel) (j : Fin 48) : (s.setInput i c).caseAt j = s.caseAt j := rfl
@[simp] theorem State.setInput_handleOf (i : Fin 8) (c : Channel) (j : Fin 48) : (s.setInput i c).handleOf j = s.handleOf j := rfl
@[simp] theorem State.setInput_dest (i : Fin 8) (c : Channel) (e : Fin 8) : (s.setInput i c).dest e = s.dest e := rfl
@[simp] theorem State.setInput_usable (i : Fin 8) (c : Channel) (e : Fin 8) : (s.setInput i c).usable e = s.usable e := rfl
@[simp] theorem State.setInput_plan (i : Fin 8) (c : Channel) (q : Cls) : (s.setInput i c).plan q = s.plan q := rfl
@[simp] theorem State.setInput_classEntry (i : Fin 8) (c : Channel) (q : Cls) : (s.setInput i c).classEntry q = s.classEntry q := rfl
@[simp] theorem State.setInput_line (i : Fin 8) (c : Channel) (m : Fin 4) : (s.setInput i c).line m = s.line m := rfl
@[simp] theorem State.setInput_call (i : Fin 8) (c : Channel) (m : Fin 4) : (s.setInput i c).call m = s.call m := rfl
@[simp] theorem State.setInput_heldAt (i : Fin 8) (c : Channel) (q : Fin 21) : (s.setInput i c).heldAt q = s.heldAt q := rfl

/-! ### updInput -/

@[simp] theorem State.updInput_slots (i : Fin 8) (f : Channel → Channel) : (s.updInput i f).slots = s.slots := rfl
@[simp] theorem State.updInput_reserve (i : Fin 8) (f : Channel → Channel) : (s.updInput i f).reserve = s.reserve := rfl
@[simp] theorem State.updInput_lowThreshold (i : Fin 8) (f : Channel → Channel) : (s.updInput i f).lowThreshold = s.lowThreshold := rfl
@[simp] theorem State.updInput_heldPosts (i : Fin 8) (f : Channel → Channel) : (s.updInput i f).heldPosts = s.heldPosts := rfl
@[simp] theorem State.updInput_admission (i : Fin 8) (f : Channel → Channel) : (s.updInput i f).admission = s.admission := rfl
@[simp] theorem State.updInput_classes (i : Fin 8) (f : Channel → Channel) : (s.updInput i f).classes = s.classes := rfl
@[simp] theorem State.updInput_fireWaiting (i : Fin 8) (f : Channel → Channel) : (s.updInput i f).fireWaiting = s.fireWaiting := rfl
@[simp] theorem State.updInput_passesDue (i : Fin 8) (f : Channel → Channel) : (s.updInput i f).passesDue = s.passesDue := rfl
@[simp] theorem State.updInput_dests (i : Fin 8) (f : Channel → Channel) : (s.updInput i f).dests = s.dests := rfl
@[simp] theorem State.updInput_plans (i : Fin 8) (f : Channel → Channel) : (s.updInput i f).plans = s.plans := rfl
@[simp] theorem State.updInput_lines (i : Fin 8) (f : Channel → Channel) : (s.updInput i f).lines = s.lines := rfl
@[simp] theorem State.updInput_timing (i : Fin 8) (f : Channel → Channel) : (s.updInput i f).timing = s.timing := rfl
@[simp] theorem State.updInput_exchange (i : Fin 8) (f : Channel → Channel) : (s.updInput i f).exchange = s.exchange := rfl
@[simp] theorem State.updInput_permit (i : Fin 8) (f : Channel → Channel) : (s.updInput i f).permit = s.permit := rfl
@[simp] theorem State.updInput_testTimer (i : Fin 8) (f : Channel → Channel) : (s.updInput i f).testTimer = s.testTimer := rfl
@[simp] theorem State.updInput_causes (i : Fin 8) (f : Channel → Channel) : (s.updInput i f).causes = s.causes := rfl
@[simp] theorem State.updInput_mask (i : Fin 8) (f : Channel → Channel) : (s.updInput i f).mask = s.mask := rfl
@[simp] theorem State.updInput_clock (i : Fin 8) (f : Channel → Channel) : (s.updInput i f).clock = s.clock := rfl
@[simp] theorem State.updInput_reply (i : Fin 8) (f : Channel → Channel) : (s.updInput i f).reply = s.reply := rfl
@[simp] theorem State.updInput_serialOut (i : Fin 8) (f : Channel → Channel) : (s.updInput i f).serialOut = s.serialOut := rfl
@[simp] theorem State.updInput_freeCount (i : Fin 8) (f : Channel → Channel) : (s.updInput i f).freeCount = s.freeCount := rfl
@[simp] theorem State.updInput_pending (i : Fin 8) (f : Channel → Channel) : (s.updInput i f).pending = s.pending := rfl
@[simp] theorem State.updInput_slot (i : Fin 8) (f : Channel → Channel) (j : Fin 48) : (s.updInput i f).slot j = s.slot j := rfl
@[simp] theorem State.updInput_caseAt (i : Fin 8) (f : Channel → Channel) (j : Fin 48) : (s.updInput i f).caseAt j = s.caseAt j := rfl
@[simp] theorem State.updInput_handleOf (i : Fin 8) (f : Channel → Channel) (j : Fin 48) : (s.updInput i f).handleOf j = s.handleOf j := rfl
@[simp] theorem State.updInput_dest (i : Fin 8) (f : Channel → Channel) (e : Fin 8) : (s.updInput i f).dest e = s.dest e := rfl
@[simp] theorem State.updInput_usable (i : Fin 8) (f : Channel → Channel) (e : Fin 8) : (s.updInput i f).usable e = s.usable e := rfl
@[simp] theorem State.updInput_plan (i : Fin 8) (f : Channel → Channel) (q : Cls) : (s.updInput i f).plan q = s.plan q := rfl
@[simp] theorem State.updInput_classEntry (i : Fin 8) (f : Channel → Channel) (q : Cls) : (s.updInput i f).classEntry q = s.classEntry q := rfl
@[simp] theorem State.updInput_line (i : Fin 8) (f : Channel → Channel) (m : Fin 4) : (s.updInput i f).line m = s.line m := rfl
@[simp] theorem State.updInput_call (i : Fin 8) (f : Channel → Channel) (m : Fin 4) : (s.updInput i f).call m = s.call m := rfl
@[simp] theorem State.updInput_heldAt (i : Fin 8) (f : Channel → Channel) (q : Fin 21) : (s.updInput i f).heldAt q = s.heldAt q := rfl

/-! ### setHeld -/

@[simp] theorem State.setHeld_slots (p : Fin 21) (k : Option Key) : (s.setHeld p k).slots = s.slots := rfl
@[simp] theorem State.setHeld_reserve (p : Fin 21) (k : Option Key) : (s.setHeld p k).reserve = s.reserve := rfl
@[simp] theorem State.setHeld_lowThreshold (p : Fin 21) (k : Option Key) : (s.setHeld p k).lowThreshold = s.lowThreshold := rfl
@[simp] theorem State.setHeld_admission (p : Fin 21) (k : Option Key) : (s.setHeld p k).admission = s.admission := rfl
@[simp] theorem State.setHeld_classes (p : Fin 21) (k : Option Key) : (s.setHeld p k).classes = s.classes := rfl
@[simp] theorem State.setHeld_fireWaiting (p : Fin 21) (k : Option Key) : (s.setHeld p k).fireWaiting = s.fireWaiting := rfl
@[simp] theorem State.setHeld_passesDue (p : Fin 21) (k : Option Key) : (s.setHeld p k).passesDue = s.passesDue := rfl
@[simp] theorem State.setHeld_dests (p : Fin 21) (k : Option Key) : (s.setHeld p k).dests = s.dests := rfl
@[simp] theorem State.setHeld_plans (p : Fin 21) (k : Option Key) : (s.setHeld p k).plans = s.plans := rfl
@[simp] theorem State.setHeld_lines (p : Fin 21) (k : Option Key) : (s.setHeld p k).lines = s.lines := rfl
@[simp] theorem State.setHeld_timing (p : Fin 21) (k : Option Key) : (s.setHeld p k).timing = s.timing := rfl
@[simp] theorem State.setHeld_exchange (p : Fin 21) (k : Option Key) : (s.setHeld p k).exchange = s.exchange := rfl
@[simp] theorem State.setHeld_permit (p : Fin 21) (k : Option Key) : (s.setHeld p k).permit = s.permit := rfl
@[simp] theorem State.setHeld_inputs (p : Fin 21) (k : Option Key) : (s.setHeld p k).inputs = s.inputs := rfl
@[simp] theorem State.setHeld_testTimer (p : Fin 21) (k : Option Key) : (s.setHeld p k).testTimer = s.testTimer := rfl
@[simp] theorem State.setHeld_causes (p : Fin 21) (k : Option Key) : (s.setHeld p k).causes = s.causes := rfl
@[simp] theorem State.setHeld_mask (p : Fin 21) (k : Option Key) : (s.setHeld p k).mask = s.mask := rfl
@[simp] theorem State.setHeld_clock (p : Fin 21) (k : Option Key) : (s.setHeld p k).clock = s.clock := rfl
@[simp] theorem State.setHeld_reply (p : Fin 21) (k : Option Key) : (s.setHeld p k).reply = s.reply := rfl
@[simp] theorem State.setHeld_serialOut (p : Fin 21) (k : Option Key) : (s.setHeld p k).serialOut = s.serialOut := rfl
@[simp] theorem State.setHeld_freeCount (p : Fin 21) (k : Option Key) : (s.setHeld p k).freeCount = s.freeCount := rfl
@[simp] theorem State.setHeld_pending (p : Fin 21) (k : Option Key) : (s.setHeld p k).pending = s.pending := rfl
@[simp] theorem State.setHeld_slot (p : Fin 21) (k : Option Key) (j : Fin 48) : (s.setHeld p k).slot j = s.slot j := rfl
@[simp] theorem State.setHeld_caseAt (p : Fin 21) (k : Option Key) (j : Fin 48) : (s.setHeld p k).caseAt j = s.caseAt j := rfl
@[simp] theorem State.setHeld_handleOf (p : Fin 21) (k : Option Key) (j : Fin 48) : (s.setHeld p k).handleOf j = s.handleOf j := rfl
@[simp] theorem State.setHeld_dest (p : Fin 21) (k : Option Key) (e : Fin 8) : (s.setHeld p k).dest e = s.dest e := rfl
@[simp] theorem State.setHeld_usable (p : Fin 21) (k : Option Key) (e : Fin 8) : (s.setHeld p k).usable e = s.usable e := rfl
@[simp] theorem State.setHeld_plan (p : Fin 21) (k : Option Key) (q : Cls) : (s.setHeld p k).plan q = s.plan q := rfl
@[simp] theorem State.setHeld_classEntry (p : Fin 21) (k : Option Key) (q : Cls) : (s.setHeld p k).classEntry q = s.classEntry q := rfl
@[simp] theorem State.setHeld_line (p : Fin 21) (k : Option Key) (m : Fin 4) : (s.setHeld p k).line m = s.line m := rfl
@[simp] theorem State.setHeld_call (p : Fin 21) (k : Option Key) (m : Fin 4) : (s.setHeld p k).call m = s.call m := rfl
@[simp] theorem State.setHeld_input (p : Fin 21) (k : Option Key) (j : Fin 8) : (s.setHeld p k).input j = s.input j := rfl

/-! ### setAdmission -/

@[simp] theorem State.setAdmission_slots (i : Fin 16) (p : Fin 4) (a : Admission) : (s.setAdmission i p a).slots = s.slots := rfl
@[simp] theorem State.setAdmission_reserve (i : Fin 16) (p : Fin 4) (a : Admission) : (s.setAdmission i p a).reserve = s.reserve := rfl
@[simp] theorem State.setAdmission_lowThreshold (i : Fin 16) (p : Fin 4) (a : Admission) : (s.setAdmission i p a).lowThreshold = s.lowThreshold := rfl
@[simp] theorem State.setAdmission_heldPosts (i : Fin 16) (p : Fin 4) (a : Admission) : (s.setAdmission i p a).heldPosts = s.heldPosts := rfl
@[simp] theorem State.setAdmission_classes (i : Fin 16) (p : Fin 4) (a : Admission) : (s.setAdmission i p a).classes = s.classes := rfl
@[simp] theorem State.setAdmission_fireWaiting (i : Fin 16) (p : Fin 4) (a : Admission) : (s.setAdmission i p a).fireWaiting = s.fireWaiting := rfl
@[simp] theorem State.setAdmission_passesDue (i : Fin 16) (p : Fin 4) (a : Admission) : (s.setAdmission i p a).passesDue = s.passesDue := rfl
@[simp] theorem State.setAdmission_dests (i : Fin 16) (p : Fin 4) (a : Admission) : (s.setAdmission i p a).dests = s.dests := rfl
@[simp] theorem State.setAdmission_plans (i : Fin 16) (p : Fin 4) (a : Admission) : (s.setAdmission i p a).plans = s.plans := rfl
@[simp] theorem State.setAdmission_lines (i : Fin 16) (p : Fin 4) (a : Admission) : (s.setAdmission i p a).lines = s.lines := rfl
@[simp] theorem State.setAdmission_timing (i : Fin 16) (p : Fin 4) (a : Admission) : (s.setAdmission i p a).timing = s.timing := rfl
@[simp] theorem State.setAdmission_exchange (i : Fin 16) (p : Fin 4) (a : Admission) : (s.setAdmission i p a).exchange = s.exchange := rfl
@[simp] theorem State.setAdmission_permit (i : Fin 16) (p : Fin 4) (a : Admission) : (s.setAdmission i p a).permit = s.permit := rfl
@[simp] theorem State.setAdmission_inputs (i : Fin 16) (p : Fin 4) (a : Admission) : (s.setAdmission i p a).inputs = s.inputs := rfl
@[simp] theorem State.setAdmission_testTimer (i : Fin 16) (p : Fin 4) (a : Admission) : (s.setAdmission i p a).testTimer = s.testTimer := rfl
@[simp] theorem State.setAdmission_causes (i : Fin 16) (p : Fin 4) (a : Admission) : (s.setAdmission i p a).causes = s.causes := rfl
@[simp] theorem State.setAdmission_mask (i : Fin 16) (p : Fin 4) (a : Admission) : (s.setAdmission i p a).mask = s.mask := rfl
@[simp] theorem State.setAdmission_clock (i : Fin 16) (p : Fin 4) (a : Admission) : (s.setAdmission i p a).clock = s.clock := rfl
@[simp] theorem State.setAdmission_reply (i : Fin 16) (p : Fin 4) (a : Admission) : (s.setAdmission i p a).reply = s.reply := rfl
@[simp] theorem State.setAdmission_serialOut (i : Fin 16) (p : Fin 4) (a : Admission) : (s.setAdmission i p a).serialOut = s.serialOut := rfl
@[simp] theorem State.setAdmission_freeCount (i : Fin 16) (p : Fin 4) (a : Admission) : (s.setAdmission i p a).freeCount = s.freeCount := rfl
@[simp] theorem State.setAdmission_pending (i : Fin 16) (p : Fin 4) (a : Admission) : (s.setAdmission i p a).pending = s.pending := rfl
@[simp] theorem State.setAdmission_slot (i : Fin 16) (p : Fin 4) (a : Admission) (j : Fin 48) : (s.setAdmission i p a).slot j = s.slot j := rfl
@[simp] theorem State.setAdmission_caseAt (i : Fin 16) (p : Fin 4) (a : Admission) (j : Fin 48) : (s.setAdmission i p a).caseAt j = s.caseAt j := rfl
@[simp] theorem State.setAdmission_handleOf (i : Fin 16) (p : Fin 4) (a : Admission) (j : Fin 48) : (s.setAdmission i p a).handleOf j = s.handleOf j := rfl
@[simp] theorem State.setAdmission_dest (i : Fin 16) (p : Fin 4) (a : Admission) (e : Fin 8) : (s.setAdmission i p a).dest e = s.dest e := rfl
@[simp] theorem State.setAdmission_usable (i : Fin 16) (p : Fin 4) (a : Admission) (e : Fin 8) : (s.setAdmission i p a).usable e = s.usable e := rfl
@[simp] theorem State.setAdmission_plan (i : Fin 16) (p : Fin 4) (a : Admission) (q : Cls) : (s.setAdmission i p a).plan q = s.plan q := rfl
@[simp] theorem State.setAdmission_classEntry (i : Fin 16) (p : Fin 4) (a : Admission) (q : Cls) : (s.setAdmission i p a).classEntry q = s.classEntry q := rfl
@[simp] theorem State.setAdmission_line (i : Fin 16) (p : Fin 4) (a : Admission) (m : Fin 4) : (s.setAdmission i p a).line m = s.line m := rfl
@[simp] theorem State.setAdmission_call (i : Fin 16) (p : Fin 4) (a : Admission) (m : Fin 4) : (s.setAdmission i p a).call m = s.call m := rfl
@[simp] theorem State.setAdmission_input (i : Fin 16) (p : Fin 4) (a : Admission) (j : Fin 8) : (s.setAdmission i p a).input j = s.input j := rfl
@[simp] theorem State.setAdmission_heldAt (i : Fin 16) (p : Fin 4) (a : Admission) (q : Fin 21) : (s.setAdmission i p a).heldAt q = s.heldAt q := rfl

/-! ### notify -/

@[simp] theorem State.notify_slots : (s.notify).slots = s.slots := rfl
@[simp] theorem State.notify_reserve : (s.notify).reserve = s.reserve := rfl
@[simp] theorem State.notify_lowThreshold : (s.notify).lowThreshold = s.lowThreshold := rfl
@[simp] theorem State.notify_heldPosts : (s.notify).heldPosts = s.heldPosts := rfl
@[simp] theorem State.notify_admission : (s.notify).admission = s.admission := rfl
@[simp] theorem State.notify_classes : (s.notify).classes = s.classes := rfl
@[simp] theorem State.notify_fireWaiting : (s.notify).fireWaiting = s.fireWaiting := rfl
@[simp] theorem State.notify_dests : (s.notify).dests = s.dests := rfl
@[simp] theorem State.notify_plans : (s.notify).plans = s.plans := rfl
@[simp] theorem State.notify_lines : (s.notify).lines = s.lines := rfl
@[simp] theorem State.notify_timing : (s.notify).timing = s.timing := rfl
@[simp] theorem State.notify_exchange : (s.notify).exchange = s.exchange := rfl
@[simp] theorem State.notify_permit : (s.notify).permit = s.permit := rfl
@[simp] theorem State.notify_inputs : (s.notify).inputs = s.inputs := rfl
@[simp] theorem State.notify_testTimer : (s.notify).testTimer = s.testTimer := rfl
@[simp] theorem State.notify_causes : (s.notify).causes = s.causes := rfl
@[simp] theorem State.notify_mask : (s.notify).mask = s.mask := rfl
@[simp] theorem State.notify_clock : (s.notify).clock = s.clock := rfl
@[simp] theorem State.notify_reply : (s.notify).reply = s.reply := rfl
@[simp] theorem State.notify_serialOut : (s.notify).serialOut = s.serialOut := rfl
@[simp] theorem State.notify_freeCount : (s.notify).freeCount = s.freeCount := rfl
@[simp] theorem State.notify_pending : (s.notify).pending = s.pending := rfl
@[simp] theorem State.notify_slot (j : Fin 48) : (s.notify).slot j = s.slot j := rfl
@[simp] theorem State.notify_caseAt (j : Fin 48) : (s.notify).caseAt j = s.caseAt j := rfl
@[simp] theorem State.notify_handleOf (j : Fin 48) : (s.notify).handleOf j = s.handleOf j := rfl
@[simp] theorem State.notify_dest (e : Fin 8) : (s.notify).dest e = s.dest e := rfl
@[simp] theorem State.notify_usable (e : Fin 8) : (s.notify).usable e = s.usable e := rfl
@[simp] theorem State.notify_plan (q : Cls) : (s.notify).plan q = s.plan q := rfl
@[simp] theorem State.notify_classEntry (q : Cls) : (s.notify).classEntry q = s.classEntry q := rfl
@[simp] theorem State.notify_line (m : Fin 4) : (s.notify).line m = s.line m := rfl
@[simp] theorem State.notify_call (m : Fin 4) : (s.notify).call m = s.call m := rfl
@[simp] theorem State.notify_input (j : Fin 8) : (s.notify).input j = s.input j := rfl
@[simp] theorem State.notify_heldAt (q : Fin 21) : (s.notify).heldAt q = s.heldAt q := rfl

/-! ### raise -/

@[simp] theorem State.raise_slots (c : Cause) : (s.raise c).slots = s.slots := rfl
@[simp] theorem State.raise_reserve (c : Cause) : (s.raise c).reserve = s.reserve := rfl
@[simp] theorem State.raise_lowThreshold (c : Cause) : (s.raise c).lowThreshold = s.lowThreshold := rfl
@[simp] theorem State.raise_heldPosts (c : Cause) : (s.raise c).heldPosts = s.heldPosts := rfl
@[simp] theorem State.raise_admission (c : Cause) : (s.raise c).admission = s.admission := rfl
@[simp] theorem State.raise_classes (c : Cause) : (s.raise c).classes = s.classes := rfl
@[simp] theorem State.raise_fireWaiting (c : Cause) : (s.raise c).fireWaiting = s.fireWaiting := rfl
@[simp] theorem State.raise_passesDue (c : Cause) : (s.raise c).passesDue = s.passesDue := rfl
@[simp] theorem State.raise_dests (c : Cause) : (s.raise c).dests = s.dests := rfl
@[simp] theorem State.raise_plans (c : Cause) : (s.raise c).plans = s.plans := rfl
@[simp] theorem State.raise_lines (c : Cause) : (s.raise c).lines = s.lines := rfl
@[simp] theorem State.raise_timing (c : Cause) : (s.raise c).timing = s.timing := rfl
@[simp] theorem State.raise_exchange (c : Cause) : (s.raise c).exchange = s.exchange := rfl
@[simp] theorem State.raise_permit (c : Cause) : (s.raise c).permit = s.permit := rfl
@[simp] theorem State.raise_inputs (c : Cause) : (s.raise c).inputs = s.inputs := rfl
@[simp] theorem State.raise_testTimer (c : Cause) : (s.raise c).testTimer = s.testTimer := rfl
@[simp] theorem State.raise_mask (c : Cause) : (s.raise c).mask = s.mask := rfl
@[simp] theorem State.raise_clock (c : Cause) : (s.raise c).clock = s.clock := rfl
@[simp] theorem State.raise_reply (c : Cause) : (s.raise c).reply = s.reply := rfl
@[simp] theorem State.raise_serialOut (c : Cause) : (s.raise c).serialOut = s.serialOut := rfl
@[simp] theorem State.raise_freeCount (c : Cause) : (s.raise c).freeCount = s.freeCount := rfl
@[simp] theorem State.raise_pending (c : Cause) : (s.raise c).pending = s.pending := rfl
@[simp] theorem State.raise_slot (c : Cause) (j : Fin 48) : (s.raise c).slot j = s.slot j := rfl
@[simp] theorem State.raise_caseAt (c : Cause) (j : Fin 48) : (s.raise c).caseAt j = s.caseAt j := rfl
@[simp] theorem State.raise_handleOf (c : Cause) (j : Fin 48) : (s.raise c).handleOf j = s.handleOf j := rfl
@[simp] theorem State.raise_dest (c : Cause) (e : Fin 8) : (s.raise c).dest e = s.dest e := rfl
@[simp] theorem State.raise_usable (c : Cause) (e : Fin 8) : (s.raise c).usable e = s.usable e := rfl
@[simp] theorem State.raise_plan (c : Cause) (q : Cls) : (s.raise c).plan q = s.plan q := rfl
@[simp] theorem State.raise_classEntry (c : Cause) (q : Cls) : (s.raise c).classEntry q = s.classEntry q := rfl
@[simp] theorem State.raise_line (c : Cause) (m : Fin 4) : (s.raise c).line m = s.line m := rfl
@[simp] theorem State.raise_call (c : Cause) (m : Fin 4) : (s.raise c).call m = s.call m := rfl
@[simp] theorem State.raise_input (c : Cause) (j : Fin 8) : (s.raise c).input j = s.input j := rfl
@[simp] theorem State.raise_heldAt (c : Cause) (q : Fin 21) : (s.raise c).heldAt q = s.heldAt q := rfl

/-! ### answer -/

@[simp] theorem State.answer_slots (st : Status) (b : List Byte) : (s.answer st b).slots = s.slots := rfl
@[simp] theorem State.answer_reserve (st : Status) (b : List Byte) : (s.answer st b).reserve = s.reserve := rfl
@[simp] theorem State.answer_lowThreshold (st : Status) (b : List Byte) : (s.answer st b).lowThreshold = s.lowThreshold := rfl
@[simp] theorem State.answer_heldPosts (st : Status) (b : List Byte) : (s.answer st b).heldPosts = s.heldPosts := rfl
@[simp] theorem State.answer_admission (st : Status) (b : List Byte) : (s.answer st b).admission = s.admission := rfl
@[simp] theorem State.answer_classes (st : Status) (b : List Byte) : (s.answer st b).classes = s.classes := rfl
@[simp] theorem State.answer_fireWaiting (st : Status) (b : List Byte) : (s.answer st b).fireWaiting = s.fireWaiting := rfl
@[simp] theorem State.answer_passesDue (st : Status) (b : List Byte) : (s.answer st b).passesDue = s.passesDue := rfl
@[simp] theorem State.answer_dests (st : Status) (b : List Byte) : (s.answer st b).dests = s.dests := rfl
@[simp] theorem State.answer_plans (st : Status) (b : List Byte) : (s.answer st b).plans = s.plans := rfl
@[simp] theorem State.answer_lines (st : Status) (b : List Byte) : (s.answer st b).lines = s.lines := rfl
@[simp] theorem State.answer_timing (st : Status) (b : List Byte) : (s.answer st b).timing = s.timing := rfl
@[simp] theorem State.answer_exchange (st : Status) (b : List Byte) : (s.answer st b).exchange = s.exchange := rfl
@[simp] theorem State.answer_permit (st : Status) (b : List Byte) : (s.answer st b).permit = s.permit := rfl
@[simp] theorem State.answer_inputs (st : Status) (b : List Byte) : (s.answer st b).inputs = s.inputs := rfl
@[simp] theorem State.answer_testTimer (st : Status) (b : List Byte) : (s.answer st b).testTimer = s.testTimer := rfl
@[simp] theorem State.answer_causes (st : Status) (b : List Byte) : (s.answer st b).causes = s.causes := rfl
@[simp] theorem State.answer_mask (st : Status) (b : List Byte) : (s.answer st b).mask = s.mask := rfl
@[simp] theorem State.answer_clock (st : Status) (b : List Byte) : (s.answer st b).clock = s.clock := rfl
@[simp] theorem State.answer_serialOut (st : Status) (b : List Byte) : (s.answer st b).serialOut = s.serialOut := rfl
@[simp] theorem State.answer_freeCount (st : Status) (b : List Byte) : (s.answer st b).freeCount = s.freeCount := rfl
@[simp] theorem State.answer_pending (st : Status) (b : List Byte) : (s.answer st b).pending = s.pending := rfl
@[simp] theorem State.answer_slot (st : Status) (b : List Byte) (j : Fin 48) : (s.answer st b).slot j = s.slot j := rfl
@[simp] theorem State.answer_caseAt (st : Status) (b : List Byte) (j : Fin 48) : (s.answer st b).caseAt j = s.caseAt j := rfl
@[simp] theorem State.answer_handleOf (st : Status) (b : List Byte) (j : Fin 48) : (s.answer st b).handleOf j = s.handleOf j := rfl
@[simp] theorem State.answer_dest (st : Status) (b : List Byte) (e : Fin 8) : (s.answer st b).dest e = s.dest e := rfl
@[simp] theorem State.answer_usable (st : Status) (b : List Byte) (e : Fin 8) : (s.answer st b).usable e = s.usable e := rfl
@[simp] theorem State.answer_plan (st : Status) (b : List Byte) (q : Cls) : (s.answer st b).plan q = s.plan q := rfl
@[simp] theorem State.answer_classEntry (st : Status) (b : List Byte) (q : Cls) : (s.answer st b).classEntry q = s.classEntry q := rfl
@[simp] theorem State.answer_line (st : Status) (b : List Byte) (m : Fin 4) : (s.answer st b).line m = s.line m := rfl
@[simp] theorem State.answer_call (st : Status) (b : List Byte) (m : Fin 4) : (s.answer st b).call m = s.call m := rfl
@[simp] theorem State.answer_input (st : Status) (b : List Byte) (j : Fin 8) : (s.answer st b).input j = s.input j := rfl
@[simp] theorem State.answer_heldAt (st : Status) (b : List Byte) (q : Fin 21) : (s.answer st b).heldAt q = s.heldAt q := rfl

/-! ### notifyWhileFire and takeFrame -/

@[simp] theorem State.notifyWhileFire_slots : s.notifyWhileFire.slots = s.slots := by
  unfold State.notifyWhileFire; split <;> rfl
@[simp] theorem State.notifyWhileFire_reserve : s.notifyWhileFire.reserve = s.reserve := by
  unfold State.notifyWhileFire; split <;> rfl
@[simp] theorem State.notifyWhileFire_lowThreshold : s.notifyWhileFire.lowThreshold = s.lowThreshold := by
  unfold State.notifyWhileFire; split <;> rfl
@[simp] theorem State.notifyWhileFire_heldPosts : s.notifyWhileFire.heldPosts = s.heldPosts := by
  unfold State.notifyWhileFire; split <;> rfl
@[simp] theorem State.notifyWhileFire_admission : s.notifyWhileFire.admission = s.admission := by
  unfold State.notifyWhileFire; split <;> rfl
@[simp] theorem State.notifyWhileFire_classes : s.notifyWhileFire.classes = s.classes := by
  unfold State.notifyWhileFire; split <;> rfl
@[simp] theorem State.notifyWhileFire_fireWaiting : s.notifyWhileFire.fireWaiting = s.fireWaiting := by
  unfold State.notifyWhileFire; split <;> rfl
@[simp] theorem State.notifyWhileFire_dests : s.notifyWhileFire.dests = s.dests := by
  unfold State.notifyWhileFire; split <;> rfl
@[simp] theorem State.notifyWhileFire_plans : s.notifyWhileFire.plans = s.plans := by
  unfold State.notifyWhileFire; split <;> rfl
@[simp] theorem State.notifyWhileFire_lines : s.notifyWhileFire.lines = s.lines := by
  unfold State.notifyWhileFire; split <;> rfl
@[simp] theorem State.notifyWhileFire_timing : s.notifyWhileFire.timing = s.timing := by
  unfold State.notifyWhileFire; split <;> rfl
@[simp] theorem State.notifyWhileFire_exchange : s.notifyWhileFire.exchange = s.exchange := by
  unfold State.notifyWhileFire; split <;> rfl
@[simp] theorem State.notifyWhileFire_permit : s.notifyWhileFire.permit = s.permit := by
  unfold State.notifyWhileFire; split <;> rfl
@[simp] theorem State.notifyWhileFire_inputs : s.notifyWhileFire.inputs = s.inputs := by
  unfold State.notifyWhileFire; split <;> rfl
@[simp] theorem State.notifyWhileFire_testTimer : s.notifyWhileFire.testTimer = s.testTimer := by
  unfold State.notifyWhileFire; split <;> rfl
@[simp] theorem State.notifyWhileFire_causes : s.notifyWhileFire.causes = s.causes := by
  unfold State.notifyWhileFire; split <;> rfl
@[simp] theorem State.notifyWhileFire_mask : s.notifyWhileFire.mask = s.mask := by
  unfold State.notifyWhileFire; split <;> rfl
@[simp] theorem State.notifyWhileFire_clock : s.notifyWhileFire.clock = s.clock := by
  unfold State.notifyWhileFire; split <;> rfl
@[simp] theorem State.notifyWhileFire_reply : s.notifyWhileFire.reply = s.reply := by
  unfold State.notifyWhileFire; split <;> rfl
@[simp] theorem State.notifyWhileFire_serialOut : s.notifyWhileFire.serialOut = s.serialOut := by
  unfold State.notifyWhileFire; split <;> rfl
@[simp] theorem State.notifyWhileFire_freeCount : s.notifyWhileFire.freeCount = s.freeCount := by
  unfold State.notifyWhileFire; split <;> rfl
@[simp] theorem State.notifyWhileFire_pending : s.notifyWhileFire.pending = s.pending := by
  unfold State.notifyWhileFire; split <;> rfl
@[simp] theorem State.notifyWhileFire_slot (j : Fin 48) : s.notifyWhileFire.slot j = s.slot j := by
  unfold State.notifyWhileFire; split <;> rfl
@[simp] theorem State.notifyWhileFire_caseAt (j : Fin 48) : s.notifyWhileFire.caseAt j = s.caseAt j := by
  unfold State.notifyWhileFire; split <;> rfl
@[simp] theorem State.notifyWhileFire_handleOf (j : Fin 48) : s.notifyWhileFire.handleOf j = s.handleOf j := by
  unfold State.notifyWhileFire; split <;> rfl
@[simp] theorem State.notifyWhileFire_dest (e : Fin 8) : s.notifyWhileFire.dest e = s.dest e := by
  unfold State.notifyWhileFire; split <;> rfl
@[simp] theorem State.notifyWhileFire_usable (e : Fin 8) : s.notifyWhileFire.usable e = s.usable e := by
  unfold State.notifyWhileFire; split <;> rfl
@[simp] theorem State.notifyWhileFire_plan (q : Cls) : s.notifyWhileFire.plan q = s.plan q := by
  unfold State.notifyWhileFire; split <;> rfl
@[simp] theorem State.notifyWhileFire_classEntry (q : Cls) : s.notifyWhileFire.classEntry q = s.classEntry q := by
  unfold State.notifyWhileFire; split <;> rfl
@[simp] theorem State.notifyWhileFire_line (m : Fin 4) : s.notifyWhileFire.line m = s.line m := by
  unfold State.notifyWhileFire; split <;> rfl
@[simp] theorem State.notifyWhileFire_call (m : Fin 4) : s.notifyWhileFire.call m = s.call m := by
  unfold State.notifyWhileFire; split <;> rfl
@[simp] theorem State.notifyWhileFire_input (j : Fin 8) : s.notifyWhileFire.input j = s.input j := by
  unfold State.notifyWhileFire; split <;> rfl
@[simp] theorem State.notifyWhileFire_heldAt (q : Fin 21) : s.notifyWhileFire.heldAt q = s.heldAt q := by
  unfold State.notifyWhileFire; split <;> rfl
@[simp] theorem State.takeFrame_slots (len : Nat) : (s.takeFrame len).slots = s.slots := by
  simp only [State.takeFrame]; split <;> rfl
@[simp] theorem State.takeFrame_reserve (len : Nat) : (s.takeFrame len).reserve = s.reserve := by
  simp only [State.takeFrame]; split <;> rfl
@[simp] theorem State.takeFrame_lowThreshold (len : Nat) : (s.takeFrame len).lowThreshold = s.lowThreshold := by
  simp only [State.takeFrame]; split <;> rfl
@[simp] theorem State.takeFrame_heldPosts (len : Nat) : (s.takeFrame len).heldPosts = s.heldPosts := by
  simp only [State.takeFrame]; split <;> rfl
@[simp] theorem State.takeFrame_admission (len : Nat) : (s.takeFrame len).admission = s.admission := by
  simp only [State.takeFrame]; split <;> rfl
@[simp] theorem State.takeFrame_classes (len : Nat) : (s.takeFrame len).classes = s.classes := by
  simp only [State.takeFrame]; split <;> rfl
@[simp] theorem State.takeFrame_fireWaiting (len : Nat) : (s.takeFrame len).fireWaiting = s.fireWaiting := by
  simp only [State.takeFrame]; split <;> rfl
@[simp] theorem State.takeFrame_passesDue (len : Nat) : (s.takeFrame len).passesDue = s.passesDue := by
  simp only [State.takeFrame]; split <;> rfl
@[simp] theorem State.takeFrame_dests (len : Nat) : (s.takeFrame len).dests = s.dests := by
  simp only [State.takeFrame]; split <;> rfl
@[simp] theorem State.takeFrame_plans (len : Nat) : (s.takeFrame len).plans = s.plans := by
  simp only [State.takeFrame]; split <;> rfl
@[simp] theorem State.takeFrame_lines (len : Nat) : (s.takeFrame len).lines = s.lines := by
  simp only [State.takeFrame]; split <;> rfl
@[simp] theorem State.takeFrame_timing (len : Nat) : (s.takeFrame len).timing = s.timing := by
  simp only [State.takeFrame]; split <;> rfl
@[simp] theorem State.takeFrame_exchange (len : Nat) : (s.takeFrame len).exchange = s.exchange := by
  simp only [State.takeFrame]; split <;> rfl
@[simp] theorem State.takeFrame_permit (len : Nat) : (s.takeFrame len).permit = s.permit := by
  simp only [State.takeFrame]; split <;> rfl
@[simp] theorem State.takeFrame_inputs (len : Nat) : (s.takeFrame len).inputs = s.inputs := by
  simp only [State.takeFrame]; split <;> rfl
@[simp] theorem State.takeFrame_testTimer (len : Nat) : (s.takeFrame len).testTimer = s.testTimer := by
  simp only [State.takeFrame]; split <;> rfl
@[simp] theorem State.takeFrame_mask (len : Nat) : (s.takeFrame len).mask = s.mask := by
  simp only [State.takeFrame]; split <;> rfl
@[simp] theorem State.takeFrame_clock (len : Nat) : (s.takeFrame len).clock = s.clock := by
  simp only [State.takeFrame]; split <;> rfl
@[simp] theorem State.takeFrame_freeCount (len : Nat) : (s.takeFrame len).freeCount = s.freeCount := by
  simp only [State.takeFrame]; split <;> rfl
@[simp] theorem State.takeFrame_pending (len : Nat) : (s.takeFrame len).pending = s.pending := by
  simp only [State.takeFrame]; split <;> rfl
@[simp] theorem State.takeFrame_slot (len : Nat) (j : Fin 48) : (s.takeFrame len).slot j = s.slot j := by
  simp only [State.takeFrame]; split <;> rfl
@[simp] theorem State.takeFrame_caseAt (len : Nat) (j : Fin 48) : (s.takeFrame len).caseAt j = s.caseAt j := by
  simp only [State.takeFrame]; split <;> rfl
@[simp] theorem State.takeFrame_handleOf (len : Nat) (j : Fin 48) : (s.takeFrame len).handleOf j = s.handleOf j := by
  simp only [State.takeFrame]; split <;> rfl
@[simp] theorem State.takeFrame_dest (len : Nat) (e : Fin 8) : (s.takeFrame len).dest e = s.dest e := by
  simp only [State.takeFrame]; split <;> rfl
@[simp] theorem State.takeFrame_usable (len : Nat) (e : Fin 8) : (s.takeFrame len).usable e = s.usable e := by
  simp only [State.takeFrame]; split <;> rfl
@[simp] theorem State.takeFrame_plan (len : Nat) (q : Cls) : (s.takeFrame len).plan q = s.plan q := by
  simp only [State.takeFrame]; split <;> rfl
@[simp] theorem State.takeFrame_classEntry (len : Nat) (q : Cls) : (s.takeFrame len).classEntry q = s.classEntry q := by
  simp only [State.takeFrame]; split <;> rfl
@[simp] theorem State.takeFrame_line (len : Nat) (m : Fin 4) : (s.takeFrame len).line m = s.line m := by
  simp only [State.takeFrame]; split <;> rfl
@[simp] theorem State.takeFrame_call (len : Nat) (m : Fin 4) : (s.takeFrame len).call m = s.call m := by
  simp only [State.takeFrame]; split <;> rfl
@[simp] theorem State.takeFrame_input (len : Nat) (j : Fin 8) : (s.takeFrame len).input j = s.input j := by
  simp only [State.takeFrame]; split <;> rfl
@[simp] theorem State.takeFrame_heldAt (len : Nat) (q : Fin 21) : (s.takeFrame len).heldAt q = s.heldAt q := by
  simp only [State.takeFrame]; split <;> rfl

/-! ### What a record reads as after it was written -/

@[simp] theorem State.setSlot_slot (k j : Fin 48) (x : Slot) :
    (s.setSlot k x).slot j = if k = j then x else s.slot j := by
  simp [State.setSlot, State.slot, Vector.getElem_set, Fin.ext_iff]

@[simp] theorem State.setCase_caseAt (k j : Fin 48) (c : Case) :
    (s.setCase k c).caseAt j = if k = j then some c else s.caseAt j := by
  simp only [State.setCase, State.caseAt, State.setSlot_slot]; split <;> rfl

@[simp] theorem State.setSlot_caseAt (k j : Fin 48) (x : Slot) :
    (s.setSlot k x).caseAt j = if k = j then x.occ else s.caseAt j := by
  simp only [State.caseAt, State.setSlot_slot]; split <;> rfl

/-- A case written keeps every slot's generation (R1). -/
@[simp] theorem State.setCase_gen (k j : Fin 48) (c : Case) : ((s.setCase k c).slot j).gen = (s.slot j).gen := by
  simp only [State.setCase, State.setSlot_slot]
  split
  · next h => subst h; rfl
  · rfl

@[simp] theorem State.setCase_handleOf (k j : Fin 48) (c : Case) : (s.setCase k c).handleOf j = s.handleOf j := by
  simp [State.handleOf]

@[simp] theorem State.setDest_dest (d e : Fin 8) (x : Destination) :
    (s.setDest d x).dest e = if d = e then x else s.dest e := by
  simp [State.setDest, State.dest, Vector.getElem_set, Fin.ext_iff]

@[simp] theorem State.updDest_dest (d e : Fin 8) (f : Destination → Destination) :
    (s.updDest d f).dest e = if d = e then f (s.dest d) else s.dest e := by
  simp [State.updDest]

@[simp] theorem State.setPlan_plan (c q : Cls) (p : Plan) :
    (s.setPlan c p).plan q = if c = q then p else s.plan q := by
  cases c <;> cases q <;> simp [State.setPlan, State.plan, Cls.idx]

@[simp] theorem State.setClassEntry_classEntry (c q : Cls) (e : ClassEntry) :
    (s.setClassEntry c e).classEntry q = if c = q then e else s.classEntry q := by
  cases c <;> cases q <;> simp [State.setClassEntry, State.classEntry, Cls.idx]

@[simp] theorem State.setLine_line (n m : Fin 4) (l : Line) :
    (s.setLine n l).line m = if n = m then l else s.line m := by
  simp [State.setLine, State.line, Vector.getElem_set, Fin.ext_iff]

@[simp] theorem State.updLine_line (n m : Fin 4) (f : Line → Line) :
    (s.updLine n f).line m = if n = m then f (s.line n) else s.line m := by
  simp [State.updLine]

@[simp] theorem State.setLine_call (n m : Fin 4) (l : Line) :
    (s.setLine n l).call m = if n = m then l.call else s.call m := by
  simp only [State.call, State.setLine_line]; split <;> rfl

@[simp] theorem State.updLine_call (n m : Fin 4) (f : Line → Line) :
    (s.updLine n f).call m = if n = m then (f (s.line n)).call else s.call m := by
  simp [State.updLine]

@[simp] theorem State.updCall_call (n m : Fin 4) (f : Call → Call) :
    (s.updCall n f).call m = if n = m then (s.call n).map f else s.call m := by
  simp only [State.updCall, State.updLine_call]; rfl

/-- Changing a call leaves the line's state. -/
@[simp] theorem State.updCall_state (n m : Fin 4) (f : Call → Call) :
    ((s.updCall n f).line m).state = (s.line m).state := by
  simp only [State.updCall, State.updLine_line]
  split
  · next h => subst h; rfl
  · rfl

@[simp] theorem State.setInput_input (i j : Fin 8) (c : Channel) :
    (s.setInput i c).input j = if i = j then c else s.input j := by
  simp [State.setInput, State.input, Vector.getElem_set, Fin.ext_iff]

@[simp] theorem State.updInput_input (i j : Fin 8) (f : Channel → Channel) :
    (s.updInput i f).input j = if i = j then f (s.input i) else s.input j := by
  simp [State.updInput]

@[simp] theorem State.setHeld_heldAt (p q : Fin 21) (k : Option Key) :
    (s.setHeld p k).heldAt q = if p = q then k else s.heldAt q := by
  simp [State.setHeld, State.heldAt, Vector.getElem_set, Fin.ext_iff]

@[simp] theorem State.setAdmission_admissionOf (i j : Fin 16) (p q : Fin 4) (a : Admission) :
    (s.setAdmission i p a).admissionOf j q = if i = j ∧ p = q then a else s.admissionOf j q := by
  by_cases h : i = j
  · subst h
    by_cases g : p = q
    · subst g; simp [State.setAdmission, State.admissionOf]
    · have : (p : Nat) ≠ q := fun e => g (Fin.ext e)
      simp [State.setAdmission, State.admissionOf, this, g]
  · have : (i : Nat) ≠ j := fun e => h (Fin.ext e)
    simp [State.setAdmission, State.admissionOf, this, h]

@[simp] theorem State.notify_passesDue : s.notify.passesDue = s.passesDue + 1 := rfl
@[simp] theorem State.raise_causes (c : Cause) : (s.raise c).causes = s.causes ||| c.bit := rfl
@[simp] theorem State.answer_reply (st : Status) (b : List Byte) : (s.answer st b).reply = some ⟨st, b⟩ := rfl
@[simp] theorem State.takeFrame_serialOut (len : Nat) : (s.takeFrame len).serialOut = List.replicate len 0 := by
  simp only [State.takeFrame]; split <;> rfl
@[simp] theorem State.takeFrame_reply (len : Nat) : (s.takeFrame len).reply = none := by
  unfold State.takeFrame
  cases h : s.reply <;> simp_all [State.raise]
@[simp] theorem State.takeFrame_causes (len : Nat) :
    (s.takeFrame len).causes = if s.reply.isSome then s.causes ||| 0x80 else s.causes := by
  simp only [State.takeFrame]; split <;> rfl

end Sys2Proof.Machine
end

