-- ==== Sys2Proof/Laws/Ops.lean ====
section
/-! SUPPORT. One lemma for each shared operation, saying once what it can do: looking up handles and keys, the notices, the plan rule, the outcomes, the end of a call, and the answers to lingering lines. -/

namespace Sys2Proof.Machine

variable (s : State)

/-! ### Looking up -/

/-- The case a handle names: its slot part, occupied, under the generation of the handle. -/
theorem State.caseOfHandle_eq_some {h : Nat} {k : Fin 48} :
    s.caseOfHandle h = some k ↔ h % 64 = k.val ∧ (s.caseAt k).isSome ∧ (s.slot k).gen.val = h / 64 := by
  unfold State.caseOfHandle
  split
  · rename_i hk
    constructor
    · intro e
      simp only [] at e
      split at e
      · rename_i hc; cases e; exact ⟨rfl, hc⟩
      · cases e
    · rintro ⟨e, hc⟩
      have : (⟨h % 64, hk⟩ : Fin 48) = k := Fin.ext e
      simp only []
      rw [this, if_pos hc]
  · rename_i hk
    constructor
    · intro e; cases e
    · rintro ⟨e, -⟩; exact absurd (e ▸ k.isLt) hk

/-- A key that is found names the slot it is found in. -/
theorem State.caseOfKey_some {key : Key} {k : Fin 48} (h : s.caseOfKey key = some k) :
    ∃ c, s.caseAt k = some c ∧ c.key = key := by
  have := List.find?_some h
  simpa [Option.map_eq_some_iff] using this

/-- A key is not found exactly where no case holds it. -/
theorem State.caseOfKey_eq_none {key : Key} :
    s.caseOfKey key = none ↔ ∀ (k : Fin 48) (c : Case), s.caseAt k = some c → c.key ≠ key := by
  simp only [State.caseOfKey, List.find?_eq_none, List.mem_finRange, forall_const, decide_eq_true_eq,
    Option.map_eq_some_iff, not_exists, not_and, ne_eq]

/-- The lowest free slot is free, and every slot below it holds a case. -/
theorem State.lowestFree_some {k : Fin 48} (h : s.lowestFree = some k) : s.caseAt k = none := by
  simpa using List.find?_some h

/-! ### Frames and notices -/

/-- Taking a frame: zeros are sent, an unread reply goes, and its loss raises LINK OVERRUN. -/
theorem State.takeFrame_eq (len : Nat) :
    s.takeFrame len = { s with serialOut := List.replicate len 0, reply := none,
                               causes := if s.reply.isSome then s.causes ||| 0x80 else s.causes } := by
  unfold State.takeFrame
  cases s with
  | mk => rename_i reply _ _ _; cases reply <;> rfl

/-- A notice of the last group: one more pass while fire waits. -/
theorem State.notifyWhileFire_eq :
    s.notifyWhileFire = { s with passesDue := s.passesDue + if s.fireWaiting = true then 1 else 0 } := by
  unfold State.notifyWhileFire
  split <;> rfl

/-! ### The plan rule -/

/-- A sweep that rests does so at a usable entry of the plan, with no attempt made and within the rounds. -/
theorem Plan.sweep_rest (p : Plan) (usable : Fin 8 → Bool) {d : Fin 8} {q : Progress} :
    ∀ {moves step round : Nat}, p.sweep usable moves step round = .rest d q →
      p.dests[q.step]? = some d ∧ usable d = true ∧ q.attempts = 0 ∧ q.round < p.rounds := by
  intro moves
  induction moves with
  | zero => intro step round h; simp [Plan.sweep] at h
  | succ n ih =>
    intro step round h
    simp only [Plan.sweep] at h
    generalize (if p.dests.length ≤ step + 1 then 0 else step + 1) = step' at h
    generalize (if p.dests.length ≤ step + 1 then round + 1 else round) = round' at h
    split at h
    · cases h
    · split at h
      · split at h
        · cases h; exact ⟨by assumption, by assumption, rfl, by simp only []; omega⟩
        · exact ih h
      · cases h

/-- A sweep that strands leaves no attempt made. -/
theorem Plan.sweep_strand (p : Plan) (usable : Fin 8 → Bool) {q : Progress} :
    ∀ {moves step round : Nat}, p.sweep usable moves step round = .strand q → q.attempts = 0 := by
  intro moves
  induction moves with
  | zero => intro step round h; simp only [Plan.sweep, AdvanceEnd.strand.injEq] at h; simp [← h]
  | succ n ih =>
    intro step round h
    simp only [Plan.sweep] at h
    generalize (if p.dests.length ≤ step + 1 then 0 else step + 1) = step' at h
    generalize (if p.dests.length ≤ step + 1 then round + 1 else round) = round' at h
    split at h
    · cases h; rfl
    · split at h
      · split at h
        · cases h
        · exact ih h
      · cases h; rfl

/-- What an advance can do: nothing, bring the case to rest PENDING at a usable destination of its plan, or strand it. -/
theorem State.advance_cases (k : Fin 48) (charged : Option (Fin 8)) :
    s.advance k charged = s ∨
    ∃ c, s.caseAt k = some c ∧
      ((∃ d q retry, (s.plan c.key.cls).dests[q.step]? = some d ∧ s.usable d = true ∧ q.attempts = 0 ∧
          q.round < (s.plan c.key.cls).rounds ∧
          s.advance k charged = (s.setCase k { c with state := .pending, progress := q, retry := retry }).notify) ∨
        ∃ q, q.attempts = 0 ∧ s.advance k charged = s.strand k c q) := by
  unfold State.advance
  cases hc : s.caseAt k with
  | none => exact .inl rfl
  | some c =>
    simp only []
    split
    · exact .inl rfl
    · refine .inr ⟨c, rfl, ?_⟩
      split
      · rename_i d q h
        obtain ⟨h1, h2, h3, h4⟩ := Plan.sweep_rest _ _ h
        exact .inl ⟨d, q, _, h1, h2, h3, h4, rfl⟩
      · rename_i q h
        exact .inr ⟨q, Plan.sweep_strand _ _ h, rfl⟩

/-- The plan rule: the Arbiter is told of a case that waits where its destination is usable or its plan empty, and another case is
advanced. -/
theorem State.settle_eq (k : Fin 48) (c : Case) (h : s.caseAt k = some c) :
    s.settle k = if ∀ d, s.currentDest c = some d → s.usable d = true then s.notify else s.advance k none := by
  unfold State.settle
  rw [h]
  simp only []
  cases hd : s.currentDest c with
  | none => simp
  | some d => cases hu : s.usable d <;> simp [hu]

/-! ### Outcomes and the end of a call -/

/-- An outcome for a case that is not SENDING does nothing. -/
theorem State.applyOutcome_of_not_sending (k : Fin 48) (kind : OutcomeKind) (d : Fin 8) (c : Case)
    (h : s.caseAt k = some c) (hs : c.state ≠ .sending) : s.applyOutcome k kind d = s := by
  simp [State.applyOutcome, h, hs]

/-- An outcome that is neither an acceptance, a charged failure nor a refusal is uncharged, whatever the destination. -/
theorem State.applyOutcome_uncharged (k : Fin 48) (kind : OutcomeKind) (d : Fin 8) (c : Case) (h : s.caseAt k = some c)
    (hs : c.state = .sending) (h1 : kind ≠ .accepted) (h2 : kind.charged = false) (h3 : kind ≠ .refused) :
    s.applyOutcome k kind d = s.uncharged k { c with last := kind, line := none } := by
  simp [State.applyOutcome, h, hs, h1, h2, h3]

/-- An uncharged case at a usable destination waits there, and the Arbiter is told. -/
theorem State.uncharged_eq (k : Fin 48) (c : Case) (d : Fin 8) (hd : s.currentDest c = some d) (hu : s.usable d = true) :
    s.uncharged k c = (s.setCase k { c with state := .pending, retry := s.clock }).notify := by
  unfold State.uncharged
  rw [State.settle_eq _ k { c with state := .pending, retry := s.clock } (by simp)]
  rw [if_pos]
  intro e he
  have : s.currentDest c = some e := he
  rw [hd] at this
  cases this
  simpa using hu

/-- The end of an open call: its context goes, its destination has no call line, and the Arbiter is told. -/
theorem State.endCall_eq (n : Fin 4) (c : Call) (h : s.call n = some c) :
    s.endCall n =
      { (s.setDest c.dest { s.dest c.dest with callLine := none }).setLine n { s.line n with call := none } with
        passesDue := s.passesDue + 1 } := by
  simp only [State.endCall, h]
  rfl

/-! ### Answers to lingering lines -/

/-- A line without an offer is left as it is. -/
theorem State.answerLinger_eq_self (n : Fin 4)
    (h : ∀ d : Fin 8, s.lingersOn n = some d → ∀ k : Fin 48, s.pendingAt d k = false) : s.answerLinger n = s := by
  unfold State.answerLinger
  cases hc : s.call n with
  | none => rfl
  | some c =>
    simp only []
    rw [if_neg]
    rintro ⟨hl, ha⟩
    obtain ⟨k, -, hk⟩ := List.any_eq_true.mp ha
    have := h c.dest (by simp [State.lingersOn, hl, hc]) k
    rw [this] at hk
    cases hk

/-- Where no lingering line has an offer, the standing requests change nothing. -/
theorem State.answerLingers_eq_self (h : s.NoOffer) : s.answerLingers = s := by
  have step : ∀ ns : List (Fin 4), ns.foldl State.answerLinger s = s := by
    intro ns
    induction ns with
    | nil => rfl
    | cons n ns ih => rw [List.foldl_cons, s.answerLinger_eq_self n (h n), ih]
  exact step _

/-- What answering one line can do: nothing, release it, or take up a PENDING case of its destination. -/
theorem State.answerLinger_cases (n : Fin 4) :
    s.answerLinger n = s ∨ s.answerLinger n = s.release n ∨
      ∃ c k, s.call n = some c ∧ s.answerFor c.dest c.carried = .give k ∧ s.answerLinger n = s.takeUp n k := by
  unfold State.answerLinger
  cases hc : s.call n with
  | none => exact .inl rfl
  | some c =>
    simp only []
    split
    · split
      · exact .inr (.inl rfl)
      · exact .inl rfl
      · rename_i k hk; exact .inr (.inr ⟨c, k, rfl, hk, rfl⟩)
    · exact .inl rfl

end Sys2Proof.Machine
end

