-- ==== Sys2Proof/Laws/Posting.lean ====
section
/-! SUPPORT. The Case Table's answers to its posters, each as one equation: the plan rule, an internal restore and an internal post come to the state that SettledTo, RestoredTo and PostedTo name. -/

namespace Sys2Proof.Machine

variable (s : State)

/-! ### Writing one slot -/

/-- Writing back the case a slot holds changes nothing. -/
theorem State.setCase_self {k : Fin 48} {x : Case} (h : s.caseAt k = some x) : s.setCase k x = s := by
  have : ({ s.slot k with occ := some x } : Slot) = s.slots[k] := by
    have h' : (s.slots[k]).occ = some x := h
    simp only [State.slot, ← h']
  simp only [State.setCase, State.setSlot]
  rw [this]
  simp

/-- The later of two cases written to one slot stands. -/
theorem State.setCase_setCase (k : Fin 48) (x y : Case) : (s.setCase k x).setCase k y = s.setCase k y := by
  simp [State.setCase, State.setSlot, State.slot]

/-! ### Counting cases -/

/-- A count over a list grows by one where an absent entry is given a value that counts. -/
theorem countP_filterMap_set {p : Case → Bool} {c : Case} (hp : p c = true) :
    ∀ (xs : List Slot) (k : Nat) (x y : Slot), xs[k]? = some x → x.occ = none → y.occ = some c →
      ((xs.set k y).filterMap Slot.occ).countP p = (xs.filterMap Slot.occ).countP p + 1 := by
  intro xs
  induction xs with
  | nil => intro k x y h; simp at h
  | cons a xs ih =>
    intro k x y h hx hy
    cases k with
    | zero =>
      simp only [List.getElem?_cons_zero, Option.some.injEq] at h
      subst h
      simp [hx, hy, hp]
    | succ k =>
      rw [List.getElem?_cons_succ] at h
      have := ih k x y h hx hy
      rw [List.set_cons_succ, List.filterMap_cons, List.filterMap_cons]
      cases a.occ with
      | none => exact this
      | some b => simp only [List.countP_cons]; omega

/-- A non-FIRE case written to a free slot adds one to the non-FIRE cases. -/
theorem State.otherCount_setCase {k : Fin 48} {c : Case} (h : s.caseAt k = none) (hc : c.isFire = false) :
    (s.setCase k c).otherCount = s.otherCount + 1 := by
  have hk : s.slots.toList[k.val]? = some s.slots[k] := by
    simp
  have := countP_filterMap_set (p := fun c => !c.isFire) (c := c) (by simp [hc]) s.slots.toList k.val
    s.slots[k] { s.slot k with occ := some c } hk h rfl
  simpa [State.otherCount, State.cases, State.setCase, State.setSlot, Vector.toList_set] using this

/-- The two counts of non-FIRE cases are one. -/
theorem State.otherCount_eq : s.otherCount = s.otherCases := by
  simp only [State.otherCount, State.otherCases]
  congr 1
  funext c
  simp [Case.isFire]

/-- FIRE and non-FIRE cases together are all cases. -/
theorem State.counts_eq : s.fireCount + s.otherCount = s.cases.length := by
  rw [State.fireCount, State.otherCount, List.length_eq_countP_add_countP Case.isFire]
  congr 2
  funext c
  simp

/-- The capacity test passes exactly where there is room. -/
theorem State.hasRoom_iff (c : Cls) : s.hasRoom c = true ↔ ¬ s.NoRoom c := by
  unfold State.hasRoom State.NoRoom
  rw [State.counts_eq, State.otherCount_eq]
  by_cases hc : c = .fire <;> simp [hc] <;> omega

/-! ### The plan rule, restores and posts -/

/-- The plan rule brings a case just left PENDING to the state `SettledTo` names. -/
theorem State.settle_of_settledTo {k : Fin 48} {y : Case} {u : State} (h : s.SettledTo k y u) (hs : y.state = .pending) : (s.setCase k y).settle k = u := by
  have hy : (s.setCase k y).caseAt k = some y := by simp
  cases h with
  | stays hd =>
    rw [State.settle_eq _ _ _ hy, if_pos]
    · rfl
    · intro d e; exact (hd d e).1
  | moves d e q hd hu hq hn =>
    have hne : (s.plan y.key.cls).dests ≠ [] := by
      intro e0; simp [State.currentDest, e0] at hd
    rw [State.settle_eq _ _ _ hy, if_neg]
    · unfold State.advance
      rw [hy]
      have hne' : ((s.setCase k y).plan y.key.cls).dests ≠ [] := hne
      have hq' : ((s.setCase k y).plan y.key.cls).sweep (s.setCase k y).usable ((s.setCase k y).plan y.key.cls).dests.length
          y.progress.step y.progress.round = .rest e q := hq
      simp only [if_neg hne', hq']
      simp [State.notify, State.setCase_setCase, hs]
    · intro c; have := c d hd; rw [State.setCase_usable, hu] at this; cases this
  | strands d q hd hu hq =>
    have hne : (s.plan y.key.cls).dests ≠ [] := by
      intro e0; simp [State.currentDest, e0] at hd
    rw [State.settle_eq _ _ _ hy, if_neg]
    · unfold State.advance
      rw [hy]
      have hne' : ((s.setCase k y).plan y.key.cls).dests ≠ [] := hne
      have hq' : ((s.setCase k y).plan y.key.cls).sweep (s.setCase k y).usable ((s.setCase k y).plan y.key.cls).dests.length
          y.progress.step y.progress.round = .strand q := hq
      simp only [if_neg hne', hq']
      simp only [State.strand, State.setCase_setCase, State.notifyWhileFire_eq]
      by_cases hf : y.key.cls = .fire
      · simp only [Case.isFire, hf, State.raise, Cause.bit]
        cases hw : s.fireWaiting <;> simp [hw]
      · simp [Case.isFire, hf, State.raise, Cause.bit]
    · intro c; have := c d hd; rw [State.setCase_usable, hu] at this; cases this

/-- An internal restore comes to the state `RestoredTo` names. -/
theorem State.internalRestore_of_restoredTo {key : Key} {u : State} (h : s.RestoredTo key u) : s.internalRestore key = u := by
  cases h with
  | absent hk => simp [State.internalRestore, hk]
  | already k x hk hx hc =>
    simp only [State.internalRestore, hk, State.restoreCase, hx]
    have : x.restored s.clock = x := by simp [Case.restored, hc]
    rw [this, State.setCase_self _ hx, if_neg]
    rintro ⟨h1, h2⟩; rw [h1] at h2; cases h2
  | joins k x ht hk hx hc hh =>
    obtain ⟨x', hx', hkey⟩ := State.caseOfKey_some _ hk
    rw [hx] at hx'; cases hx'
    have hx2 : x.restored s.clock = { x with owed := x.owed ++ [.restore], condition := .restored } := by
      simp [Case.restored, hc, hkey, ht, hh]
    simp only [State.internalRestore, hk, State.restoreCase, hx, hx2]
    rw [if_neg]
    rintro ⟨h1, -⟩; exact hh h1
  | leavesHeld k x u ht hk hx hc hh hu =>
    obtain ⟨x', hx', hkey⟩ := State.caseOfKey_some _ hk
    rw [hx] at hx'; cases hx'
    have hx2 : x.restored s.clock = { x with
        owed := x.owed ++ [.restore], condition := .restored, state := .pending, progress := ⟨0, 0, 0⟩, retry := s.clock } := by
      simp [Case.restored, hc, hkey, ht, hh, Progress.zero]
    simp only [State.internalRestore, hk, State.restoreCase, hx, hx2]
    rw [if_pos ⟨hh, trivial⟩]
    exact s.settle_of_settledTo hu rfl

/-- A RESTORED non-TEST case after a post without a detail is the one `RenewedTo` names. -/
theorem Case.reposted_of_renewedTo {x y : Case} (h : x.RenewedTo y) (ht : x.key.cls ≠ .test) (hc : x.condition = .restored) :
    x.reposted none = y := by
  cases h with
  | emptied ho hs => simp [Case.reposted, ht, hc, Case.tailInFlight, ho, hs, Progress.zero]
  | followed ho hs => simp [Case.reposted, ht, hc, Case.tailInFlight, ho, hs]
  | counted rest hr ho =>
    rcases hr with rfl | rfl <;> simp [Case.reposted, ht, hc, Case.tailInFlight, ho]

/-- A case created in a free slot, with TABLE LOW noted, comes to the state `SettledTo` names. -/
theorem State.createAt_of_settledTo {k : Fin 48} {key : Key} {u : State} (hk : s.caseAt k = none)
    (h : s.SettledTo k (Case.new key none .verified s.clock) u) :
    s.createAt k key none .verified =
      { u with causes := u.causes |||
          (if key.cls ≠ .fire ∧ 48 - s.reserve - (s.otherCases + 1) ≤ s.lowThreshold then 0x10 else 0) } := by
  let b : Byte := if key.cls ≠ .fire ∧ 48 - s.reserve - (s.otherCases + 1) ≤ s.lowThreshold then 0x10 else 0
  have hn : (s.setCase k (Case.new key none .verified s.clock)).noteAdmission key.cls =
      ({ s with causes := s.causes ||| b } : State).setCase k (Case.new key none .verified s.clock) := by
    by_cases hf : key.cls = .fire
    · simp [State.noteAdmission, hf, b]
    · have hc : (s.setCase k (Case.new key none .verified s.clock)).otherCount = s.otherCases + 1 := by
        rw [State.otherCount_setCase s hk (by simp [Case.isFire, Case.new, hf]), State.otherCount_eq]
      simp only [State.noteAdmission, State.freeCapacity, hc, State.setCase_reserve, State.setCase_lowThreshold, b]
      split <;> simp_all [State.raise, Cause.bit] <;> rfl
  have hu : ({ s with causes := s.causes ||| b } : State).SettledTo k (Case.new key none .verified s.clock)
      { u with causes := u.causes ||| b } := by
    cases h with
    | stays hd => exact .stays hd
    | moves d e q h1 h2 h3 h4 => exact .moves d e q h1 h2 h3 h4
    | strands d q h1 h2 h3 =>
      have : s.causes ||| 0x01 ||| b = s.causes ||| b ||| 0x01 := by
        rw [BitVec.or_assoc, BitVec.or_comm 0x01 b, ← BitVec.or_assoc]
      simp only [this]
      exact .strands d q h1 h2 h3
  unfold State.createAt
  rw [hn]
  exact State.settle_of_settledTo _ hu rfl

/-- An internal post comes to the state `PostedTo` names. -/
theorem State.internalPost_of_postedTo {p : Poster} {key : Key} {u : State} (h : s.PostedTo p key u) :
    (s.internalPost p key).2 = u := by
  cases h with
  | stands k x hk hx hc =>
    have : x.reposted none = x := by
      cases x
      simp_all [Case.reposted]
    simp [State.internalPost, hk, State.postCase, hx, this, State.setCase_self _ hx]
  | renews k x y ht hk hx hc hy =>
    obtain ⟨x', hx', hkey⟩ := State.caseOfKey_some _ hk
    rw [hx] at hx'; cases hx'
    simp [State.internalPost, hk, State.postCase, hx, Case.reposted_of_renewedTo hy (hkey ▸ ht) hc]
  | takenIn hk hp => simp [State.internalPost, hk, hp]
  | creates k u ht hk hp hr hl hu =>
    have hroom : s.hasRoom key.cls = true := (s.hasRoom_iff _).mpr hr
    have hfree := s.lowestFree_some hl
    have hnew : Case.new key none .verified s.clock =
        { key := key, detail := none, mark := .verified, condition := .active, state := .pending, owed := [.alarm]
          reported := false, chatter := 0, posted := s.clock, progress := ⟨0, 0, 0⟩, failed := 0, retry := s.clock
          last := .none, line := none } := by simp [Case.new, ht, Progress.zero]
    rw [← hnew] at hu
    simp only [State.internalPost, hk, hp, if_false, State.acceptPost, hroom, and_self, if_true, hl, Option.map_some]
    exact s.createAt_of_settledTo hfree hu
  | isHeld hk hp hr =>
    have hroom : s.hasRoom key.cls = false := by
      have := s.hasRoom_iff key.cls
      cases hb : s.hasRoom key.cls
      · rfl
      · exact absurd hr (this.mp hb)
    simp [State.internalPost, hk, hp, State.acceptPost, hroom, State.recordHeld, State.raise, Cause.bit, State.setHeld]
  | oldStands old hk hp ho hr =>
    have hroom : s.hasRoom key.cls = false := by
      cases hb : s.hasRoom key.cls
      · rfl
      · exact absurd hr ((s.hasRoom_iff key.cls).mp hb)
    simp [State.internalPost, hk, hp, ho, State.acceptPost, hroom, State.recordHeld, State.raise, Cause.bit]

/-- What a channel's call for a post can do: written, it is an internal post; not written, it changes nothing (R172). -/
theorem State.channelPost_eq (i : Fin 8) (p : Poster) (key : Key) :
    s.channelPost i p key = if (s.input i).written = true then (s.internalPost p key).2 else s := rfl

/-- A channel's call for a post comes to the state `ChannelPostedTo` names. -/
theorem State.channelPost_of_channelPostedTo {i : Fin 8} {p : Poster} {key : Key} {u : State}
    (h : s.ChannelPostedTo i p key u) : s.channelPost i p key = u := by
  unfold State.ChannelPostedTo at h
  rw [State.channelPost_eq]
  split at h
  · rename_i hw; rw [if_pos hw]; exact s.internalPost_of_postedTo h
  · rename_i hw; rw [if_neg hw, h]

end Sys2Proof.Machine
end

