-- ==== Sys2Proof/Tests/Slice0.lean ====
section
/-! SUPPORT. The model's own tests: ill-formed commands refused, frames written out byte by byte from the tables of chapter 11, single steps from the manual's worked examples, and for each obligation with hypotheses a concrete state and operands that meet them. Every expected value is the manual's. -/

namespace Sys2Proof.Tests

open Sys2Proof Sys2Proof.Machine

set_option Elab.async false

/-! ### Ill-formed commands: one for each check of `Instr.wellFormed` -/

theorem test_ill_formed_case_requests :
    ([.post 256 0 1 none, .post 0 65536 1 none, .post 0 0 256 none, .post 0 0 1 (some 65536), .restore 256 (.byHandle 0),
      .restore 0 (.byHandle 65536), .restore 256 (.byKey 0 1), .restore 0 (.byKey 65536 1), .restore 0 (.byKey 0 256),
      .withdraw 256 0, .withdraw 0 65536, .readCase 256 0, .readCase 0 65536, .clear 256 0, .clear 0 65536, .rearm 256 0,
      .rearm 0 65536, .find 256 0 0 1, .find 0 256 0 1, .find 0 0 65536 1, .find 0 0 0 256, .nextCase 256 0 0,
      .nextCase 0 65536 0, .nextCase 0 0 256] : List Instr).all (fun i => !i.wellFormed) = true := by decide

theorem test_ill_formed_table_writes :
    ([.writeAdmission 256 0 1 0, .writeAdmission 31 256 1 0, .writeAdmission 31 0 256 0, .writeAdmission 31 0 1 256,
      .writeCaseLimits 256 0 0, .writeCaseLimits 31 256 0, .writeCaseLimits 31 0 256, .writeClass 256 1 0 1 0 1 1,
      .writeClass 31 256 0 1 0 1 1, .writeClass 31 1 256 1 0 1 1, .writeClass 31 1 0 256 0 1 1, .writeClass 31 1 0 1 256 1 1,
      .writeClass 31 1 0 1 0 65536 1, .writeClass 31 1 0 1 0 1 65536, .setDestinationState 256 0 0,
      .setDestinationState 31 256 0, .setDestinationState 31 0 256, .writePlan 256 1 [] 1 1, .writePlan 31 256 [] 1 1,
      .writePlan 31 1 [256] 1 1, .writePlan 31 1 [] 256 1, .writePlan 31 1 [] 1 256,
      .writePlan 31 1 (List.replicate 56 0) 1 1] : List Instr).all (fun i => !i.wellFormed) = true := by decide

theorem test_ill_formed_destination_writes :
    ([.writeDestination 256 0 0 0 0 0 0 [1], .writeDestination 31 256 0 0 0 0 0 [1], .writeDestination 31 0 256 0 0 0 0 [1],
      .writeDestination 31 0 0 256 0 0 0 [1], .writeDestination 31 0 0 0 256 0 0 [1], .writeDestination 31 0 0 0 0 256 0 [1],
      .writeDestination 31 0 0 0 0 0 256 [1], .writeDestination 31 0 0 0 0 0 0 [256],
      .writeDestination 31 0 0 0 0 0 0 (List.replicate 53 1)] : List Instr).all (fun i => !i.wellFormed) = true := by decide

theorem test_ill_formed_line_writes :
    ([.writeLine 256 0 0 0 0, .writeLine 31 256 0 0 0, .writeLine 31 0 256 0 0, .writeLine 31 0 0 256 0,
      .writeLine 31 0 0 0 256, .writeLineTiming 256 0 0 0 0 0 0 0 0, .writeLineTiming 31 65536 0 0 0 0 0 0 0,
      .writeLineTiming 31 0 65536 0 0 0 0 0 0, .writeLineTiming 31 0 0 65536 0 0 0 0 0,
      .writeLineTiming 31 0 0 0 256 0 0 0 0, .writeLineTiming 31 0 0 0 0 256 0 0 0,
      .writeLineTiming 31 0 0 0 0 0 65536 0 0, .writeLineTiming 31 0 0 0 0 0 0 256 0,
      .writeLineTiming 31 0 0 0 0 0 0 0 65536, .writeExchangeTiming 256 0 0 0 0 0, .writeExchangeTiming 31 256 0 0 0 0,
      .writeExchangeTiming 31 0 256 0 0 0, .writeExchangeTiming 31 0 0 256 0 0, .writeExchangeTiming 31 0 0 0 256 0,
      .writeExchangeTiming 31 0 0 0 0 256] : List Instr).all (fun i => !i.wellFormed) = true := by decide

theorem test_ill_formed_input_writes :
    ([.writeInput 256 0 1 0 0 0 0 0, .writeInput 31 256 1 0 0 0 0 0, .writeInput 31 0 256 0 0 0 0 0,
      .writeInput 31 0 1 65536 0 0 0 0, .writeInput 31 0 1 0 256 0 0 0, .writeInput 31 0 1 0 0 256 0 0,
      .writeInput 31 0 1 0 0 0 65536 0, .writeInput 31 0 1 0 0 0 0 256, .setInputState 256 0 0, .setInputState 31 256 0,
      .setInputState 31 0 256, .unlatchInput 256 0, .unlatchInput 31 256, .writeTestTimer 256 0 1, .writeTestTimer 31 256 1,
      .writeTestTimer 31 0 256, .startTest 256] : List Instr).all (fun i => !i.wellFormed) = true := by decide

theorem test_ill_formed_reads_and_events :
    ([.readConfig 256 0 0, .readConfig 31 256 0, .readConfig 31 0 256, .readLine 256 0, .readLine 31 256,
      .readDestination 256 0, .readDestination 31 256, .readInput 256 0, .readInput 31 256, .writeMask 256 0,
      .writeMask 31 256, .readStatus 256, .readTime 256, .softReset 256, .badRequest [], .badRequest [0x26, 0x01, 0x00],
      .lineSample 0 121 0, .receivedSymbol 0 16, .inputSample 0 256] : List Instr).all (fun i => !i.wellFormed) = true := by
  decide

/-! ### Frames, byte by byte from the tables of R182 and R183 -/

theorem test_frame_post : decodeTransaction [0x01, 0x04, 0x03, 0x00, 0x2A, 0x01] = some (.post 3 42 1 none) := by decide

theorem test_frame_post_detail :
    decodeTransaction [0x01, 0x06, 0x04, 0x00, 0x11, 0x02, 0x01, 0x36] = some (.post 4 17 2 (some 310)) := by decide

theorem test_frame_restore_handle :
    decodeTransaction [0x02, 0x04, 0x04, 0x00, 0x00, 0x85] = some (.restore 4 (.byHandle 133)) := by decide

theorem test_frame_restore_key :
    decodeTransaction [0x02, 0x05, 0x04, 0x01, 0x00, 0x11, 0x02] = some (.restore 4 (.byKey 17 2)) := by decide

theorem test_frame_next_case : decodeTransaction [0x06, 0x04, 0x1F, 0xFF, 0xFF, 0x05] = some (.nextCase 31 65535 5) := by decide

theorem test_frame_write_class :
    decodeTransaction [0x12, 0x09, 0x1F, 0x02, 0xA0, 0x08, 0x28, 0x00, 0x05, 0x00, 0x3C] =
      some (.writeClass 31 2 160 8 40 5 60) := by decide

theorem test_frame_write_destination :
    decodeTransaction [0x13, 0x0B, 0x1F, 0x06, 0x02, 0x06, 0x00, 0x08, 0x01, 0x03, 0x09, 0x0C, 0x05] =
      some (.writeDestination 31 6 2 6 0 8 1 [9, 12, 5]) := by decide

theorem test_frame_write_plan :
    decodeTransaction [0x15, 0x07, 0x1F, 0x02, 0x02, 0x02, 0x05, 0x02, 0x03] = some (.writePlan 31 2 [2, 5] 2 3) := by decide

theorem test_frame_write_line_timing :
    decodeTransaction
        [0x17, 0x0E, 0x1F, 0x01, 0x2C, 0x00, 0xFA, 0x03, 0xE8, 0x03, 0x02, 0x01, 0x2C, 0x09, 0x00, 0xC8] =
      some (.writeLineTiming 31 300 250 1000 3 2 300 9 200) := by decide

theorem test_frame_write_input :
    decodeTransaction [0x19, 0x0A, 0x1F, 0x04, 0x02, 0x00, 0x0C, 0x01, 0x00, 0x01, 0xF4, 0x14] =
      some (.writeInput 31 4 2 12 1 0 500 20) := by decide

theorem test_frame_read_config : decodeTransaction [0x20, 0x03, 0x1F, 0x08, 0x14] = some (.readConfig 31 8 20) := by decide

theorem test_frame_soft_reset : decodeTransaction [0x3F, 0x01, 0x1F] = some (.softReset 31) := by decide

/-- A first byte 0x00 is a read transaction of the bytes that follow it (R179). -/
theorem test_frame_read : decodeTransaction [0x00, 0xAA, 0xBB] = some (.readTransaction 2) := by decide

/-- A length byte that the frame does not keep, a code of no request, and a wrong body length are malformed (R182). -/
theorem test_frames_malformed :
    ([[0x01], [0x01, 0x05, 0x03, 0x00, 0x2A, 0x01], [0x09, 0x01, 0x1F], [0x26, 0x02, 0x1F, 0x00],
      [0x02, 0x04, 0x04, 0x02, 0x00, 0x85]] : List (List Byte)).all
        (fun f => decide (decodeTransaction f = some (.badRequest f))) = true := by decide

/-! ### States for the tests -/

/-- An ENABLED destination of account 4712 with dial string 50. -/
def openDest : Destination :=
  { Destination.atPowerOn with dial := [.digit 5, .digit 0], account := ⟨4, 7, 1, 2⟩, state := .enabled }

/-- Every destination is ENABLED, every plan is destinations 0 and 1, and one notice is outstanding. -/
def ready : State :=
  { State.reset with passesDue := 1, dests := Vector.replicate 8 openDest, plans := Vector.replicate 5 ⟨[0, 1], 2, 2⟩ }

/-- An alarm of source 3, zone 42, just posted at time 0. -/
def alarm (c : Cls) : Case := Case.new ⟨3, 42, c⟩ none .verified 0

/-- Slot 0 holds case `x`. -/
def holding (x : Case) : State := ready.setCase 0 x

/-- Line 0 is in state `st` with the call `c`, to destination 0, that carries case `x` of slot 0. -/
def calling (st : LineState) (c : Call) (x : Case) : State :=
  (((holding { x with state := .sending, line := some 0 }).setDest 0 { openDest with callLine := some 0 }).setLine 0
    { Line.atPowerOn with state := st, call := some c })

/-- The case `calling` carries. -/
def carried (x : Case) : Case := { x with state := .sending, line := some 0 }

/-- A call to destination 0 with the case of slot 0. -/
def call0 : Call := Call.opened 0 0 0

/-- The same call after its off-hook check. -/
def judged0 : Call := { call0 with check := .judged, sampled := true }

/-- A block of `call0` awaiting its answer, `r` repeats made. -/
def awaiting (r : Nat) : Call :=
  { judged0 with block := some { symbols := [], phase := .awaiting, repeats := r, response := some 4000 } }

/-- Line 0 lingers on destination 0 with nothing to carry, and slot 0 holds `x`. -/
def lingering (x : Case) : State :=
  ((holding x).setDest 0 { openDest with callLine := some 0 }).setLine 0
    { Line.atPowerOn with state := .linger, call := some { call0 with current := none, linger := some 5000 } }

/-- Line 0 in state `st` without a call. -/
def lineIn (st : LineState) (f : Line → Line) : State := ready.setLine 0 (f { Line.atPowerOn with state := st })

/-- Channel 0 written and enabled, WATERFLOW, zone 12, as `f` changes it. -/
def channel (f : Channel → Channel) : State :=
  ready.setInput 0 (f { Channel.atPowerOn with enabled := true, cls := .waterflow, zone := 12, written := true })

/-- The alarm case of `channel`, ACTIVE in slot 0. -/
def channelCase : Case := Case.new ⟨16, 12, .waterflow⟩ none .verified 0

/-- The state after a command, and the state before where it does not go on. -/
def after (c : Instr) (s : State) : State :=
  match exec c s with
  | .next t => t
  | _ => s

/-! ### Single steps from the manual's worked examples -/

/-- Chapter 2's example: slot 5 at generation 2 gives handle 133 (R1, R37). -/
theorem test_post_created :
    let s := ((([0, 1, 2, 3, 4] : List (Fin 48))).foldl (fun t k => t.setCase k (Case.new ⟨0, k.val, .fire⟩ none .verified 0)) ready).setSlot 5
      ⟨2, none⟩
    (after (.post 4 17 2 (some 310)) s).reply = some ⟨.created, [0x00, 0x85]⟩ := by decide +kernel

/-- The same example: a restore is appended behind the ALARM in flight. -/
theorem test_restore_in_flight :
    ((after (.restore 3 (.byKey 42 2)) (calling .exchange call0 (alarm .waterflow))).caseAt 0).map
      (fun c => (c.owed, c.condition, c.state)) = some ([.alarm, .restore], .restored, .sending) := by decide +kernel

/-- The same example: a post folds the owed RESTORE away and chatter rises to 1. -/
theorem test_post_folds :
    let x := { alarm .waterflow with owed := [.restore, .alarm, .restore], condition := .restored, reported := true }
    ((after (.post 3 42 2 none) (calling .exchange call0 x)).caseAt 0).map (fun c => (c.owed, c.chatter)) =
      some ([.restore, .alarm], 1) := by decide +kernel

/-- The same example: WITHDRAW of a SENDING case is IN_FLIGHT, of a reported one DELIVERED. -/
theorem test_withdraw_refused :
    (after (.withdraw 3 0) (calling .exchange call0 (alarm .waterflow))).reply = some ⟨.inFlight, []⟩ ∧
      (after (.withdraw 3 0) (calling .exchange call0 { alarm .waterflow with reported := true })).reply =
        some ⟨.delivered, []⟩ := by decide +kernel

/-- Section 3.2: handle 200 is generation 3, slot 8; after a CLEAR slot 8 stands at generation 4 (R2). -/
theorem test_clear_generation :
    let s := ready.setSlot 8 ⟨3, some (alarm .fire)⟩
    s.caseOfHandle 200 = some 8 ∧ (after (.clear 31 200) s).slot 8 = ⟨4, none⟩ := by decide +kernel

/-- The urgencies of the worked figures of chapter 3 at 437 s. -/
theorem test_urgency_figures :
    let s := { ready with clock := 437 }
    s.urgency { alarm .waterflow with posted := 100, failed := 2 } = 192 ∧
      s.urgency { alarm .fire with posted := 430 } = 224 ∧
      s.urgency { alarm .boiler with owed := [.restore], posted := 434, failed := 9 } = 36 := by decide +kernel

/-- The figures at the limits: a clamp at 0, the age's saturation, and a FIRE RESTORE head. -/
theorem test_urgency_limits :
    let s := { ready with clock := 70000 }
    (s.setClassEntry .test ⟨0, 60, 40, 60, 900⟩).urgency
        { alarm .test with owed := [.test], posted := 70000, failed := 3 } = 0 ∧
      s.urgency (alarm .fire) = 255 ∧
      s.urgency { alarm .fire with owed := [.restore], posted := 69900, failed := 1 } = 156 := by decide +kernel

/-- The comparison of chapter 3 at 2000 s: slots 9, 3, 1, 12, 6, 4 in this order. -/
theorem test_rank_example :
    let at' (t : Time) (f : Nat) (c : Cls) : Case := { alarm c with posted := t, failed := f }
    let s := { (((((ready.setCase 1 (at' 1000 0 .waterflow)).setCase 3 (at' 1990 0 .fire)).setCase 4
      (at' 0 2 .trouble)).setCase 6 (at' 1100 0 .boiler)).setCase 9 (at' 1700 0 .fire)).setCase 12
      (at' 1000 0 .waterflow) with clock := 2000 }
    s.ranked (fun k => (s.caseAt k).isSome) = [9, 3, 1, 12, 6, 4] := by decide +kernel

/-- The spacings of WATERFLOW after failures 1 to 5: 5, 10, 20, 40 s, and 80 s limited to 60 (R60). -/
theorem test_spacing :
    [1, 2, 3, 4, 5].map (fun k => (ready.classEntry .waterflow).spacing k) = [5, 10, 20, 40, 60] := by decide +kernel

/-- The escalation example of chapter 3: past DISABLED destination 5, round the plan, and stranded in the last round. -/
theorem test_sweep_example :
    let p : Plan := ⟨[2, 5, 6], 2, 2⟩
    let usable : Fin 8 → Bool := fun d => d ≠ 5
    p.sweep usable 3 0 0 = .rest 6 ⟨2, 0, 0⟩ ∧ p.sweep usable 3 2 0 = .rest 2 ⟨0, 0, 1⟩ ∧
      p.sweep usable 3 2 1 = .strand ⟨0, 0, 1⟩ := by decide

/-- The blocks of chapter 8: 4712 1 1 042 03 0 1 4, and 2608 1 3 117 05 0 0 # (R145, R146). -/
theorem test_blocks :
    composeBlock (alarm .fire) { openDest with toggle := true } = some [4, 7, 1, 2, 1, 1, 0, 4, 2, 0, 3, 0, 1, 4] ∧
      composeBlock { alarm .boiler with key := ⟨5, 117, .boiler⟩ } { openDest with account := ⟨2, 6, 0, 8⟩ } =
        some [2, 6, 0, 8, 1, 3, 1, 1, 7, 0, 5, 0, 0, 11] := by decide +kernel

/-- Chapter 7's string 9,5550128 takes 3600 ms in tone and 12100 ms in pulse. -/
theorem test_dialling_times :
    let string : List DialSym := [.digit 9, .pause, .digit 5, .digit 5, .digit 5, .digit 0, .digit 1, .digit 2, .digit 8]
    (string.map (elementMs .tone)).sum = 3600 ∧ (string.map (elementMs .pulse)).sum = 12100 := by decide

/-- Chapter 6's example: 27 mA against a reference of 40 mA starts the intrusion filter; 32 mA does not. -/
theorem test_intrusion_sample :
    let s := calling .exchange { judged0 with reference := some 40 } (alarm .waterflow)
    ((after (.lineSample 0 8 27) s).call 0).map Call.intrusion = some (some 200) ∧
      ((after (.lineSample 0 8 32) s).call 0).map Call.intrusion = some none := by decide +kernel

/-- Chapter 6's third failure: the guard expires into FAULT (NO LOOP), and the line's trouble case is posted. -/
theorem test_guard_to_fault :
    let t := after (.guardExpiry 0)
      (lineIn .guarded fun l => { l with failures := 3, failureCause := .noLoop, guardTimer := some 2000 })
    (t.line 0).state = .fault ∧ (t.line 0).cause = .noLoop ∧ (t.caseAt 0).map Case.key = some ⟨24, 901, .trouble⟩ := by
  decide +kernel

/-- Chapter 6's example ends: the fault hold expires, and the line is IDLE with failure count 2. -/
theorem test_fault_hold_ends :
    let t := after (.faultHoldExpiry 0)
      (lineIn .fault fun l => { l with cause := .noLoop, failures := 3, faultHold := some 300000 })
    (t.line 0).state = .idle ∧ (t.line 0).failures = 2 := by decide +kernel

/-- Chapter 9's example: sample 40 starts the filter of 500 ms for ACTIVE, and its expiry starts the retard of 20 s. -/
theorem test_input_example :
    let s := channel fun c => { c with latch := .latching, retard := 20, sample := some 128 }
    let t := after (.inputSample 0 40) s
    (t.input 0).candidate = some .active ∧ (t.input 0).levelFilter = some 500 ∧
      ((after (.levelFilterExpiry 0) t).input 0).alarm = .retarding := by decide +kernel

/-- The level bands of R161 at their bounds. -/
theorem test_level_bands :
    [0, 15, 16, 79, 80, 175, 176, 255].map Level.ofCount =
      [.short, .short, .active, .active, .normal, .normal, .opened, .opened] := by decide

/-- A differential of 5 mA is rounded down to 3, and the write is answered ADJUSTED (R126). -/
theorem test_differential_rounded :
    let t := after (.writeLineTiming 31 300 250 1000 3 2 300 5 200) ready
    t.timing.differential = 3 ∧ t.reply = some ⟨.adjusted, []⟩ := by decide +kernel

/-- A reply read with four bytes clocked: status, length, body and a zero beyond the end (R180). -/
theorem test_reply_read :
    (after (.readTransaction 4) { ready with reply := some ⟨.existing, [0x85]⟩ }).serialOut = [0x02, 0x01, 0x85, 0x00] ∧
      (after (.readTransaction 3) ready).serialOut = [0x1A, 0x00, 0x00] := by decide +kernel

/-- A masked DELIVERED, the mask after power-on, leaves ATTENTION deasserted; LINK OVERRUN asserts it (R187). -/
theorem test_attention :
    ((State.reset.raise .delivered).attention, (State.reset.raise .linkOverrun).attention) = (false, true) := by decide +kernel

/-- The clock returns to 0 after its greatest value, and the age of a case follows the wrap (R186). -/
theorem test_clock_wraps :
    (after .secondsClockAdvance { ready with clock := 0xFFFFFFFF }).clock = 0 ∧
      ({ ready with clock := 1 } : State).since 0xFFFFFFFE = 3 := by decide +kernel

/-! ### Witnesses: states and operands that meet the hypotheses of the obligations, clause by clause -/

/-- The hypotheses that a case rests at the first entry of its class plan. -/
abbrev restsFirst (s : State) (c : Cls) : Prop :=
  ∀ d : Fin 8, (s.plan c).dests.head? = some d → s.usable d = true ∧ s.NobodyOn d

theorem test_witness_StepRunsFront : State.reset.pending = [] := rfl

theorem test_witness_FrameDecodesBack :
    (Instr.post 255 65535 255 (some 65535)).wellFormed = true ∧
      encodeTransaction (.post 255 65535 255 (some 65535)) = some [0x01, 6, 255, 255, 255, 255, 255, 255] := by decide

theorem test_witness_FrameReadWhole : ([0x00] : List Byte) ≠ [] ∧ ([0xFF] : List Byte) ≠ [] := by decide

theorem test_witness_FrameTaken :
    (encodeRequest (.readTime 31)).isSome ∧ ({ ready with reply := some ⟨.ok, []⟩ } : State).reply = some ⟨.ok, []⟩ := by
  decide

theorem test_witness_SourceCheckedFirst :
    (encodeRequest (.softReset 16) = some (0x3F, [16]) ∧ ¬ (16 ≤ 15 ∨ 16 = 31)) ∧
      encodeRequest (.softReset 15) = some (0x3F, [15]) ∧ 0x3F ∈ controllerCodes := by decide

theorem test_witness_RefusalChangesNothing :
    (encodeRequest (.softReset 15)).isSome ∧
      exec (.softReset 15) ready = .next (after (.softReset 15) ready) ∧
      (after (.softReset 15) ready).reply = some ⟨.notOwner, []⟩ ∧ Status.notOwner.refusal = true := by
  exact ⟨by decide, rfl, by decide +kernel, rfl⟩

theorem test_witness_PostAnswered :
    (postableOfCode 4 = some (.trouble, 3) ∧ ready.admissionOf 15 3 ≠ .deny ∧
      ready.caseOfKey ⟨15, 999, .trouble⟩ = none ∧ ready.cases.length < 48 ∧ ready.otherCases < 48 - ready.reserve ∧
      ready.lowestFree = some 0 ∧ ready.NoOffer ∧ restsFirst ready .trouble) ∧
    (ready.setAdmission 15 3 .deny).admissionOf 15 3 = .deny ∧
    (({ ready with reserve := 48 } : State).caseOfKey ⟨15, 999, .trouble⟩ = none ∧
      48 - ({ ready with reserve := 48 } : State).reserve ≤ ({ ready with reserve := 48 } : State).otherCases) ∧
    (let full : State := { ready with slots := Vector.replicate 48 ⟨0, some (alarm .fire)⟩ }
     full.caseOfKey ⟨15, 999, .fire⟩ = none ∧ 48 ≤ full.cases.length) := by decide +kernel

theorem test_witness_PostAlwaysRecords :
    postableOfCode 1 = some (.fire, 0) ∧ ready.admissionOf 0 0 ≠ .deny ∧ ready.caseOfKey ⟨0, 0, .fire⟩ = none ∧
      ready.cases.length < 48 ∧ ready.lowestFree = some 0 := by decide +kernel

theorem test_witness_PostMeetsCase :
    ([holding (alarm .fire), holding { alarm .fire with owed := [.restore], condition := .restored },
      holding { alarm .fire with owed := [.restore], condition := .restored, state := .sending },
      holding { alarm .fire with owed := [.alarm, .restore], condition := .restored },
      holding { alarm .fire with owed := [.restore, .alarm, .restore], condition := .restored }] : List State).all
        (fun s => decide (s.admissionOf 3 0 ≠ .deny ∧ s.caseOfKey ⟨3, 42, .fire⟩ = some 0 ∧ (s.caseAt 0).isSome)) = true := by
  decide +kernel

theorem test_witness_RestoreTakesEffect_names :
    (holding (alarm .fire)).restoreNames 3 (.byHandle 0) 0 ∧ (holding (alarm .fire)).restoreNames 3 (.byKey 42 1) 0 := by
  refine ⟨show State.caseOfHandle _ _ = _ by decide +kernel, by decide, .fire, 0, rfl, by decide +kernel⟩

theorem test_witness_RestoreTakesEffect :
    (holding (alarm .fire)).NoOffer ∧ (holding { alarm .fire with condition := .restored, owed := [.alarm, .restore] }).NoOffer ∧
      (let s := holding { alarm .fire with owed := [], state := .held }
       s.NoOffer ∧ restsFirst s .fire) ∧
      (let s := lingering { alarm .fire with owed := [], state := .held }
       s.caseOfHandle 0 = some 0 ∧ s.NoOffer ∧ (s.plan .fire).dests.head? = some 0 ∧ s.usable 0 = true ∧
         s.lingersOn 0 = some 0 ∧ (s.call 0).isSome ∧ (∀ m : Fin 4, m ≠ 0 → s.lingersOn m = none) ∧
         s.fireWaiting = false ∧ 1 < s.exchange.blockLimit) := by decide +kernel

theorem test_witness_RestoreTakesEffect_refused :
    ready.caseOfHandle 1023 = none ∧ (holding (alarm .fire)).caseOfHandle 0 = some 0 ∧
      (holding (alarm .fire)).caseAt 0 = some (alarm .fire) ∧ (alarm .fire).key.source ≠ 31 ∧
      postableOfCode 4 = some (.trouble, 3) ∧ ready.caseOfKey ⟨31, 999, .trouble⟩ = none := by decide +kernel

theorem test_witness_CasesRetired :
    (holding (alarm .boiler)).caseOfHandle 0 = some 0 ∧ (holding (alarm .boiler)).NoHeld ∧
      (holding (alarm .boiler)).NoOffer ∧
      (calling .exchange call0 (alarm .boiler)).caseOfHandle 0 = some 0 ∧
      (let s := ((channel fun c => { c with alarm := .raised }).setCase 0 channelCase)
       s.caseOfHandle 0 = some 0 ∧ s.NoHeld ∧ s.NoOffer ∧ (s.input 0).alarm = .raised) ∧
      (let s := ((channel fun c => { c with trouble := .raised }).setCase 0
          { channelCase with key := ⟨16, 12, .trouble⟩ })
       s.caseOfHandle 0 = some 0 ∧ s.NoHeld ∧ s.NoOffer ∧ (s.input 0).trouble = .raised ∧ (s.input 0).cls ≠ .trouble) := by
  decide +kernel

/-- A last RESTORE is accepted while a test post and an alarm post are held: both are admitted, the alarm with its RESTORE. -/
theorem test_retirement_offers :
    let x := { alarm .boiler with owed := [.restore], condition := .restored }
    let s := ((calling .exchange (awaiting 0) x).setHeld 0 (some ⟨16, 12, .waterflow⟩)).setHeld 20 (some testKey)
    let t := after (.receivedSymbol 0 12) s
    (t.heldAt 0 = none ∧ t.heldAt 20 = none) ∧ (t.slot 0).gen = 1 ∧
      (t.caseAt 0).map (fun c => (c.key, c.owed)) = some (⟨16, 12, .waterflow⟩, [.alarm, .restore]) ∧
      (t.caseAt 1).map Case.owed = some [.test] := by decide +kernel

/-- The post held first in the order takes the last room that a WITHDRAW, a CLEAR or an acceptance leaves to its class (R23). -/
theorem test_witness_CasesRetired_first :
    let x := { alarm .boiler with owed := [.restore], condition := .restored }
    let s := { ((calling .exchange (awaiting 0) x).setHeld 2 (some ⟨17, 12, .waterflow⟩)).setHeld 20 (some testKey) with
               reserve := 47 }
    let w := { ((holding (alarm .boiler)).setHeld 2 (some ⟨17, 12, .waterflow⟩)).setHeld 20 (some testKey) with reserve := 47 }
    (s.heldAt (Poster.inputAlarm 1).position = some ⟨17, 12, .waterflow⟩ ∧ s.heldAt (Poster.inputAlarm 0).position = none ∧
      s.heldAt (Poster.inputTrouble 0).position = none ∧ s.caseOfKey ⟨17, 12, .waterflow⟩ = none ∧
      s.otherCases < 48 - s.reserve + 1) ∧
      ([after (.receivedSymbol 0 12) s, after (.withdraw 3 0) w, after (.clear 31 0) w].all fun t =>
        decide (t.heldAt 2 = none ∧ t.heldAt 20 = some testKey ∧ t.cases.map Case.key = [⟨17, 12, .waterflow⟩])) = true := by
  decide +kernel

theorem test_witness_CasesRetired_accepted :
    let x := { alarm .boiler with owed := [.restore], condition := .restored }
    let s := calling .exchange (awaiting 0) x
    s.call 0 = some (awaiting 0) ∧ s.caseAt 0 = some (carried x) ∧ (carried x).owed = [.restore] ∧
      ready.caseOfHandle 1023 = none := by decide +kernel

theorem test_witness_RearmStartsAgain :
    (holding { alarm .fire with state := .stranded }).caseOfHandle 0 = some 0 ∧
      (holding { alarm .fire with state := .stranded }).NoOffer ∧
      restsFirst (holding { alarm .fire with state := .stranded }) .fire ∧
      (let s := { holding { alarm .fire with state := .stranded } with dests := Vector.replicate 8 Destination.atPowerOn }
       s.caseOfHandle 0 = some 0 ∧ s.NoOffer ∧ (s.plan .fire).dests ≠ [] ∧
         ∀ d ∈ (s.plan .fire).dests, s.usable d = false) := by decide +kernel

theorem test_holding_slots (k : Fin 48) :
    (holding (alarm .fire)).caseAt k = if k = 0 then some (alarm .fire) else none := by
  revert k
  decide +kernel

theorem test_witness_FindLooksUp : (holding (alarm .fire)).KeysDistinct ∧ (holding (alarm .fire)).caseAt 0 = some (alarm .fire) ∧
    Cls.fire.code = 1 := by
  refine ⟨?_, by decide +kernel, rfl⟩
  intro j k a b ha hb _
  rw [test_holding_slots] at ha hb
  split at ha <;> split at hb <;> simp_all

theorem test_witness_ReadCaseLayout :
    (holding (alarm .fire)).caseOfHandle 0 = some 0 ∧ (holding (alarm .fire)).caseAt 0 = some (alarm .fire) := by
  decide +kernel

theorem test_witness_NextCaseScans :
    (ready.setCase 47 (alarm .fire)).caseAt 47 = some (alarm .fire) ∧ 46 % 64 + 1 ≤ (47 : Fin 48).val ∧
      (alarm .fire).state.code = 0 := by decide +kernel

theorem test_witness_TableSettingsWritten :
    (postableOfCode 4 = some (.trouble, 3) ∧ Admission.deny.code = 2) ∧ (ready.NoHeld ∧ ready.NoOffer) ∧
      (let s := ready.setHeld 0 (some ⟨16, 12, .waterflow⟩)
       min 16 7 < s.reserve ∧ s.heldAt (Poster.inputAlarm 0).position = some ⟨16, 12, .waterflow⟩ ∧
         s.caseOfKey ⟨16, 12, .waterflow⟩ = none ∧ s.cases.length < 48 ∧ s.otherCases < 48 - min 16 7) ∧
      Cls.test.code = 5 := by decide +kernel

theorem test_witness_LoweredReserveOffers_first (q : Poster) : ¬ q.position < (Poster.inputAlarm 0).position :=
  fun h => absurd (Fin.lt_def.mp h) (Nat.not_lt_zero _)

theorem test_witness_DestinationWritten :
    (⟨4, 7, 1, 9⟩ : Account).digits = [4, 7, 1, 9] ∧ TogglePolicy.perCall.code = 1 ∧
      [DialSym.pause, .hash].map DialSym.code = [12, 11] ∧ (∃ y ∈ [DialSym.pause, .hash], y ≠ .pause) ∧
      (ready.dest 7).callLine = none ∧ ((calling .exchange call0 (alarm .fire)).dest 0).callLine.isSome := by decide +kernel

theorem test_witness_DestinationStateSet :
    (State.reset.dest 7).dial = [] ∧ (ready.dest 7).dial ≠ [] ∧ (State.reset.dest 7).state = .disabled ∧
      (ready.dest 7).state ≠ .disabled := by decide +kernel

/-- A disable of destination 0 moves the case that waits there to destination 1, or strands it where destination 1 is refusing. -/
theorem test_disable_moves :
    let s := holding { alarm .boiler with progress := ⟨0, 1, 0⟩, failed := 1, retry := 50 }
    let r := s.setDest 1 { openDest with state := .refusing }
    s.pendingAt 0 0 = true ∧ r.pendingAt 0 0 = true ∧
      ((after (.setDestinationState 31 0 1) s).caseAt 0).map (fun c => (c.state, c.progress, c.failed, c.retry)) =
        some (.pending, ⟨1, 0, 0⟩, 1, 0) ∧
      ((after (.setDestinationState 31 0 1) r).caseAt 0).map (fun c => (c.state, c.progress, c.failed, c.retry)) =
        some (.stranded, ⟨0, 0, 1⟩, 1, 50) := by decide +kernel

theorem test_witness_PlanWritten :
    Cls.test.code = 5 ∧ ([7, 0, 1, 2] : List (Fin 8)).map Fin.val = [7, 0, 1, 2] ∧
      ([7, 0, 1, 2] : List (Fin 8)).length ≤ 4 ∧ ([7, 0, 1, 2] : List (Fin 8)).Nodup := by decide

theorem test_witness_LineEnabled :
    firstOfTwo 1 = some false ∧ DialMode.pulse.code = 2 ∧ (lineIn .idle id).NoOffer ∧
      (let s := lineIn .off fun l => { l with enabled := false, sample := some ⟨20, 0⟩ }
       s.NoOffer ∧ (s.line 0).sample = some ⟨20, 0⟩) ∧
      (let s := lineIn .off fun l => { l with enabled := false, sample := some ⟨19, 0⟩ }
       s.NoOffer ∧ (s.line 0).sample = some ⟨19, 0⟩) ∧
      (let s := lineIn .off fun l => { l with enabled := false, sample := some ⟨2, 0⟩ }
       s.NoOffer ∧ (s.line 0).sample = some ⟨2, 0⟩) ∧
      (calling .exchange { call0 with closePending := true } (alarm .fire)).NoOffer ∧ (lineIn .guarded id).NoOffer ∧
      (calling .dialling { judged0 with dialling := some ⟨.tone, 2, none, true, some 2000, false⟩ } (alarm .fire)).NoOffer := by
  decide +kernel

theorem test_witness_calls_sound (st : LineState) (h : st = .idle ∨ st = .exchange) :
    (if st = .idle then lineIn st id else calling st call0 (alarm .fire)).CallsSound := by
  rcases h with rfl | rfl <;> exact ⟨by decide +kernel, by decide +kernel, by decide +kernel, by decide +kernel⟩

theorem test_witness_LineDisabled :
    (calling .offHook call0 (alarm .fire)).Carries 0 call0 0 (carried (alarm .fire)) ∧
      (calling .offHook call0 (alarm .fire)).CallsSound := by
  refine ⟨⟨?_, ?_, ?_, ?_, ?_, ?_, ?_, ?_⟩, ⟨?_, ?_, ?_, ?_⟩⟩ <;> decide +kernel

theorem test_witness_LineDisabled_permit :
    ({ calling .awaitPermit call0 (alarm .fire) with permit := ⟨some 3, some 300, [⟨0, true⟩]⟩ } : State).Carries 0 call0 0
      (carried (alarm .fire)) := by
  refine ⟨?_, ?_, ?_, ?_, ?_, ?_, ?_, ?_⟩ <;> decide +kernel

/-- Line 0 in FAULT (NO LOOP) with its trouble case in slot 0 HELD. -/
def faulted : State :=
  (lineIn .fault fun l => { l with cause := .noLoop, failures := 3, faultHold := some 300000, recovery := some 10000 }).setCase 0
    { Case.new (lineKey 0) none .verified 0 with owed := [], state := .held, reported := true }

theorem test_witness_LineDisabled_fault :
    (faulted.line 0).state = .fault ∧ faulted.NoOffer ∧ ∃ u : State, faulted.RestoredTo (lineKey 0) u :=
  ⟨by decide +kernel, by decide +kernel, _,
    .leavesHeld 0 { Case.new (lineKey 0) none .verified 0 with owed := [], state := .held, reported := true } _ (by decide)
      (by decide +kernel) (by decide +kernel) rfl rfl (.stays (by decide +kernel))⟩

theorem test_witness_TimersWritten : TestMode.auto.code = 2 := rfl

theorem test_witness_InputWritten :
    (Cls.boiler.code = 3 ∧ LatchMode.latching.code = 1 ∧ Sampling.fast.code = 1) ∧
      ((channel id).setCase 0 channelCase).caseAt 0 = some channelCase ∧ channelCase.key.source = 16 + 0 := by decide +kernel

theorem test_witness_InputWritten_free (k : Fin 48) (x : Case) (h : (channel id).caseAt k = some x) :
    x.key.source ≠ 16 + 7 := by
  have : ∀ k : Fin 48, (channel id).caseAt k = none := by decide +kernel
  rw [this k] at h
  cases h

theorem test_witness_InputStateSet :
    ((channel id).NoOffer ∧ ((channel id).input 0).enabled = true ∧ ((channel id).input 0).alarm ≠ .raised ∧
      ((channel id).input 0).trouble ≠ .raised) ∧ (ready.input 7).enabled = false ∧
      (let s := (channel fun c => { c with alarm := .raised, latch := .latching }).setCase 0 channelCase
       s.NoOffer ∧ (s.input 0).alarm = .raised ∧ (s.input 0).trouble ≠ .raised ∧ (s.input 0).accepted = .normal ∧
         s.caseOfKey ⟨16 + 0, 12, .waterflow⟩ = some 0 ∧ s.caseAt 0 = some channelCase ∧ channelCase.condition = .active ∧
         channelCase.state ≠ .held) ∧
      (let s := channel fun c => { c with alarm := .raised, latch := .latching }
       s.NoOffer ∧ s.caseOfKey ⟨16 + 0, 12, .waterflow⟩ = none) ∧
      ((channel fun c => { c with alarm := .raised, latch := .latching, accepted := .active }).input 0).accepted ≠ .normal := by
  decide +kernel

/-- The HELD alarm case of a channel that is raised, and its restore. -/
theorem test_witness_InputStateSet_held :
    let x : Case := { channelCase with owed := [], state := .held, reported := true }
    let s := (channel fun c => { c with alarm := .raised, latch := .latching }).setCase 0 x
    s.NoOffer ∧ ∃ u : State, s.RestoredTo ⟨16 + 0, 12, .waterflow⟩ u :=
  ⟨by decide +kernel, _,
    .leavesHeld 0 { channelCase with owed := [], state := .held, reported := true } _ (by decide) (by decide +kernel)
      (by decide +kernel) rfl rfl (.stays (by decide +kernel))⟩

theorem test_witness_InputStateSet_trouble :
    let x : Case := { channelCase with key := ⟨16, 12, .trouble⟩ }
    let s := (channel fun c => { c with trouble := .raised, accepted := .short }).setCase 0 x
    s.NoOffer ∧ (s.input 0).alarm ≠ .raised ∧ ∃ v : State, s.RestoredTo ⟨16 + 0, 12, .trouble⟩ v :=
  ⟨by decide +kernel, by decide +kernel, _,
    .joins 0 { channelCase with key := ⟨16, 12, .trouble⟩ } (by decide) (by decide +kernel) (by decide +kernel) rfl (by decide)⟩

theorem test_witness_TestPosted :
    (ready.caseOfKey ⟨24, 0, .test⟩ = none ∧ ready.heldAt 20 = none ∧ ready.cases.length < 48 ∧
      ready.otherCases < 48 - ready.reserve ∧ ready.lowestFree = some 0 ∧ ready.NoOffer ∧ restsFirst ready .test) ∧
    (ready.setCase 0 (Case.new ⟨24, 0, .test⟩ none .verified 0)).caseOfKey ⟨24, 0, .test⟩ = some 0 ∧
    (ready.setHeld 20 (some ⟨24, 0, .test⟩)).heldAt 20 = some ⟨24, 0, .test⟩ ∧
    48 - ({ ready with reserve := 48 } : State).reserve ≤ ({ ready with reserve := 48 } : State).otherCases ∧
    (let s : State := { ready with testTimer := ⟨.single, 1, 0⟩ }
     s.testTimer.mode ≠ .off ∧ s.testTimer.remaining = 0 ∧ s.NoOffer ∧ restsFirst s .test) := by decide +kernel

theorem test_witness_ConfigRead : (ready.plan .fire).dests.length ≤ 4 := by decide +kernel

theorem test_witness_RecordsRead :
    (let s := channel fun c => { c with alarm := .retarding, retardTimer := some ⟨20, 0⟩ }
     (s.input 0).alarm = .retarding ∧ (s.input 0).retardTimer = some ⟨20, 0⟩) := by decide +kernel

theorem test_witness_CasesRanked :
    (alarm .fire).key.cls = .fire ∧ (alarm .fire).owed.head? = some .alarm ∧
      ¬ ((alarm .boiler).key.cls = .fire ∧ (alarm .boiler).owed.head? = some .alarm) := by decide

theorem test_witness_AdvanceSweeps : 2 < (⟨[2, 5, 6], 2, 2⟩ : Plan).dests.length ∧ 1 < (⟨[2, 5, 6], 2, 2⟩ : Plan).rounds := by
  decide

theorem test_witness_PassBindsFirst :
    let s := holding (alarm .boiler)
    s.CallsSound ∧ s.passesDue ≠ 0 ∧ s.ranked s.eligible = [0] ∧ s.caseAt 0 = some (alarm .boiler) ∧
      s.currentDest (alarm .boiler) = some 0 ∧ s.selectable 0 0 = true ∧ s.permit.holder = none ∧ s.permit.queue = [] := by
  refine ⟨⟨?_, ?_, ?_, ?_⟩, ?_, ?_, ?_, ?_, ?_, ?_, ?_⟩ <;> decide +kernel

theorem test_witness_PassWithoutWork :
    State.reset.passesDue ≠ 0 ∧ (∀ k : Fin 48, State.reset.eligible k = false) ∧
      (let s := { holding (alarm .boiler) with lines := Vector.replicate 4 { Line.atPowerOn with state := .inUse } }
       s.ranked s.eligible = [0] ∧ s.currentDest (alarm .boiler) = some 0 ∧ ∀ n : Fin 4, s.selectable 0 n = false) ∧
      (calling .awaitPermit call0 (alarm .fire)).permit.holder = none := by decide +kernel

theorem test_witness_FireMeasures :
    ([.guarded, .linger, .inUse, .off] : List LineState).all (fun st =>
      let s := { holding (alarm .fire) with
        lines := Vector.replicate 4 { Line.atPowerOn with
          state := st, call := if st = LineState.linger then some { call0 with dest := 7, current := none } else none } }
      decide (s.passesDue ≠ 0 ∧ s.ranked s.eligible = [0] ∧ s.caseAt 0 = some (alarm .fire) ∧
        s.currentDest (alarm .fire) = some 0 ∧ (∀ n : Fin 4, s.selectable 0 n = false) ∧ (s.line 3).state = st ∧
        s.compatible 3 0 = true)) = true := by decide +kernel

theorem test_witness_SampleTaken :
    (lineIn .idle id).NoOffer ∧ (lineIn .inUse id).NoOffer ∧ (lineIn .guarded id).NoOffer ∧
      (lineIn .fault fun l => { l with cause := .noVoltage }).NoOffer ∧
      (calling .offHook { call0 with check := .running 250 } (alarm .fire)).NoOffer ∧
      (calling .offHook { call0 with check := .awaitingSample } (alarm .fire)).NoOffer ∧
      (calling .offHook { judged0 with reference := some 40 } (alarm .fire)).NoOffer ∧
      (calling .dialling judged0 (alarm .fire)).NoOffer ∧
      (calling .exchange { judged0 with reference := some 40 } (alarm .fire)).NoOffer ∧
      1 ≤ ready.timing.differential ∧ (ready.timing.differential ≤ 40 - 31 ∧ 31 < 40) := by decide +kernel

theorem test_witness_LineReclassified :
    (let s := lineIn .inUse fun l => { l with classFilter := some 1000, band := .high }
     (s.line 0).classFilter.isSome ∧ (s.line 0).band = .high) ∧
      (let s := lineIn .idle fun l => { l with classFilter := some 200, band := .mid }
       (s.line 0).classFilter.isSome ∧ (s.line 0).band = .mid) ∧
      (let s := lineIn .guarded fun l => { l with guardTimer := some 2000, failures := 2, sample := some ⟨19, 0⟩ }
       (s.line 0).guardTimer.isSome ∧ (s.line 0).failures ≠ 3 ∧ (s.line 0).sample = some ⟨19, 0⟩) := by decide +kernel

theorem test_witness_FaultEntered :
    (let s := lineIn .idle fun l => { l with classFilter := some 10000, band := .low }
     s.caseOfKey (lineKey 0) = none ∧ s.heldAt (Poster.line 0).position = none ∧ (s.line 0).classFilter.isSome ∧ s.NoOffer ∧
       s.cases.length < 48 ∧ s.otherCases < 48 - s.reserve ∧ s.lowestFree = some 0) ∧
      (let s := { lineIn .guarded fun l => { l with guardTimer := some 2000, failures := 3, failureCause := .noLoop } with
          reserve := 48 }
       s.caseOfKey (lineKey 0) = none ∧ s.heldAt (Poster.line 0).position = none ∧ (s.line 0).guardTimer.isSome ∧ s.NoOffer ∧
         48 - s.reserve ≤ s.otherCases) := by decide +kernel

theorem test_witness_OvercurrentEndsCall :
    (calling .exchange judged0 (alarm .fire)).Carries 0 judged0 0 (carried (alarm .fire)) ∧
      (carried (alarm .fire)).key ≠ lineKey 0 := by
  refine ⟨⟨?_, ?_, ?_, ?_, ?_, ?_, ?_, ?_⟩, ?_⟩ <;> decide +kernel

theorem test_witness_FaultEntered_check :
    (let c := { call0 with check := .awaitingSample }
     (calling .offHook c (alarm .fire)).Carries 0 c 0 (carried (alarm .fire))) ∧
    (let c := { call0 with check := .running 250, sampled := true }
     let s := (calling .offHook c (alarm .fire)).updLine 0 fun l => { l with sample := some ⟨8, 121⟩ }
     s.Carries 0 c 0 (carried (alarm .fire)) ∧ (s.line 0).sample = some ⟨8, 121⟩) := by
  refine ⟨⟨?_, ?_, ?_, ?_, ?_, ?_, ?_, ?_⟩, ⟨?_, ?_, ?_, ?_, ?_, ?_, ?_, ?_⟩, ?_⟩ <;> decide +kernel

/-- The HELD trouble case of line 0. -/
def heldTrouble : Case := { Case.new (lineKey 0) none .verified 0 with owed := [], state := .held, reported := true }

/-- A lingering call meets an overcurrent with its line's trouble case HELD. -/
theorem test_witness_FaultEntered_linger :
    let s := lingering heldTrouble
    let l : Line := { s.line 0 with sample := some ⟨8, 150⟩, call := none }
    s.NoOffer ∧ (s.call 0).map Call.current = some none ∧
      ∃ u : State, State.PostedTo
        { s.callDropped 0 0 { l with state := .fault, cause := .overcurrent, classFilter := none, recovery := none,
                                     guardTimer := none, faultHold := some (s.timing.faultHold * 1000) } with
          causes := s.causes ||| 0x04 } (.line 0) (lineKey 0) u :=
  ⟨by decide +kernel, by decide +kernel, _, .stands 0 heldTrouble (by decide +kernel) (by decide +kernel) rfl⟩

theorem test_witness_FaultLeft :
    let s := (lineIn .fault fun l => { l with cause := .noLoop, failures := 3, faultHold := some 300000, recovery := some 10000 })
    let t := s.setCase 0 (Case.new (lineKey 0) none .verified 0)
    (s.NoOffer ∧ s.RestoredTo (lineKey 0) s ∧ (s.line 0).sample = none) ∧ t.NoOffer ∧
      ∃ u : State, t.RestoredTo (lineKey 0) u :=
  ⟨⟨by decide +kernel, .absent (by decide +kernel), by decide +kernel⟩, by decide +kernel, _,
    .joins 0 (Case.new (lineKey 0) none .verified 0) (by decide) (by decide +kernel) (by decide +kernel) rfl (by decide)⟩

theorem test_witness_SeizureTimed :
    (let s := { calling .awaitPermit call0 (alarm .fire) with permit := ⟨some 3, some 300, [⟨0, true⟩]⟩ }
     s.permit.stagger.isSome ∧ s.permit.queue = [⟨0, true⟩] ∧ s.call 0 = some call0) ∧
      (let c := { call0 with check := .running 250, sampled := true }
       let s := (calling .offHook c (alarm .fire)).updLine 0 fun l => { l with sample := some ⟨8, 8⟩ }
       s.call 0 = some c ∧ (s.line 0).sample = some ⟨8, 8⟩ ∧ s.NoOffer) ∧
      (let c := { judged0 with settleTimer := some 1000, dialToneWait := some 3000 }
       let s := (calling .offHook c (alarm .fire)).updLine 0 fun l => { l with sample := some ⟨8, 41⟩ }
       s.call 0 = some c ∧ (s.line 0).sample = some ⟨8, 41⟩ ∧ s.NoOffer) := by decide +kernel

theorem test_witness_SeizureTimed_first :
    let c := { call0 with check := .awaitingSample }
    (calling .offHook c (alarm .fire)).Carries 0 c 0 (carried (alarm .fire)) ∧ c.closePending = false := by
  refine ⟨⟨?_, ?_, ?_, ?_, ?_, ?_, ?_, ?_⟩, ?_⟩ <;> decide +kernel

/-- The call carries its case in each state the failures of a seizure, of a dialling and of an exchange are stated for. -/
theorem test_witness_carries :
    (let c := { call0 with check := .running 250, sampled := true }
     (calling .offHook c (alarm .fire)).Carries 0 c 0 (carried (alarm .fire))) ∧
    (let c := { judged0 with dialling := some ⟨.tone, 2, some 2000, true, none, false⟩ }
     (calling .dialling c (alarm .fire)).Carries 0 c 0 (carried (alarm .fire))) ∧
    (let c := { judged0 with handshake := some 25000 }
     (calling .awaitHandshake c (alarm .fire)).Carries 0 c 0 (carried (alarm .fire))) ∧
    (calling .exchange (awaiting 3) (alarm .fire)).Carries 0 (awaiting 3) 0 (carried (alarm .fire)) := by
  refine ⟨⟨?_, ?_, ?_, ?_, ?_, ?_, ?_, ?_⟩, ⟨?_, ?_, ?_, ?_, ?_, ?_, ?_, ?_⟩, ⟨?_, ?_, ?_, ?_, ?_, ?_, ?_, ?_⟩,
    ⟨?_, ?_, ?_, ?_, ?_, ?_, ?_, ?_⟩⟩ <;> decide +kernel

theorem test_witness_DialToneHeard :
    (let c := { judged0 with settleTimer := some 1000, dialTone := true }
     let s := (calling .offHook c (alarm .fire)).updLine 0 fun l => { l with sample := some ⟨8, 41⟩ }
     s.call 0 = some c ∧ s.NoOffer ∧ (s.dest 0).dial.head? = some (.digit 5) ∧ s.compatible 0 0 = true ∧
       (s.line 0).sample = some ⟨8, 41⟩) ∧
      (let c := { judged0 with settled := true, reference := some 41 }
       (calling .offHook c (alarm .fire)).call 0 = some c ∧ (calling .offHook c (alarm .fire)).NoOffer) ∧
      (calling .dialling { judged0 with dialling := some ⟨.tone, 2, none, false, some 200, false⟩ } (alarm .fire)).NoOffer := by
  decide +kernel

/-- Line 0 in OFF HOOK with call `c` to a destination whose string is a star, its dial mode PULSE. -/
def unpulsable (c : Call) : State :=
  ((calling .offHook c (alarm .fire)).setDest 0 { openDest with dial := [.star], callLine := some 0 }).updLine 0
    fun l => { l with mode := .pulse, sample := some ⟨8, 41⟩ }

theorem test_witness_DialToneHeard_abandoned :
    (let c := { judged0 with settleTimer := some 1000, dialTone := true }
     (unpulsable c).Carries 0 c 0 (carried (alarm .fire)) ∧ .star ∈ ((unpulsable c).dest 0).dial ∧
       ((unpulsable c).line 0).sample = some ⟨8, 41⟩) ∧
    (let c := { judged0 with settled := true, reference := some 41 }
     (unpulsable c).Carries 0 c 0 (carried (alarm .fire))) := by
  refine ⟨⟨⟨?_, ?_, ?_, ?_, ?_, ?_, ?_, ?_⟩, ?_, ?_⟩, ⟨?_, ?_, ?_, ?_, ?_, ?_, ?_, ?_⟩⟩ <;> decide +kernel

theorem test_witness_LineYields :
    (let c := { call0 with intrusion := some 200, current := none, linger := some 5000 }
     (calling .linger c (alarm .fire)).call 0 = some c) ∧
      (let c := { judged0 with intrusion := some 200 }
       let s := calling .exchange c (alarm .boiler)
       s.call 0 = some c ∧ c.current = some 0 ∧ s.caseAt 0 = some (carried (alarm .boiler)) ∧ s.NoOffer ∧
         s.usable 0 = true ∧ s.currentDest (carried (alarm .boiler)) = some c.dest) := by decide +kernel

/-- A WRITE LINE to TONE in leading pauses leaves the learned mode UNKNOWN, and one while the check runs does not (R123, R139). -/
theorem test_learned_after_write :
    let s := calling .dialling { judged0 with dialling := some ⟨.tone, 2, none, true, some 2000, false⟩ } (alarm .fire)
    let write := after (.writeLine 31 0 0 0 1)
    let start := after (.elementTimerExpiry 0)
    ((after (.dialToneOff 0) (start (write s))).line 0).learned = .unknown ∧
      ((after (.adaptiveCheckExpiry 0) (start (write s))).line 0).learned = .unknown ∧
      ((after (.dialToneOff 0) (write (start s))).line 0).learned = .tone ∧
      ((after (.adaptiveCheckExpiry 0) (write (start (write s)))).line 0).learned = .pulse := by decide +kernel

theorem test_witness_DiallingGoesOn :
    (let c := { judged0 with dialling := some ⟨.tone, 2, none, true, some 2000, false⟩ }
     let s := calling .dialling c (alarm .fire)
     s.call 0 = some c ∧ (s.dest 0).dial[2 - 1]? = some (.digit 0) ∧ (s.dest 0).dial[3 - 1]? = none) ∧
      (let c := { judged0 with dialling := some ⟨.tone, 2, some 2000, true, none, false⟩ }
       let s := calling .dialling c (alarm .fire)
       s.call 0 = some c ∧ (s.dest 0).dial.head? = some (.digit 5) ∧ .star ∉ (s.dest 0).dial ∧ .hash ∉ (s.dest 0).dial) := by
  decide +kernel

theorem test_witness_BlockComposed : (composeBlock (alarm .fire) openDest).isSome ∧ (alarm .fire).owed.head? = some .alarm := by
  decide

theorem test_witness_BlockExchanged :
    (let s := calling .awaitHandshake judged0 (alarm .fire)
     s.call 0 = some judged0 ∧ judged0.current = some 0 ∧ s.caseAt 0 = some (carried (alarm .fire))) ∧
      (let s := calling .exchange (awaiting 2) (alarm .fire)
       s.call 0 = some (awaiting 2) ∧ 2 + 1 ≤ s.exchange.repeatLimit ∧ s.NoOffer) := by decide +kernel

theorem test_witness_ChargedFailures :
    (let s := calling .awaitHandshake judged0 (alarm .fire)
     (carried (alarm .fire)).progress.attempts + 1 < (s.plan .fire).attempts ∧ ∀ m : Fin 4, s.lingersOn m = none) ∧
      (let x := { alarm .fire with progress := ⟨0, 1, 0⟩ }
       let s := calling .awaitHandshake judged0 x
       (s.plan .fire).attempts ≤ (carried x).progress.attempts + 1 ∧ s.caseAt 0 = some (carried x)) ∧
      (let s := (calling .awaitHandshake judged0 (alarm .fire)).setPlan .fire ⟨[1], 2, 2⟩
       s.currentDest (carried (alarm .fire)) ≠ some judged0.dest ∧ s.NoOffer ∧
         ∀ d : Fin 8, s.currentDest (carried (alarm .fire)) = some d → s.usable d = true ∧ s.NobodyOn d) := by decide +kernel

theorem test_witness_AcceptanceApplied :
    ([[.alarm], [.restore], [.alarm, .restore]] : List (List ReportKind)).all (fun owed =>
      let x := { alarm .boiler with owed := owed, condition := if owed = [.alarm] then .active else .restored }
      let s := calling .exchange (awaiting 0) x
      decide (s.call 0 = some (awaiting 0) ∧ s.caseAt 0 = some (carried x) ∧ s.NoOffer ∧ s.NoHeld ∧
        (∀ j : Fin 48, s.pendingAt 0 j = false) ∧ 1 < s.exchange.blockLimit ∧ s.exchange.linger ≠ 0 ∧
        (s.plan .boiler).dests.head? = some 0 ∧ s.usable 0 = true ∧ ∀ m : Fin 4, m ≠ 0 → s.lingersOn m = none)) = true ∧
      (holding (alarm .boiler)).pendingAt 0 0 = true := by decide +kernel

theorem test_witness_RefusalMovesCases :
    let s := calling .exchange (awaiting 0) (alarm .boiler)
    s.call 0 = some (awaiting 0) ∧ s.caseAt 0 = some (carried (alarm .boiler)) ∧ s.CallsSound := by
  refine ⟨?_, ?_, ⟨?_, ?_, ?_, ?_⟩⟩ <;> decide +kernel

theorem test_witness_LevelsAccepted :
    ([.quiet, .retarding, .raised, .cleared] : List AlarmStage).all (fun st =>
      let s := channel fun c =>
        { c with alarm := st, retard := 20, accepted := if st = .quiet then .normal else .active
                 candidate := some (if st = .quiet then .active else .normal), levelFilter := some 500 }
      decide (s.NoOffer ∧ s.caseOfKey ⟨16 + 0, 12, .waterflow⟩ = none ∧ (s.input 0).levelFilter.isSome)) = true := by
  decide +kernel

theorem test_witness_LevelsAccepted_restores :
    let s := (channel fun c => { c with alarm := .raised, accepted := .active, sampling := .fast }).setCase 0 channelCase
    s.NoOffer ∧ s.Accepts 0 .normal (.inputSample 0 175) (some 175) ∧ ∃ u : State, s.RestoredTo ⟨16 + 0, 12, .waterflow⟩ u :=
  ⟨by decide +kernel, ⟨by decide +kernel, .inl ⟨175, rfl, rfl, by decide +kernel, by decide +kernel, rfl⟩⟩, _,
    .joins 0 channelCase (by decide) (by decide +kernel) (by decide +kernel) rfl (by decide)⟩

theorem test_witness_LevelsAccepted_posts :
    let s := channel fun c => { c with candidate := some .active, levelFilter := some 500 }
    s.NoOffer ∧ s.Accepts 0 .active (.levelFilterExpiry 0) none ∧ (s.input 0).retard = 0 ∧
      ∃ u : State,
        (s.setInput 0 { s.input 0 with
          accepted := .active, candidate := none, levelFilter := none, alarm := .raised, retardTimer := none }).ChannelPostedTo
            0 (.inputAlarm 0) ⟨16 + 0, 12, .waterflow⟩ u :=
  ⟨by decide +kernel, ⟨by decide +kernel, .inr ⟨rfl, by decide +kernel, by decide +kernel, by decide +kernel⟩⟩, by decide +kernel, _,
    (if_pos (by decide +kernel)).mpr (.creates 0 _ (by decide) (by decide +kernel) (by decide +kernel) (by decide +kernel)
      (by decide +kernel) (.stays (by decide +kernel)))⟩

theorem test_witness_InputPosts :
    let s := channel fun c => { c with alarm := .retarding, retardTimer := some ⟨20, 0⟩ }
    s.NoOffer ∧ (s.input 0).written = true ∧ s.caseOfKey ⟨16 + 0, 12, .waterflow⟩ = none ∧
      s.heldAt (Poster.inputAlarm 0).position = none ∧ s.cases.length < 48 ∧ s.otherCases < 48 - s.reserve ∧ s.lowestFree = some 0 ∧ restsFirst s .waterflow := by decide +kernel

/-- OPEN accepted from ACTIVE while RETARDING, with room, without room, and with the trouble case owing its RESTORE. -/
theorem test_witness_InputPosts_trouble :
    let s := channel fun c => { c with accepted := .active, alarm := .retarding, retardTimer := some ⟨20, 0⟩, sampling := .fast }
    let ch : Channel := { s.input 0 with sample := some 176, accepted := .opened, alarm := .quiet, retardTimer := none,
                                         trouble := .raised }
    let key : Key := ⟨16 + 0, 12, .trouble⟩
    let r : Case := { channelCase with key := key, owed := [.alarm, .restore], condition := .restored }
    let full : State := { s with reserve := 48 }
    s.NoOffer ∧ s.Accepts 0 .opened (.inputSample 0 176) (some 176) ∧
      (∃ u : State, State.ChannelPostedTo { s.setInput 0 ch with causes := s.causes ||| 0x08 } 0 (.inputTrouble 0) key u) ∧
      (∃ u : State, State.ChannelPostedTo { full.setInput 0 ch with causes := s.causes ||| 0x08 } 0 (.inputTrouble 0) key u) ∧
      ∃ u : State, State.ChannelPostedTo { (s.setCase 0 r).setInput 0 ch with causes := s.causes ||| 0x08 } 0 (.inputTrouble 0) key u :=
  ⟨by decide +kernel, ⟨by decide +kernel, .inl ⟨176, rfl, rfl, by decide +kernel, by decide +kernel, rfl⟩⟩,
    ⟨_, (if_pos (by decide +kernel)).mpr (.creates 0 _ (by decide) (by decide +kernel) (by decide +kernel) (by decide +kernel)
      (by decide +kernel) (.stays (by decide +kernel)))⟩,
    ⟨_, (if_pos (by decide +kernel)).mpr (.isHeld (by decide +kernel) (by decide +kernel) (by decide +kernel))⟩,
    ⟨_, (if_pos (by decide +kernel)).mpr <| .renews 0 { channelCase with key := ⟨16 + 0, 12, .trouble⟩, owed := [.alarm, .restore], condition := .restored } _ (by decide)
      (by decide +kernel) (by decide +kernel) rfl (.counted [.alarm] (.inl rfl) rfl)⟩⟩

/-- A channel that was enabled and never written posts nothing at its retard's end, and posts once it has been written (R172). -/
theorem test_unwritten_posts_nothing :
    let s := channel fun c => { c with written := false, sampling := .fast }
    let t := after (.inputSample 0 0) (after (.inputSample 0 40) s)
    let u := after (.inputSample 0 40) (after (.writeInput 31 0 2 12 0 1 500 0) t)
    t.cases = [] ∧ t.heldAt 0 = none ∧ t.heldAt 1 = none ∧ (t.input 0).trouble = .raised ∧ (t.input 0).alarm = .raised ∧
      u.cases.map Case.key = [⟨16, 12, .waterflow⟩] := by decide +kernel

theorem test_witness_InputPosts_unwritten :
    let s := channel fun c => { c with written := false, alarm := .retarding, retardTimer := some ⟨20, 0⟩ }
    s.NoOffer ∧ (s.input 0).alarm = .retarding ∧
      (s.setInput 0 { s.input 0 with alarm := .raised, retardTimer := none }).ChannelPostedTo 0 (.inputAlarm 0)
        ⟨16 + 0, 12, .waterflow⟩ (s.setInput 0 { s.input 0 with alarm := .raised, retardTimer := none }) :=
  ⟨by decide +kernel, by decide +kernel, (if_neg (by decide +kernel)).mpr rfl⟩

/-- A held post of an older key stands when its channel posts under a new one without room (R22, R48). -/
theorem test_old_held_post_stands :
    let s := { (channel fun c => { c with alarm := .retarding, retardTimer := some ⟨20, 0⟩ }).setHeld 0 (some ⟨16, 5, .fire⟩) with
               reserve := 48 }
    let t := after (.retardTimerExpiry 0) s
    t.heldAt 0 = some ⟨16, 5, .fire⟩ ∧ t.cases = [] ∧ t.causes.getLsbD 5 = true ∧ (t.input 0).alarm = .raised ∧
      (after (.writeCaseLimits 31 8 4) t).cases.map Case.key = [⟨16, 5, .fire⟩] := by decide +kernel

theorem test_witness_InputPosts_old_held :
    let s := { (channel fun c => { c with alarm := .retarding, retardTimer := some ⟨20, 0⟩ }).setHeld 0 (some ⟨16, 5, .fire⟩) with
               reserve := 48 }
    s.NoOffer ∧ ∃ u : State, (s.setInput 0 { s.input 0 with alarm := .raised, retardTimer := none }).ChannelPostedTo 0 (.inputAlarm 0)
      ⟨16 + 0, 12, .waterflow⟩ u :=
  ⟨by decide +kernel, _, (if_pos (by decide +kernel)).mpr (.oldStands ⟨16, 5, .fire⟩ (by decide +kernel) (by decide +kernel)
    (by decide) (by decide +kernel))⟩

theorem test_witness_StepKeepsCaseRecords_held :
    let s := { (holding (alarm .boiler)).setHeld 0 (some ⟨16, 5, .fire⟩) with pending := [.clear 31 0] }
    s.pending.head? ≠ some .powerOnReset ∧ s.pending.head? ≠ some (.softReset 31) ∧ s.heldAt 0 = some ⟨16, 5, .fire⟩ ∧
      (after (.clear 31 0) s).cases.map Case.key = [⟨16, 5, .fire⟩] := by decide +kernel

/-- A post made where a case is created, held, and folded into a RESTORED case (R13, R20, R167). -/
theorem test_trouble_posted :
    let s := channel fun c => { c with candidate := some .opened, levelFilter := some 500 }
    let key : Key := ⟨16, 12, .trouble⟩
    ((after (.levelFilterExpiry 0) s).caseAt 0).map (fun c => (c.key, c.owed)) = some (key, [.alarm]) ∧
      (after (.levelFilterExpiry 0) { s with reserve := 48 }).heldAt 1 = some key ∧
      ((after (.levelFilterExpiry 0)
          (s.setCase 0 { channelCase with key := key, owed := [.restore], condition := .restored, reported := true })).caseAt 0).map
        (fun c => (c.owed, c.state)) = some ([], .held) := by decide +kernel

theorem test_witness_LineOutputsDriven :
    (let c := { judged0 with dialling := some ⟨.pulse, 2, none, false, some 1200, false⟩ }
     let s := calling .dialling c (alarm .fire)
     s.call 0 = some c ∧ (s.dest 0).dial[2 - 2]? = some (.digit 5) ∧ (s.dest 0).dial[2 - 1]? = some (.digit 0) ∧
       s.breakDrive 0 = 5 ∧ (after (.elementTimerExpiry 0) s).breakDrive 0 = 10) ∧
      (let c := { judged0 with handshake := some 25000 }
       let s := calling .awaitHandshake c (alarm .fire)
       s.call 0 = some c ∧ s.caseAt 0 = some (carried (alarm .fire)) ∧ (carried (alarm .fire)).owed ≠ []) ∧
      (let s := lingering (alarm .fire)
       (s.line 0).state = .linger ∧ ((s.call 0).bind Call.linger).isSome) ∧
      (calling .exchange (awaiting 0) (alarm .fire)).symbolDrive 0 = .silent := by decide +kernel

/-- A state with a call under way and a command waiting, for the invariants. -/
def underWay : State := { calling .exchange (awaiting 0) (alarm .boiler) with pending := [.receivedSymbol 0 12] }

theorem test_under_way_slots (k : Fin 48) :
    underWay.caseAt k = if k = 0 then some (carried (alarm .boiler)) else none := by
  revert k
  decide +kernel

theorem test_witness_StepKeepsCaseRecords : underWay.CasesSound ∧ underWay.KeysDistinct ∧
    step underWay = .next (after (.receivedSymbol 0 12) { underWay with pending := [] }) := by
  refine ⟨?_, ?_, rfl⟩
  · intro k c h
    rw [test_under_way_slots] at h
    split at h
    · cases h
      exact ⟨.inr (.inl rfl), by decide, by decide, by decide, by decide, by decide⟩
    · cases h
  · intro j k a b ha hb _
    rw [test_under_way_slots] at ha hb
    split at ha <;> split at hb <;> simp_all

theorem test_witness_StepKeepsPlanRule : underWay.PlanSound := by
  refine ⟨?_, ?_, by decide +kernel⟩
  · intro c
    cases c <;> decide +kernel
  · intro k c h _ _
    rw [test_under_way_slots] at h
    split at h
    · cases h
      decide +kernel
    · cases h

theorem test_witness_StepKeepsCalls : underWay.CarriedSound ∧ underWay.EnablesSound ∧ underWay.PermitSound := by
  refine ⟨⟨⟨?_, ?_, ?_, ?_⟩, ?_, ?_, ?_⟩, ⟨?_, ?_⟩, ⟨?_, ?_, ?_⟩⟩
  case refine_5 =>
    intro k c h _
    rw [test_under_way_slots] at h
    split at h
    · cases h
      subst k
      exact ⟨0, rfl, by decide +kernel⟩
    · cases h
  case refine_6 =>
    intro n k h
    have : ∀ n : Fin 4, (underWay.call n).bind Call.current = if n = 0 then some 0 else none := by decide +kernel
    rw [this] at h
    split at h
    · cases h
      subst n
      exact ⟨carried (alarm .boiler), by decide +kernel, rfl, rfl⟩
    · cases h
  case refine_7 =>
    intro n c h
    have : ∀ n : Fin 4, underWay.call n = if n = 0 then some (awaiting 0) else none := by decide +kernel
    rw [this] at h
    split at h
    · cases h
      subst n
      decide +kernel
    · cases h
  all_goals decide +kernel

theorem test_witness_StepKeepsRanges : underWay.SettingsInRange where
  reserve := by decide +kernel
  threshold := by decide +kernel
  classes := by intro c; cases c <;> (unfold ClassEntry.InRange; decide +kernel)
  plans := by intro c; cases c <;> (unfold Plan.InRange; decide +kernel)
  dests := by
    have : ∀ d : Fin 8, (underWay.dest d).dial = [] ∨
        ((underWay.dest d).dial.length ≤ 24 ∧ ∃ y ∈ (underWay.dest d).dial, y ≠ .pause) := by decide +kernel
    exact this
  timing := by unfold LineTiming.InRange; decide +kernel
  exchange := by unfold ExchangeTiming.InRange; decide +kernel
  inputs := by intro i; unfold Channel.InRange; revert i; decide +kernel
  testTimer := by unfold TestTimer.InRange; decide +kernel
  failures := by decide +kernel
  held := by
    intro p k h
    have : ∀ p : Fin 21, underWay.heldAt p = none := by decide +kernel
    rw [this] at h
    cases h
  keys := by
    intro k c h
    rw [test_under_way_slots] at h
    split at h
    · cases h
      exact ⟨by decide, by decide⟩
    · cases h

theorem test_witness_StepKeepsRanges_channels : underWay.ChannelsIdle ∧ underWay.UnwrittenSilent := by
  refine ⟨?_, ?_, ?_⟩
  · have : ∀ i : Fin 8, (underWay.input i).enabled = false →
        (underWay.input i).accepted = .normal ∧ (underWay.input i).candidate = none ∧ (underWay.input i).levelFilter = none ∧
          (underWay.input i).alarm = .quiet ∧ (underWay.input i).retardTimer = none ∧ (underWay.input i).trouble = .quiet := by
      decide +kernel
    exact this
  · intro i k c _ h
    rw [test_under_way_slots] at h
    split at h
    · cases h
      exact Nat.ne_of_lt (Nat.lt_of_lt_of_le (by decide) (Nat.le_add_right 16 i.val))
    · cases h
  · intro i p key _ h
    have : ∀ p : Fin 21, underWay.heldAt p = none := by decide +kernel
    rw [this] at h
    cases h

theorem test_witness_StepAnswersOffers : underWay.NoOffer := by decide +kernel

end Sys2Proof.Tests
end

