-- ==== Sys2Proof/Proofs/Keeps.lean ====
section
/-! SUPPORT. What an operation of the Case Table keeps, said once for each primitive change: the invariants of the records (`Keeps`), the cases and held posts that stand (`Steady`), and the calls left alone (`Quiet`). -/

namespace Sys2Proof.Machine

/-! ### The plan rule of one case -/

/-- A case's progress stands within its plan, where the plan is not empty (R64). -/
def State.Within (s : State) (c : Case) : Prop :=
  (s.plan c.key.cls).dests ≠ [] →
    c.progress.step < (s.plan c.key.cls).dests.length ∧ c.progress.attempts < (s.plan c.key.cls).attempts ∧
      c.progress.round < (s.plan c.key.cls).rounds

/-- What `PlanSound` asks of one case (R10, R64). -/
structure State.Fits (s : State) (c : Case) : Prop where
  within : c.state = .pending ∨ c.state = .sending → s.Within c
  usable : c.state = .pending → ∀ d, s.currentDest c = some d → s.usable d = true

/-- What `PlanSound` asks of the plans (R80). -/
def State.Limits (s : State) : Prop := ∀ c : Cls, 1 ≤ (s.plan c).attempts ∧ 1 ≤ (s.plan c).rounds

theorem State.pendingAt_iff (s : State) (d : Fin 8) (k : Fin 48) :
    s.pendingAt d k = true ↔ ∃ c, s.caseAt k = some c ∧ c.state = .pending ∧ s.currentDest c = some d := by
  unfold State.pendingAt
  cases s.caseAt k <;> simp

theorem State.planSound_iff (s : State) :
    s.PlanSound ↔ s.Limits ∧ ∀ k c, s.caseAt k = some c → s.Fits c := by
  constructor
  · intro h
    refine ⟨h.limits, fun k c hc => ⟨fun hs => h.within k c hc hs, fun hs d hd => ?_⟩⟩
    exact h.usable d k ((s.pendingAt_iff d k).mpr ⟨c, hc, hs, hd⟩)
  · rintro ⟨hl, hf⟩
    refine ⟨hl, fun k c hc hs => (hf k c hc).within hs, fun d k hk => ?_⟩
    obtain ⟨c, hc, hs, hd⟩ := (s.pendingAt_iff d k).mp hk
    exact (hf k c hc).usable hs d hd

/-- A case that neither waits nor is in flight fits every plan. -/
theorem State.Fits.of_idle {s : State} {c : Case} (hp : c.state ≠ .pending) (hs : c.state ≠ .sending) : s.Fits c :=
  ⟨fun h => (h.elim hp hs).elim, fun h => (hp h).elim⟩

/-- The start of a plan stands within it. -/
theorem State.Limits.within_zero {s : State} (hl : s.Limits) {c : Case} (h : c.progress = ⟨0, 0, 0⟩) : s.Within c := by
  intro hd
  rw [h]
  exact ⟨List.length_pos_of_ne_nil hd, (hl _).1, (hl _).2⟩

/-! ### The calls left alone -/

/-- What the invariants of the calls read in a call context. -/
def Call.face (c : Call) : Fin 8 × Option (Fin 48) × Bool := (c.dest, c.current, c.closePending)

/-- Line `l'` stands as `l` does, as far as the invariants of the calls see. -/
structure Line.Like (l l' : Line) : Prop where
  enabled : l'.enabled = l.enabled
  face : l'.call.map Call.face = l.call.map Call.face
  inCall : l'.state.inCall = l.state.inCall
  waiting : l'.state = .awaitPermit ↔ l.state = .awaitPermit
  linger : l'.state = .linger ↔ l.state = .linger
  off : l'.state = .off ↔ l.state = .off
  exchange : l.state = .exchange → l'.state = .exchange

theorem Line.Like.refl (l : Line) : l.Like l := ⟨rfl, rfl, rfl, .rfl, .rfl, .rfl, id⟩

theorem Line.Like.trans {a b c : Line} (h : a.Like b) (g : b.Like c) : a.Like c :=
  ⟨g.enabled.trans h.enabled, g.face.trans h.face, g.inCall.trans h.inCall, g.waiting.trans h.waiting,
    g.linger.trans h.linger, g.off.trans h.off, g.exchange ∘ h.exchange⟩

/-- The line a case is SENDING on, where it is SENDING. -/
def Case.sendingOn (c : Case) : Option (Option (Fin 4)) := if c.state = .sending then some c.line else none

/-- The line the case in slot `k` is SENDING on, where it is SENDING. -/
def State.sendingOn (s : State) (k : Fin 48) : Option (Option (Fin 4)) := (s.caseAt k).bind Case.sendingOn

/-- The calls, the queue for the permit and the cases in flight stand as they did. -/
structure State.Quiet (s t : State) : Prop where
  line : ∀ n, (s.line n).Like (t.line n)
  callLine : ∀ d, (t.dest d).callLine = (s.dest d).callLine
  queue : t.permit.queue.map PermitWait.line = s.permit.queue.map PermitWait.line
  sending : ∀ k, t.sendingOn k = s.sendingOn k

theorem State.Quiet.refl (s : State) : s.Quiet s := ⟨fun _ => .refl _, fun _ => rfl, rfl, fun _ => rfl⟩

theorem State.Quiet.trans {s t u : State} (h : s.Quiet t) (g : t.Quiet u) : s.Quiet u :=
  ⟨fun n => (h.line n).trans (g.line n), fun d => (g.callLine d).trans (h.callLine d), g.queue.trans h.queue,
    fun k => (g.sending k).trans (h.sending k)⟩

/-! ### The invariants kept -/

/-- Every invariant but that of the plans holds after where it held before. -/
structure State.KeepsRecords (s t : State) : Prop where
  sound : s.CasesSound → t.CasesSound
  distinct : s.KeysDistinct → t.KeysDistinct
  permit : s.PermitSound → t.PermitSound
  ranges : s.SettingsInRange → t.SettingsInRange
  idle : s.ChannelsIdle → t.ChannelsIdle
  silent : s.UnwrittenSilent → t.UnwrittenSilent

/-- Every invariant that is not about the calls holds after where it held before. -/
structure State.Keeps (s t : State) : Prop extends State.KeepsRecords s t where
  plan : s.PlanSound → t.PlanSound

theorem State.KeepsRecords.trans {s t u : State} (h : s.KeepsRecords t) (g : t.KeepsRecords u) : s.KeepsRecords u :=
  ⟨g.sound ∘ h.sound, g.distinct ∘ h.distinct, g.permit ∘ h.permit, g.ranges ∘ h.ranges, g.idle ∘ h.idle,
    g.silent ∘ h.silent⟩

theorem State.Keeps.refl (s : State) : s.Keeps s := ⟨⟨id, id, id, id, id, id⟩, id⟩

theorem State.Keeps.trans {s t u : State} (h : s.Keeps t) (g : t.Keeps u) : s.Keeps u :=
  ⟨h.toKeepsRecords.trans g.toKeepsRecords, g.plan ∘ h.plan⟩

/-- Every case of `s` is still in its slot in `t`, under its key. -/
def State.KeysKept (s t : State) : Prop :=
  ∀ k c, s.caseAt k = some c → ∃ c', t.caseAt k = some c' ∧ c'.key = c.key

theorem State.KeysKept.refl (s : State) : s.KeysKept s := fun _ c h => ⟨c, h, rfl⟩

theorem State.KeysKept.trans {s t u : State} (h : s.KeysKept t) (g : t.KeysKept u) : s.KeysKept u := by
  intro k c hc
  obtain ⟨c', hc', e⟩ := h k c hc
  obtain ⟨c'', hc'', e'⟩ := g k c' hc'
  exact ⟨c'', hc'', e'.trans e⟩

/-- The invariants are kept, no case leaves the table, and no held post is touched. -/
structure State.Steady (s t : State) : Prop extends State.Keeps s t where
  kept : s.KeysKept t
  held : t.heldPosts = s.heldPosts

theorem State.Steady.refl (s : State) : s.Steady s := ⟨.refl s, .refl s, rfl⟩

theorem State.Steady.trans {s t u : State} (h : s.Steady t) (g : t.Steady u) : s.Steady u :=
  ⟨h.toKeeps.trans g.toKeeps, h.kept.trans g.kept, g.held.trans h.held⟩

/-- A steady change that leaves the calls alone: what every operation of the Case Table on a case it holds is. -/
structure State.Tame (s t : State) : Prop extends State.Steady s t where
  quiet : s.Quiet t

theorem State.Tame.refl (s : State) : s.Tame s := ⟨.refl s, .refl s⟩

theorem State.Tame.trans {s t u : State} (h : s.Tame t) (g : t.Tame u) : s.Tame u :=
  ⟨h.toSteady.trans g.toSteady, h.quiet.trans g.quiet⟩

theorem State.Steady.of_eq {s t : State} (h : t = s) : s.Steady t := h ▸ .refl s

/-! ### The frame -/

/-- The settings of `t` are those of `s`, and its tables of cases, held posts and channels too. -/
structure State.SameSettings (s t : State) : Prop where
  slots : t.slots = s.slots := by rfl
  heldPosts : t.heldPosts = s.heldPosts := by rfl
  reserve : t.reserve = s.reserve := by rfl
  lowThreshold : t.lowThreshold = s.lowThreshold := by rfl
  classes : t.classes = s.classes := by rfl
  plans : t.plans = s.plans := by rfl
  timing : t.timing = s.timing := by rfl
  exchange : t.exchange = s.exchange := by rfl
  inputs : t.inputs = s.inputs := by rfl

/-- A change outside the tables and settings keeps the invariants where it keeps those of what it changes: the permit, the destinations'
strings and states, the failure counts and the test timer. -/
theorem State.Steady.frame {s t : State} (h : s.SameSettings t) (permit : s.PermitSound → t.PermitSound)
    (dial : ∀ d, (t.dest d).dial = (s.dest d).dial) (state : ∀ d, (t.dest d).state = (s.dest d).state)
    (failures : ∀ n, (s.line n).failures ≤ 3 → (t.line n).failures ≤ 3)
    (timer : s.testTimer.InRange → t.testTimer.InRange) : s.Steady t := by
  have hc : ∀ k, t.caseAt k = s.caseAt k := fun k => by simp only [State.caseAt, State.slot, h.slots]
  have hh : ∀ p, t.heldAt p = s.heldAt p := fun p => by simp only [State.heldAt, h.heldPosts]
  have hp : ∀ c, t.plan c = s.plan c := fun c => by simp only [State.plan, h.plans]
  have hi : ∀ i, t.input i = s.input i := fun i => by simp only [State.input, h.inputs]
  have he : ∀ c, t.classEntry c = s.classEntry c := fun c => by simp only [State.classEntry, h.classes]
  have hu : ∀ d, t.usable d = s.usable d := fun d => by simp only [State.usable, state]
  refine ⟨⟨⟨?_, ?_, permit, ?_, ?_, ?_⟩, ?_⟩, ?_, h.heldPosts⟩
  · intro g k c e; exact g k c (hc k ▸ e)
  · intro g j k a b ha hb; exact g j k a b (hc j ▸ ha) (hc k ▸ hb)
  · intro g
    refine ⟨h.reserve ▸ g.reserve, h.lowThreshold ▸ g.threshold, fun c => he c ▸ g.classes c, fun c => hp c ▸ g.plans c, ?_,
      h.timing ▸ g.timing, h.exchange ▸ g.exchange, fun i => hi i ▸ g.inputs i, timer g.testTimer,
      fun n => failures n (g.failures n), fun p k e => g.held p k (hh p ▸ e), fun k c e => g.keys k c (hc k ▸ e)⟩
    intro d
    have := g.dests d
    simp only [Destination.InRange, dial]
    exact this
  · intro g i hn; rw [hi] at hn ⊢; exact g i hn
  · intro g
    exact ⟨fun i k c hw e => g.cases i k c (hi i ▸ hw) (hc k ▸ e), fun i p key hw e => g.held i p key (hi i ▸ hw) (hh p ▸ e)⟩
  · intro g
    refine ⟨fun c => hp c ▸ g.limits c, fun k c e => hp c.key.cls ▸ g.within k c (hc k ▸ e), fun d k e => ?_⟩
    rw [hu]
    rw [State.pendingAt_iff, hc] at e
    obtain ⟨c, ec, es, ed⟩ := e
    refine g.usable d k ((s.pendingAt_iff d k).mpr ⟨c, ec, es, ?_⟩)
    rwa [State.currentDest, hp] at ed
  · intro k c e; exact ⟨c, (hc k).trans e, rfl⟩

/-! ### Changes outside the tables -/

theorem State.PermitSound.of_eq {s t : State} (h : s.PermitSound) (e : t.permit = s.permit) : t.PermitSound :=
  ⟨e ▸ h.stagger, e ▸ h.waiting, e ▸ h.fireFirst⟩

/-- A line written keeps the invariants where its failure count stays in range. -/
theorem State.Steady.updLine (s : State) (n : Fin 4) (f : Line → Line)
    (h : (s.line n).failures ≤ 3 → (f (s.line n)).failures ≤ 3) : s.Steady (s.updLine n f) := by
  refine .frame {} (·.of_eq rfl) (fun _ => rfl) (fun _ => rfl) (fun m => ?_) id
  rw [State.updLine_line]
  split
  · next e => subst e; exact h
  · exact id

theorem State.Steady.updCall (s : State) (n : Fin 4) (f : Call → Call) : s.Steady (s.updCall n f) :=
  .updLine s n _ id

/-- A destination written keeps the invariants where its dial string and state stay. -/
theorem State.Steady.updDest (s : State) (d : Fin 8) (f : Destination → Destination)
    (hd : (f (s.dest d)).dial = (s.dest d).dial) (hs : (f (s.dest d)).state = (s.dest d).state) :
    s.Steady (s.updDest d f) := by
  refine .frame {} (·.of_eq rfl) (fun e => ?_) (fun e => ?_) (fun _ => id) id
  all_goals
    rw [State.updDest_dest]
    split
    · next h => subst h; assumption
    · rfl

/-- The queue for the permit changed in a way that keeps the permit sound keeps the invariants. -/
theorem State.Steady.setPermit (s : State) (p : Permit) (h : s.PermitSound → State.PermitSound { s with permit := p }) :
    s.Steady { s with permit := p } :=
  .frame {} h (fun _ => rfl) (fun _ => rfl) (fun _ => id) id

/-- The model's own records, the causes, the clock and the reply are outside every invariant. -/
theorem State.Tame.own (s : State) (passes : Nat) (fire : Bool) (causes mask : Byte) (clock : Time) (reply : Option Reply)
    (out : List Byte) (free : Nat) (pending : List Instr) :
    s.Tame { s with
      passesDue := passes, fireWaiting := fire, causes := causes, mask := mask, clock := clock, reply := reply, serialOut := out
      freeCount := free, pending := pending } :=
  ⟨.frame {} ((·.of_eq rfl)) (fun _ => rfl) (fun _ => rfl) (fun _ => id) id,
    fun _ => .refl _, fun _ => rfl, rfl, fun _ => rfl⟩

theorem State.Tame.notify (s : State) : s.Tame s.notify := .own s ..
theorem State.Tame.raise (s : State) (c : Cause) : s.Tame (s.raise c) := .own s ..
theorem State.Tame.answer (s : State) (st : Status) (b : List Byte) : s.Tame (s.answer st b) := .own s ..
theorem State.Tame.notifyWhileFire (s : State) : s.Tame s.notifyWhileFire := by
  rw [State.notifyWhileFire_eq]; exact .own s ..
theorem State.Tame.takeFrame (s : State) (len : Nat) : s.Tame (s.takeFrame len) := by
  rw [State.takeFrame_eq]; exact .own s ..

/-- A line written in a way that leaves its call standing leaves every call alone. -/
theorem State.Quiet.updLine (s : State) (n : Fin 4) (f : Line → Line) (h : (s.line n).Like (f (s.line n))) :
    s.Quiet (s.updLine n f) := by
  refine ⟨fun m => ?_, fun _ => rfl, rfl, fun _ => rfl⟩
  rw [State.updLine_line]
  split
  · next e => subst e; exact h
  · exact .refl _

/-- A change of a call that keeps its destination, current case and close mark leaves every call alone. -/
theorem State.Quiet.updCall (s : State) (n : Fin 4) (f : Call → Call) (h : ∀ c, (f c).face = c.face) :
    s.Quiet (s.updCall n f) := by
  refine .updLine s n _ ⟨rfl, ?_, rfl, .rfl, .rfl, .rfl, id⟩
  rw [Option.map_map]
  congr 1
  funext c
  exact h c

theorem State.Quiet.updDest (s : State) (d : Fin 8) (f : Destination → Destination)
    (h : (f (s.dest d)).callLine = (s.dest d).callLine) : s.Quiet (s.updDest d f) := by
  refine ⟨fun _ => .refl _, fun e => ?_, rfl, fun _ => rfl⟩
  rw [State.updDest_dest]
  split
  · next e => subst e; exact h
  · rfl

/-! ### Changes of the table -/

/-- A case rewritten in its slot under its key keeps the invariants where it stays sound and within its plan. -/
theorem State.Steady.setCase {s : State} {k : Fin 48} {c c' : Case} (hc : s.caseAt k = some c) (key : c'.key = c.key)
    (sound : c.Sound → c'.Sound) (fits : s.Limits → s.Fits c → s.Fits c') : s.Steady (s.setCase k c') := by
  refine ⟨⟨⟨?_, ?_, (·.of_eq rfl), ?_, id, ?_⟩, ?_⟩, ?_, rfl⟩
  · intro g j x e
    rw [State.setCase_caseAt] at e
    split at e
    · cases e; exact sound (g k c hc)
    · exact g j x e
  · intro g i j a b ha hb hab
    rw [State.setCase_caseAt] at ha hb
    split at ha <;> split at hb
    · next h1 h2 => exact h1.symm.trans h2
    · next h1 h2 => cases ha; exact h1 ▸ g k j c b hc hb (key ▸ hab)
    · next h1 h2 => cases hb; exact h2 ▸ g i k a c ha hc (hab.trans key)
    · exact g i j a b ha hb hab
  · intro g
    refine ⟨g.reserve, g.threshold, g.classes, g.plans, g.dests, g.timing, g.exchange, g.inputs, g.testTimer, g.failures,
      g.held, fun j x e => ?_⟩
    rw [State.setCase_caseAt] at e
    split at e
    · cases e; exact key ▸ g.keys k c hc
    · exact g.keys j x e
  · intro g
    refine ⟨fun i j x hw e => ?_, g.held⟩
    rw [State.setCase_caseAt] at e
    split at e
    · cases e; exact key ▸ g.cases i k c hw hc
    · exact g.cases i j x hw e
  · intro g
    rw [State.planSound_iff] at g ⊢
    obtain ⟨hl, hf⟩ := g
    refine ⟨hl, fun j x e => ?_⟩
    rw [State.setCase_caseAt] at e
    have same : ∀ y, s.Fits y → (s.setCase k c').Fits y := fun y h => ⟨h.within, h.usable⟩
    split at e
    · cases e; exact same _ (fits hl (hf k c hc))
    · exact same _ (hf j x e)
  · intro j x e
    rw [State.setCase_caseAt]
    split
    · next h => subst h; rw [hc] at e; cases e; exact ⟨c', rfl, key⟩
    · exact ⟨x, e, rfl⟩

/-- A case written with the same place in the calls leaves the calls alone. -/
theorem State.Quiet.setCase {s : State} {k : Fin 48} {c' : Case} (h : c'.sendingOn = s.sendingOn k) :
    s.Quiet (s.setCase k c') := by
  refine ⟨fun _ => .refl _, fun _ => rfl, rfl, fun j => ?_⟩
  simp only [State.sendingOn, State.setCase_caseAt]
  split
  · next e => subst e; exact h
  · rfl

/-- What the poster of a new case must answer for: its key is in range and its channel, if any, has been written (R172). -/
structure State.MayPost (s : State) (key : Key) : Prop where
  inRange : s.SettingsInRange → key.InRange
  written : s.UnwrittenSilent → ∀ i : Fin 8, (s.input i).written = false → key.source ≠ 16 + i.val

/-- A case made in a free slot under a key no case holds keeps the invariants. -/
theorem State.Steady.newCase {s : State} {k : Fin 48} {c : Case} (hk : s.caseAt k = none) (hn : s.caseOfKey c.key = none)
    (hp : s.MayPost c.key) (sound : c.Sound) (fits : s.Limits → s.Fits c) : s.Steady (s.setCase k c) := by
  have hn := s.caseOfKey_eq_none.mp hn
  refine ⟨⟨⟨?_, ?_, (·.of_eq rfl), ?_, id, ?_⟩, ?_⟩, ?_, rfl⟩
  · intro g j x e
    rw [State.setCase_caseAt] at e
    split at e
    · cases e; exact sound
    · exact g j x e
  · intro g i j a b ha hb hab
    rw [State.setCase_caseAt] at ha hb
    split at ha <;> split at hb
    · next h1 h2 => exact h1.symm.trans h2
    · cases ha; exact absurd hab.symm (hn j b hb)
    · cases hb; exact absurd hab (hn i a ha)
    · exact g i j a b ha hb hab
  · intro g
    refine ⟨g.reserve, g.threshold, g.classes, g.plans, g.dests, g.timing, g.exchange, g.inputs, g.testTimer, g.failures,
      g.held, fun j x e => ?_⟩
    rw [State.setCase_caseAt] at e
    split at e
    · cases e; exact hp.inRange g
    · exact g.keys j x e
  · intro g
    refine ⟨fun i j x hw e => ?_, g.held⟩
    rw [State.setCase_caseAt] at e
    split at e
    · cases e; exact hp.written g i hw
    · exact g.cases i j x hw e
  · intro g
    rw [State.planSound_iff] at g ⊢
    obtain ⟨hl, hf⟩ := g
    refine ⟨hl, fun j x e => ?_⟩
    rw [State.setCase_caseAt] at e
    have same : ∀ y, s.Fits y → (s.setCase k c).Fits y := fun y h => ⟨h.within, h.usable⟩
    split at e
    · cases e; exact same _ (fits hl)
    · exact same _ (hf j x e)
  · intro j x e
    rw [State.setCase_caseAt]
    split
    · next h => subst h; rw [hk] at e; cases e
    · exact ⟨x, e, rfl⟩

/-- A slot emptied keeps the invariants, whatever its generation. -/
theorem State.Keeps.emptied (s : State) (k : Fin 48) (g : Fin 16) : s.Keeps (s.setSlot k ⟨g, none⟩) := by
  have sub : ∀ {j x}, (s.setSlot k ⟨g, none⟩).caseAt j = some x → s.caseAt j = some x := by
    intro j x e
    rw [State.setSlot_caseAt] at e
    split at e
    · cases e
    · exact e
  refine ⟨⟨fun h j x e => h j x (sub e), fun h i j a b ha hb => h i j a b (sub ha) (sub hb),
    (·.of_eq rfl), fun h => ?_, id, fun h => ?_⟩, fun h => ?_⟩
  · exact ⟨h.reserve, h.threshold, h.classes, h.plans, h.dests, h.timing, h.exchange, h.inputs, h.testTimer, h.failures,
      h.held, fun j x e => h.keys j x (sub e)⟩
  · exact ⟨fun i j x hw e => h.cases i j x hw (sub e), h.held⟩
  · rw [State.planSound_iff] at h ⊢
    exact ⟨h.1, fun j x e => ⟨(h.2 j x (sub e)).within, (h.2 j x (sub e)).usable⟩⟩

/-- A held-post position written keeps the invariants where its key may be posted. -/
theorem State.Keeps.setHeld (s : State) (p : Fin 21) (key : Option Key) (h : ∀ k, key = some k → s.MayPost k) :
    s.Keeps (s.setHeld p key) := by
  refine ⟨⟨id, id, (·.of_eq rfl), fun g => ?_, id, fun g => ?_⟩,
    fun g => ⟨g.limits, g.within, g.usable⟩⟩
  · refine ⟨g.reserve, g.threshold, g.classes, g.plans, g.dests, g.timing, g.exchange, g.inputs, g.testTimer, g.failures,
      fun q k e => ?_, g.keys⟩
    rw [State.setHeld_heldAt] at e
    split at e
    · exact (h k e).inRange g
    · exact g.held q k e
  · refine ⟨g.cases, fun i q k hw e => ?_⟩
    rw [State.setHeld_heldAt] at e
    split at e
    · exact (h k e).written g i hw
    · exact g.held i q k hw e

/-! ### A channel written -/

theorem State.SettingsInRange.setInput {s : State} (g : s.SettingsInRange) {i : Fin 8} {c : Channel}
    (range : (s.input i).InRange → c.InRange) : (s.setInput i c).SettingsInRange := by
  refine ⟨g.reserve, g.threshold, g.classes, g.plans, g.dests, g.timing, g.exchange, fun j => ?_, g.testTimer, g.failures, g.held,
    g.keys⟩
  rw [State.setInput_input]
  split
  · next e => subst e; exact range (g.inputs i)
  · exact g.inputs j

theorem State.ChannelsIdle.setInput {s : State} (g : s.ChannelsIdle) {i : Fin 8} {c : Channel}
    (idle : c.enabled = false → c.Idle) : (s.setInput i c).ChannelsIdle := by
  intro j
  rw [State.setInput_input]
  split
  · exact idle
  · exact g j

theorem State.UnwrittenSilent.setInput {s : State} (g : s.UnwrittenSilent) {i : Fin 8} {c : Channel}
    (marked : (s.input i).written = true → c.written = true) : (s.setInput i c).UnwrittenSilent := by
  have was : ∀ j, ((s.setInput i c).input j).written = false → (s.input j).written = false := by
    intro j hj
    rw [State.setInput_input] at hj
    split at hj
    · next e =>
      subst e
      cases hw : (s.input i).written
      · rfl
      · rw [marked hw] at hj; cases hj
    · exact hj
  exact ⟨fun j k x hw e => g.cases j k x (was j hw) e, fun j p key hw e => g.held j p key (was j hw) e⟩

/-- After what keeps the invariants, a channel is written: they are kept where it stays in range and marked, and is idle where disabled. -/
theorem State.Keeps.setInput {s t : State} (h : s.Keeps t) (i : Fin 8) (c : Channel) (range : (t.input i).InRange → c.InRange)
    (marked : (t.input i).written = true → c.written = true) (idle : s.ChannelsIdle → c.enabled = false → c.Idle) :
    s.Keeps (t.setInput i c) :=
  ⟨⟨h.sound, h.distinct, fun g => (h.permit g).of_eq rfl, fun g => (h.ranges g).setInput range,
    fun g => (h.idle g).setInput (idle g), fun g => (h.silent g).setInput marked⟩,
    fun g => ⟨(h.plan g).limits, (h.plan g).within, (h.plan g).usable⟩⟩

theorem State.Quiet.setInput (s : State) (i : Fin 8) (c : Channel) : s.Quiet (s.setInput i c) :=
  ⟨fun _ => .refl _, fun _ => rfl, rfl, fun _ => rfl⟩

end Sys2Proof.Machine
end

