-- ==== Sys2Proof/Proofs/CaseRules.lean ====
section
/-! SUPPORT. What a post, a restore, an acceptance and the plan rule do to one case record: they keep it sound (R6 to R11), and the plan rule leaves it within its plan (R10, R64). -/

namespace Sys2Proof.Machine

/-! ### One record -/

/-- A record whose report list, condition and counts stay is as sound as its state, line and failed total are. -/
theorem Case.Sound.of_same {c c' : Case} (h : c.Sound) (key : c'.key = c.key) (condition : c'.condition = c.condition)
    (owed : c'.owed = c.owed) (chatter : c'.chatter = c.chatter) (held : c'.state = .held ↔ c'.owed = [])
    (line : c'.line.isSome ↔ c'.state = .sending) (failed : c'.failed ≤ 255) : c'.Sound := by
  refine ⟨?_, held, line, chatter ▸ h.chatter, fun hq => chatter ▸ h.quiet (owed ▸ hq), failed⟩
  have := h.owed
  unfold Case.owedAllowed at this ⊢
  rwa [key, condition, owed]

/-- A sound case that is not HELD owes a report. -/
theorem Case.Sound.owes {c : Case} (h : c.Sound) (hs : c.state ≠ .held) : c.owed ≠ [] := fun e => hs (h.held.mpr e)

theorem Case.Sound.no_line {c : Case} (h : c.Sound) (hs : c.state ≠ .sending) : c.line = none := by
  cases hl : c.line with
  | none => rfl
  | some n => exact absurd (h.line.mp (by simp [hl])) hs

/-- The report list of a RESTORED non-TEST case ends with its RESTORE (R11). -/
theorem Case.Sound.owed_restored {c : Case} (h : c.Sound) (ht : c.key.cls ≠ .test) (hc : c.condition = .restored) :
    c.owed = [.restore] ∨ c.owed = [.alarm, .restore] ∨ c.owed = [.restore, .alarm, .restore] := by
  simpa [Case.owedAllowed, ht, hc] using h.owed

theorem Case.Sound.owed_active {c : Case} (h : c.Sound) (ht : c.key.cls ≠ .test) (hc : c.condition = .active) :
    c.owed = [] ∨ c.owed = [.alarm] ∨ c.owed = [.restore, .alarm] := by
  simpa [Case.owedAllowed, ht, hc] using h.owed

theorem Case.Sound.owed_test {c : Case} (h : c.Sound) (ht : c.key.cls = .test) :
    c.condition = .restored ∧ c.owed = [.test] := by
  simpa [Case.owedAllowed, ht] using h.owed

/-- An ACTIVE case is no TEST case, and a RESTORED one owes what R11 allows. -/
theorem Case.owedAllowed_of {c : Case} (ht : c.key.cls ≠ .test)
    (ha : c.condition = .active → c.owed = [] ∨ c.owed = [.alarm] ∨ c.owed = [.restore, .alarm])
    (hr : c.condition = .restored → c.owed = [.restore] ∨ c.owed = [.alarm, .restore] ∨ c.owed = [.restore, .alarm, .restore]) :
    c.owedAllowed := by
  unfold Case.owedAllowed
  rw [if_neg ht]
  split <;> [exact ha ‹_›; exact hr ‹_›]

/-- A case just created is sound. -/
theorem Case.new_sound (key : Key) (detail : Option Nat) (mark : Mark) (now : Time) : (Case.new key detail mark now).Sound := by
  refine ⟨?_, ?_, ?_, by simp [Case.new], by simp [Case.new], by simp [Case.new]⟩
  · by_cases ht : key.cls = .test <;> simp [Case.owedAllowed, Case.new, ht]
  · by_cases ht : key.cls = .test <;> simp [Case.new, ht]
  · simp [Case.new]

theorem Case.reposted_key (c : Case) (detail : Option Nat) : (c.reposted detail).key = c.key := by
  unfold Case.reposted
  simp only []
  split
  · rfl
  · split
    · rfl
    · split <;> rfl

/-- A post changes the state of a case only where its fold leaves nothing owed, and then the case was not in flight (R13). -/
theorem Case.reposted_state (c : Case) (detail : Option Nat) :
    ((c.reposted detail).state = c.state ∧ (c.reposted detail).line = c.line ∧ (c.reposted detail).progress = c.progress) ∨
      ((c.reposted detail).state = .held ∧ (c.reposted detail).owed = [] ∧ c.owed.length ≤ 1 ∧ c.state ≠ .sending) := by
  unfold Case.reposted
  simp only []
  split
  · exact .inl ⟨rfl, rfl, rfl⟩
  · split
    · exact .inl ⟨rfl, rfl, rfl⟩
    · next hf =>
      split
      · next hr =>
        have hl : c.owed.length ≤ 1 := by
          have := congrArg List.length hr
          rw [List.length_dropLast, List.length_nil] at this
          omega
        refine .inr ⟨rfl, rfl, hl, fun hs => hf ?_⟩
        simp [Case.tailInFlight, hs, hl]
      · exact .inl ⟨rfl, rfl, rfl⟩

/-- A post keeps a case sound (R11, R13, R14). -/
theorem Case.Sound.reposted {c : Case} (h : c.Sound) (detail : Option Nat) : (c.reposted detail).Sound := by
  by_cases hstay : c.key.cls = .test ∨ c.condition = .active
  · rw [show c.reposted detail = { c with detail := detail.or c.detail } from by simp [Case.reposted, hstay]]
    exact h.of_same rfl rfl rfl rfl h.held h.line h.failed
  have ht : c.key.cls ≠ .test := fun e => hstay (.inl e)
  have ha : c.condition ≠ .active := fun e => hstay (.inr e)
  have hc : c.condition = .restored := by cases hc : c.condition <;> simp_all
  have hchatter : min 9 (c.chatter + 1) ≤ 9 := Nat.min_le_left _ _
  rcases h.owed_restored ht hc with ho | ho | ho
  · by_cases hs : c.state = .sending
    · rw [show c.reposted detail = { c with detail := detail.or c.detail, owed := [.restore, .alarm], condition := .active } from by
        simp [Case.reposted, ht, hc, Case.tailInFlight, ho, hs]]
      exact ⟨Case.owedAllowed_of ht (by simp) (by simp), by simp [hs], h.line, h.chatter, by simp, h.failed⟩
    · rw [show c.reposted detail = { c with detail := detail.or c.detail, owed := [], condition := .active, state := .held, progress := .zero, failed := 0 } from by
        simp [Case.reposted, ht, hc, Case.tailInFlight, ho, hs]]
      exact ⟨Case.owedAllowed_of ht (by simp) (by simp), by simp, by simp [h.no_line hs], h.chatter,
        fun _ => h.quiet (by simp [ho]), by simp⟩
  all_goals
    have hh : c.state ≠ .held := fun e => by simp [h.held.mp e] at ho
    refine ⟨Case.owedAllowed_of (by simpa [Case.reposted_key] using ht) ?_ ?_, ?_, ?_, ?_, ?_, ?_⟩ <;>
      simp [Case.reposted, ht, hc, Case.tailInFlight, ho, hh, h.failed, h.line, hchatter]

theorem Case.restored_key (c : Case) (now : Time) : (c.restored now).key = c.key := by
  unfold Case.restored
  split
  · rfl
  · simp only []; split <;> rfl

/-- A restore changes the state of a HELD case only, to PENDING at the start of its plan (R12). -/
theorem Case.restored_state (c : Case) (now : Time) :
    ((c.restored now).state = c.state ∧ (c.restored now).line = c.line ∧ (c.restored now).progress = c.progress) ∨
      (c.state = .held ∧ (c.restored now).state = .pending ∧ (c.restored now).progress = ⟨0, 0, 0⟩) := by
  unfold Case.restored
  split
  · exact .inl ⟨rfl, rfl, rfl⟩
  · simp only []
    split
    · next hh => exact .inr ⟨hh, rfl, rfl⟩
    · exact .inl ⟨rfl, rfl, rfl⟩

/-- A restore keeps a case sound (R11, R12). -/
theorem Case.Sound.restored {c : Case} (h : c.Sound) (now : Time) : (c.restored now).Sound := by
  by_cases hstay : c.key.cls = .test ∨ c.condition = .restored
  · rw [show c.restored now = c from by simp [Case.restored, hstay]]
    exact h
  have ht : c.key.cls ≠ .test := fun e => hstay (.inl e)
  have hr : c.condition ≠ .restored := fun e => hstay (.inr e)
  have hc : c.condition = .active := by cases hc : c.condition <;> simp_all
  have howed : c.owed ++ [.restore] = [.restore] ∨ c.owed ++ [.restore] = [.alarm, .restore] ∨
      c.owed ++ [.restore] = [.restore, .alarm, .restore] := by
    rcases h.owed_active ht hc with e | e | e <;> simp [e]
  have hquiet : ReportKind.alarm ∉ c.owed ++ [.restore] → c.chatter = 0 := fun hn => h.quiet fun hm => hn (by simp [hm])
  by_cases hh : c.state = .held
  · rw [show c.restored now = { c with owed := c.owed ++ [.restore], condition := .restored, state := .pending, progress := .zero, retry := now } from by
      simp [Case.restored, ht, hc, hh]]
    exact ⟨Case.owedAllowed_of ht (by simp) (fun _ => howed), by simp, by simp [h.no_line (by simp [hh])], h.chatter, hquiet,
      h.failed⟩
  · rw [show c.restored now = { c with owed := c.owed ++ [.restore], condition := .restored } from by
      simp [Case.restored, ht, hc, hh]]
    exact ⟨Case.owedAllowed_of ht (by simp) (fun _ => howed), by simp [hh], h.line, h.chatter, hquiet, h.failed⟩

@[simp] theorem Case.acceptedBy_owed (c : Case) (now : Time) : (c.acceptedBy now).owed = c.owed.tail := by
  unfold Case.acceptedBy; simp only []; split <;> rfl

@[simp] theorem Case.acceptedBy_condition (c : Case) (now : Time) : (c.acceptedBy now).condition = c.condition := by
  unfold Case.acceptedBy; simp only []; split <;> rfl

@[simp] theorem Case.acceptedBy_key (c : Case) (now : Time) : (c.acceptedBy now).key = c.key := by
  unfold Case.acceptedBy; simp only []; split <;> rfl

@[simp] theorem Case.acceptedBy_progress (c : Case) (now : Time) : (c.acceptedBy now).progress = ⟨0, 0, 0⟩ := by
  unfold Case.acceptedBy; simp only []; split <;> rfl

/-- After an acceptance a case is HELD where it owes nothing more, and waits otherwise (R26). -/
@[simp] theorem Case.acceptedBy_state (c : Case) (now : Time) :
    (c.acceptedBy now).state = if c.owed.tail = [] then .held else .pending := by
  unfold Case.acceptedBy; simp only []; split <;> rfl

/-- An acceptance that does not retire its case keeps it sound (R26). -/
theorem Case.Sound.acceptedBy {c : Case} (h : c.Sound) (hs : c.state = .sending) (kind : OutcomeKind) (now : Time)
    (hlast : ¬ (c.owed.tail = [] ∧ c.condition = .restored)) :
    (Case.acceptedBy { c with last := kind, line := none } now).Sound := by
  have ht : c.key.cls ≠ .test := fun e => by obtain ⟨h1, h2⟩ := h.owed_test e; exact hlast (by simp [h1, h2])
  have hchatter := h.chatter
  cases hc : c.condition with
  | active =>
    rcases h.owed_active ht hc with ho | ho | ho
    · exact absurd ho (h.owes (by simp [hs]))
    all_goals
      refine ⟨Case.owedAllowed_of ?_ ?_ ?_, ?_, ?_, ?_, ?_, ?_⟩ <;> simp [Case.acceptedBy, ho, ht, hchatter]
  | restored =>
    rcases h.owed_restored ht hc with ho | ho | ho
    · exact absurd ⟨by simp [ho], hc⟩ hlast
    all_goals
      refine ⟨Case.owedAllowed_of ?_ ?_ ?_, ?_, ?_, ?_, ?_, ?_⟩ <;> simp [Case.acceptedBy, ho, ht, hchatter]

/-! ### The plan rule on one record -/

/-- `t` is `s` but for the notices to the Arbiter and the causes. -/
def State.Told (s t : State) : Prop := ∃ passes causes, t = { s with passesDue := passes, causes := causes }

theorem State.Told.refl (s : State) : s.Told s := ⟨_, _, rfl⟩
theorem State.Told.notify (s : State) : s.Told s.notify := ⟨_, _, rfl⟩
theorem State.Told.raise (s : State) (c : Cause) : s.Told (s.raise c) := ⟨_, _, rfl⟩
theorem State.Told.notifyWhileFire (s : State) : s.Told s.notifyWhileFire := ⟨_, _, s.notifyWhileFire_eq⟩

theorem State.Told.trans {s t u : State} (h : s.Told t) (g : t.Told u) : s.Told u := by
  obtain ⟨_, _, rfl⟩ := h
  obtain ⟨_, _, rfl⟩ := g
  exact ⟨_, _, rfl⟩

theorem State.Told.tame {s t : State} (h : s.Told t) : s.Tame t := by
  obtain ⟨_, _, rfl⟩ := h
  exact .own s ..

/-- `c'` is the case `c` after the plan rule or an advance: it waits at a usable destination within its plan, or is STRANDED. -/
structure State.Lands (s : State) (c c' : Case) : Prop where
  only : c' = { c with state := c'.state, progress := c'.progress, retry := c'.retry }
  state : c'.state = .pending ∨ c'.state = .stranded
  usable : c'.state = .pending → ∀ d, s.currentDest c' = some d → s.usable d = true
  within : s.Limits → s.Within c → c'.state = .pending → s.Within c'

theorem State.Lands.key {s : State} {c c' : Case} (h : s.Lands c c') : c'.key = c.key := by rw [h.only]
theorem State.Lands.line {s : State} {c c' : Case} (h : s.Lands c c') : c'.line = c.line := by rw [h.only]
theorem State.Lands.failed {s : State} {c c' : Case} (h : s.Lands c c') : c'.failed = c.failed := by rw [h.only]
theorem State.Lands.owed {s : State} {c c' : Case} (h : s.Lands c c') : c'.owed = c.owed := by rw [h.only]
theorem State.Lands.last {s : State} {c c' : Case} (h : s.Lands c c') : c'.last = c.last := by rw [h.only]

theorem State.Lands.not_sending {s : State} {c c' : Case} (h : s.Lands c c') : c'.state ≠ .sending := by
  rcases h.state with e | e <;> simp [e]

theorem State.Lands.not_held {s : State} {c c' : Case} (h : s.Lands c c') : c'.state ≠ .held := by
  rcases h.state with e | e <;> simp [e]

theorem State.Lands.fits {s : State} {c c' : Case} (h : s.Lands c c') (hl : s.Limits) (hw : s.Within c) : s.Fits c' :=
  ⟨fun g => h.within hl hw (g.resolve_right h.not_sending), h.usable⟩

/-- The plan rule keeps a waiting case sound. -/
theorem State.Lands.sound {s : State} {c c' : Case} (h : s.Lands c c') (hc : c.Sound) (hs : c.state = .pending) : c'.Sound := by
  have ho := hc.owes (by simp [hs])
  have hl := hc.no_line (by simp [hs])
  refine hc.of_same h.key (by rw [h.only]) h.owed (by rw [h.only]) ?_ ?_ (h.failed ▸ hc.failed)
  · simp [h.not_held, h.owed, ho]
  · simp [h.not_sending, h.line, hl]

/-- An advance of a case along a plan that is not empty, from the state with the case written: the case written anew, with the notices and
the cause of R66 and R90. -/
theorem State.advance_setCase (s : State) (k : Fin 48) (c : Case) (charged : Option (Fin 8))
    (hd : (s.plan c.key.cls).dests ≠ []) :
    ∃ c', s.Lands c c' ∧ (s.Limits → s.Fits c') ∧ (s.setCase k c').Told ((s.setCase k c).advance k charged) := by
  unfold State.advance
  simp only [State.setCase_caseAt, if_true, State.setCase_plan, hd, if_false]
  split
  · next d q h =>
    obtain ⟨hstep, hu, ha, hr⟩ := Plan.sweep_rest _ _ h
    generalize (if charged = some d then _ else _ : Time) = retry
    refine ⟨{ c with state := .pending, progress := q, retry := retry }, ?_⟩
    have fits : s.Limits → s.Fits { c with state := .pending, progress := q, retry := retry } := fun hl =>
      ⟨fun _ _ => ⟨(List.getElem?_eq_some_iff.mp hstep).1, ha ▸ (hl _).1, hr⟩, fun _ e he => by
        cases hstep.symm.trans he; exact hu⟩
    refine ⟨⟨rfl, .inl rfl, fun _ e he => ?_, fun hl _ _ => (fits hl).within (.inl rfl)⟩, fits, ?_⟩
    · cases hstep.symm.trans he; exact hu
    rw [State.setCase_setCase]
    exact .notify _
  · next q h =>
    refine ⟨{ c with state := .stranded, progress := q }, ?_⟩
    have fits : s.Fits { c with state := .stranded, progress := q } := .of_idle (by simp) (by simp)
    refine ⟨⟨rfl, .inr rfl, fits.usable, fun _ _ h => by cases h⟩, fun _ => fits, ?_⟩
    unfold State.strand
    rw [State.setCase_setCase]
    simp only []
    split
    · exact (State.Told.raise _ _).trans (.notifyWhileFire _)
    · exact .raise _ _

/-- The plan rule for a case just written PENDING: the case written anew, with the notices and the cause of R66 and R90. -/
theorem State.settle_setCase (s : State) (k : Fin 48) (c : Case) (hs : c.state = .pending) :
    ∃ c', s.Lands c c' ∧ (s.setCase k c').Told ((s.setCase k c).settle k) := by
  rw [State.settle_eq _ k c (by simp)]
  split
  · next h =>
    refine ⟨c, ⟨rfl, .inl hs, fun _ d hd => h d hd, fun _ hw _ => hw⟩, .notify _⟩
  · next h =>
    have hd : (s.plan c.key.cls).dests ≠ [] := by
      intro e; exact h fun d hd => by simp [State.currentDest, e] at hd
    obtain ⟨c', hl, -, ht⟩ := s.advance_setCase k c none hd
    exact ⟨c', hl, ht⟩

end Sys2Proof.Machine
end

