-- ==== Sys2Proof/Proofs/TableOps.lean ====
section
/-! SUPPORT. Every operation of the Case Table keeps the invariants: posts, restores, creations, offers of freed space, retirements, outcomes, and the sweeps of the waiting cases of a destination or of a class. -/

namespace Sys2Proof.Machine

variable (s : State)

/-! ### One case -/

theorem Case.sendingOn_of_ne {c : Case} (h : c.state ≠ .sending) : c.sendingOn = none := by simp [Case.sendingOn, h]

theorem Case.sendingOn_of_eq {c c' : Case} (hs : c'.state = c.state) (hl : c'.line = c.line) : c'.sendingOn = c.sendingOn := by
  simp [Case.sendingOn, hs, hl]

theorem State.sendingOn_of_caseAt {k : Fin 48} {c : Case} (h : s.caseAt k = some c) : s.sendingOn k = c.sendingOn := by
  simp [State.sendingOn, h]

/-- A case rewritten in its slot under its key, with its place in the calls, is a tame change where it stays sound and within its plan. -/
theorem State.Tame.setCase {s : State} {k : Fin 48} {c c' : Case} (hc : s.caseAt k = some c) (key : c'.key = c.key)
    (sound : c.Sound → c'.Sound) (fits : s.Limits → s.Fits c → s.Fits c') (place : c'.sendingOn = c.sendingOn) :
    s.Tame (s.setCase k c') :=
  ⟨.setCase hc key sound fits, .setCase (place.trans (s.sendingOn_of_caseAt hc).symm)⟩

theorem State.postCase_tame (k : Fin 48) (detail : Option Nat) : s.Tame (s.postCase k detail) := by
  unfold State.postCase
  split
  · exact .refl s
  · next c hc =>
    refine .setCase hc (c.reposted_key detail) (·.reposted detail) (fun _ hf => ?_) ?_
    all_goals rcases c.reposted_state detail with ⟨hs, hl, hp⟩ | ⟨hs, -, -, hn⟩
    · refine ⟨fun h => ?_, fun h d hd => ?_⟩
      · have := hf.within (hs ▸ h)
        simpa only [State.Within, c.reposted_key, hp] using this
      · refine hf.usable (hs ▸ h) d ?_
        simpa only [State.currentDest, c.reposted_key, hp] using hd
    · exact .of_idle (by simp [hs]) (by simp [hs])
    · exact Case.sendingOn_of_eq hs hl
    · rw [Case.sendingOn_of_ne hn, Case.sendingOn_of_ne (by simp [hs])]

/-- An advance along a plan that is not empty of a case that waits. -/
theorem State.advance_told {k : Fin 48} {c : Case} (hc : s.caseAt k = some c) (charged : Option (Fin 8))
    (hd : (s.plan c.key.cls).dests ≠ []) :
    ∃ c', s.Lands c c' ∧ (s.Limits → s.Fits c') ∧ (s.setCase k c').Told (s.advance k charged) := by
  have := s.advance_setCase k c charged hd
  rwa [State.setCase_self s hc] at this

theorem State.advance_tame {k : Fin 48} {c : Case} (hc : s.caseAt k = some c) (hs : c.state = .pending)
    (hd : (s.plan c.key.cls).dests ≠ []) : s.Tame (s.advance k none) := by
  obtain ⟨c', hl, hf, ht⟩ := s.advance_told hc none hd
  refine State.Tame.trans (.setCase hc hl.key (fun h => hl.sound h hs) (fun h _ => hf h) ?_) ht.tame
  rw [Case.sendingOn_of_ne hl.not_sending, Case.sendingOn_of_ne (by simp [hs])]

theorem State.restoreCase_tame (k : Fin 48) : s.Tame (s.restoreCase k) := by
  unfold State.restoreCase
  split
  · exact .refl s
  · next c hc =>
    simp only []
    split
    · next h =>
      obtain ⟨hh, hp⟩ := h
      obtain ⟨c', hl, ht⟩ := s.settle_setCase k (c.restored s.clock) hp
      have hz : (c.restored s.clock).progress = ⟨0, 0, 0⟩ := by
        rcases c.restored_state s.clock with ⟨hs, -, -⟩ | ⟨-, -, hz⟩
        · rw [hp, hh] at hs; cases hs
        · exact hz
      refine State.Tame.trans (.setCase hc (hl.key.trans (c.restored_key _)) (fun h => hl.sound (h.restored _) hp)
        (fun h _ => hl.fits h (h.within_zero hz)) ?_) ht.tame
      rw [Case.sendingOn_of_ne hl.not_sending, Case.sendingOn_of_ne (by simp [hh])]
    · next h =>
      rcases c.restored_state s.clock with ⟨hs, hl, hp⟩ | ⟨hh, hp, -⟩
      · refine .setCase hc (c.restored_key _) (·.restored _) (fun _ hf => ⟨fun g => ?_, fun g d hd => ?_⟩)
          (Case.sendingOn_of_eq hs hl)
        · have := hf.within (hs ▸ g)
          simpa only [State.Within, c.restored_key, hp] using this
        · refine hf.usable (hs ▸ g) d ?_
          simpa only [State.currentDest, c.restored_key, hp] using hd
      · exact absurd ⟨hh, hp⟩ h

theorem State.internalRestore_tame (key : Key) : s.Tame (s.internalRestore key) := by
  unfold State.internalRestore
  split
  · exact s.restoreCase_tame _
  · exact .refl s

theorem State.rearmCase_tame {k : Fin 48} {c : Case} (hc : s.caseAt k = some c) (hs : c.state = .stranded) :
    s.Tame (s.rearmCase k c) := by
  unfold State.rearmCase
  obtain ⟨c', hl, ht⟩ := s.settle_setCase k { c with state := .pending, progress := .zero, failed := 0, retry := s.clock } rfl
  refine State.Tame.trans (.setCase hc hl.key (fun h => hl.sound ?_ rfl) (fun h _ => hl.fits h (h.within_zero rfl)) ?_) ht.tame
  · exact h.of_same rfl rfl rfl rfl (by simp [h.owes (by simp [hs])]) (by simp [h.no_line (by simp [hs])]) (by simp)
  · rw [Case.sendingOn_of_ne hl.not_sending, Case.sendingOn_of_ne (by simp [hs])]

/-! ### Creation -/

/-- TABLE LOW noted is a cause raised or nothing. -/
theorem State.noteAdmission_eq (c : Cls) : ∃ b, s.noteAdmission c = { s with causes := b } := by
  unfold State.noteAdmission
  split <;> exact ⟨_, rfl⟩

/-- A creation writes one case, which stands as the plan rule leaves it. -/
theorem State.createAt_told (k : Fin 48) (key : Key) (detail : Option Nat) (mark : Mark) :
    ∃ c, s.Lands (Case.new key detail mark s.clock) c ∧ (s.setCase k c).Told (s.createAt k key detail mark) := by
  unfold State.createAt
  obtain ⟨b, hb⟩ := (s.setCase k (Case.new key detail mark s.clock)).noteAdmission_eq key.cls
  rw [hb]
  obtain ⟨c, hl, p, b', ht⟩ :=
    ({ s with causes := b } : State).settle_setCase k (Case.new key detail mark s.clock) rfl
  exact ⟨c, ⟨hl.only, hl.state, hl.usable, hl.within⟩, p, b', ht⟩

theorem State.createAt_tame {k : Fin 48} (key : Key) (detail : Option Nat) (mark : Mark) (hk : s.caseAt k = none)
    (hn : s.caseOfKey key = none) (hp : s.MayPost key) : s.Tame (s.createAt k key detail mark) := by
  obtain ⟨c, hl, ht⟩ := s.createAt_told k key detail mark
  have key' : c.key = key := hl.key
  refine State.Tame.trans ⟨.newCase hk (key' ▸ hn) (key' ▸ hp) (hl.sound (Case.new_sound ..) rfl)
    (fun h => hl.fits h (h.within_zero rfl)), .setCase ?_⟩ ht.tame
  rw [Case.sendingOn_of_ne hl.not_sending, State.sendingOn, hk]
  rfl

/-- A post admitted is one for a key no case holds, with room, made in the lowest free slot (R3, R17). -/
theorem State.acceptPost_some {key : Key} {detail : Option Nat} {mark : Mark} {k : Fin 48} {t : State}
    (h : s.acceptPost key detail mark = some (k, t)) :
    s.hasRoom key.cls = true ∧ s.caseOfKey key = none ∧ s.lowestFree = some k ∧ t = s.createAt k key detail mark := by
  unfold State.acceptPost at h
  split at h
  · next hr =>
    obtain ⟨j, hj, e⟩ := Option.map_eq_some_iff.mp h
    cases e
    exact ⟨hr.1, hr.2, hj, rfl⟩
  · cases h

theorem State.acceptPost_tame {key : Key} {detail : Option Nat} {mark : Mark} {k : Fin 48} {t : State}
    (h : s.acceptPost key detail mark = some (k, t)) (hp : s.MayPost key) : s.Tame t := by
  obtain ⟨-, hn, hk, rfl⟩ := s.acceptPost_some h
  exact s.createAt_tame key detail mark (s.lowestFree_some hk) hn hp

/-! ### Held posts -/

/-- No held post goes and no case leaves. -/
structure State.Posts (s t : State) : Prop extends State.Keeps s t where
  kept : s.KeysKept t
  mono : ∀ p key, s.heldAt p = some key → t.heldAt p = some key
  quiet : s.Quiet t

theorem State.Tame.posts {s t : State} (h : s.Tame t) : s.Posts t :=
  ⟨h.toKeeps, h.kept, fun p key e => by simpa only [State.heldAt, h.held] using e, h.quiet⟩

theorem State.Posts.trans {s t u : State} (h : s.Posts t) (g : t.Posts u) : s.Posts u :=
  ⟨h.toKeeps.trans g.toKeeps, h.kept.trans g.kept, fun p key e => g.mono p key (h.mono p key e), h.quiet.trans g.quiet⟩

/-- Held posts go only by admission, and none is added (R22, R24). -/
structure State.Admits (s t : State) : Prop extends State.Keeps s t where
  kept : s.KeysKept t
  stand : s.HeldStand t
  none : ∀ p, s.heldAt p = none → t.heldAt p = none

theorem State.Steady.admits {s t : State} (h : s.Steady t) : s.Admits t := by
  have hh : ∀ p, t.heldAt p = s.heldAt p := fun p => by simp only [State.heldAt, h.held]
  exact ⟨h.toKeeps, h.kept, fun p key e => .inl ((hh p).trans e), fun p e => (hh p).trans e⟩

theorem State.Admits.trans {s t u : State} (h : s.Admits t) (g : t.Admits u) : s.Admits u := by
  refine ⟨h.toKeeps.trans g.toKeeps, h.kept.trans g.kept, fun p key e => ?_, fun p e => g.none p (h.none p e)⟩
  rcases h.stand p key e with e' | ⟨e', k, x, hx, hk⟩
  · exact g.stand p key e'
  · obtain ⟨x', hx', hk'⟩ := g.kept k x hx
    exact .inr ⟨g.none p e', k, x', hx', hk'.trans hk⟩

theorem State.setHeld_quiet (p : Fin 21) (key : Option Key) : s.Quiet (s.setHeld p key) :=
  ⟨fun _ => .refl _, fun _ => rfl, rfl, fun _ => rfl⟩

/-- The held post of one position offered: it is admitted, in a slot that was free, or stands (R23, R24). -/
theorem State.offerHeld_admits (p : Poster) : s.Admits (s.offerHeld p) ∧ s.Quiet (s.offerHeld p) := by
  unfold State.offerHeld
  split
  · exact ⟨(State.Steady.refl s).admits, .refl s⟩
  next key hkey =>
  split
  · exact ⟨(State.Steady.refl s).admits, .refl s⟩
  next k t ht =>
  have hp : s.MayPost key := ⟨fun g => g.held _ _ hkey, fun g i hw => g.held i _ _ hw hkey⟩
  have h1 := s.acceptPost_tame ht hp
  obtain ⟨c, hc, hck⟩ : ∃ c, t.caseAt k = some c ∧ c.key = key := by
    obtain ⟨-, -, -, rfl⟩ := s.acceptPost_some ht
    obtain ⟨c, hl, p', b, e⟩ := s.createAt_told k key none .verified
    exact ⟨c, by rw [e]; exact (s.setCase_caseAt k k c).trans (if_pos rfl), hl.key⟩
  have hh : ∀ q, t.heldAt q = s.heldAt q := fun q => by simp only [State.heldAt, h1.held]
  have h2 : s.Admits (t.setHeld p.position none) := by
    refine ⟨h1.toKeeps.trans (.setHeld t _ _ (by simp)), h1.kept, fun q key' e => ?_, fun q e => ?_⟩
    · rw [State.setHeld_heldAt]
      split
      · next eq =>
        subst eq
        rw [hkey] at e; cases e
        exact .inr ⟨rfl, k, c, hc, hck⟩
      · exact .inl ((hh q).trans e)
    · rw [State.setHeld_heldAt]
      split
      · rfl
      · exact (hh q).trans e
  have q2 : s.Quiet (t.setHeld p.position none) := h1.quiet.trans (t.setHeld_quiet _ _)
  simp only []
  split
  · exact ⟨h2, q2⟩
  · have h3 := (t.setHeld p.position none).restoreCase_tame k
    exact ⟨h2.trans h3.toSteady.admits, q2.trans h3.quiet⟩

theorem State.offerSpace_admits : s.Admits s.offerSpace ∧ s.Quiet s.offerSpace := by
  unfold State.offerSpace
  generalize Poster.order = ps
  induction ps generalizing s with
  | nil => exact ⟨(State.Steady.refl s).admits, .refl s⟩
  | cons p ps ih =>
    obtain ⟨h, q⟩ := s.offerHeld_admits p
    obtain ⟨h', q'⟩ := ih (s.offerHeld p)
    exact ⟨h.trans h', q.trans q'⟩

theorem State.recordHeld_posts (p : Poster) (key : Key) (hp : s.MayPost key) : s.Posts (s.recordHeld p key) := by
  unfold State.recordHeld
  split
  · next h =>
    refine State.Posts.trans ⟨.setHeld s _ _ ?_, .refl s, fun q key' e => ?_, s.setHeld_quiet _ _⟩ (State.Tame.raise _ _).posts
    · rintro k ⟨⟩; exact hp
    · rw [State.setHeld_heldAt, if_neg]
      · exact e
      · rintro rfl; rw [h] at e; cases e
  · exact (State.Tame.raise s _).posts

theorem State.internalPost_posts (p : Poster) (key : Key) (hp : s.MayPost key) : s.Posts (s.internalPost p key).2 := by
  unfold State.internalPost
  split
  · exact (s.postCase_tame _ _).posts
  · split
    · exact (State.Tame.refl s).posts
    · split
      · next ht => exact (s.acceptPost_tame ht hp).posts
      · exact s.recordHeld_posts p key hp

theorem State.lineKey_mayPost (n : Fin 4) : s.MayPost (lineKey n) := by
  refine ⟨fun _ => ⟨?_, ?_⟩, fun _ i _ => ?_⟩
  all_goals simp only [lineKey]; omega

theorem State.testKey_mayPost : s.MayPost testKey := by
  refine ⟨fun _ => ⟨?_, ?_⟩, fun _ i _ => ?_⟩
  all_goals simp only [testKey]; omega

/-! ### Retirement -/

theorem State.vacate_keeps (k : Fin 48) : s.Keeps (s.vacate k) := by
  unfold State.vacate
  split
  · exact .refl s
  · simp only []
    split
    · exact (State.Keeps.emptied s k _).trans (State.Tame.notifyWhileFire _).toKeeps
    · exact .emptied s k _

@[simp] theorem State.vacate_heldPosts (k : Fin 48) : (s.vacate k).heldPosts = s.heldPosts := by
  unfold State.vacate
  split
  · rfl
  · simp only []; split <;> simp

/-- In two parts: first no held post goes, then held posts go only by admission. So each stands or is admitted. -/
def State.Upholds (s t : State) : Prop :=
  ∃ v, (s.Keeps v ∧ ∀ p key, s.heldAt p = some key → v.heldAt p = some key) ∧ v.Admits t

theorem State.Upholds.keeps {s t : State} : s.Upholds t → s.Keeps t := fun ⟨_, h, g⟩ => h.1.trans g.toKeeps

theorem State.Upholds.heldStand {s t : State} : s.Upholds t → s.HeldStand t :=
  fun ⟨_, h, g⟩ p key e => g.stand p key (h.2 p key e)

theorem State.Upholds.after {s t u : State} : s.Upholds t → t.Steady u → s.Upholds u :=
  fun ⟨v, h, g⟩ g' => ⟨v, h, g.trans g'.admits⟩

theorem State.Posts.upholds {s t u : State} (h : s.Posts t) (g : t.Upholds u) : s.Upholds u :=
  let ⟨v, h', g'⟩ := g
  ⟨v, ⟨h.toKeeps.trans h'.1, fun p key e => h'.2 p key (h.mono p key e)⟩, g'⟩

theorem State.Steady.upholds {s t u : State} (h : s.Steady t) (g : t.Upholds u) : s.Upholds u :=
  let ⟨v, h', g'⟩ := g
  ⟨v, ⟨h.toKeeps.trans h'.1, fun p key e => h'.2 p key (by simpa only [State.heldAt, h.held] using e)⟩, g'⟩

theorem State.Upholds.refl (s : State) : s.Upholds s := ⟨s, ⟨.refl s, fun _ _ => id⟩, (State.Steady.refl s).admits⟩

theorem State.Admits.upholds {s t : State} (h : s.Admits t) : s.Upholds t := ⟨s, ⟨.refl s, fun _ _ => id⟩, h⟩

theorem State.retire_upholds (k : Fin 48) : s.Upholds (s.retire k) :=
  ⟨s.vacate k, ⟨s.vacate_keeps k, fun p key e => by simpa only [State.heldAt, State.vacate_heldPosts] using e⟩,
    (State.offerSpace_admits _).1⟩

/-! ### Cases in flight -/

/-- The calls and the queue stand as they did, and so do the cases in flight, but that the case in slot `k` is now SENDING as `x` says. -/
structure State.Recarried (s t : State) (k : Fin 48) (x : Option (Option (Fin 4))) : Prop where
  line : ∀ n, (s.line n).Like (t.line n)
  callLine : ∀ d, (t.dest d).callLine = (s.dest d).callLine
  queue : t.permit.queue.map PermitWait.line = s.permit.queue.map PermitWait.line
  sending : ∀ j, t.sendingOn j = if k = j then x else s.sendingOn j

theorem State.Recarried.after {s t u : State} {k : Fin 48} {x : Option (Option (Fin 4))} (h : s.Recarried t k x)
    (g : t.Quiet u) : s.Recarried u k x :=
  ⟨fun n => (h.line n).trans (g.line n), fun d => (g.callLine d).trans (h.callLine d), g.queue.trans h.queue,
    fun j => (g.sending j).trans (h.sending j)⟩

theorem State.Recarried.setCase (k : Fin 48) (c : Case) : s.Recarried (s.setCase k c) k c.sendingOn := by
  refine ⟨fun _ => .refl _, fun _ => rfl, rfl, fun j => ?_⟩
  simp only [State.sendingOn, State.setCase_caseAt]
  split <;> rfl

theorem State.Recarried.vacate {k : Fin 48} {c : Case} (hc : s.caseAt k = some c) : s.Recarried (s.vacate k) k none := by
  unfold State.vacate
  rw [hc]
  have h : ∀ g, s.Recarried (s.setSlot k ⟨g, none⟩) k none := by
    intro g
    refine ⟨fun _ => .refl _, fun _ => rfl, rfl, fun j => ?_⟩
    simp only [State.sendingOn, State.setSlot_caseAt]
    split <;> rfl
  simp only []
  split
  · exact (h _).after (State.Tame.notifyWhileFire _).quiet
  · exact h _

/-- A retirement of a case that is not in flight leaves the calls alone. -/
theorem State.vacate_quiet {k : Fin 48} (h : s.sendingOn k = none) : s.Quiet (s.vacate k) := by
  cases hc : s.caseAt k with
  | none => rw [show s.vacate k = s from by simp [State.vacate, hc]]; exact .refl s
  | some c =>
    have := State.Recarried.vacate s hc
    refine ⟨this.line, this.callLine, this.queue, fun j => (this.sending j).trans ?_⟩
    split
    · next e => subst e; exact h.symm
    · rfl

theorem State.retire_quiet {k : Fin 48} (h : s.sendingOn k = none) : s.Quiet (s.retire k) :=
  (s.vacate_quiet h).trans (State.offerSpace_admits _).2

theorem State.Steady.sendOn {s : State} {k : Fin 48} {c : Case} (hc : s.caseAt k = some c) (hs : c.state = .pending) (n : Fin 4) :
    s.Steady (s.sendOn k n) := by
  unfold State.sendOn
  rw [hc]
  refine .setCase hc rfl (fun h => ?_) (fun _ hf => ⟨fun _ => hf.within (.inl hs), by simp⟩)
  exact h.of_same rfl rfl rfl rfl (by simp [h.owes (by simp [hs])]) (by simp) h.failed

/-- A case just sent is SENDING on its line. -/
theorem State.Recarried.sendOn {s : State} {k : Fin 48} {c : Case} (hc : s.caseAt k = some c) (n : Fin 4) :
    s.Recarried (s.sendOn k n) k (some (some n)) := by
  unfold State.sendOn
  rw [hc]
  exact .setCase s k { c with state := .sending, line := some n }

/-! ### Outcomes -/

/-- What an outcome writes over the case of `c`: it is off its line, under its key, sound and within its plan. -/
structure State.OutcomeOf (s : State) (c c' : Case) : Prop where
  key : c'.key = c.key
  state : c'.state ≠ .sending
  sound : c.Sound → c'.Sound
  fits : s.Limits → s.Within c → s.Fits c'

/-- An outcome's case passes under the plan rule: from the case written PENDING to the one it lands as. -/
theorem State.OutcomeOf.lands {s : State} {c b c' : Case} (h : s.Lands b c') (key : b.key = c.key)
    (sound : c.Sound → b.Sound) (hs : b.state = .pending) (within : s.Limits → s.Within c → s.Within b) : s.OutcomeOf c c' :=
  ⟨h.key.trans key, h.not_sending, fun g => h.sound (sound g) hs, fun hl hw => h.fits hl (within hl hw)⟩

theorem Case.Sound.unsent {c : Case} (h : c.Sound) (hs : c.state = .sending) (kind : OutcomeKind) (retry : Time) (failed : Nat)
    (hf : failed ≤ 255) (p : Progress) :
    Case.Sound { c with state := .pending, last := kind, line := none, retry := retry, failed := failed, progress := p } :=
  h.of_same rfl rfl rfl rfl (by simp [h.owes (by simp [hs])]) (by simp) hf

theorem State.uncharged_told {k : Fin 48} {c : Case} (hs : c.state = .sending) (kind : OutcomeKind) :
    ∃ c', s.OutcomeOf c c' ∧ (s.setCase k c').Told (s.uncharged k { c with last := kind, line := none }) := by
  obtain ⟨c', hl, ht⟩ := s.settle_setCase k { c with state := .pending, last := kind, line := none, retry := s.clock } rfl
  exact ⟨c', .lands hl rfl (fun h => h.unsent hs kind _ _ h.failed _) rfl (fun _ => id), ht⟩

theorem State.charge_told {k : Fin 48} {c : Case} {d : Fin 8} (hs : c.state = .sending) (kind : OutcomeKind)
    (hd : s.currentDest c = some d) :
    ∃ c', s.OutcomeOf c c' ∧ (s.setCase k c').Told (s.charge k { c with last := kind, line := none } d) := by
  have hne : (s.plan c.key.cls).dests ≠ [] := fun e => by simp [State.currentDest, e] at hd
  unfold State.charge
  simp only []
  split
  · next ha =>
    obtain ⟨c', hl, ht⟩ := s.settle_setCase k
      { c with state := .pending, last := kind, line := none, failed := min 255 (c.failed + 1)
               retry := s.after ((s.classEntry c.key.cls).spacing (min 255 (c.failed + 1)))
               progress := { c.progress with attempts := c.progress.attempts + 1 } } rfl
    refine ⟨c', .lands hl rfl (fun h => h.unsent hs kind _ _ (Nat.min_le_left _ _) _) rfl (fun _ hw hd => ?_), ht⟩
    obtain ⟨h1, -, h3⟩ := hw hd
    exact ⟨h1, ha, h3⟩
  · obtain ⟨c', hl, hf, ht⟩ := s.advance_setCase k
      { c with state := .pending, last := kind, line := none, failed := min 255 (c.failed + 1)
               progress := { c.progress with attempts := c.progress.attempts + 1 } } (some d) hne
    exact ⟨c', ⟨hl.key, hl.not_sending, fun h => hl.sound (h.unsent hs kind _ _ (Nat.min_le_left _ _) _) rfl, fun g _ => hf g⟩, ht⟩

theorem State.refused_told {k : Fin 48} {c : Case} {d : Fin 8} (hs : c.state = .sending) (kind : OutcomeKind)
    (hd : s.currentDest c = some d) :
    ∃ c', s.OutcomeOf c c' ∧
      (s.setCase k c').Told ((s.setCase k { c with state := .pending, last := kind, line := none }).advance k none) := by
  have hne : (s.plan c.key.cls).dests ≠ [] := fun e => by simp [State.currentDest, e] at hd
  obtain ⟨c', hl, hf, ht⟩ := s.advance_setCase k { c with state := .pending, last := kind, line := none } none hne
  exact ⟨c', ⟨hl.key, hl.not_sending, fun h => hl.sound (h.unsent hs kind _ _ h.failed _) rfl, fun g _ => hf g⟩, ht⟩

/-- An outcome other than an acceptance writes one case, which is then off its line (R25, R27, R28). -/
theorem State.applyOutcome_told {k : Fin 48} {c : Case} (kind : OutcomeKind) (d : Fin 8) (hc : s.caseAt k = some c)
    (hs : c.state = .sending) (hk : kind ≠ .accepted) :
    ∃ c', s.OutcomeOf c c' ∧ (s.setCase k c').Told (s.applyOutcome k kind d) := by
  unfold State.applyOutcome
  simp only [hc, hs, if_true, hk, if_false]
  split
  · next hd =>
    have hd : s.currentDest c = some d := hd
    split
    · have := s.charge_told (k := k) hs kind hd
      rwa [hs] at this
    · split
      · have := s.refused_told (k := k) hs kind hd
        simpa [hs] using this
      · have := s.uncharged_told (k := k) hs kind
        rwa [hs] at this
  · have := s.uncharged_told (k := k) hs kind
    rwa [hs] at this

/-- An acceptance retires its case, or writes it off its line (R26). -/
theorem State.applyOutcome_accepted {k : Fin 48} {c : Case} (d : Fin 8) (hc : s.caseAt k = some c) (hs : c.state = .sending) :
    (c.owed.tail = [] ∧ c.condition = .restored ∧ s.applyOutcome k .accepted d = s.retire k) ∨
      ∃ c', s.OutcomeOf c c' ∧ (s.setCase k c').Told (s.applyOutcome k .accepted d) := by
  unfold State.applyOutcome
  simp only [hc, hs, if_true, State.acceptCase]
  have hsound : c.Sound → ¬ (c.owed.tail = [] ∧ c.condition = .restored) →
      (Case.acceptedBy { c with last := .accepted, line := none } s.clock).Sound := fun h => h.acceptedBy hs .accepted s.clock
  rw [hs] at hsound
  generalize he : ({ c with state := .sending, last := .accepted, line := none } : Case) = e at hsound ⊢
  have ho : e.owed = c.owed := by rw [← he]
  have hr : e.condition = c.condition := by rw [← he]
  have hkey : e.key = c.key := by rw [← he]
  simp only [Case.acceptedBy_owed, Case.acceptedBy_condition, ho, hr]
  split
  · next ht =>
    split
    · next hr => exact .inl ⟨ht, hr, rfl⟩
    · next hr =>
      refine .inr ⟨e.acceptedBy s.clock, ⟨by simp [hkey], ?_, fun h => hsound h fun e => hr e.2, fun _ _ => .of_idle ?_ ?_⟩,
        .refl _⟩ <;> simp [ho, ht]
  · next ht =>
    have hp : (e.acceptedBy s.clock).state = .pending := by simp [ho, ht]
    obtain ⟨c', hl, hc'⟩ := s.settle_setCase k (e.acceptedBy s.clock) hp
    exact .inr ⟨c', .lands hl (by simp [hkey]) (fun h => hsound h fun e => ht e.1) hp
      (fun h _ => h.within_zero (by simp)), hc'⟩

theorem State.OutcomeOf.steady {s : State} {k : Fin 48} {c c' : Case} (h : s.OutcomeOf c c') (hc : s.caseAt k = some c)
    (hs : c.state = .sending) : s.Steady (s.setCase k c') :=
  .setCase hc h.key h.sound fun hl hf => h.fits hl (hf.within (.inr hs))

/-- An outcome other than an acceptance is a steady change. -/
theorem State.Steady.applyOutcome (k : Fin 48) (kind : OutcomeKind) (d : Fin 8) (hk : kind ≠ .accepted) :
    s.Steady (s.applyOutcome k kind d) := by
  cases hc : s.caseAt k with
  | none => exact .of_eq (by simp [State.applyOutcome, hc])
  | some c =>
    by_cases hs : c.state = .sending
    · obtain ⟨c', ho, ht⟩ := s.applyOutcome_told kind d hc hs hk
      exact (ho.steady hc hs).trans ht.tame.toSteady
    · exact .of_eq (s.applyOutcome_of_not_sending k kind d c hc hs)

theorem State.applyOutcome_upholds (k : Fin 48) (kind : OutcomeKind) (d : Fin 8) : s.Upholds (s.applyOutcome k kind d) := by
  by_cases hk : kind = .accepted
  · subst hk
    cases hc : s.caseAt k with
    | none => rw [show s.applyOutcome k .accepted d = s from by simp [State.applyOutcome, hc]]; exact .refl s
    | some c =>
      by_cases hs : c.state = .sending
      · rcases s.applyOutcome_accepted d hc hs with ⟨-, -, e⟩ | ⟨c', ho, ht⟩
        · rw [e]; exact s.retire_upholds k
        · exact (((ho.steady hc hs).trans ht.tame.toSteady).admits).upholds
      · rw [s.applyOutcome_of_not_sending k _ d c hc hs]; exact .refl s
  · exact (State.Steady.applyOutcome s k kind d hk).admits.upholds

/-- After an outcome the case that was in flight is so no more, and every other case and every call stands as it did. -/
theorem State.applyOutcome_recarried {k : Fin 48} {c : Case} (kind : OutcomeKind) (d : Fin 8) (hc : s.caseAt k = some c)
    (hs : c.state = .sending) : s.Recarried (s.applyOutcome k kind d) k none := by
  have told : ∀ {c'}, s.OutcomeOf c c' → (s.setCase k c').Told (s.applyOutcome k kind d) →
      s.Recarried (s.applyOutcome k kind d) k none := by
    intro c' ho ht
    have := (State.Recarried.setCase s k c').after ht.tame.quiet
    rwa [Case.sendingOn_of_ne ho.state] at this
  by_cases hk : kind = .accepted
  · subst hk
    rcases s.applyOutcome_accepted d hc hs with ⟨-, -, e⟩ | ⟨c', ho, ht⟩
    · rw [e]
      exact (State.Recarried.vacate s hc).after (State.offerSpace_admits _).2
    · exact told ho ht
  · obtain ⟨c', ho, ht⟩ := s.applyOutcome_told kind d hc hs hk
    exact told ho ht

end Sys2Proof.Machine
end

