-- ==== Sys2Proof/Proofs/TableFrame.lean ====
section
/-! SUPPORT. What the Case Table's operations leave: everything but the slots, the held posts, the notices and the causes. -/

namespace Sys2Proof.Machine

/-- `t` is `s` but for the slots, the held posts, the notices to the Arbiter and the causes. -/
def State.OnTable (s t : State) : Prop :=
  ∃ slots held passes causes, t = { s with slots := slots, heldPosts := held, passesDue := passes, causes := causes }

variable {s t u : State}

theorem State.OnTable.refl (s : State) : s.OnTable s := ⟨_, _, _, _, rfl⟩

theorem State.OnTable.trans (h : s.OnTable t) (g : t.OnTable u) : s.OnTable u := by
  obtain ⟨_, _, _, _, rfl⟩ := h
  obtain ⟨_, _, _, _, rfl⟩ := g
  exact ⟨_, _, _, _, rfl⟩

theorem State.Told.onTable (h : s.Told t) : s.OnTable t := by
  obtain ⟨_, _, rfl⟩ := h
  exact ⟨_, _, _, _, rfl⟩

/-! ### What stays -/

theorem State.OnTable.reserve (h : s.OnTable t) : t.reserve = s.reserve := by obtain ⟨_, _, _, _, rfl⟩ := h; rfl
theorem State.OnTable.fireWaiting (h : s.OnTable t) : t.fireWaiting = s.fireWaiting := by obtain ⟨_, _, _, _, rfl⟩ := h; rfl
theorem State.OnTable.dests (h : s.OnTable t) : t.dests = s.dests := by obtain ⟨_, _, _, _, rfl⟩ := h; rfl
theorem State.OnTable.dest (h : s.OnTable t) (d : Fin 8) : t.dest d = s.dest d := by obtain ⟨_, _, _, _, rfl⟩ := h; rfl
theorem State.OnTable.usable (h : s.OnTable t) (d : Fin 8) : t.usable d = s.usable d := by obtain ⟨_, _, _, _, rfl⟩ := h; rfl
theorem State.OnTable.plan (h : s.OnTable t) (c : Cls) : t.plan c = s.plan c := by obtain ⟨_, _, _, _, rfl⟩ := h; rfl
theorem State.OnTable.lines (h : s.OnTable t) : t.lines = s.lines := by obtain ⟨_, _, _, _, rfl⟩ := h; rfl
theorem State.OnTable.line (h : s.OnTable t) (n : Fin 4) : t.line n = s.line n := by obtain ⟨_, _, _, _, rfl⟩ := h; rfl
theorem State.OnTable.call (h : s.OnTable t) (n : Fin 4) : t.call n = s.call n := by obtain ⟨_, _, _, _, rfl⟩ := h; rfl
theorem State.OnTable.timing (h : s.OnTable t) : t.timing = s.timing := by obtain ⟨_, _, _, _, rfl⟩ := h; rfl
theorem State.OnTable.exchange (h : s.OnTable t) : t.exchange = s.exchange := by obtain ⟨_, _, _, _, rfl⟩ := h; rfl
theorem State.OnTable.permit (h : s.OnTable t) : t.permit = s.permit := by obtain ⟨_, _, _, _, rfl⟩ := h; rfl
theorem State.OnTable.input (h : s.OnTable t) (i : Fin 8) : t.input i = s.input i := by obtain ⟨_, _, _, _, rfl⟩ := h; rfl
theorem State.OnTable.testTimer (h : s.OnTable t) : t.testTimer = s.testTimer := by obtain ⟨_, _, _, _, rfl⟩ := h; rfl
theorem State.OnTable.clock (h : s.OnTable t) : t.clock = s.clock := by obtain ⟨_, _, _, _, rfl⟩ := h; rfl
theorem State.OnTable.reply (h : s.OnTable t) : t.reply = s.reply := by obtain ⟨_, _, _, _, rfl⟩ := h; rfl
theorem State.OnTable.closing (h : s.OnTable t) (n : Fin 4) : t.closing n = s.closing n := by obtain ⟨_, _, _, _, rfl⟩ := h; rfl

theorem State.OnTable.conditionPresent (h : s.OnTable t) (p : Poster) : t.conditionPresent p = s.conditionPresent p := by
  obtain ⟨_, _, _, _, rfl⟩ := h
  cases p <;> rfl

/-! ### The operations -/

theorem State.OnTable.setSlot (s : State) (k : Fin 48) (x : Slot) : s.OnTable (s.setSlot k x) := ⟨_, _, _, _, rfl⟩
theorem State.OnTable.setCase (s : State) (k : Fin 48) (c : Case) : s.OnTable (s.setCase k c) := ⟨_, _, _, _, rfl⟩
theorem State.OnTable.setHeld (s : State) (p : Fin 21) (key : Option Key) : s.OnTable (s.setHeld p key) := ⟨_, _, _, _, rfl⟩
theorem State.OnTable.notify (s : State) : s.OnTable s.notify := (State.Told.notify s).onTable
theorem State.OnTable.raise (s : State) (c : Cause) : s.OnTable (s.raise c) := (State.Told.raise s c).onTable
theorem State.OnTable.notifyWhileFire (s : State) : s.OnTable s.notifyWhileFire := (State.Told.notifyWhileFire s).onTable

/-- A case written, with notices and causes. -/
theorem State.Told.after_setCase {k : Fin 48} {c : Case} (h : (s.setCase k c).Told t) : s.OnTable t :=
  (State.OnTable.setCase s k c).trans h.onTable

theorem State.OnTable.strand (s : State) (k : Fin 48) (c : Case) (p : Progress) : s.OnTable (s.strand k c p) := by
  unfold State.strand
  have h := (State.OnTable.setCase s k { c with state := .stranded, progress := p }).trans (.raise _ .caseStranded)
  simp only []
  split
  · exact h.trans (.notifyWhileFire _)
  · exact h

theorem State.OnTable.advance (s : State) (k : Fin 48) (charged : Option (Fin 8)) : s.OnTable (s.advance k charged) := by
  rcases s.advance_cases k charged with e | ⟨c, -, ⟨d, q, r, -, -, -, -, e⟩ | ⟨q, -, e⟩⟩ <;> rw [e]
  · exact .refl s
  · exact (State.OnTable.setCase s k _).trans (.notify _)
  · exact .strand s k c q

theorem State.OnTable.settle (s : State) (k : Fin 48) : s.OnTable (s.settle k) := by
  cases hc : s.caseAt k with
  | none => rw [show s.settle k = s from by simp [State.settle, hc]]; exact .refl s
  | some c =>
    rw [s.settle_eq k c hc]
    split
    · exact .notify s
    · exact .advance s k none

theorem State.OnTable.restoreCase (s : State) (k : Fin 48) : s.OnTable (s.restoreCase k) := by
  unfold State.restoreCase
  split
  · exact .refl s
  · simp only []
    split
    · exact (State.OnTable.setCase s k _).trans (.settle _ k)
    · exact .setCase s k _

theorem State.OnTable.internalRestore (s : State) (key : Key) : s.OnTable (s.internalRestore key) := by
  unfold State.internalRestore
  split
  · exact .restoreCase s _
  · exact .refl s

theorem State.OnTable.createAt (s : State) (k : Fin 48) (key : Key) (detail : Option Nat) (mark : Mark) :
    s.OnTable (s.createAt k key detail mark) := by
  obtain ⟨c, -, ht⟩ := s.createAt_told k key detail mark
  exact ht.after_setCase

theorem State.OnTable.acceptPost {key : Key} {detail : Option Nat} {mark : Mark} {k : Fin 48}
    (h : s.acceptPost key detail mark = some (k, t)) : s.OnTable t := by
  obtain ⟨-, -, -, rfl⟩ := s.acceptPost_some h
  exact .createAt s k key detail mark

theorem State.OnTable.offerHeld (s : State) (p : Poster) : s.OnTable (s.offerHeld p) := by
  unfold State.offerHeld
  split
  · exact .refl s
  · split
    · exact .refl s
    · next ht =>
      simp only []
      split
      · exact (State.OnTable.acceptPost ht).trans (.setHeld _ _ _)
      · exact ((State.OnTable.acceptPost ht).trans (.setHeld _ _ _)).trans (.restoreCase _ _)

theorem State.OnTable.offerSpace (s : State) : s.OnTable s.offerSpace := by
  unfold State.offerSpace
  generalize Poster.order = ps
  induction ps generalizing s with
  | nil => exact .refl s
  | cons p ps ih => exact (State.OnTable.offerHeld s p).trans (ih _)

theorem State.OnTable.vacate (s : State) (k : Fin 48) : s.OnTable (s.vacate k) := by
  unfold State.vacate
  split
  · exact .refl s
  · simp only []
    split
    · exact (State.OnTable.setSlot s k _).trans (.notifyWhileFire _)
    · exact .setSlot s k _

theorem State.OnTable.retire (s : State) (k : Fin 48) : s.OnTable (s.retire k) :=
  (State.OnTable.vacate s k).trans (.offerSpace _)

theorem State.OnTable.postCase (s : State) (k : Fin 48) (detail : Option Nat) : s.OnTable (s.postCase k detail) := by
  unfold State.postCase
  split
  · exact .refl s
  · exact .setCase s k _

theorem State.OnTable.internalPost (s : State) (p : Poster) (key : Key) : s.OnTable (s.internalPost p key).2 := by
  unfold State.internalPost
  split
  · exact .postCase s _ _
  · split
    · exact .refl s
    · split
      · next ht => exact .acceptPost ht
      · unfold State.recordHeld
        split
        · exact (State.OnTable.setHeld s _ _).trans (.raise _ _)
        · exact .raise s _

theorem State.OnTable.applyOutcome (s : State) (k : Fin 48) (kind : OutcomeKind) (d : Fin 8) : s.OnTable (s.applyOutcome k kind d) := by
  cases hc : s.caseAt k with
  | none => rw [show s.applyOutcome k kind d = s from by simp [State.applyOutcome, hc]]; exact .refl s
  | some c =>
    by_cases hs : c.state = .sending
    · by_cases hk : kind = .accepted
      · subst hk
        rcases s.applyOutcome_accepted d hc hs with ⟨-, -, e⟩ | ⟨c', -, ht⟩
        · rw [e]; exact .retire s k
        · exact ht.after_setCase
      · obtain ⟨c', -, ht⟩ := s.applyOutcome_told kind d hc hs hk
        exact ht.after_setCase
    · rw [s.applyOutcome_of_not_sending k kind d c hc hs]; exact .refl s

end Sys2Proof.Machine
end

