-- ==== Sys2Proof/Proofs/LineOps.lean ====
section
/-! SUPPORT. Every operation of the Line Unit and of the Dispatch Arbiter keeps the invariants that are not about the calls; and what the ranking gives. -/

namespace Sys2Proof.Machine

variable (s : State)

/-! ### The ranking -/

theorem insertRank_perm (r : Rank) (rs : List Rank) : (insertRank r rs).Perm (r :: rs) := by
  induction rs with
  | nil => exact .refl _
  | cons x xs ih =>
    unfold insertRank
    split
    · exact .refl _
    · exact (ih.cons x).trans (.swap r x xs)

@[simp] theorem State.rankOf_slot (k : Fin 48) : (s.rankOf k).slot = k := by
  unfold State.rankOf; split <;> rfl

/-- Ranking reorders the slots it is given (R59). -/
theorem State.ranked_perm (p : Fin 48 → Bool) : (s.ranked p).Perm ((List.finRange 48).filter p) := by
  unfold State.ranked
  generalize (List.finRange 48).filter p = ks
  induction ks with
  | nil => exact .refl _
  | cons k ks ih =>
    rw [List.foldr_cons]
    refine ((insertRank_perm _ _).map _).trans ?_
    rw [List.map_cons, State.rankOf_slot]
    exact ih.cons k

theorem State.mem_ranked {p : Fin 48 → Bool} {k : Fin 48} : k ∈ s.ranked p ↔ p k = true := by
  rw [(s.ranked_perm p).mem_iff, List.mem_filter]
  exact and_iff_right (List.mem_finRange k)

theorem State.ranked_nodup (p : Fin 48 → Bool) : (s.ranked p).Nodup :=
  (s.ranked_perm p).nodup_iff.mpr ((List.nodup_finRange 48).filter p)

/-- The case given to a call that asks is PENDING at the call's destination (R98, R99). -/
theorem State.answerFor_give {d : Fin 8} {carried : Nat} {k : Fin 48} (h : s.answerFor d carried = .give k) :
    s.pendingAt d k = true := by
  unfold State.answerFor at h
  split at h
  · cases h
  · split at h
    · cases h
    · next j hj =>
      simp only [] at h
      split at h
      · cases h
      · cases h; exact s.mem_ranked.mp (List.mem_of_mem_head? hj)

/-- A case eligible for a call waits at a usable destination without a call (R87). -/
theorem State.eligible_pending {k : Fin 48} (h : s.eligible k = true) : ∃ c, s.caseAt k = some c ∧ c.state = .pending := by
  unfold State.eligible at h
  split at h
  · cases h
  · next c hc =>
    simp only [Bool.and_eq_true, decide_eq_true_eq] at h
    exact ⟨c, hc, h.1.1⟩

/-! ### Classification and faults -/

theorem State.Tame.tellEntry (st : LineState) : s.Tame (s.tellEntry st) := by
  unfold State.tellEntry
  split
  · exact .notify s
  · exact .notifyWhileFire s

theorem State.Steady.classify (n : Fin 4) : s.Steady (s.classify n) := by
  unfold State.classify
  refine State.Steady.trans (.updLine s n _ ?_) (State.Tame.tellEntry _ _).toSteady
  exact id

/-- Line `l` as it stands in FAULT (R116, R117). -/
def Line.inFault (l : Line) (cause : FaultCause) (holdMs : Nat) : Line :=
  { l with
    state := .fault, cause := cause, classFilter := none, recovery := none, guardTimer := none
    faultHold := if cause = .noVoltage then none else some holdMs }

/-- The part as it stands when line `n` has just entered FAULT and has not yet posted its trouble case. -/
def State.inFault (s : State) (n : Fin 4) (cause : FaultCause) : State :=
  { s.setLine n ((s.line n).inFault cause (s.timing.faultHold * 1000)) with
    causes := s.causes ||| 0x04
    passesDue := s.passesDue + if (s.line n).state = .guarded ∧ s.fireWaiting = true then 1 else 0 }

/-- A fault entry changes the line, raises LINE FAULT, and then posts the line's trouble key (R117). -/
theorem State.enterFault_eq (n : Fin 4) (cause : FaultCause) :
    s.enterFault n cause = ((s.inFault n cause).internalPost (.line n) (lineKey n)).2 := by
  have : s.inFault n cause =
      if (s.line n).state = .guarded then
        ((s.updLine n fun l => l.inFault cause (s.timing.faultHold * 1000)).raise .lineFault).notifyWhileFire
      else (s.updLine n fun l => l.inFault cause (s.timing.faultHold * 1000)).raise .lineFault := by
    split
    · next h => rw [State.notifyWhileFire_eq]; simp only [State.inFault, h, true_and]; rfl
    · next h => simp only [State.inFault, h, false_and, if_false]; rfl
  rw [this]
  rfl

theorem State.Steady.inFault (n : Fin 4) (cause : FaultCause) : s.Steady (s.inFault n cause) :=
  (State.Steady.updLine s n (fun l => l.inFault cause (s.timing.faultHold * 1000)) id).trans (State.Tame.own _ ..).toSteady

theorem State.enterFault_upholds (n : Fin 4) (cause : FaultCause) : s.Upholds (s.enterFault n cause) := by
  rw [State.enterFault_eq]
  exact (State.Steady.inFault s n cause).upholds
    ((State.internalPost_posts _ _ _ (State.lineKey_mayPost _ n)).upholds (.refl _))

theorem State.Steady.exitFault (n : Fin 4) (st : LineState) : s.Steady (s.exitFault n st) :=
  ((State.Steady.updLine s n _ id).trans (State.Tame.raise _ _).toSteady).trans (State.internalRestore_tame _ _).toSteady

theorem State.Steady.countFailure (n : Fin 4) (cause : FaultCause) : s.Steady (s.countFailure n cause) :=
  .updLine s n _ fun _ => Nat.min_le_left _ _

/-! ### The permit -/

theorem State.Steady.grantPermit (n : Fin 4) : s.Steady (s.grantPermit n) := by
  unfold State.grantPermit
  exact ((State.Steady.setPermit s { s.permit with holder := some n, stagger := some s.timing.stagger } fun h =>
    ⟨rfl, fun _ => rfl, h.fireFirst⟩).trans (.updLine _ n _ (by exact id))).trans (.updCall _ n _)

/-- A line that joins the queue stands behind the FIRE lines, and before the others where it is one (R110). -/
theorem joinQueue_fireFirst {q : List PermitWait} (w : PermitWait) (h : q.Pairwise fun a b => b.fire = true → a.fire = true) :
    (joinQueue q w).Pairwise fun a b => b.fire = true → a.fire = true := by
  unfold joinQueue
  split
  · next hw =>
    refine List.pairwise_append.mpr ⟨List.pairwise_append.mpr ⟨h.sublist List.filter_sublist, by simp, ?_⟩,
      h.sublist List.filter_sublist, ?_⟩
    · intro a ha b _ _; exact (List.mem_filter.mp ha).2
    · intro a ha b hb hf
      have := (List.mem_filter.mp hb).2
      rw [hf] at this; cases this
  · next hw =>
    refine List.pairwise_append.mpr ⟨h, by simp, ?_⟩
    intro a _ b hb hf
    rw [List.mem_singleton.mp hb] at hf
    exact absurd hf hw

theorem State.Steady.askPermit (n : Fin 4) (fire : Bool) : s.Steady (s.askPermit n fire) := by
  unfold State.askPermit
  split
  · exact .grantPermit s n
  · next hfree =>
    refine .setPermit s _ fun h => ⟨h.stagger, fun _ => ?_, joinQueue_fireFirst _ h.fireFirst⟩
    by_cases hq : s.permit.queue = []
    · cases hh : s.permit.holder with
      | none => exact absurd ⟨hh, hq⟩ hfree
      | some _ => rfl
    · exact h.waiting hq

theorem State.Steady.leaveQueue (n : Fin 4) : s.Steady (s.leaveQueue n) := by
  refine .setPermit s _ fun h => ⟨h.stagger, fun hq => h.waiting fun e => hq ?_, h.fireFirst.sublist List.filter_sublist⟩
  simp [e]

/-! ### Calls -/

theorem State.Steady.handOutcome (n : Fin 4) (kind : OutcomeKind) (hk : kind ≠ .accepted) : s.Steady (s.handOutcome n kind) := by
  unfold State.handOutcome
  split
  · exact .refl s
  · split
    · exact .refl s
    · exact ((State.Steady.updDest s _ _ rfl rfl).trans (.updCall _ n _)).trans (.applyOutcome _ _ _ _ hk)

theorem State.handOutcome_upholds (n : Fin 4) (kind : OutcomeKind) : s.Upholds (s.handOutcome n kind) := by
  unfold State.handOutcome
  split
  · exact .refl s
  · split
    · exact .refl s
    · exact ((State.Steady.updDest s _ _ rfl rfl).trans (.updCall _ n _)).upholds (State.applyOutcome_upholds _ _ _ _)

theorem State.Steady.endCall (n : Fin 4) : s.Steady (s.endCall n) := by
  unfold State.endCall
  split
  · exact .refl s
  · exact ((State.Steady.updDest s _ _ rfl rfl).trans (.updLine _ n _ id)).trans (State.Tame.notify _).toSteady

theorem State.Steady.release (n : Fin 4) : s.Steady (s.release n) := by
  unfold State.release
  refine (State.Steady.endCall s n).trans (.updLine _ n _ ?_)
  split <;> exact id

theorem State.Steady.failCall (n : Fin 4) (kind : OutcomeKind) (hk : kind ≠ .accepted) : s.Steady (s.failCall n kind) :=
  (State.Steady.handOutcome s n kind hk).trans (.release _ n)

theorem State.Steady.failLine (n : Fin 4) (kind : OutcomeKind) (cause : FaultCause) (hk : kind ≠ .accepted) :
    s.Steady (s.failLine n kind cause) :=
  ((State.Steady.handOutcome s n kind hk).trans (.countFailure _ n cause)).trans (.release _ n)

theorem State.overcurrent_upholds (n : Fin 4) : s.Upholds (s.overcurrent n) := by
  unfold State.overcurrent
  simp only []
  have h := (State.Steady.handOutcome s n .abandoned (by simp)).trans (.endCall _ n)
  split
  · exact (h.trans (.updLine _ n _ id)).admits.upholds
  · exact h.upholds (State.enterFault_upholds _ n _)

/-! ### Binding and the dispatch pass -/

theorem State.Steady.bind {s : State} {k : Fin 48} {c : Case} (hc : s.caseAt k = some c) (hs : c.state = .pending) (d : Fin 8)
    (n : Fin 4) : s.Steady (s.bind k d n) := by
  unfold State.bind
  exact (((State.Steady.sendOn hc hs n).trans (.updDest _ _ _ rfl rfl)).trans (.updLine _ n _ id)).trans (.askPermit _ n _)

/-- The ways a turn in a pass can go: nothing changes in the part, the case is bound to a line, or a lingering line is cut (R91, R94). -/
theorem PassRun.take_cases (r : PassRun) (k : Fin 48) :
    (r.take k).st = r.st ∨
    (∃ c d n, r.st.caseAt k = some c ∧ r.st.currentDest c = some d ∧ (r.st.dest d).callLine = none ∧
      (r.st.selectable d n = true ∨ r.st.forceable d n = true) ∧ (r.take k).st = r.st.bind k d n) ∨
    ∃ n, (r.st.line n).state = .linger ∧ (r.take k).st = r.st.release n := by
  unfold PassRun.take
  split
  · exact .inl rfl
  next c hc =>
  split
  · exact .inl rfl
  next d hd =>
  split
  · exact .inl rfl
  next hcall =>
  have hcall : (r.st.dest d).callLine = none := by simpa using hcall
  split
  · next n hn => exact .inr (.inl ⟨c, d, n, hc, hd, hcall, .inl (List.find?_some hn), rfl⟩)
  · split
    · unfold PassRun.fireMeasure
      split
      · exact .inl rfl
      · split
        · next n hn =>
          have := List.find?_some hn
          simp only [State.compatibleIn, Bool.and_eq_true, decide_eq_true_eq] at this
          exact .inr (.inr ⟨n, this.1, rfl⟩)
        · split
          · next n hn => exact .inr (.inl ⟨c, d, n, hc, hd, hcall, .inr (List.find?_some hn), rfl⟩)
          · exact .inl rfl
    · exact .inl rfl

/-! What a binding leaves of the other cases. -/

@[simp] theorem State.grantPermit_caseAt (n : Fin 4) (j : Fin 48) : (s.grantPermit n).caseAt j = s.caseAt j := rfl

@[simp] theorem State.askPermit_caseAt (n : Fin 4) (fire : Bool) (j : Fin 48) :
    (s.askPermit n fire).caseAt j = s.caseAt j := by
  unfold State.askPermit; split <;> rfl

@[simp] theorem State.sendOn_caseAt (k j : Fin 48) (n : Fin 4) :
    (s.sendOn k n).caseAt j =
      if k = j then (s.caseAt k).map fun c => { c with state := .sending, line := some n } else s.caseAt j := by
  unfold State.sendOn
  cases hc : s.caseAt k with
  | none =>
    simp only [Option.map_none]
    split
    · next e => subst e; exact hc
    · rfl
  | some c => simp

@[simp] theorem State.bind_caseAt (k j : Fin 48) (d : Fin 8) (n : Fin 4) :
    (s.bind k d n).caseAt j =
      if k = j then (s.caseAt k).map fun c => { c with state := .sending, line := some n } else s.caseAt j := by
  simp [State.bind]

@[simp] theorem State.endCall_caseAt (n : Fin 4) (j : Fin 48) : (s.endCall n).caseAt j = s.caseAt j := by
  unfold State.endCall; split <;> rfl

@[simp] theorem State.release_caseAt (n : Fin 4) (j : Fin 48) : (s.release n).caseAt j = s.caseAt j :=
  s.endCall_caseAt n j

/-- A turn in a pass changes no case but its own. -/
theorem PassRun.take_caseAt (r : PassRun) {k j : Fin 48} (h : j ≠ k) : (r.take k).st.caseAt j = r.st.caseAt j := by
  rcases r.take_cases k with e | ⟨c, d, n, -, -, -, -, e⟩ | ⟨n, -, e⟩ <;> rw [e]
  · simp [h.symm]
  · simp

/-- The cases of these slots wait. -/
def State.AllPending (s : State) (ks : List (Fin 48)) : Prop := ∀ k ∈ ks, ∀ c, s.caseAt k = some c → c.state = .pending

/-- A relation that each turn of a waiting case keeps holds over the turns of a list of waiting cases, none twice. -/
theorem PassRun.foldl_take {P : State → State → Prop} (refl : ∀ s, P s s) (trans : ∀ {s t u}, P s t → P t u → P s u)
    (turn : ∀ (r : PassRun) (k : Fin 48), (∀ c, r.st.caseAt k = some c → c.state = .pending) → P r.st (r.take k).st) :
    ∀ (ks : List (Fin 48)) (r : PassRun), ks.Nodup → r.st.AllPending ks → P r.st (ks.foldl PassRun.take r).st := by
  intro ks
  induction ks with
  | nil => intro r _ _; exact refl _
  | cons k ks ih =>
    intro r hn hp
    obtain ⟨hk, hn⟩ := List.nodup_cons.mp hn
    refine trans (turn r k (hp k (by simp))) (ih (r.take k) hn fun j hj c hc => ?_)
    rw [r.take_caseAt fun e : j = k => hk (e ▸ hj)] at hc
    exact hp j (List.mem_cons_of_mem _ hj) c hc

theorem State.eligible_allPending : s.AllPending (s.ranked s.eligible) := by
  intro k hk c hc
  obtain ⟨c', hc', hs⟩ := s.eligible_pending (s.mem_ranked.mp hk)
  rw [hc] at hc'; cases hc'
  exact hs

theorem State.Steady.pass : s.Steady s.pass := by
  unfold State.pass
  refine State.Steady.trans (PassRun.foldl_take (P := State.Steady) .refl .trans (fun r k hp => ?_) _ ⟨s, []⟩ (s.ranked_nodup _)
    s.eligible_allPending) (State.Tame.own _ ..).toSteady
  rcases r.take_cases k with e | ⟨c, d, n, hc, -, -, -, e⟩ | ⟨n, -, e⟩ <;> rw [e]
  · exact .refl _
  · exact .bind hc (hp c hc) d n
  · exact .release _ n

/-! ### The next case of a call -/

theorem State.Steady.takeUp {s : State} {k : Fin 48} {c : Case} (hc : s.caseAt k = some c) (hs : c.state = .pending) (n : Fin 4) :
    s.Steady (s.takeUp n k) := by
  unfold State.takeUp
  split
  · exact .refl s
  · exact (State.Steady.sendOn hc hs n).trans (.updLine _ n _ id)

theorem State.Steady.give {s : State} {d : Fin 8} {carried : Nat} {k : Fin 48} (h : s.answerFor d carried = .give k) (n : Fin 4) :
    s.Steady (s.takeUp n k) := by
  obtain ⟨c, hc, hs, -⟩ := (s.pendingAt_iff d k).mp (s.answerFor_give h)
  exact .takeUp hc hs n

theorem State.Steady.enterLinger (n : Fin 4) : s.Steady (s.enterLinger n) := by
  unfold State.enterLinger
  refine State.Steady.trans (.updLine s n _ ?_) (State.Tame.notifyWhileFire _).toSteady
  exact id

theorem State.Steady.askNext (n : Fin 4) : s.Steady (s.askNext n) := by
  unfold State.askNext
  split
  · exact .refl s
  · split
    · exact .release s n
    · split
      · exact .release s n
      · exact .enterLinger s n
    · next h => exact .give h n

theorem State.Steady.answerLinger (n : Fin 4) : s.Steady (s.answerLinger n) := by
  rcases s.answerLinger_cases n with e | e | ⟨c, k, -, hk, e⟩
  · exact .of_eq e
  · rw [e]; exact .release s n
  · rw [e]; exact .give hk n

/-- A relation that the answer to each line keeps holds over the answers to all. -/
theorem State.foldl_answerLinger {P : State → State → Prop} (refl : ∀ s, P s s) (trans : ∀ {s t u}, P s t → P t u → P s u)
    (one : ∀ s n, P s (s.answerLinger n)) : P s s.answerLingers := by
  unfold State.answerLingers
  generalize List.finRange 4 = ns
  induction ns generalizing s with
  | nil => exact refl s
  | cons n ns ih => exact trans (one s n) (ih _)

theorem State.Steady.answerLingers : s.Steady s.answerLingers := s.foldl_answerLinger .refl .trans .answerLinger

/-! ### Dialling -/

theorem State.Steady.updDialling (n : Fin 4) (f : Dialling → Dialling) : s.Steady (s.updDialling n f) := .updCall s n _

theorem State.Steady.dialled (n : Fin 4) : s.Steady (s.dialled n) := by
  unfold State.dialled
  refine .updLine s n _ ?_
  exact id

theorem State.Steady.nextElement (n : Fin 4) : s.Steady (s.nextElement n) := by
  unfold State.nextElement
  split
  · exact .refl s
  · split
    · exact .refl s
    · split
      · exact .updDialling s n _
      · exact .dialled s n

theorem State.Steady.startDialling (n : Fin 4) : s.Steady (s.startDialling n) := by
  unfold State.startDialling
  split
  · exact .refl s
  · simp only []
    split
    · exact (State.Steady.updLine s n _ (by exact id)).trans (.failCall _ n _ (by simp))
    · exact (State.Steady.updLine s n _ (by exact id)).trans (.nextElement _ n)

theorem State.Steady.tryDial (n : Fin 4) : s.Steady (s.tryDial n) := by
  unfold State.tryDial
  split
  · exact .refl s
  · split
    · exact .startDialling s n
    · exact .refl s

theorem Line.learn_failures (l : Line) (m : LearnedMode) : (l.learn m).failures = l.failures := by
  unfold Line.learn; split <;> rfl

theorem State.Steady.learn (n : Fin 4) (m : LearnedMode) : s.Steady (s.updLine n fun l => l.learn m) :=
  .updLine s n _ fun h => (s.line n).learn_failures m ▸ h

theorem State.Steady.decideTone (n : Fin 4) (g : Dialling) : s.Steady (s.decideTone n g) := by
  unfold State.decideTone
  simp only []
  have h := (State.Steady.learn s n .tone).trans (.updDialling _ n fun g => { g with adaptiveCheck := none, learning := false })
  split
  · exact h.trans (.nextElement _ n)
  · exact h

theorem State.Steady.redial (n : Fin 4) : s.Steady (s.redial n) := (State.Steady.updDialling s n _).trans (.nextElement _ n)

/-! ### Samples -/

theorem Line.classifySample_failures (l : Line) (b : Band) : (l.classifySample b).failures = l.failures := by
  unfold Line.classifySample
  split
  · rfl
  · split <;> rfl

theorem Line.watchRecovery_failures (l : Line) (b : Band) : (l.watchRecovery b).failures = l.failures := by
  unfold Line.watchRecovery; split <;> rfl

end Sys2Proof.Machine
end

