-- ==== Sys2Proof/Proofs/Sweeps.lean ====
section
/-! SUPPORT. A sweep over the slots: the cases that wait at a destination are moved on, and the cases of a class start their new plan; and the plan rule holds of every case after it (R63, R76, R78, R82). -/

namespace Sys2Proof.Machine

/-! ### Sweeping the slots -/

/-- The plans and the usable destinations are the same. -/
structure State.SamePlans (s t : State) : Prop where
  plan : ∀ c, t.plan c = s.plan c
  usable : ∀ d, t.usable d = s.usable d

theorem State.SamePlans.refl (s : State) : s.SamePlans s := ⟨fun _ => rfl, fun _ => rfl⟩

theorem State.SamePlans.trans {s t u : State} (h : s.SamePlans t) (g : t.SamePlans u) : s.SamePlans u :=
  ⟨fun c => (g.plan c).trans (h.plan c), fun d => (g.usable d).trans (h.usable d)⟩

theorem State.SamePlans.symm {s t : State} (h : s.SamePlans t) : t.SamePlans s :=
  ⟨fun c => (h.plan c).symm, fun d => (h.usable d).symm⟩

theorem State.SamePlans.currentDest {s t : State} (h : s.SamePlans t) (c : Case) : t.currentDest c = s.currentDest c := by
  simp only [State.currentDest, h.plan]

theorem State.SamePlans.limits {s t : State} (h : s.SamePlans t) (hl : s.Limits) : t.Limits := fun c => h.plan c ▸ hl c

theorem State.SamePlans.fits {s t : State} (h : s.SamePlans t) {c : Case} (hf : s.Fits c) : t.Fits c := by
  refine ⟨fun g => ?_, fun g d hd => ?_⟩
  · have := hf.within g
    simpa only [State.Within, h.plan] using this
  · rw [h.usable]
    exact hf.usable g d ((h.currentDest c).symm.trans hd)

/-- An operation on the case in slot `k` alone: the other cases, the plans and the destinations' states stay. -/
structure State.Touches (s t : State) (k : Fin 48) : Prop where
  same : s.SamePlans t
  other : ∀ j, j ≠ k → t.caseAt j = s.caseAt j

theorem State.Touches.refl (s : State) (k : Fin 48) : s.Touches s k := ⟨.refl s, fun _ _ => rfl⟩

theorem State.Touches.of_told {s t : State} {k : Fin 48} {c : Case} (h : (s.setCase k c).Told t) : s.Touches t k := by
  obtain ⟨_, _, rfl⟩ := h
  exact ⟨⟨fun _ => rfl, fun _ => rfl⟩, fun j hj => (s.setCase_caseAt k j c).trans (if_neg hj.symm)⟩

theorem State.Told.caseAt_setCase {s t : State} {k : Fin 48} {c : Case} (h : (s.setCase k c).Told t) : t.caseAt k = some c := by
  obtain ⟨_, _, rfl⟩ := h
  exact (s.setCase_caseAt k k c).trans (if_pos rfl)

/-- A sweep makes every case good: each slot's turn makes its case good where it was not, and touches no other. -/
theorem State.sweep_good {s₀ : State} {g : State → Fin 48 → State} {Good Bad : Case → Prop} (touch : ∀ (t : State) k, t.Touches (g t k) k)
    (turn : ∀ (t : State) k c, s₀.SamePlans t → (∀ c, t.caseAt k = some c → Good c ∨ Bad c) → (g t k).caseAt k = some c → Good c) :
    ∀ (ks : List (Fin 48)) (t : State), s₀.SamePlans t → (∀ k c, t.caseAt k = some c → Good c ∨ (k ∈ ks ∧ Bad c)) →
      s₀.SamePlans (ks.foldl g t) ∧ ∀ k c, (ks.foldl g t).caseAt k = some c → Good c := by
  intro ks
  induction ks with
  | nil => intro t hs h; exact ⟨hs, fun k c hc => (h k c hc).resolve_right fun e => List.not_mem_nil e.1⟩
  | cons k ks ih =>
    intro t hs h
    refine ih (g t k) (hs.trans (touch t k).same) fun j c hc => ?_
    by_cases hj : j = k
    · subst hj
      exact .inl (turn t j c hs (fun c hc => (h j c hc).imp_right (·.2)) hc)
    · rw [(touch t k).other j hj] at hc
      refine (h j c hc).imp_right fun e => ⟨?_, e.2⟩
      rcases List.mem_cons.mp e.1 with e | e
      · exact absurd e hj
      · exact e

/-! ### The cases that wait at a destination -/

/-- One turn of `advanceWaiting`. -/
def State.moveOn (d : Fin 8) (t : State) (k : Fin 48) : State := if t.pendingAt d k then t.advance k none else t

theorem State.advanceWaiting_eq (s : State) (d : Fin 8) : s.advanceWaiting d = (List.finRange 48).foldl (State.moveOn d) s := rfl

/-- A turn leaves the slot's case where it does not wait at the destination, and otherwise lands it. -/
theorem State.moveOn_cases (s : State) (d : Fin 8) (k : Fin 48) :
    (s.pendingAt d k = false ∧ s.moveOn d k = s) ∨
    ∃ c c', s.caseAt k = some c ∧ c.state = .pending ∧ s.currentDest c = some d ∧ s.Lands c c' ∧ (s.Limits → s.Fits c') ∧
      (s.setCase k c').Told (s.moveOn d k) ∧ s.Tame (s.moveOn d k) := by
  unfold State.moveOn
  split
  · next h =>
    obtain ⟨c, hc, hs, hd⟩ := (s.pendingAt_iff d k).mp h
    have hne : (s.plan c.key.cls).dests ≠ [] := fun e => by simp [State.currentDest, e] at hd
    obtain ⟨c', hl, hf, ht⟩ := s.advance_told hc none hne
    exact .inr ⟨c, c', hc, hs, hd, hl, hf, ht, s.advance_tame hc hs hne⟩
  · next h => exact .inl ⟨by simpa using h, rfl⟩

theorem State.moveOn_touches (s : State) (d : Fin 8) (k : Fin 48) : s.Touches (s.moveOn d k) k := by
  rcases s.moveOn_cases d k with ⟨-, e⟩ | ⟨c, c', -, -, -, -, -, ht, -⟩
  · rw [e]; exact .refl s k
  · exact .of_told ht

theorem State.advanceWaiting_tame (s : State) (d : Fin 8) : s.Tame (s.advanceWaiting d) := by
  rw [State.advanceWaiting_eq]
  generalize List.finRange 48 = ks
  induction ks generalizing s with
  | nil => exact .refl s
  | cons k ks ih =>
    refine State.Tame.trans ?_ (ih _)
    rcases s.moveOn_cases d k with ⟨-, e⟩ | ⟨c, c', -, -, -, -, -, -, ht⟩
    · rw [e]; exact .refl s
    · exact ht

/-- A sweep of the cases that wait at a destination restores the plan rule, where only they broke it (R63). -/
theorem State.advanceWaiting_planSound (s : State) (d : Fin 8) (hl : s.Limits)
    (h : ∀ k c, s.caseAt k = some c → s.Fits c ∨ (c.state = .pending ∧ s.currentDest c = some d)) :
    (s.advanceWaiting d).PlanSound := by
  have turn : ∀ (t : State) k c, s.SamePlans t →
      (∀ c, t.caseAt k = some c → s.Fits c ∨ (c.state = .pending ∧ s.currentDest c = some d)) →
      (t.moveOn d k).caseAt k = some c → s.Fits c := by
    intro t k c hs hk hc
    rcases t.moveOn_cases d k with ⟨hp, e⟩ | ⟨x, x', -, -, -, -, hf, ht, -⟩
    · rw [e] at hc
      refine (hk c hc).resolve_right fun ⟨h1, h2⟩ => ?_
      have := (t.pendingAt_iff d k).mpr ⟨c, hc, h1, (hs.currentDest c).trans h2⟩
      rw [hp] at this; cases this
    · rw [ht.caseAt_setCase] at hc
      cases hc
      exact hs.symm.fits (hf (hs.limits hl))
  rw [State.planSound_iff, State.advanceWaiting_eq]
  obtain ⟨hs, hg⟩ := State.sweep_good (fun t k => t.moveOn_touches d k) turn (List.finRange 48) s (.refl s)
    (fun k c hc => (h k c hc).imp_right fun e => ⟨List.mem_finRange k, e⟩)
  exact ⟨hs.limits hl, fun k c hc => hs.fits (hg k c hc)⟩

/-- After a sweep no case waits at the destination, where it is not usable (R63). -/
theorem State.advanceWaiting_pendingAt (s : State) (d : Fin 8) (hu : s.usable d = false) (k : Fin 48) :
    (s.advanceWaiting d).pendingAt d k = false := by
  have turn : ∀ (t : State) j c, s.SamePlans t →
      (∀ c, t.caseAt j = some c → (c.state = .pending → s.currentDest c ≠ some d) ∨ True) →
      (t.moveOn d j).caseAt j = some c → c.state = .pending → s.currentDest c ≠ some d := by
    intro t j c hs _ hc hst hd
    have hd : t.currentDest c = some d := (hs.currentDest c).trans hd
    rcases t.moveOn_cases d j with ⟨hp, e⟩ | ⟨x, x', -, -, -, hl, -, ht, -⟩
    · rw [e] at hc
      rw [(t.pendingAt_iff d j).mpr ⟨c, hc, hst, hd⟩] at hp
      cases hp
    · rw [ht.caseAt_setCase] at hc
      cases hc
      rw [← hs.usable, hl.usable hst d hd] at hu
      cases hu
  rw [State.advanceWaiting_eq]
  obtain ⟨hs, hg⟩ := State.sweep_good (fun t k => t.moveOn_touches d k) turn (List.finRange 48) s (.refl s)
    (fun k c _ => .inr ⟨List.mem_finRange k, trivial⟩)
  rw [Bool.eq_false_iff]
  intro hp
  obtain ⟨c, hc, hst, hd⟩ := (State.pendingAt_iff _ d k).mp hp
  exact hg k c hc hst ((hs.currentDest c).symm.trans hd)

/-- A destination's state written, with the cases that wait there then moved on, is a tame change (R76, R78). -/
theorem State.KeepsRecords.updDest (s : State) (d : Fin 8) (f : Destination → Destination)
    (hd : (s.dest d).InRange → (f (s.dest d)).InRange) : s.KeepsRecords (s.updDest d f) := by
  refine ⟨id, id, (·.of_eq rfl), fun g => ?_, id, fun g => ⟨g.cases, g.held⟩⟩
  refine ⟨g.reserve, g.threshold, g.classes, g.plans, fun e => ?_, g.timing, g.exchange, g.inputs, g.testTimer, g.failures,
    g.held, g.keys⟩
  rw [State.updDest_dest]
  split
  · next h => subst h; exact hd (g.dests d)
  · exact g.dests e

theorem State.Tame.redirect {s t : State} (d : Fin 8) (f : Destination → Destination) (hd : (f (s.dest d)).dial = (s.dest d).dial)
    (hl : (f (s.dest d)).callLine = (s.dest d).callLine) (ht : (s.updDest d f).Told t) : s.Tame (t.advanceWaiting d) := by
  have h1 := ht.tame.trans (t.advanceWaiting_tame d)
  refine ⟨⟨⟨(State.KeepsRecords.updDest s d f fun g => by simpa only [Destination.InRange, hd] using g).trans h1.toKeepsRecords, fun g => ?_⟩, h1.kept, h1.held⟩,
    (State.Quiet.updDest s d f hl).trans h1.quiet⟩
  obtain ⟨p, b, rfl⟩ := ht
  obtain ⟨hl, hf⟩ := s.planSound_iff.mp g
  refine State.advanceWaiting_planSound _ d hl fun k c hc => ?_
  by_cases hw : c.state = .pending ∧ s.currentDest c = some d
  · exact .inr hw
  · refine .inl ⟨(hf k c hc).within, fun hp e he => ?_⟩
    have hne : d ≠ e := fun e' => hw ⟨hp, e' ▸ he⟩
    have hu := (hf k c hc).usable hp e he
    have : (s.updDest d f).usable e = s.usable e := by simp only [State.usable, State.updDest_dest, hne, if_false]
    exact this.trans hu

/-! ### The cases of a class whose plan is rewritten -/

/-- One turn of `replacePlan`. -/
def State.restartOf (cls : Cls) (t : State) (k : Fin 48) : State := if t.ofClass cls k then t.restartCase k else t

theorem State.replacePlan_eq (s : State) (cls : Cls) (p : Plan) :
    s.replacePlan cls p = ((List.finRange 48).foldl (State.restartOf cls) (s.setPlan cls p)).notify := rfl

/-- A case of a rewritten plan's class starts it again: it waits at a usable destination, is stranded, or keeps its state where it did
not wait (R82). -/
theorem State.restartCase_told {s : State} {k : Fin 48} {c : Case} (hc : s.caseAt k = some c) :
    ∃ c', c'.key = c.key ∧ (c.Sound → c'.Sound) ∧ (s.Limits → s.Fits c') ∧ c'.sendingOn = c.sendingOn ∧
      (s.setCase k c').Told (s.restartCase k) := by
  unfold State.restartCase
  rw [hc]
  simp only []
  have zero : ∀ x : Case, x.state = c.state → x.key = c.key → x.progress = ⟨0, 0, 0⟩ → s.Limits →
      (x.state = .pending → ∀ d, s.currentDest x = some d → s.usable d = true) → s.Fits x :=
    fun x _ _ hz hl hu => ⟨fun _ => hl.within_zero hz, hu⟩
  have sound : c.Sound → Case.Sound { c with progress := .zero, failed := 0 } := fun h =>
    h.of_same rfl rfl rfl rfl h.held h.line (by simp)
  split
  · next hp =>
    split
    · next hd =>
      refine ⟨{ c with progress := .zero, failed := 0 }, rfl, sound, fun hl => zero _ rfl rfl rfl hl fun _ d hd' => ?_, rfl, .refl _⟩
      cases hd.symm.trans hd'
    · next d hd =>
      split
      · next hu =>
        refine ⟨{ c with progress := .zero, failed := 0 }, rfl, sound, fun hl => zero _ rfl rfl rfl hl fun _ e he => ?_, rfl, .refl _⟩
        cases hd.symm.trans he
        exact hu
      · have hd : s.currentDest { c with progress := .zero, failed := 0 } = some d := hd
        have hne : (s.plan c.key.cls).dests ≠ [] := fun e => by simp [State.currentDest, e] at hd
        obtain ⟨c', hl, hf, ht⟩ := s.advance_setCase k { c with progress := .zero, failed := 0 } none hne
        refine ⟨c', hl.key, fun h => hl.sound (sound h) hp, hf, ?_, ht⟩
        rw [Case.sendingOn_of_ne hl.not_sending, Case.sendingOn_of_ne (by simp [hp])]
  · next hp =>
    exact ⟨{ c with progress := .zero, failed := 0 }, rfl, sound, fun hl => zero _ rfl rfl rfl hl fun h => absurd h hp, rfl, .refl _⟩

theorem State.restartOf_cases (s : State) (cls : Cls) (k : Fin 48) :
    ((∀ c, s.caseAt k = some c → c.key.cls ≠ cls) ∧ s.restartOf cls k = s) ∨
    ∃ c c', s.caseAt k = some c ∧ c'.key = c.key ∧ (c.Sound → c'.Sound) ∧ (s.Limits → s.Fits c') ∧ c'.sendingOn = c.sendingOn ∧
      (s.setCase k c').Told (s.restartOf cls k) := by
  unfold State.restartOf State.ofClass
  cases hc : s.caseAt k with
  | none => exact .inl ⟨by simp, by simp⟩
  | some c =>
    by_cases h : c.key.cls = cls
    · obtain ⟨c', h1, h2, h3, h4, h5⟩ := State.restartCase_told hc
      exact .inr ⟨c, c', rfl, h1, h2, h3, h4, by simpa [h] using h5⟩
    · refine .inl ⟨?_, by simp [h]⟩
      rintro x ⟨⟩; exact h

theorem State.restartOf_touches (s : State) (cls : Cls) (k : Fin 48) : s.Touches (s.restartOf cls k) k := by
  rcases s.restartOf_cases cls k with ⟨-, e⟩ | ⟨c, c', -, -, -, -, -, ht⟩
  · rw [e]; exact .refl s k
  · exact .of_told ht

theorem State.Tame.restarts (cls : Cls) : ∀ (ks : List (Fin 48)) (s : State), s.Tame (ks.foldl (State.restartOf cls) s) := by
  intro ks
  induction ks with
  | nil => exact .refl
  | cons k ks ih =>
    intro s
    refine State.Tame.trans ?_ (ih _)
    rcases s.restartOf_cases cls k with ⟨-, e⟩ | ⟨c, c', hc, hkey, hsound, hfits, hplace, ht⟩
    · rw [e]; exact .refl s
    · exact State.Tame.trans (.setCase hc hkey hsound (fun hl _ => hfits hl) hplace) ht.tame

/-- A plan replaced by one in range, whose class's cases then start it again, is a tame change (R82). -/
theorem State.Tame.replacePlan (s : State) (cls : Cls) (p : Plan) (hp : p.InRange) : s.Tame (s.replacePlan cls p) := by
  rw [State.replacePlan_eq]
  refine State.Tame.trans ?_ (.notify _)
  have h1 := State.Tame.restarts cls (List.finRange 48) (s.setPlan cls p)
  have records : s.KeepsRecords (s.setPlan cls p) := by
    refine ⟨id, id, (·.of_eq rfl), fun g => ?_, id, fun g => ⟨g.cases, g.held⟩⟩
    refine ⟨g.reserve, g.threshold, g.classes, fun c => ?_, g.dests, g.timing, g.exchange, g.inputs, g.testTimer, g.failures,
      g.held, g.keys⟩
    rw [State.setPlan_plan]
    split
    · exact hp
    · exact g.plans c
  have quiet : s.Quiet (s.setPlan cls p) := ⟨fun _ => .refl _, fun _ => rfl, rfl, fun _ => rfl⟩
  refine ⟨⟨⟨records.trans h1.toKeepsRecords, fun g => ?_⟩, h1.kept, h1.held⟩, quiet.trans h1.quiet⟩
  obtain ⟨hl, hf⟩ := s.planSound_iff.mp g
  have hl' : (s.setPlan cls p).Limits := by
    intro c
    rw [State.setPlan_plan]
    split
    · exact ⟨hp.2.2.1, hp.2.2.2.2.1⟩
    · exact hl c
  have turn : ∀ (t : State) k c, (s.setPlan cls p).SamePlans t →
      (∀ c, t.caseAt k = some c → (s.setPlan cls p).Fits c ∨ c.key.cls = cls) →
      (t.restartOf cls k).caseAt k = some c → (s.setPlan cls p).Fits c := by
    intro t k c hs hk hc
    rcases t.restartOf_cases cls k with ⟨hn, e⟩ | ⟨x, x', -, -, -, hfits, -, ht⟩
    · rw [e] at hc
      exact (hk c hc).resolve_right (hn c hc)
    · rw [ht.caseAt_setCase] at hc
      cases hc
      exact hs.symm.fits (hfits (hs.limits hl'))
  have start : ∀ k c, s.caseAt k = some c → (s.setPlan cls p).Fits c ∨ (k ∈ List.finRange 48 ∧ c.key.cls = cls) := by
    intro k c hc
    by_cases hcls : c.key.cls = cls
    · exact .inr ⟨List.mem_finRange k, hcls⟩
    · have hplan : (s.setPlan cls p).plan c.key.cls = s.plan c.key.cls := by
        rw [State.setPlan_plan, if_neg (Ne.symm hcls)]
      refine .inl ⟨fun h => ?_, fun h d hd => ?_⟩
      · have := (hf k c hc).within h
        simpa only [State.Within, hplan] using this
      · refine (hf k c hc).usable h d ?_
        simpa only [State.currentDest, hplan] using hd
  obtain ⟨hs, hg⟩ := State.sweep_good (fun t k => t.restartOf_touches cls k) turn (List.finRange 48) (s.setPlan cls p) (.refl _) start
  exact (State.planSound_iff _).mpr ⟨hs.limits hl', fun k c hc => hs.fits (hg k c hc)⟩

end Sys2Proof.Machine
end

