-- ==== Sys2Proof/Proofs/Calls.lean ====
section
/-! SUPPORT. Cases, calls, lines and permit in agreement: one lemma for a change at one line (`Relinks`), from which each operation of a call follows; between two operations of one event the agreement may fail at the line at work alone (`SoundBut`). -/

namespace Sys2Proof.Machine

/-! ### The agreement, line by line -/

/-- Close pending is set on the line's call. -/
def Line.closing (l : Line) : Bool := (l.call.map Call.closePending).getD false

/-- What the agreement asks of one line alone: only a lingering call carries nothing, only a line in EXCHANGE is closing, and a line is
disabled exactly where it is OFF or closing (R124, R125, R142). -/
structure Line.Settled (l : Line) : Prop where
  carried : ∀ c, l.call = some c → (c.current = none ↔ l.state = .linger)
  closing : l.closing = true → l.state = .exchange
  disabled : l.enabled = false ↔ l.state = .off ∨ l.closing = true

/-- The current case of the call of line `n`, if any. -/
def State.currentOf (s : State) (n : Fin 4) : Option (Fin 48) := (s.call n).bind Call.current

/-- The calls are sound, and a case is SENDING on a line exactly where it is the current case of the line's call. -/
structure State.Linked (s : State) : Prop where
  calls : s.CallsSound
  sending : ∀ k x, s.sendingOn k = some x ↔ ∃ n, x = some n ∧ s.currentOf n = some k

/-- The agreement of cases, calls and lines. -/
structure State.CallsOk (s : State) : Prop where
  linked : s.Linked
  settled : ∀ n, (s.line n).Settled

/-- The agreement, but for what it asks of line `n` alone. -/
structure State.SoundBut (s : State) (n : Fin 4) : Prop where
  linked : s.Linked
  settled : ∀ m, m ≠ n → (s.line m).Settled

theorem State.sendingOn_eq_some (s : State) (k : Fin 48) (x : Option (Fin 4)) :
    s.sendingOn k = some x ↔ ∃ c, s.caseAt k = some c ∧ c.state = .sending ∧ c.line = x := by
  simp only [State.sendingOn, Option.bind_eq_some_iff, Case.sendingOn, Option.ite_none_right_eq_some, Option.some.injEq]

theorem State.callsOk_iff (s : State) : s.CallsOk ↔ s.CarriedSound ∧ s.EnablesSound := by
  constructor
  · intro h
    refine ⟨⟨h.linked.calls, fun k c hc hs => ?_, fun n k hk => ?_, fun n c hc => (h.settled n).carried c hc⟩,
      fun n => (h.settled n).closing, fun n => (h.settled n).disabled⟩
    · exact (h.linked.sending k c.line).mp ((s.sendingOn_eq_some k _).mpr ⟨c, hc, hs, rfl⟩)
    · obtain ⟨c, hc, hs, hl⟩ := (s.sendingOn_eq_some k _).mp ((h.linked.sending k (some n)).mpr ⟨n, rfl, hk⟩)
      exact ⟨c, hc, hs, hl⟩
  · rintro ⟨h, e⟩
    refine ⟨⟨h.calls, fun k x => ⟨fun hx => ?_, ?_⟩⟩, fun n => ⟨h.carried n, e.closing n, e.disabled n⟩⟩
    · obtain ⟨c, hc, hs, rfl⟩ := (s.sendingOn_eq_some k x).mp hx
      exact h.sending k c hc hs
    · rintro ⟨n, rfl, hk⟩
      obtain ⟨c, hc, hs, hl⟩ := h.current n k hk
      exact (s.sendingOn_eq_some k _).mpr ⟨c, hc, hs, hl⟩

theorem State.CallsOk.soundBut {s : State} (h : s.CallsOk) (n : Fin 4) : s.SoundBut n := ⟨h.linked, fun m _ => h.settled m⟩

theorem State.SoundBut.callsOk {s : State} {n : Fin 4} (h : s.SoundBut n) (hn : (s.line n).Settled) : s.CallsOk :=
  ⟨h.linked, fun m => if e : m = n then e ▸ hn else h.settled m e⟩

/-! ### Lines alike -/

theorem Line.Like.call {l l' : Line} (h : l.Like l') (f : Fin 8 × Option (Fin 48) × Bool → α) :
    l'.call.map (f ∘ Call.face) = l.call.map (f ∘ Call.face) := by
  rw [← Option.map_map, h.face, Option.map_map]

theorem Line.Like.dest {l l' : Line} (h : l.Like l') : l'.call.map Call.dest = l.call.map Call.dest := h.call fun x => x.1

theorem Line.Like.current {l l' : Line} (h : l.Like l') : l'.call.bind Call.current = l.call.bind Call.current := by
  have e := h.call fun x => x.2.1
  have flat : ∀ o : Option Call, o.bind Call.current = (o.map ((fun x => x.2.1) ∘ Call.face)).join := fun o => by
    cases o <;> rfl
  rw [flat, flat, e]

theorem Line.Like.closing {l l' : Line} (h : l.Like l') : l'.closing = l.closing := by
  have e := h.call fun x => x.2.2
  exact congrArg (fun o : Option Bool => o.getD false) e

theorem Line.Like.isSome {l l' : Line} (h : l.Like l') : l'.call.isSome = l.call.isSome := by
  have := congrArg Option.isSome h.face
  rwa [Option.isSome_map, Option.isSome_map] at this

theorem Line.Like.settled {l l' : Line} (h : l.Like l') (hl : l.Settled) : l'.Settled := by
  refine ⟨fun c' hc' => ?_, fun hc => h.exchange (hl.closing (h.closing ▸ hc)), ?_⟩
  · have := h.face
    rw [hc'] at this
    obtain ⟨c, hc, e⟩ := Option.map_eq_some_iff.mp this.symm
    have hcur : c.current = c'.current := congrArg (fun x => x.2.1) e
    rw [← hcur, h.linger]
    exact hl.carried c hc
  · rw [h.enabled, h.off, h.closing]
    exact hl.disabled

/-! ### A change at one line -/

/-- From `s` to `t` only line `n`, its call and its current case change, and stand in agreement in `t`. -/
structure State.Relinks (s t : State) (n : Fin 4) : Prop where
  other : ∀ m, m ≠ n → (s.line m).Like (t.line m)
  opened : (t.call n).isSome = (t.line n).state.inCall
  callLine : ∀ d, (t.dest d).callLine = some n ↔ (t.call n).map Call.dest = some d
  callLines : ∀ d m, m ≠ n → ((t.dest d).callLine = some m ↔ (s.dest d).callLine = some m)
  queued : n ∈ t.permit.queue.map PermitWait.line ↔ (t.line n).state = .awaitPermit
  queue : ∀ m, m ≠ n → (m ∈ t.permit.queue.map PermitWait.line ↔ m ∈ s.permit.queue.map PermitWait.line)
  once : (t.permit.queue.map PermitWait.line).Nodup
  sending : ∀ j x, t.sendingOn j = some x ↔
    (x = some n ∧ t.currentOf n = some j) ∨ (x ≠ some n ∧ s.sendingOn j = some x)

theorem State.Relinks.soundBut {s t : State} {n : Fin 4} (h : s.Relinks t n) (hs : s.SoundBut n) : t.SoundBut n := by
  refine ⟨⟨⟨fun m => ?_, fun d m => ?_, fun m => ?_, h.once⟩, fun k x => ?_⟩, fun m hm => (h.other m hm).settled (hs.settled m hm)⟩
  · by_cases e : m = n
    · exact e ▸ h.opened
    · exact ((h.other m e).isSome.trans (hs.linked.calls.opened m)).trans (h.other m e).inCall.symm
  · by_cases e : m = n
    · exact e ▸ h.callLine d
    · rw [h.callLines d m e, hs.linked.calls.callLine d m]
      exact iff_of_eq (congrArg (· = some d) (h.other m e).dest.symm)
  · by_cases e : m = n
    · exact e ▸ h.queued
    · rw [h.queue m e, hs.linked.calls.queued m]
      exact (h.other m e).waiting.symm
  · rw [h.sending]
    constructor
    · rintro (⟨rfl, hk⟩ | ⟨hx, hk⟩)
      · exact ⟨n, rfl, hk⟩
      · obtain ⟨m, rfl, hm⟩ := (hs.linked.sending k x).mp hk
        have hmn : m ≠ n := fun e => hx (e ▸ rfl)
        exact ⟨m, rfl, (h.other m hmn).current.trans hm⟩
    · rintro ⟨m, rfl, hm⟩
      by_cases e : m = n
      · exact .inl ⟨e ▸ rfl, e ▸ hm⟩
      · exact .inr ⟨fun g => e (Option.some.inj g), (hs.linked.sending k _).mpr ⟨m, rfl, (h.other m e).current.symm.trans hm⟩⟩

/-- A change that leaves the calls alone keeps the agreement everywhere but at one line. -/
theorem State.Quiet.soundBut {s t : State} {n : Fin 4} (h : s.Quiet t) (hs : s.SoundBut n) : t.SoundBut n := by
  have hc := hs.linked.calls
  refine State.Relinks.soundBut ⟨fun m _ => h.line m, ?_, fun d => ?_, fun d m _ => by rw [h.callLine], ?_,
    fun m _ => by rw [h.queue], by rw [h.queue]; exact hc.once, fun j x => ?_⟩ hs
  · exact ((h.line n).isSome.trans (hc.opened n)).trans (h.line n).inCall.symm
  · rw [h.callLine, hc.callLine d n]
    exact iff_of_eq (congrArg (· = some d) (h.line n).dest.symm)
  · rw [h.queue, hc.queued]; exact (h.line n).waiting.symm
  · rw [h.sending, show t.currentOf n = s.currentOf n from (h.line n).current, hs.linked.sending]
    constructor
    · rintro ⟨m, rfl, hm⟩
      by_cases e : m = n
      · exact .inl ⟨e ▸ rfl, e ▸ hm⟩
      · exact .inr ⟨fun g => e (Option.some.inj g), m, rfl, hm⟩
    · rintro (⟨rfl, hm⟩ | ⟨-, hm⟩)
      · exact ⟨n, rfl, hm⟩
      · exact hm

theorem State.Quiet.callsOk {s t : State} (h : s.Quiet t) (hs : s.CallsOk) : t.CallsOk :=
  (h.soundBut (hs.soundBut 0)).callsOk ((h.line 0).settled (hs.settled 0))

/-! ### The operations of a call -/

variable {s : State} {n : Fin 4}

/-- No case is SENDING on a line whose call has no current case. -/
theorem State.SoundBut.not_on {s : State} (h : s.SoundBut n) (hn : s.currentOf n = none) (k : Fin 48) :
    s.sendingOn k ≠ some (some n) := by
  intro e
  obtain ⟨m, hm, hk⟩ := (h.linked.sending k _).mp e
  cases hm
  rw [hn] at hk; cases hk

/-- A case that is in flight is so on one line only. -/
theorem State.SoundBut.on {s : State} (h : s.SoundBut n) {k : Fin 48} (hk : s.currentOf n = some k) :
    s.sendingOn k = some (some n) := (h.linked.sending k _).mpr ⟨n, rfl, hk⟩

theorem State.SoundBut.queue_filter (h : s.SoundBut n) (hw : (s.line n).state ≠ .awaitPermit) :
    (s.permit.queue.map PermitWait.line).filter (· ≠ n) = s.permit.queue.map PermitWait.line := by
  rw [List.filter_eq_self]
  intro m hm
  simp only [decide_eq_true_eq]
  rintro rfl
  exact hw ((h.linked.calls.queued m).mp hm)

/-- Line `n` changed without its call's destination and current case, and in neither the queue nor the calls, keeps the agreement elsewhere. -/
theorem State.SoundBut.updLine (h : s.SoundBut n) (f : Line → Line)
    (dest : (f (s.line n)).call.map Call.dest = (s.line n).call.map Call.dest)
    (current : (f (s.line n)).call.bind Call.current = (s.line n).call.bind Call.current)
    (inCall : (f (s.line n)).state.inCall = (s.line n).state.inCall)
    (waiting : (f (s.line n)).state = .awaitPermit ↔ (s.line n).state = .awaitPermit) : (s.updLine n f).SoundBut n := by
  have hc := h.linked.calls
  have hl : (s.updLine n f).line n = f (s.line n) := by simp
  have hcall : (s.updLine n f).call n = (f (s.line n)).call := by simp
  have isSome : (f (s.line n)).call.isSome = (s.line n).call.isSome := by
    have := congrArg Option.isSome dest
    rwa [Option.isSome_map, Option.isSome_map] at this
  refine State.Relinks.soundBut (s := s) ⟨fun m hm => ?_, ?_, fun d => ?_, fun d m _ => .rfl, ?_, fun m _ => .rfl, hc.once,
    fun j x => ?_⟩ h
  · rw [State.updLine_line, if_neg hm.symm]; exact .refl _
  · rw [hl, hcall, isSome, inCall]; exact hc.opened n
  · rw [hcall, dest]; exact hc.callLine d n
  · rw [hl, waiting]; exact hc.queued n
  · have hcur : (s.updLine n f).currentOf n = s.currentOf n := by rw [State.currentOf, hcall, current]; rfl
    rw [hcur, show (s.updLine n f).sendingOn j = s.sendingOn j from rfl, h.linked.sending]
    constructor
    · rintro ⟨m, rfl, hm⟩
      by_cases e : m = n
      · exact .inl ⟨e ▸ rfl, e ▸ hm⟩
      · exact .inr ⟨fun g => e (Option.some.inj g), m, rfl, hm⟩
    · rintro (⟨rfl, hm⟩ | ⟨-, hm⟩)
      · exact ⟨n, rfl, hm⟩
      · exact hm

/-- Line `l` with its call's current case and block gone (R142). -/
def Line.handed (l : Line) : Line := { l with call := l.call.map fun c => { c with current := none, block := none } }

theorem Line.handed_closing (l : Line) : l.handed.closing = l.closing := by
  unfold Line.closing Line.handed
  cases l.call <;> rfl

/-- After an outcome is handed over the line carries nothing, and the agreement holds elsewhere. -/
theorem State.SoundBut.handOutcome (h : s.SoundBut n) (kind : OutcomeKind) :
    (s.handOutcome n kind).SoundBut n ∧ (s.handOutcome n kind).currentOf n = none ∧
      (∀ m, m ≠ n → (s.line m).Like ((s.handOutcome n kind).line m)) ∧
      (s.line n).handed.Like ((s.handOutcome n kind).line n) := by
  have idle : ∀ l : Line, l.call.bind Call.current = none → l.Like l.handed := by
    intro l hl
    refine ⟨rfl, ?_, rfl, .rfl, .rfl, .rfl, id⟩
    unfold Line.handed
    cases hc : l.call with
    | none => rfl
    | some c =>
      rw [hc] at hl
      have hl : c.current = none := hl
      simp [Call.face, hl]
  have symm : ∀ l : Line, l.call.bind Call.current = none → l.handed.Like l := fun l hl =>
    have g := idle l hl
    ⟨rfl, g.face.symm, rfl, .rfl, .rfl, .rfl, id⟩
  unfold State.handOutcome
  split
  · next hc =>
    have : s.currentOf n = none := by simp [State.currentOf, hc]
    exact ⟨h, this, fun _ _ => .refl _, symm _ this⟩
  next c hc =>
  split
  · next hk =>
    have : s.currentOf n = none := by simp [State.currentOf, hc, hk]
    exact ⟨h, this, fun _ _ => .refl _, symm _ this⟩
  next k hk =>
  have hcur : s.currentOf n = some k := by simp [State.currentOf, hc, hk]
  have hon := h.on hcur
  obtain ⟨x, hx, hxs, hxl⟩ := (s.sendingOn_eq_some k _).mp hon
  simp only []
  generalize ht : ((s.updDest c.dest fun d => { d with last := kind }).updCall n fun c => { c with current := none, block := none }) = t
  have hline : ∀ m, t.line m = if n = m then (s.line n).handed else s.line m := by
    intro m; rw [← ht]; exact State.updLine_line _ _ _ _
  have hcase : t.caseAt k = some x := by rw [← ht]; exact hx
  have hsend : ∀ j, t.sendingOn j = s.sendingOn j := by rw [← ht]; exact fun _ => rfl
  have hqueue : t.permit = s.permit := by rw [← ht]; rfl
  have hdest : ∀ d, (t.dest d).callLine = (s.dest d).callLine := by
    intro d
    rw [← ht, State.updCall_dest, State.updDest_dest]
    split
    · next e => subst e; rfl
    · rfl
  have hr := State.applyOutcome_recarried t kind c.dest hcase hxs
  generalize t.applyOutcome k kind c.dest = u at hr
  have like : (s.line n).handed.Like (u.line n) := by
    have := hr.line n
    rwa [hline, if_pos rfl] at this
  have others : ∀ m, m ≠ n → (s.line m).Like (u.line m) := by
    intro m hm
    have := hr.line m
    rwa [hline, if_neg hm.symm] at this
  have hnone : u.currentOf n = none := by
    refine like.current.trans ?_
    unfold Line.handed
    cases (s.line n).call <;> rfl
  refine ⟨State.Relinks.soundBut ⟨others, ?_, fun d => ?_, fun d m _ => by rw [hr.callLine, hdest], ?_,
    fun m _ => by rw [hr.queue, hqueue], by rw [hr.queue, hqueue]; exact h.linked.calls.once, fun j y => ?_⟩ h, hnone, others, like⟩
  · refine (like.isSome.trans ?_).trans like.inCall.symm
    rw [show (s.line n).handed.call.isSome = (s.call n).isSome from Option.isSome_map ..]
    exact h.linked.calls.opened n
  · rw [hr.callLine, hdest, h.linked.calls.callLine d n]
    refine iff_of_eq (congrArg (· = some d) (like.dest.trans ?_).symm)
    show Option.map Call.dest (Option.map _ (s.call n)) = _
    cases s.call n <;> rfl
  · rw [hr.queue, hqueue, h.linked.calls.queued]; exact like.waiting.symm
  · rw [hr.sending, hsend, hnone]
    split
    · next e =>
      subst e
      simp only [reduceCtorEq, and_false, false_or, false_iff, not_and]
      intro hy hky
      rw [hon] at hky
      exact hy (Option.some.inj hky).symm
    · next e =>
      simp only [reduceCtorEq, and_false, false_or]
      refine ⟨fun g => ⟨?_, g⟩, (·.2)⟩
      rintro rfl
      obtain ⟨m, hm, hj⟩ := (h.linked.sending j _).mp g
      cases hm
      exact e (Option.some.inj (hcur.symm.trans hj))

/-- A call that carries nothing ends, its line on-hook and out of the queue: the agreement holds elsewhere. -/
theorem State.SoundBut.closed {s t : State} (h : s.SoundBut n) (hn : s.currentOf n = none)
    (other : ∀ m, m ≠ n → (s.line m).Like (t.line m)) (call : t.call n = none) (state : (t.line n).state.inCall = false)
    (callLine : ∀ d, (t.dest d).callLine = if (s.call n).map Call.dest = some d then none else (s.dest d).callLine)
    (queue : t.permit.queue.map PermitWait.line = (s.permit.queue.map PermitWait.line).filter (· ≠ n))
    (sending : ∀ j, t.sendingOn j = s.sendingOn j) : t.SoundBut n := by
  have hc := h.linked.calls
  have none_at : ∀ d, (t.dest d).callLine ≠ some n := by
    intro d
    rw [callLine]
    split
    · simp
    · next e => exact fun g => e ((hc.callLine d n).mp g)
  refine State.Relinks.soundBut ⟨other, ?_, fun d => ?_, fun d m hm => ?_, ?_, fun m hm => ?_, ?_, fun j x => ?_⟩ h
  · rw [call, state]; rfl
  · rw [call]; simp [none_at]
  · rw [callLine]
    split
    · next e =>
      have := (hc.callLine d n).mpr e
      rw [this]
      simp [hm.symm]
    · exact .rfl
  · rw [queue]
    simp only [List.mem_filter, ne_eq, not_true_eq_false, decide_false, Bool.false_eq_true, and_false, false_iff]
    intro e; rw [e] at state; cases state
  · rw [queue, List.mem_filter]
    simp [hm]
  · rw [queue]; exact hc.once.filter _
  · rw [sending, State.currentOf, call]
    simp only [Option.bind_none, reduceCtorEq, and_false, false_or]
    exact ⟨fun g => ⟨fun e => h.not_on hn j (e ▸ g), g⟩, (·.2)⟩

/-- A call that carries nothing is taken off the books, and its line changed to a state without a call. -/
theorem State.SoundBut.endCall (h : s.SoundBut n) (hn : s.currentOf n = none) (hw : (s.line n).state ≠ .awaitPermit)
    (f : Line → Line) (call : ∀ l, (f l).call = l.call) (state : ∀ l, (f l).state.inCall = false) :
    ((s.endCall n).updLine n f).SoundBut n := by
  unfold State.endCall
  split
  · next hc =>
    refine h.closed hn (fun m hm => ?_) (by rw [State.updLine_call, if_pos rfl, call]; exact hc) (by rw [State.updLine_line, if_pos rfl]; exact state _)
      (fun d => by simp [hc]) (h.queue_filter hw).symm fun _ => rfl
    rw [State.updLine_line, if_neg hm.symm]; exact .refl _
  · next c hc =>
    refine h.closed hn (fun m hm => ?_) ?_ ?_ (fun d => ?_) (h.queue_filter hw).symm fun _ => rfl
    · simp only [State.updLine_line, if_neg hm.symm, State.notify_line, State.updDest_line]; exact .refl _
    · simp [call]
    · simp [state]
    · simp only [State.updLine_dest, State.notify_dest, State.updDest_dest, hc, Option.map_some, Option.some.injEq]
      split
      · rfl
      · rfl

theorem Line.Like.handed_settled {l l' : Line} (h : l.handed.Like l') (hl : l.Settled) :
    (l'.enabled = false ↔ l'.state = .off ∨ l'.closing = true) := by
  rw [h.enabled, h.off, h.closing, Line.handed_closing]
  exact hl.disabled

/-- A line without a call is settled where it is disabled exactly in OFF. -/
theorem Line.Settled.of_idle {l : Line} (call : l.call = none) (h : l.enabled = false ↔ l.state = .off) : l.Settled :=
  ⟨by simp [call], by simp [Line.closing, call], by simp [Line.closing, call, h]⟩

theorem State.endCall_line_same (s : State) (n : Fin 4) :
    (s.endCall n).line n = { s.line n with call := none } := by
  unfold State.endCall
  split
  · next h =>
    have h : (s.line n).call = none := h
    rw [← h]
  · simp

/-- A release of a line that carries nothing and is not in the queue: the agreement holds (R121). -/
theorem State.SoundBut.release (h : s.SoundBut n) (hn : s.currentOf n = none) (hw : (s.line n).state ≠ .awaitPermit)
    (he : (s.line n).enabled = false ↔ (s.line n).closing = true) : (s.release n).CallsOk := by
  unfold State.release
  refine State.SoundBut.callsOk (n := n) (h.endCall hn hw _ (fun l => ?_) (fun l => ?_)) ?_
  · split <;> rfl
  · split <;> rfl
  · simp only [State.updLine_line, if_true, State.endCall_line_same]
    have hcl : s.closing n = (s.line n).closing := rfl
    split
    · next hc => exact .of_idle rfl (by simp [he, ← hcl, hc])
    · next hc => exact .of_idle rfl (by simp [he, ← hcl, hc])

/-- A call that carries nothing is cut, where the line lingers (R119, R154). -/
theorem State.CallsOk.release_linger (h : s.CallsOk) (hl : (s.line n).state = .linger) : (s.release n).CallsOk := by
  have hs := h.settled n
  refine (h.soundBut n).release ?_ (by simp [hl]) (by rw [hs.disabled]; simp [hl])
  cases hc : s.call n with
  | none => simp [State.currentOf, hc]
  | some c => simpa [State.currentOf, hc] using (hs.carried c hc).mpr hl

/-- An outcome handed over and the line released, where the line is in a call that has got the permit. -/
theorem State.CallsOk.failCall (h : s.CallsOk) (hw : (s.line n).state ≠ .awaitPermit) (ho : (s.line n).state ≠ .off)
    (kind : OutcomeKind) : (s.failCall n kind).CallsOk := by
  obtain ⟨h1, h2, -, h3⟩ := (h.soundBut n).handOutcome kind
  refine h1.release h2 (mt h3.waiting.mp hw) ?_
  rw [h3.handed_settled (h.settled n), h3.off]
  simp [Line.handed, ho]

/-- A failure counted leaves every call alone. -/
theorem State.countFailure_quiet (s : State) (n : Fin 4) (cause : FaultCause) : s.Quiet (s.countFailure n cause) :=
  .updLine s n _ ⟨rfl, rfl, rfl, .rfl, .rfl, .rfl, id⟩

theorem State.CallsOk.failLine (h : s.CallsOk) (hw : (s.line n).state ≠ .awaitPermit) (ho : (s.line n).state ≠ .off)
    (kind : OutcomeKind) (cause : FaultCause) : (s.failLine n kind cause).CallsOk := by
  obtain ⟨h1, h2, -, h3⟩ := (h.soundBut n).handOutcome kind
  have q := (s.handOutcome n kind).countFailure_quiet n cause
  have h3 := h3.trans (q.line n)
  refine (q.soundBut h1).release ((q.line n).current.trans h2) (mt h3.waiting.mp hw) ?_
  rw [h3.handed_settled (h.settled n), h3.off]
  simp [Line.handed, ho]

/-- A line that enters FAULT from a state without a call, with its trouble case posted, keeps the agreement (R117). -/
theorem State.SoundBut.enterFault (h : s.SoundBut n) (hc : s.call n = none) (hi : (s.line n).state.inCall = false)
    (he : (s.line n).enabled = true) (cause : FaultCause) : (s.enterFault n cause).CallsOk := by
  rw [State.enterFault_eq]
  refine (State.internalPost_posts _ _ _ (State.lineKey_mayPost _ n)).quiet.callsOk ?_
  have hline : (s.inFault n cause).line n = (s.line n).inFault cause (s.timing.faultHold * 1000) :=
    (s.setLine_line n n _).trans (if_pos rfl)
  refine State.SoundBut.callsOk (n := n) ?_ (hline ▸ .of_idle hc (by simp [Line.inFault, he]))
  have hq : (s.updLine n fun l => l.inFault cause (s.timing.faultHold * 1000)).Quiet (s.inFault n cause) :=
    (State.Tame.own _ ..).quiet
  refine hq.soundBut (h.updLine _ rfl rfl hi.symm ⟨(by cases ·), fun e => ?_⟩)
  rw [e] at hi; cases hi

theorem State.CallsOk.enterFault (h : s.CallsOk) (hi : (s.line n).state.inCall = false) (ho : (s.line n).state ≠ .off)
    (cause : FaultCause) : (s.enterFault n cause).CallsOk := by
  have hc : s.call n = none := by
    have := h.linked.calls.opened n
    rwa [hi, Option.isSome_eq_false_iff, Option.isNone_iff_eq_none] at this
  have hc' : (s.line n).call = none := hc
  refine (h.soundBut n).enterFault hc hi ?_ cause
  have := (h.settled n).disabled
  rw [← Bool.not_eq_false, this]
  simp [ho, Line.closing, hc']

/-- An overcurrent ends the call of a line off-hook (R114). -/
theorem State.CallsOk.overcurrent (h : s.CallsOk) (hw : (s.line n).state ≠ .awaitPermit) (ho : (s.line n).state ≠ .off) :
    (s.overcurrent n).CallsOk := by
  obtain ⟨h1, h2, -, h3⟩ := (h.soundBut n).handOutcome .abandoned
  have hen : ((s.handOutcome n .abandoned).line n).enabled = false ↔ s.closing n = true := by
    rw [h3.enabled, show (s.line n).handed.enabled = (s.line n).enabled from rfl, (h.settled n).disabled]
    simp only [ho, false_or]
    rfl
  have hw' := mt h3.waiting.mp hw
  unfold State.overcurrent
  simp only []
  split
  · next hc =>
    refine (h1.endCall h2 hw' (fun l => { l with state := .off }) (fun _ => rfl) (fun _ => rfl)).callsOk ?_
    simp only [State.updLine_line, if_true, State.endCall_line_same]
    exact .of_idle rfl (by simp [hen, hc])
  · next hc =>
    rw [State.enterFault_eq]
    refine (State.internalPost_posts _ _ _ (State.lineKey_mayPost _ n)).quiet.callsOk ?_
    generalize hms : ((s.handOutcome n .abandoned).endCall n).timing.faultHold * 1000 = ms
    have hq : (((s.handOutcome n .abandoned).endCall n).updLine n fun l => l.inFault .overcurrent ms).Quiet
        (((s.handOutcome n .abandoned).endCall n).inFault n .overcurrent) := by rw [← hms]; exact (State.Tame.own _ ..).quiet
    refine hq.callsOk ((h1.endCall h2 hw' (fun l => l.inFault .overcurrent ms) (fun _ => rfl) (fun _ => rfl)).callsOk ?_)
    simp only [State.updLine_line, if_true, State.endCall_line_same]
    refine .of_idle rfl ?_
    simp [Line.inFault, hen, hc]

/-! ### Taking up, lingering, binding -/

/-- Line `n`, whose call carries nothing, takes up a waiting case: the agreement holds (R100). -/
theorem State.SoundBut.takeUp (h : s.SoundBut n) (hn : s.currentOf n = none) {c : Call} (hc : s.call n = some c)
    (hw : (s.line n).state ≠ .awaitPermit) (he : (s.line n).enabled = false ↔ (s.line n).closing = true) {k : Fin 48} {x : Case} (hx : s.caseAt k = some x)
    (hs : x.state = .pending) : (s.takeUp n k).CallsOk := by
  have hin : (s.line n).state.inCall = true := by rw [← h.linked.calls.opened n, hc]; rfl
  have hc' : (s.line n).call = some c := hc
  unfold State.takeUp
  rw [hc]
  simp only []
  have hr := State.Recarried.sendOn hx n
  have hline : (s.sendOn k n).line = s.line := by unfold State.sendOn; split <;> rfl
  have hpermit : (s.sendOn k n).permit = s.permit := by unfold State.sendOn; split <;> rfl
  generalize hu : State.updLine _ n _ = u
  have hul : u.line n = { s.line n with
      state := .exchange, call := some { c with current := some k, carried := c.carried + 1, block := s.newBlock k c.dest, linger := none } } := by
    rw [← hu]; simp [hline, hc']
  have hother : ∀ m, m ≠ n → u.line m = s.line m := fun m hm => by rw [← hu]; simp [hline, hm.symm]
  have hucall : u.call n = some { c with current := some k, carried := c.carried + 1, block := s.newBlock k c.dest, linger := none } := by
    rw [State.call, hul]
  have hqueue : u.permit = s.permit := by rw [← hu]; exact hpermit
  have hdest : ∀ d, (u.dest d).callLine = (s.dest d).callLine := by rw [← hu]; exact hr.callLine
  have hsend : ∀ j, u.sendingOn j = if k = j then some (some n) else s.sendingOn j := by rw [← hu]; exact hr.sending
  refine State.SoundBut.callsOk (n := n) (State.Relinks.soundBut ⟨fun m hm => ?_, ?_, fun d => ?_, fun d m _ => by rw [hdest], ?_,
    fun m _ => by rw [hqueue], by rw [hqueue]; exact h.linked.calls.once, fun j y => ?_⟩ h) ?_
  · rw [hother m hm]; exact .refl _
  · rw [hucall, hul]; rfl
  · rw [hdest, hucall, h.linked.calls.callLine d n, hc]; rfl
  · rw [hqueue, h.linked.calls.queued, hul]; simp [hw]
  · have hcur : u.currentOf n = some k := by rw [State.currentOf, hucall]; rfl
    have hk : s.sendingOn k = none := by rw [s.sendingOn_of_caseAt hx, Case.sendingOn_of_ne (by simp [hs])]
    rw [hsend, hcur]
    by_cases e : k = j
    · subst e
      simp only [if_true, hk, reduceCtorEq, and_false, or_false, and_true, Option.some.injEq]
      exact eq_comm
    · simp only [e, if_false, Option.some.injEq, and_false, false_or]
      exact ⟨fun g => ⟨fun e' => h.not_on hn j (e' ▸ g), g⟩, (·.2)⟩
  · rw [hul]
    refine ⟨?_, fun _ => rfl, ?_⟩
    · rintro x ⟨⟩; simp
    · simp only [reduceCtorEq, false_or]
      rw [he]
      simp [Line.closing, hc']

/-- Line `n`, whose call carries nothing and is not closing, enters LINGER: the agreement holds (R154). -/
theorem State.SoundBut.enterLinger (h : s.SoundBut n) (hn : s.currentOf n = none) {c : Call} (hc : s.call n = some c)
    (hw : (s.line n).state ≠ .awaitPermit) (hcl : (s.line n).closing = false) (he : (s.line n).enabled = true) :
    (s.enterLinger n).CallsOk := by
  have hin : (s.line n).state.inCall = true := by rw [← h.linked.calls.opened n, hc]; rfl
  have hc' : (s.line n).call = some c := hc
  have hcur : c.current = none := by simpa [State.currentOf, hc] using hn
  have hclose : c.closePending = false := by simpa [Line.closing, hc'] using hcl
  refine (State.Tame.notifyWhileFire _).quiet.callsOk (State.SoundBut.callsOk (n := n) (h.updLine _ ?_ ?_ ?_ ?_) ?_)
  · simp [hc']
  · simp [hc']
  · rw [hin]; rfl
  · simp [hw]
  · rw [State.updLine_line, if_pos rfl]
    refine ⟨fun x hx => ?_, ?_, ?_⟩
    · simp only [hc', Option.map_some, Option.some.injEq] at hx
      simp [← hx, hcur]
    · simp [Line.closing, hc', hclose]
    · simp [Line.closing, hc', hclose, he]

/-- Taking up the next case, lingering or releasing after an acceptance, where close pending is not set. -/
theorem State.SoundBut.askNext (h : s.SoundBut n) (hn : s.currentOf n = none) (hw : (s.line n).state ≠ .awaitPermit)
    (hcl : (s.line n).closing = false) (he : (s.line n).enabled = true)
    {c : Call} (hc : s.call n = some c) : (s.askNext n).CallsOk := by
  have he' : (s.line n).enabled = false ↔ (s.line n).closing = true := by simp [he, hcl]
  unfold State.askNext
  rw [hc]
  simp only []
  split
  · exact h.release hn hw he'
  · split
    · exact h.release hn hw he'
    · exact h.enterLinger hn hc hw hcl he
  · next k hk =>
    obtain ⟨x, hx, hs, -⟩ := (s.pendingAt_iff _ k).mp (s.answerFor_give hk)
    exact h.takeUp hn hc hw he' hx hs

theorem State.CallsOk.answerLinger (h : s.CallsOk) (n : Fin 4) : (s.answerLinger n).CallsOk := by
  unfold State.answerLinger
  split
  · exact h
  next c hc =>
  split
  · next hl =>
    obtain ⟨hl, -⟩ := hl
    split
    · exact h.release_linger hl
    · exact h
    · next k hk =>
      obtain ⟨x, hx, hs, -⟩ := (s.pendingAt_iff _ k).mp (s.answerFor_give hk)
      have hcur : s.currentOf n = none := by simpa [State.currentOf, hc] using ((h.settled n).carried c hc).mpr hl
      exact (h.soundBut n).takeUp hcur hc (by simp [hl]) (by rw [(h.settled n).disabled]; simp [hl]) hx hs
  · exact h

theorem State.CallsOk.answerLingers (h : s.CallsOk) : s.answerLingers.CallsOk :=
  s.foldl_answerLinger (P := fun s t => s.CallsOk → t.CallsOk) (fun _ => id) (fun f g => g ∘ f)
    (fun _ n h => State.CallsOk.answerLinger h n) h

/-- A queue joined holds the line and those it held. -/
theorem joinQueue_perm (q : List PermitWait) (w : PermitWait) : (joinQueue q w).Perm (w :: q) := by
  unfold joinQueue
  split
  · refine (List.perm_append_comm.append_right _).trans ?_
    rw [List.append_assoc]
    exact (List.filter_append_perm PermitWait.fire q).cons w
  · exact List.perm_append_comm

/-- From `s` to `u` line `n` opens a call to `d` that carries the case of slot `k`, and is off-hook or has joined the queue. -/
structure State.Opens (s u : State) (n : Fin 4) (d : Fin 8) (k : Fin 48) : Prop where
  other : ∀ m, m ≠ n → u.line m = s.line m
  enabled : (u.line n).enabled = (s.line n).enabled
  call : ∃ c, u.call n = some c ∧ c.face = (d, some k, false)
  callLine : ∀ e, (u.dest e).callLine = if d = e then some n else (s.dest e).callLine
  sending : ∀ j, u.sendingOn j = if k = j then some (some n) else s.sendingOn j
  state : ((u.line n).state = .offHook ∧ u.permit.queue = s.permit.queue) ∨
    ((u.line n).state = .awaitPermit ∧ (u.permit.queue.map PermitWait.line).Perm (n :: s.permit.queue.map PermitWait.line))

/-- A call opened for a waiting case, on a line and to a destination without one: the agreement holds. -/
theorem State.CallsOk.opens (h : s.CallsOk) {u : State} {d : Fin 8} {k : Fin 48} (hu : s.Opens u n d k)
    (hk : s.sendingOn k = none) (hd : (s.dest d).callLine = none) (hi : (s.line n).state.inCall = false)
    (ho : (s.line n).state ≠ .off) : u.CallsOk := by
  have hcall : s.call n = none := by
    have := h.linked.calls.opened n
    rwa [hi, Option.isSome_eq_false_iff, Option.isNone_iff_eq_none] at this
  have hcall' : (s.line n).call = none := hcall
  have hen : (s.line n).enabled = true := by
    rw [← Bool.not_eq_false, (h.settled n).disabled]
    simp [ho, Line.closing, hcall']
  have hnq : n ∉ s.permit.queue.map PermitWait.line := fun e => by
    rw [(h.linked.calls.queued n).mp e] at hi; cases hi
  have hnot : ∀ j, s.sendingOn j ≠ some (some n) := (h.soundBut n).not_on (by simp [State.currentOf, hcall])
  obtain ⟨c, huc, hface⟩ := hu.call
  have huc' : (u.line n).call = some c := huc
  simp only [Call.face, Prod.mk.injEq] at hface
  obtain ⟨hdest, hcurrent, hclose⟩ := hface
  have hstate : (u.line n).state.inCall = true ∧ (u.line n).state ≠ .linger ∧ (u.line n).state ≠ .off := by
    rcases hu.state with ⟨e, -⟩ | ⟨e, -⟩ <;> rw [e] <;> simp [LineState.inCall]
  refine State.SoundBut.callsOk (n := n) (State.Relinks.soundBut ⟨fun m hm => ?_, ?_, fun e => ?_, fun e m hm => ?_, ?_,
    fun m hm => ?_, ?_, fun j y => ?_⟩ (h.soundBut n)) ⟨?_, ?_, ?_⟩
  · rw [hu.other m hm]; exact .refl _
  · rw [huc, hstate.1]; rfl
  · rw [hu.callLine, huc, Option.map_some, Option.some.injEq, hdest]
    by_cases g : d = e
    · simp [g]
    · have : (s.dest e).callLine ≠ some n := fun f => by
        have := (h.linked.calls.callLine e n).mp f
        rw [hcall] at this; cases this
      simp [g, this]
  · rw [hu.callLine]
    split
    · next g => subst g; rw [hd]; simp [hm.symm]
    · exact .rfl
  · rcases hu.state with ⟨e, q⟩ | ⟨e, q⟩
    · rw [e, q]; simp only [hnq, reduceCtorEq]
    · rw [e, q.mem_iff]; simp
  · rcases hu.state with ⟨-, q⟩ | ⟨-, q⟩
    · rw [q]
    · rw [q.mem_iff, List.mem_cons]; simp [hm]
  · rcases hu.state with ⟨-, q⟩ | ⟨-, q⟩
    · rw [q]; exact h.linked.calls.once
    · exact q.nodup_iff.mpr (List.nodup_cons.mpr ⟨hnq, h.linked.calls.once⟩)
  · have hcu : u.currentOf n = some k := by rw [State.currentOf, huc]; exact hcurrent
    rw [hu.sending, hcu]
    by_cases e : k = j
    · subst e
      simp only [if_true, hk, reduceCtorEq, and_false, or_false, and_true, Option.some.injEq]
      exact eq_comm
    · simp only [e, if_false, Option.some.injEq, and_false, false_or]
      exact ⟨fun g => ⟨fun e' => hnot j (e' ▸ g), g⟩, (·.2)⟩
  · intro c' hc'
    rw [huc'] at hc'; cases hc'
    simp [hcurrent, hstate.2.1]
  · simp [Line.closing, huc', hclose]
  · simp [Line.closing, huc', hclose, hu.enabled, hen, hstate.2.2]

/-- The part just before a bound line asks for the permit (R92). -/
def State.bound (s : State) (k : Fin 48) (d : Fin 8) (n : Fin 4) : State :=
  ((s.sendOn k n).updDest d fun x => { x with callLine := some n }).updLine n fun l =>
    { l with state := .awaitPermit, classFilter := none, call := some (Call.opened d (s.handleOf k) k) }

theorem State.bind_eq (s : State) (k : Fin 48) (d : Fin 8) (n : Fin 4) :
    s.bind k d n = (s.bound k d n).askPermit n (((s.caseAt k).map Case.isFire).getD false) := rfl

@[simp] theorem State.sendOn_line (s : State) (k : Fin 48) (n m : Fin 4) : (s.sendOn k n).line m = s.line m := by
  unfold State.sendOn; split <;> rfl

@[simp] theorem State.sendOn_dest (s : State) (k : Fin 48) (n : Fin 4) (d : Fin 8) : (s.sendOn k n).dest d = s.dest d := by
  unfold State.sendOn; split <;> rfl

@[simp] theorem State.sendOn_permit (s : State) (k : Fin 48) (n : Fin 4) : (s.sendOn k n).permit = s.permit := by
  unfold State.sendOn; split <;> rfl

@[simp] theorem State.bound_permit (s : State) (k : Fin 48) (d : Fin 8) (n : Fin 4) : (s.bound k d n).permit = s.permit := by
  simp [State.bound]

theorem State.bound_line (s : State) (k : Fin 48) (d : Fin 8) (n m : Fin 4) :
    (s.bound k d n).line m = if n = m then
      { s.line n with state := .awaitPermit, classFilter := none, call := some (Call.opened d (s.handleOf k) k) } else s.line m := by
  simp [State.bound]

theorem State.bound_enabled (s : State) (k : Fin 48) (d : Fin 8) (n : Fin 4) :
    ((s.bound k d n).line n).enabled = (s.line n).enabled := by simp [State.bound_line]

/-- A call whose line has just got the permit: the off-hook check, settle and dial-tone wait start (R111). -/
def Call.granted (c : Call) (x : LineTiming) : Call :=
  { c with check := .running x.check, settleTimer := some x.settle, dialToneWait := some (x.dialToneWait * 1000) }

theorem State.grantPermit_line (s : State) (n m : Fin 4) :
    (s.grantPermit n).line m = if n = m then
      { s.line n with state := .offHook, call := (s.line n).call.map (·.granted s.timing) } else s.line m := by
  simp only [State.grantPermit, State.updCall, State.updLine_line]
  split <;> rfl

@[simp] theorem State.grantPermit_queue (s : State) (n : Fin 4) : (s.grantPermit n).permit.queue = s.permit.queue := rfl

theorem State.bind_opens (s : State) {n : Fin 4} {k : Fin 48} {x : Case} (hx : s.caseAt k = some x) (d : Fin 8) : s.Opens (s.bind k d n) n d k := by
  rw [State.bind_eq]
  generalize ((s.caseAt k).map Case.isFire).getD false = fire
  have hr := State.Recarried.sendOn hx n
  have callLine : ∀ e, ((s.bound k d n).dest e).callLine = if d = e then some n else (s.dest e).callLine := by
    intro e
    simp only [State.bound, State.updLine_dest, State.updDest_dest, State.sendOn_dest]
    split <;> rfl
  have call : (s.bound k d n).call n = some (Call.opened d (s.handleOf k) k) := by rw [State.call, State.bound_line, if_pos rfl]
  unfold State.askPermit
  split
  · refine ⟨fun m hm => ?_, ?_, ⟨(Call.opened d (s.handleOf k) k).granted (s.bound k d n).timing, ?_, rfl⟩, callLine, hr.sending,
      .inl ⟨?_, ?_⟩⟩
    · rw [State.grantPermit_line, if_neg hm.symm]
      exact (s.bound_line k d n m).trans (if_neg hm.symm)
    · rw [State.grantPermit_line, if_pos rfl]
      exact s.bound_enabled k d n
    · rw [State.call, State.grantPermit_line, if_pos rfl]
      exact congrArg (Option.map _) call
    · rw [State.grantPermit_line, if_pos rfl]
    · rw [State.grantPermit_queue, State.bound_permit]
  · refine ⟨fun m hm => (s.bound_line k d n m).trans (if_neg hm.symm), s.bound_enabled k d n, ⟨_, call, rfl⟩, callLine, hr.sending,
      .inr ⟨congrArg Line.state ((s.bound_line k d n n).trans (if_pos rfl)), ?_⟩⟩
    simp only [State.bound_permit]
    exact (joinQueue_perm _ _).map _

/-- A waiting case bound to a line without a call, to a destination without one: the agreement holds (R92, R96). -/
theorem State.CallsOk.bind (h : s.CallsOk) {k : Fin 48} {x : Case} (hx : s.caseAt k = some x) (hs : x.state = .pending)
    {d : Fin 8} (hd : (s.dest d).callLine = none) (hi : (s.line n).state.inCall = false) (ho : (s.line n).state ≠ .off) :
    (s.bind k d n).CallsOk :=
  h.opens (s.bind_opens hx d) (by rw [s.sendingOn_of_caseAt hx, Case.sendingOn_of_ne (by simp [hs])]) hd hi ho

theorem State.CallsOk.pass (h : s.CallsOk) : s.pass.CallsOk := by
  unfold State.pass
  have q : ∀ (t : State) b, t.Quiet { t with fireWaiting := b } := fun t b => (State.Tame.own t ..).quiet
  refine (q _ _).callsOk (PassRun.foldl_take (P := fun s t => s.CallsOk → t.CallsOk) (fun _ => id) (fun f g => g ∘ f)
    (fun r k hp h => ?_) _ ⟨s, []⟩ (s.ranked_nodup _) s.eligible_allPending h)
  rcases r.take_cases k with e | ⟨c, d, n, hc, -, hd, hn, e⟩ | ⟨n, hl, e⟩ <;> rw [e]
  · exact h
  · have hstate : (r.st.line n).state = .idle ∨ (r.st.line n).state = .inUse := by
      simp only [State.selectable, State.forceable, State.compatibleIn, Bool.and_eq_true, decide_eq_true_eq] at hn
      exact hn.imp (·.1.1) (·.1.1)
    refine h.bind hc (hp c hc) hd ?_ ?_ <;> rcases hstate with e | e <;> simp [e, LineState.inCall]
  · exact h.release_linger hl

end Sys2Proof.Machine
end

