-- ==== Sys2Proof/Proofs/LineCommands.lean ====
section
/-! SUPPORT. Every event of a line, and WRITE LINE's enable and disable, keeps the invariants and the agreement of the calls. -/

namespace Sys2Proof.Machine

/-! ### What a command owes -/

/-- A steady change that keeps the agreement of the calls. -/
structure State.Safe (s t : State) : Prop extends State.Steady s t where
  calls : s.CallsOk → t.CallsOk

theorem State.Safe.refl (s : State) : s.Safe s := ⟨.refl s, id⟩
theorem State.Safe.trans {s t u : State} (h : s.Safe t) (g : t.Safe u) : s.Safe u :=
  ⟨h.toSteady.trans g.toSteady, g.calls ∘ h.calls⟩
theorem State.Tame.safe {s t : State} (h : s.Tame t) : s.Safe t := ⟨h.toSteady, h.quiet.callsOk⟩

/-- What a command does that is no reset: the invariants are kept, held posts go only by admission, and the agreement of the calls is kept. -/
structure State.Serves (s t : State) : Prop where
  upholds : s.Upholds t
  calls : s.CallsOk → t.CallsOk

theorem State.Safe.serves {s t : State} (h : s.Safe t) : s.Serves t := ⟨h.toSteady.admits.upholds, h.calls⟩
theorem State.Tame.serves {s t : State} (h : s.Tame t) : s.Serves t := h.safe.serves
theorem State.Serves.refl (s : State) : s.Serves s := (State.Safe.refl s).serves
theorem State.Serves.after {s t u : State} (h : s.Serves t) (g : t.Safe u) : s.Serves u :=
  ⟨h.upholds.after g.toSteady, g.calls ∘ h.calls⟩
theorem State.Safe.before {s t u : State} (h : s.Safe t) (g : t.Serves u) : s.Serves u :=
  ⟨h.toSteady.upholds g.upholds, g.calls ∘ h.calls⟩

theorem State.Safe.answerLingers (s : State) : s.Safe s.answerLingers := ⟨.answerLingers s, (·.answerLingers)⟩

/-- A change of the table, followed by the answers to the lingering lines. -/
theorem State.Serves.answered {s t : State} (h : s.Serves t) : s.Serves t.answerLingers := h.after (.answerLingers t)

/-- Every next state a command answers with is served. -/
def State.Served (s : State) (r : Result) : Prop := ∀ t, r = .next t → s.Serves t

theorem State.Serves.next {s t : State} (h : s.Serves t) : s.Served (.next t) := by rintro _ ⟨⟩; exact h

theorem State.Served.refl (s : State) : s.Served (.next s) := (State.Serves.refl s).next

/-! ### Changes of a line that its call does not see -/

variable (s : State)

theorem State.Safe.updLine {s : State} {n : Fin 4} (f : Line → Line) (like : (s.line n).Like (f (s.line n)))
    (failures : (s.line n).failures ≤ 3 → (f (s.line n)).failures ≤ 3) : s.Safe (s.updLine n f) :=
  ⟨.updLine s n f failures, (State.Quiet.updLine s n f like).callsOk⟩

theorem State.Safe.updCall (n : Fin 4) (f : Call → Call) (h : ∀ c, (f c).face = c.face) : s.Safe (s.updCall n f) :=
  ⟨.updCall s n f, (State.Quiet.updCall s n f h).callsOk⟩

theorem State.Safe.updDialling (n : Fin 4) (f : Dialling → Dialling) : s.Safe (s.updDialling n f) :=
  .updCall s n _ fun _ => rfl

theorem State.Safe.updBlock (n : Fin 4) (f : BlockRun → BlockRun) : s.Safe (s.updBlock n f) := .updCall s n _ fun _ => rfl

theorem Line.Like.of_same {l l' : Line} (enabled : l'.enabled = l.enabled) (call : l'.call = l.call) (state : l'.state = l.state) :
    l.Like l' :=
  ⟨enabled, by rw [call], by rw [state], by rw [state], by rw [state], by rw [state], fun h => state.trans h⟩

theorem Line.learn_like (l : Line) (m : LearnedMode) : l.Like (l.learn m) := by
  unfold Line.learn
  split
  · exact .refl l
  · exact .of_same rfl rfl rfl

theorem Line.classifySample_like (l : Line) (b : Band) : l.Like (l.classifySample b) := by
  unfold Line.classifySample
  split
  · exact .of_same rfl rfl rfl
  · split
    · exact .of_same rfl rfl rfl
    · exact .refl l

theorem Line.watchRecovery_like (l : Line) (b : Band) : l.Like (l.watchRecovery b) := by
  unfold Line.watchRecovery
  split <;> exact .of_same rfl rfl rfl

/-- The on-hook states of an enabled line, between which it moves without its call being concerned. -/
def LineState.onHook : LineState → Bool
  | .idle | .inUse | .fault | .guarded => true
  | _ => false

theorem Line.Like.onHook {l l' : Line} (enabled : l'.enabled = l.enabled) (call : l'.call = l.call) (h : l.state.onHook = true)
    (h' : l'.state.onHook = true) : l.Like l' := by
  refine ⟨enabled, by rw [call], ?_, ?_, ?_, ?_, ?_⟩ <;> revert h h' <;> cases l.state <;> cases l'.state <;>
    simp [LineState.onHook, LineState.inCall]

theorem State.classify_quiet {n : Fin 4} (h : (s.line n).state.onHook = true) : s.Quiet (s.classify n) := by
  unfold State.classify
  refine State.Quiet.trans (.updLine s n _ (.onHook rfl rfl h ?_)) (State.Tame.tellEntry _ _).quiet
  simp only []
  generalize Option.getD _ _ = b
  split <;> rfl

theorem State.exitFault_quiet {n : Fin 4} (h : (s.line n).state.onHook = true) {st : LineState} (hst : st.onHook = true) :
    s.Quiet (s.exitFault n st) :=
  ((State.Quiet.updLine s n _ (.onHook rfl rfl h hst)).trans (State.Tame.raise _ _).quiet).trans (State.internalRestore_tame _ _).quiet

theorem State.enterFault_serves {n : Fin 4} (h : (s.line n).state.onHook = true) (cause : FaultCause) :
    s.Serves (s.enterFault n cause) := by
  refine ⟨s.enterFault_upholds n cause, fun g => g.enterFault ?_ ?_ cause⟩ <;> revert h <;> cases (s.line n).state <;>
    simp [LineState.onHook, LineState.inCall]

/-! ### Ends of a call -/

theorem State.Safe.failCall {s : State} {n : Fin 4} (hw : (s.line n).state ≠ .awaitPermit) (ho : (s.line n).state ≠ .off)
    {kind : OutcomeKind} (hk : kind ≠ .accepted) : s.Safe (s.failCall n kind) :=
  ⟨.failCall s n kind hk, (·.failCall hw ho kind)⟩

theorem State.Safe.failLine {s : State} {n : Fin 4} (hw : (s.line n).state ≠ .awaitPermit) (ho : (s.line n).state ≠ .off)
    {kind : OutcomeKind} (hk : kind ≠ .accepted) (cause : FaultCause) : s.Safe (s.failLine n kind cause) :=
  ⟨.failLine s n kind cause hk, (·.failLine hw ho kind cause)⟩

theorem State.overcurrent_serves {s : State} {n : Fin 4} (hw : (s.line n).state ≠ .awaitPermit) (ho : (s.line n).state ≠ .off) :
    s.Serves (s.overcurrent n) := ⟨s.overcurrent_upholds n, (·.overcurrent hw ho)⟩

theorem State.Safe.release_linger {s : State} {n : Fin 4} (h : (s.line n).state = .linger) : s.Safe (s.release n) :=
  ⟨.release s n, (·.release_linger h)⟩

/-! ### Dialling -/

theorem State.Safe.dialled {s : State} {n : Fin 4} (h : (s.line n).state = .dialling) : s.Safe (s.dialled n) := by
  unfold State.dialled
  refine .updLine _ ⟨rfl, ?_, ?_, ?_, ?_, ?_, ?_⟩ id
  · rw [Option.map_map]; rfl
  all_goals simp [h, LineState.inCall]

theorem State.Safe.nextElement {s : State} {n : Fin 4} (h : (s.line n).state = .dialling) : s.Safe (s.nextElement n) := by
  unfold State.nextElement
  split
  · exact .refl s
  · split
    · exact .refl s
    · split
      · exact .updDialling s n _
      · exact .dialled h

theorem State.Safe.startDialling {s : State} {n : Fin 4} (h : (s.line n).state = .offHook) : s.Safe (s.startDialling n) := by
  unfold State.startDialling
  split
  · exact .refl s
  next c hc =>
  simp only []
  generalize hf : (fun l : Line => _) = f
  have hstate : (f (s.line n)).state = .dialling := by rw [← hf]
  have h1 : s.Safe (s.updLine n f) := by
    refine .updLine f ?_ (by rw [← hf]; exact id)
    rw [← hf]
    refine ⟨rfl, ?_, ?_, ?_, ?_, ?_, ?_⟩
    · rw [Option.map_map]; rfl
    all_goals simp [h, LineState.inCall]
  have h2 : ((s.updLine n f).line n).state = .dialling := by simp [hstate]
  split
  · exact h1.trans (.failCall (by rw [h2]; simp) (by rw [h2]; simp) (by simp))
  · exact h1.trans (.nextElement h2)

theorem State.Safe.tryDial (n : Fin 4) : s.Safe (s.tryDial n) := by
  unfold State.tryDial
  split
  · exact .refl s
  · split
    · next h => exact .startDialling h.1
    · exact .refl s

theorem State.judgeLoop_serves {s : State} {n : Fin 4} (h : (s.line n).state = .offHook) (i : Nat) : s.Serves (s.judgeLoop n i) := by
  unfold State.judgeLoop
  split
  · exact (State.Safe.failLine (by simp [h]) (by simp [h]) (by simp) _).serves
  · split
    · exact State.overcurrent_serves (by simp [h]) (by simp [h])
    · refine (State.Safe.trans (.updCall s n _ ?_) (.tryDial _ n)).serves
      exact fun _ => rfl

theorem State.judgeCurrent_serves {s : State} {n : Fin 4} (h : (s.line n).state.offHookState = true) (i : Nat) {watch : State → State}
    (hw : s.Safe (watch s)) : s.Serves (s.judgeCurrent n i watch) := by
  unfold State.judgeCurrent
  split
  · refine State.overcurrent_serves ?_ ?_ <;> intro e <;> rw [e] at h <;> cases h
  · exact hw.serves

theorem Call.judgeIntrusion_face (c : Call) (r i d f : Nat) : (c.judgeIntrusion r i d f).face = c.face := by
  unfold Call.judgeIntrusion; split <;> rfl

theorem State.Safe.monitor (n : Fin 4) (i : Nat) : s.Safe (s.monitor n i) := by
  refine .updCall s n _ fun c => ?_
  split
  · rfl
  · exact c.judgeIntrusion_face ..

theorem State.Safe.monitorSettled (n : Fin 4) (i : Nat) : s.Safe (s.monitorSettled n i) := by
  refine .updCall s n _ fun c => ?_
  split
  · rfl
  · exact c.judgeIntrusion_face ..

/-! ### Samples and tones -/

theorem State.takeSample_serves (n : Fin 4) (volts milliamps : Nat) : s.Serves (s.takeSample n volts milliamps) := by
  have h1 : s.Safe (s.updLine n fun l => { l with sample := some ⟨volts, min Config.currentMaxMa milliamps⟩ }) :=
    .updLine _ (.of_same rfl rfl rfl) id
  have hs : ((s.updLine n fun l => { l with sample := some ⟨volts, min Config.currentMaxMa milliamps⟩ }).line n).state =
      (s.line n).state := by simp
  unfold State.takeSample
  simp only []
  generalize State.updLine s n _ = t at h1 hs
  have classified : s.Serves (t.updLine n fun l => l.classifySample (Band.ofVolts volts)) :=
    (h1.trans (.updLine _ (Line.classifySample_like _ _) fun g => by rwa [Line.classifySample_failures])).serves
  split
  · exact classified
  · exact classified
  · split
    · exact (h1.trans (.updLine _ (Line.watchRecovery_like _ _) fun g => by rwa [Line.watchRecovery_failures])).serves
    · exact h1.serves
  · next he =>
    have h2 := h1.trans (.updCall t n (fun c => { c with sampled := true }) fun _ => rfl)
    have hs2 : ((t.updCall n fun c => { c with sampled := true }).line n).state = .offHook := by simp [hs, he]
    split
    · exact h2.before (State.judgeLoop_serves hs2 _)
    · exact h2.before (State.judgeCurrent_serves (by rw [hs2]; rfl) _ (.monitorSettled _ n _))
    · exact h2.serves
  · next he => exact h1.before (State.judgeCurrent_serves (by rw [hs, he]; rfl) _ (.refl t))
  · next he => exact h1.before (State.judgeCurrent_serves (by rw [hs, he]; rfl) _ (.monitor t n _))
  · next he => exact h1.before (State.judgeCurrent_serves (by rw [hs, he]; rfl) _ (.monitor t n _))
  · next he => exact h1.before (State.judgeCurrent_serves (by rw [hs, he]; rfl) _ (.monitor t n _))
  all_goals exact h1.serves

theorem execLineSample_served (n : Fin 4) (volts milliamps : Nat) : s.Served (execLineSample n volts milliamps s) :=
  (s.takeSample_serves n volts milliamps).answered.next

theorem execDialToneOn_served (n : Fin 4) : s.Served (execDialToneOn n s) := by
  unfold execDialToneOn
  have h := State.Safe.updCall s n (fun c => { c with dialTone := true }) fun _ => rfl
  split
  · exact (h.trans (.tryDial _ n)).serves.answered.next
  · exact h.serves.next
  · exact .refl s

theorem State.Safe.learn (n : Fin 4) (m : LearnedMode) : s.Safe (s.updLine n fun l => l.learn m) :=
  .updLine _ ((s.line n).learn_like m) fun h => (s.line n).learn_failures m ▸ h

theorem Line.learn_state (l : Line) (m : LearnedMode) : (l.learn m).state = l.state := by
  unfold Line.learn; split <;> rfl

theorem State.Safe.decideTone {s : State} {n : Fin 4} (h : (s.line n).state = .dialling) (g : Dialling) : s.Safe (s.decideTone n g) := by
  unfold State.decideTone
  simp only []
  have h1 := (State.Safe.learn s n .tone).trans (.updDialling _ n fun g => { g with adaptiveCheck := none, learning := false })
  split
  · exact h1.trans (.nextElement (by simp [State.updDialling, Line.learn_state, h]))
  · exact h1

theorem execDialToneOff_served (n : Fin 4) : s.Served (execDialToneOff n s) := by
  unfold execDialToneOff
  have h := State.Safe.updCall s n (fun c => { c with dialTone := false }) fun _ => rfl
  simp only []
  split
  · exact h.serves.next
  · next hs =>
    split
    · split
      · exact (h.trans (.decideTone (by simp [hs]) _)).serves.next
      · exact h.serves.next
    · exact h.serves.next
  · exact .refl s

theorem execBusyTone_served (n : Fin 4) : s.Served (execBusyTone n s) := by
  unfold execBusyTone
  split
  · next h => exact (State.Safe.failCall (by simp [h]) (by simp [h]) (by simp)).serves.answered.next
  · exact .refl s

/-! ### Symbols -/

theorem State.Safe.updDest (d : Fin 8) (f : Destination → Destination) (hd : (f (s.dest d)).dial = (s.dest d).dial)
    (hs : (f (s.dest d)).state = (s.dest d).state) (hl : (f (s.dest d)).callLine = (s.dest d).callLine) : s.Safe (s.updDest d f) :=
  ⟨.updDest s d f hd hs, (State.Quiet.updDest s d f hl).callsOk⟩

theorem State.Safe.ready {s : State} {n : Fin 4} (h : (s.line n).state = .awaitHandshake) : s.Safe (s.ready n) := by
  unfold State.ready
  split
  · exact .refl s
  next c hc =>
  simp only []
  refine (State.Safe.updDest s c.dest (fun d => if d.policy = .perCall then { d with toggle := false } else d) ?_ ?_ ?_).trans
    (.updLine _ ⟨rfl, ?_, ?_, ?_, ?_, ?_, ?_⟩ fun _ => Nat.zero_le _)
  iterate 3 split <;> rfl
  · rw [Option.map_map]; rfl
  all_goals simp [h, LineState.inCall]

theorem State.Safe.repeatBlock {s : State} {n : Fin 4} (h : (s.line n).state = .exchange) : s.Safe (s.repeatBlock n) := by
  unfold State.repeatBlock
  split
  · exact .refl s
  · next b hb =>
    have h1 := State.Safe.updBlock s n fun b => { b with repeats := b.repeats + 1, response := none }
    simp only []
    split
    · exact h1.trans (.updBlock _ n _)
    · exact h1.trans (.failCall (by simp [State.updBlock, h]) (by simp [State.updBlock, h]) (by simp))

theorem State.refuseDest_tame (d : Fin 8) : s.Tame (s.refuseDest d) :=
  .redirect d (fun x => { x with last := .refused, state := if x.state = .enabled then .refusing else x.state }) rfl rfl
    (State.Told.raise _ _)

/-- A line alike is in OFF, waits or lingers as the other does. -/
theorem State.Tame.line_like {s t : State} (h : s.Tame t) (n : Fin 4) : (s.line n).Like (t.line n) := h.quiet.line n

theorem State.Safe.refuse {s : State} {n : Fin 4} (h : (s.line n).state = .exchange) : s.Safe (s.refuse n) := by
  unfold State.refuse
  split
  · exact .refl s
  · next c hc =>
    have h1 := s.refuseDest_tame c.dest
    have hl := (h1.line_like n).exchange h
    exact h1.safe.trans (.failCall (by simp [hl]) (by simp [hl]) (by simp))

theorem State.accept_serves {s : State} {n : Fin 4} (h : (s.line n).state = .exchange) : s.Serves (s.accept n) := by
  unfold State.accept
  split
  · exact .refl s
  next c hc =>
  have h1 := State.Safe.updDest s c.dest (fun d => { d with toggle := !d.toggle }) rfl rfl rfl
  have h1l : (s.updDest c.dest fun d => { d with toggle := !d.toggle }).line n = s.line n := rfl
  simp only []
  generalize s.updDest c.dest _ = t at h1 h1l
  have told := State.Tame.raise (t.handOutcome n .accepted) .delivered
  constructor
  · refine State.Steady.upholds h1.toSteady (State.Upholds.after (t := (t.handOutcome n .accepted).raise .delivered)
      ((t.handOutcome_upholds n .accepted).after told.toSteady) ?_)
    split
    · exact .release _ n
    · exact .askNext _ n
  · intro g
    have g := h1.calls g
    obtain ⟨b1, b2, -, b4⟩ := (g.soundBut n).handOutcome .accepted
    have b1 := told.quiet.soundBut b1
    have b4 := b4.trans (told.quiet.line n)
    have b2 : ((t.handOutcome n .accepted).raise .delivered).currentOf n = none := b2
    generalize (t.handOutcome n .accepted).raise .delivered = u at b1 b2 b4
    have hd := b4.handed_settled (g.settled n)
    have hs : (u.line n).state ≠ .awaitPermit ∧ (u.line n).state ≠ .off := by
      rw [Ne, b4.waiting, Ne, b4.off]
      simp [Line.handed, h1l, h]
    simp only [hs.2, false_or] at hd
    have hcall : (t.line n).call = some c := by rw [h1l]; exact hc
    have hclosing : (u.line n).closing = c.closePending := by rw [b4.closing, Line.handed_closing, Line.closing, hcall]; rfl
    split
    · exact b1.release b2 hs.1 hd
    · next hcl =>
      have hcl : (u.line n).closing = false := by rw [hclosing]; simpa using hcl
      have hsome : (u.line n).call.isSome = true := by rw [b4.isSome, Line.handed, hcall]; rfl
      obtain ⟨c', hc'⟩ := Option.isSome_iff_exists.mp hsome
      exact b1.askNext b2 hs.1 hcl (by rw [← Bool.not_eq_false, hd, hcl]; simp) hc'

theorem execReceivedSymbol_served (n : Fin 4) (sym : Nat) : s.Served (execReceivedSymbol n sym s) := by
  unfold execReceivedSymbol
  split
  · next h =>
    split
    · exact (State.Safe.ready h).serves.next
    · exact .refl s
  · next h =>
    split
    · split
      · exact (State.accept_serves h).answered.next
      · split
        · exact (State.Safe.repeatBlock h).serves.answered.next
        · split
          · exact (State.Safe.refuse h).serves.answered.next
          · exact .refl s
    · exact .refl s
  · exact .refl s

/-! ### On-hook timers -/

theorem execClassificationFilterExpiry_served (n : Fin 4) : s.Served (execClassificationFilterExpiry n s) := by
  unfold execClassificationFilterExpiry
  simp only []
  split
  · next h =>
    have hon : (s.line n).state.onHook = true := by rcases h.2 with e | e <;> rw [e] <;> rfl
    split
    · exact (s.enterFault_serves hon _).answered.next
    · exact ((State.Safe.updLine _ (.onHook rfl rfl hon rfl) id).trans (State.Tame.tellEntry _ _).safe).serves.next
    · exact ((State.Safe.updLine _ (.onHook rfl rfl hon rfl) id).trans (State.Tame.tellEntry _ _).safe).serves.next
  · exact .refl s

/-- Leaving FAULT sets the line's state, and nothing after it touches the line (R117). -/
theorem State.exitFault_line (n : Fin 4) (st : LineState) :
    (s.exitFault n st).line n = { s.line n with state := st, cause := .none, faultHold := none, recovery := none } := by
  unfold State.exitFault
  simp only []
  rw [((State.OnTable.raise _ .lineFault).trans (.internalRestore _ _)).line]
  simp

theorem State.exitFault_classify_safe {n : Fin 4} (h : (s.line n).state = .fault) : s.Safe ((s.exitFault n .idle).classify n) := by
  have h1 : s.Safe (s.exitFault n .idle) := ⟨.exitFault s n _, (s.exitFault_quiet (by rw [h]; rfl) rfl).callsOk⟩
  refine h1.trans ⟨.classify _ n, (State.classify_quiet _ ?_).callsOk⟩
  rw [State.exitFault_line]
  rfl

theorem execRecoveryTimerExpiry_served (n : Fin 4) : s.Served (execRecoveryTimerExpiry n s) := by
  unfold execRecoveryTimerExpiry
  simp only []
  split
  · next h => exact (s.exitFault_classify_safe h.2).serves.answered.next
  · exact .refl s

theorem execGuardExpiry_served (n : Fin 4) : s.Served (execGuardExpiry n s) := by
  unfold execGuardExpiry
  simp only []
  split
  · next h =>
    have hon : (s.line n).state.onHook = true := by rw [h.2]; rfl
    split
    · exact (s.enterFault_serves hon _).answered.next
    · have h1 : s.Safe (s.updLine n fun l => { l with guardTimer := none }) := .updLine _ (.of_same rfl rfl rfl) id
      refine (h1.trans ⟨.classify _ n, (State.classify_quiet _ ?_).callsOk⟩).serves.next
      simpa using hon
  · exact .refl s

theorem execFaultHoldExpiry_served (n : Fin 4) : s.Served (execFaultHoldExpiry n s) := by
  unfold execFaultHoldExpiry
  simp only []
  split
  · next h =>
    refine State.Serves.next (State.Serves.answered ?_)
    split
    · exact (s.exitFault_classify_safe h.2).serves
    · have h1 : s.Safe (s.updLine n fun l => { l with failures := 2 }) := .updLine _ (.of_same rfl rfl rfl) fun _ => by simp
      exact (h1.trans (State.exitFault_classify_safe _ (by simp [h.2]))).serves
  · exact .refl s

/-! ### The permit and the seizure -/

/-- The line at the head of the queue leaves it and goes off-hook: the agreement holds (R111). -/
theorem State.CallsOk.dequeued {s u : State} (h : s.CallsOk) {w : PermitWait} {q : List PermitWait} (hq : s.permit.queue = w :: q)
    (other : ∀ m, m ≠ w.line → u.line m = s.line m) (enabled : (u.line w.line).enabled = (s.line w.line).enabled)
    (face : (u.line w.line).call.map Call.face = (s.line w.line).call.map Call.face) (state : (u.line w.line).state = .offHook)
    (dests : ∀ d, u.dest d = s.dest d) (slots : ∀ k, u.sendingOn k = s.sendingOn k) (queue : u.permit.queue = q) : u.CallsOk := by
  have hc := h.linked.calls
  have hwait : (s.line w.line).state = .awaitPermit := (hc.queued w.line).mp (by simp [hq])
  have hnd : w.line ∉ q.map PermitWait.line ∧ (q.map PermitWait.line).Nodup := by
    have := hc.once
    rw [hq, List.map_cons] at this
    exact List.nodup_cons.mp this
  have like : (s.line w.line).Like { u.line w.line with state := .awaitPermit } :=
    ⟨enabled, face, by simp [hwait], by simp [hwait], by simp [hwait], by simp [hwait], by simp [hwait]⟩
  have hset := like.settled (h.settled w.line)
  have hcur : u.currentOf w.line = s.currentOf w.line := like.current
  refine State.SoundBut.callsOk (n := w.line) (State.Relinks.soundBut ⟨fun m hm => ?_, ?_, fun d => ?_, fun d m _ => by rw [dests],
    ?_, fun m hm => ?_, by rw [queue]; exact hnd.2, fun j x => ?_⟩ (h.soundBut w.line)) ⟨?_, ?_, ?_⟩
  · rw [other m hm]; exact .refl _
  · rw [state, show (u.call w.line).isSome = (s.call w.line).isSome from like.isSome, hc.opened, hwait]
    rfl
  · rw [dests, hc.callLine d w.line]
    exact iff_of_eq (congrArg (· = some d) like.dest.symm)
  · rw [queue, state]; simp only [hnd.1, reduceCtorEq]
  · rw [queue, hq, List.map_cons, List.mem_cons]; simp [hm]
  · rw [slots, hcur, h.linked.sending]
    constructor
    · rintro ⟨m, rfl, hm⟩
      by_cases e : m = w.line
      · exact .inl ⟨e ▸ rfl, e ▸ hm⟩
      · exact .inr ⟨fun g => e (Option.some.inj g), m, rfl, hm⟩
    · rintro (⟨rfl, hm⟩ | ⟨-, hm⟩)
      · exact ⟨w.line, rfl, hm⟩
      · exact hm
  · intro c hc
    rw [state, hset.carried c hc]
    simp
  · intro hcl
    have := hset.closing hcl
    simp at this
  · have hd : (u.line w.line).enabled = false ↔ LineState.awaitPermit = .off ∨ (u.line w.line).closing = true := hset.disabled
    rw [state]
    simpa using hd

theorem execStaggerTimerExpiry_served : s.Served (execStaggerTimerExpiry s) := by
  unfold execStaggerTimerExpiry
  split
  · simp only []
    split
    · next hq =>
      refine State.Serves.next (State.Safe.serves ⟨.setPermit s _ fun h => ⟨rfl, fun g => absurd hq g, h.fireFirst⟩, State.Quiet.callsOk ?_⟩)
      exact ⟨fun _ => .refl _, fun _ => rfl, rfl, fun _ => rfl⟩
    · next w q hq =>
      refine State.Serves.next (State.Safe.serves ⟨?_, fun h => ?_⟩)
      · have h1 := State.Steady.setPermit s ⟨some w.line, some s.timing.stagger, q⟩ fun h =>
          ⟨rfl, fun _ => rfl, (hq ▸ h.fireFirst).of_cons⟩
        exact (h1.trans (.updLine _ w.line (fun l => { l with state := .offHook }) id)).trans (.updCall _ w.line _)
      · refine h.dequeued hq (fun m hm => ?_) ?_ ?_ ?_ (fun _ => rfl) (fun _ => rfl) rfl
        · rw [State.grantPermit_line, if_neg hm.symm]; rfl
        · rw [State.grantPermit_line, if_pos rfl]; rfl
        · rw [State.grantPermit_line, if_pos rfl, Option.map_map]; rfl
        · rw [State.grantPermit_line, if_pos rfl]
  · exact .refl s

theorem execOffHookCheckExpiry_served (n : Fin 4) : s.Served (execOffHookCheckExpiry n s) := by
  unfold execOffHookCheckExpiry
  split
  · exact .refl s
  · split
    · split
      · next h =>
        split
        · exact (State.judgeLoop_serves h _).answered.next
        · exact (State.Safe.updCall s n (fun c => { c with check := .awaitingSample }) fun _ => rfl).serves.next
      · exact .refl s
    · exact .refl s

theorem execSettleTimerExpiry_served (n : Fin 4) : s.Served (execSettleTimerExpiry n s) := by
  unfold execSettleTimerExpiry
  split
  · exact .refl s
  · split
    · simp only []
      refine State.Serves.next (State.Serves.answered (State.Safe.serves (State.Safe.trans (.updCall s n _ ?_) (.tryDial _ n))))
      exact fun _ => rfl
    · exact .refl s

theorem execDialToneWaitExpiry_served (n : Fin 4) : s.Served (execDialToneWaitExpiry n s) := by
  unfold execDialToneWaitExpiry
  split
  · exact .refl s
  · split
    · next h => exact (State.Safe.failLine (by simp [h.2]) (by simp [h.2]) (by simp) _).serves.answered.next
    · exact .refl s

theorem execIntrusionFilterExpiry_served (n : Fin 4) : s.Served (execIntrusionFilterExpiry n s) := by
  unfold execIntrusionFilterExpiry
  split
  · exact .refl s
  next c hc =>
  have yielded : (s.line n).state ≠ .awaitPermit → (s.line n).state ≠ .off →
      s.Served (if s.carriesFire n then .next (s.updCall n fun c => { c with intrusion := some s.timing.intrusion })
        else .next (s.failCall n .yielded).answerLingers) := by
    intro hw ho
    split
    · exact (State.Safe.updCall s n (fun c => { c with intrusion := some s.timing.intrusion }) fun _ => rfl).serves.next
    · exact (State.Safe.failCall hw ho (by simp)).serves.answered.next
  split
  · split
    · next h => exact (State.Safe.release_linger h).serves.next
    · next h => exact yielded (by simp [h]) (by simp [h])
    · next h => exact yielded (by simp [h]) (by simp [h])
    · next h => exact yielded (by simp [h]) (by simp [h])
    · exact .refl s
  · exact .refl s

/-! ### Dialling -/

theorem execElementTimerExpiry_served (n : Fin 4) : s.Served (execElementTimerExpiry n s) := by
  unfold execElementTimerExpiry
  split
  · exact .refl s
  · split
    · next h =>
      have h1 := State.Safe.updDialling s n fun g => { g with element := none }
      simp only []
      split
      · exact h1.serves.next
      · exact (h1.trans (.nextElement (by simp [State.updDialling, h.2]))).serves.next
    · exact .refl s

theorem State.Safe.redial {s : State} {n : Fin 4} (h : (s.line n).state = .dialling) : s.Safe (s.redial n) :=
  (State.Safe.updDialling s n _).trans (.nextElement (by simp [State.updDialling, h]))

theorem execAdaptiveCheckExpiry_served (n : Fin 4) : s.Served (execAdaptiveCheckExpiry n s) := by
  unfold execAdaptiveCheckExpiry
  split
  · exact .refl s
  · split
    · next h =>
      have h1 := State.Safe.learn s n .pulse
      have hs : ((s.updLine n fun l => l.learn .pulse).line n).state = .dialling := by simp [Line.learn_state, h.2]
      simp only []
      split
      · exact (h1.trans (.failLine (by rw [hs]; simp) (by rw [hs]; simp) (by simp) _)).serves.answered.next
      · exact (h1.trans (.redial hs)).serves.next
    · exact .refl s

/-! ### The exchange -/

theorem execHandshakeWaitExpiry_served (n : Fin 4) : s.Served (execHandshakeWaitExpiry n s) := by
  unfold execHandshakeWaitExpiry
  split
  · exact .refl s
  · split
    · next h => exact (State.Safe.failCall (by simp [h.2]) (by simp [h.2]) (by simp)).serves.answered.next
    · exact .refl s

/-- A block is in progress only in EXCHANGE. -/
theorem State.blockPhase_some {s : State} {n : Fin 4} {p : BlockPhase} (h : s.blockPhase n = some p) :
    (s.line n).state = .exchange := by
  unfold State.blockPhase at h
  split at h
  · assumption
  · cases h

theorem execBlockSent_served (n : Fin 4) : s.Served (execBlockSent n s) := by
  unfold execBlockSent
  split
  · exact (State.Safe.updBlock s n _).serves.next
  · exact .refl s

theorem execResponseWaitExpiry_served (n : Fin 4) : s.Served (execResponseWaitExpiry n s) := by
  unfold execResponseWaitExpiry
  split
  · next h => exact (State.Safe.repeatBlock (State.blockPhase_some h.1)).serves.answered.next
  · exact .refl s

theorem execLingerExpiry_served (n : Fin 4) : s.Served (execLingerExpiry n s) := by
  unfold execLingerExpiry
  split
  · exact .refl s
  · split
    · next h => exact (State.Safe.release_linger h.2).serves.next
    · exact .refl s

/-! ### WRITE LINE -/

theorem State.Steady.disableLine (n : Fin 4) : s.Steady (s.disableLine n) := by
  unfold State.disableLine
  have h := State.Steady.handOutcome s n .abandoned (by simp)
  split
  · exact .refl s
  · exact .updLine s n _ id
  · exact .updLine s n _ id
  · exact (State.Steady.updLine s n _ (by exact id)).trans (State.Tame.notifyWhileFire _).toSteady
  · exact .exitFault s n _
  · exact ((h.trans (.leaveQueue _ n)).trans (.endCall _ n)).trans (.updLine _ n _ id)
  · exact (h.trans (.endCall _ n)).trans (.updLine _ n _ id)
  · exact (h.trans (.endCall _ n)).trans (.updLine _ n _ id)
  · exact (h.trans (.endCall _ n)).trans (.updLine _ n _ id)
  · exact .updCall s n _
  · exact (State.Steady.endCall s n).trans (.updLine _ n _ id)

theorem State.Steady.enableLine (n : Fin 4) : s.Steady (s.enableLine n) := by
  unfold State.enableLine
  have h := State.Steady.updLine s n (fun l => { l with failures := 0 }) fun _ => Nat.zero_le _
  split
  · exact h.trans (.classify _ n)
  · split
    · exact .refl s
    · exact (h.trans (.exitFault _ n _)).trans (.classify _ n)
  · exact .updCall s n _
  · exact h
  · exact h
  · exact .updDialling s n _
  all_goals exact .refl s

/-- What an enable or disable finds: the agreement holds but for the enabled setting just written (R123). -/
structure State.Rewritten (s : State) (n : Fin 4) : Prop where
  but : s.SoundBut n
  carried : ∀ c, s.call n = some c → (c.current = none ↔ (s.line n).state = .linger)
  closing : s.closing n = true → (s.line n).state = .exchange

theorem State.CallsOk.rewritten {s : State} {n : Fin 4} (h : s.CallsOk) (f : Line → Line) (call : (f (s.line n)).call = (s.line n).call)
    (state : (f (s.line n)).state = (s.line n).state) : (s.updLine n f).Rewritten n := by
  refine ⟨(h.soundBut n).updLine f (by rw [call]) (by rw [call]) (by rw [state]) (by rw [state]), fun c hc => ?_, fun hc => ?_⟩
  · rw [State.updLine_call, if_pos rfl, call] at hc
    rw [State.updLine_line, if_pos rfl, state]
    exact (h.settled n).carried c hc
  · rw [State.closing, State.updLine_call, if_pos rfl, call] at hc
    rw [State.updLine_line, if_pos rfl, state]
    exact (h.settled n).closing hc

variable {s} {n : Fin 4}

theorem State.SoundBut.call_none (h : s.SoundBut n) (hi : (s.line n).state.inCall = false) : (s.line n).call = none := by
  have := h.linked.calls.opened n
  rw [hi, Option.isSome_eq_false_iff, Option.isNone_iff_eq_none] at this
  exact this

/-- A disabled line without a call is put to OFF: the agreement holds (R124). -/
theorem State.SoundBut.off (h : s.SoundBut n) (f : Line → Line) (hi : (s.line n).state.inCall = false)
    (call : (f (s.line n)).call = (s.line n).call) (state : (f (s.line n)).state = .off) (he : (f (s.line n)).enabled = false) :
    (s.updLine n f).CallsOk := by
  have hw : (s.line n).state ≠ .awaitPermit := fun e => by rw [e] at hi; cases hi
  refine (h.updLine f (by rw [call]) (by rw [call]) (by rw [state, hi]; rfl) (by rw [state]; simp [hw])).callsOk ?_
  rw [State.updLine_line, if_pos rfl]
  exact .of_idle (call.trans (h.call_none hi)) (by simp [he, state])

/-- A disabled line's call that carries nothing is ended and the line put to OFF: the agreement holds (R124). -/
theorem State.SoundBut.endOff (h : s.SoundBut n) (hn : s.currentOf n = none) (hw : (s.line n).state ≠ .awaitPermit)
    (he : (s.line n).enabled = false) : ((s.endCall n).updLine n fun l => { l with state := .off }).CallsOk := by
  refine (h.endCall hn hw (fun l => { l with state := .off }) (fun _ => rfl) (fun _ => rfl)).callsOk ?_
  rw [State.updLine_line, if_pos rfl, State.endCall_line_same]
  exact .of_idle rfl (by simp [he])

theorem State.Rewritten.disableLine (h : s.Rewritten n) (he : (s.line n).enabled = false) : (s.disableLine n).CallsOk := by
  obtain ⟨h1, h2, -, h4⟩ := h.but.handOutcome .abandoned
  have he1 : ((s.handOutcome n .abandoned).line n).enabled = false := h4.enabled.trans he
  have handed : (s.line n).state ≠ .awaitPermit →
      (((s.handOutcome n .abandoned).endCall n).updLine n fun l => { l with state := .off }).CallsOk := fun hw =>
    h1.endOff h2 (mt h4.waiting.mp hw) he1
  unfold State.disableLine
  split
  · next hs => exact h.but.callsOk (.of_idle (h.but.call_none (by rw [hs]; rfl)) (by simp [he, hs]))
  · next hs => exact h.but.off _ (by rw [hs]; rfl) rfl rfl he
  · next hs => exact h.but.off _ (by rw [hs]; rfl) rfl rfl he
  · next hs => exact (State.Tame.notifyWhileFire _).quiet.callsOk (h.but.off _ (by rw [hs]; rfl) rfl rfl he)
  · next hs =>
    refine ((State.Tame.raise _ _).quiet.trans (State.internalRestore_tame _ _).quiet).callsOk ?_
    exact h.but.off (fun l => { l with state := .off, cause := .none, faultHold := none, recovery := none }) (by rw [hs]; rfl) rfl rfl he
  · next hs =>
    generalize s.handOutcome n .abandoned = t at h1 h2 he1
    have hline : ∀ m, ((t.leaveQueue n).endCall n).line m = (t.endCall n).line m := by
      intro m; unfold State.endCall
      rw [show (t.leaveQueue n).call n = t.call n from rfl]
      split <;> rfl
    refine State.SoundBut.callsOk (n := n) (h1.closed h2 (fun m hm => ?_) ?_ ?_ (fun d => ?_) ?_ fun j => ?_) ?_
    · rw [State.updLine_line, if_neg hm.symm, hline]
      unfold State.endCall
      split
      · exact .refl _
      · simp only [State.notify_line, State.updLine_line, if_neg hm.symm, State.updDest_line]; exact .refl _
    · rw [State.updLine_call, if_pos rfl, hline, State.endCall_line_same]
    · rw [State.updLine_line, if_pos rfl]; rfl
    · rw [State.updLine_dest]
      unfold State.endCall
      rw [show (t.leaveQueue n).call n = t.call n from rfl]
      split
      · next hc => simp only [hc, Option.map_none, reduceCtorEq, if_false]; rfl
      · next c hc =>
        simp only [State.notify_dest, State.updLine_dest, State.updDest_dest, hc, Option.map_some, Option.some.injEq]
        split <;> rfl
    · rw [List.filter_map]
      unfold State.endCall
      rw [show (t.leaveQueue n).call n = t.call n from rfl]
      split <;> rfl
    · unfold State.endCall
      rw [show (t.leaveQueue n).call n = t.call n from rfl]
      split <;> rfl
    · rw [State.updLine_line, if_pos rfl, hline, State.endCall_line_same]
      exact .of_idle rfl (by simp [he1])
  · next hs => exact handed (by simp [hs])
  · next hs => exact handed (by simp [hs])
  · next hs => exact handed (by simp [hs])
  · next hs =>
    have hsome : (s.line n).call.isSome = true := (h.but.linked.calls.opened n).trans (by rw [hs]; rfl)
    obtain ⟨c, hc⟩ := Option.isSome_iff_exists.mp hsome
    refine (h.but.updLine _ ?_ ?_ rfl .rfl).callsOk ?_
    · rw [Option.map_map]; rfl
    · simp [hc]
    · simp only [State.updLine_line, if_true]
      have := h.carried c hc
      refine ⟨?_, fun _ => hs, ?_⟩
      · rw [hc]; rintro _ ⟨⟩; exact this
      · simp [he, Line.closing, hc]
  · next hs =>
    refine h.but.endOff ?_ (by simp [hs]) he
    cases hc : s.call n with
    | none => simp [State.currentOf, hc]
    | some c => simpa [State.currentOf, hc] using (h.carried c hc).mpr hs

/-- An enabled line that is neither closing nor OFF is settled. -/
theorem State.Rewritten.settled (h : s.Rewritten n) (he : (s.line n).enabled = true) (ho : (s.line n).state ≠ .off)
    (hx : (s.line n).state ≠ .exchange) : (s.line n).Settled := by
  have hcl : (s.line n).closing ≠ true := fun e => hx (h.closing e)
  exact ⟨h.carried, h.closing, by simp [he, ho, hcl]⟩

theorem State.Rewritten.enableLine (h : s.Rewritten n) (he : (s.line n).enabled = true) : (s.enableLine n).CallsOk := by
  have fine : (s.line n).state ≠ .off → (s.line n).state ≠ .exchange → s.CallsOk := fun ho hx => h.but.callsOk (h.settled he ho hx)
  have zero : ∀ t : State, t.Quiet (t.updLine n fun l => { l with failures := 0 }) := fun t => .updLine t n _ (.of_same rfl rfl rfl)
  unfold State.enableLine
  split
  · next hs =>
    unfold State.classify
    refine (State.Tame.tellEntry _ _).quiet.callsOk ?_
    have hc := h.but.call_none (by rw [hs]; rfl)
    have b := (zero s).soundBut h.but
    refine State.SoundBut.callsOk (b.updLine _ rfl rfl ?_ ?_) ?_
    · simp only [State.updLine_line, if_true, hs]
      split <;> rfl
    · simp only [State.updLine_line, if_true, hs]
      split <;> simp
    · rw [State.updLine_line, if_pos rfl]
      refine .of_idle ?_ ?_
      · simp [hc]
      · simp only [State.updLine_line, if_true, he]
        split <;> simp
  · next hs =>
    split
    · exact fine (by simp [hs]) (by simp [hs])
    · have h1 : s.Safe (s.updLine n fun l => { l with failures := 0 }) := ⟨.updLine s n _ fun _ => Nat.zero_le _, (zero s).callsOk⟩
      exact (h1.trans (State.exitFault_classify_safe _ (by simp [hs]))).calls (fine (by simp [hs]) (by simp [hs]))
  · next hs =>
    have hsome : (s.line n).call.isSome = true := (h.but.linked.calls.opened n).trans (by rw [hs]; rfl)
    obtain ⟨c, hc⟩ := Option.isSome_iff_exists.mp hsome
    refine (h.but.updLine _ ?_ ?_ rfl .rfl).callsOk ?_
    · rw [Option.map_map]; rfl
    · simp [hc]
    · simp only [State.updLine_line, if_true]
      have := h.carried c hc
      refine ⟨?_, fun _ => hs, ?_⟩
      · rw [hc]; rintro _ ⟨⟩; exact this
      · simp [he, Line.closing, hc, hs]
  · next hs => exact (zero s).callsOk (fine (by simp [hs]) (by simp [hs]))
  · next hs => exact (zero s).callsOk (fine (by simp [hs]) (by simp [hs]))
  · next hs => exact (State.Safe.updDialling s n _).calls (fine (by simp [hs]) (by simp [hs]))
  all_goals
    next hs => exact fine (by simp [hs]) (by simp [hs])

/-- WRITE LINE's settings written and its enable or disable done (R123, R124, R125). -/
theorem State.Safe.setEnabled (s : State) (n : Fin 4) (en fo : Bool) (m : DialMode) :
    s.Safe (if en then (s.updLine n fun l => { l with enabled := en, forced := fo, mode := m, learned := .unknown }).enableLine n
      else (s.updLine n fun l => { l with enabled := en, forced := fo, mode := m, learned := .unknown }).disableLine n) := by
  have h1 : s.Steady (s.updLine n fun l => { l with enabled := en, forced := fo, mode := m, learned := .unknown }) := .updLine s n _ id
  have h2 : s.CallsOk → (s.updLine n fun l => { l with enabled := en, forced := fo, mode := m, learned := .unknown }).Rewritten n :=
    fun h => h.rewritten _ rfl rfl
  have h3 : ((s.updLine n fun l => { l with enabled := en, forced := fo, mode := m, learned := .unknown }).line n).enabled = en := by
    simp
  generalize s.updLine n _ = t at h1 h2 h3
  cases en with
  | true => exact ⟨h1.trans (.enableLine t n), fun g => (h2 g).enableLine h3⟩
  | false => exact ⟨h1.trans (.disableLine t n), fun g => (h2 g).disableLine h3⟩

end Sys2Proof.Machine
end

