-- ==== Sys2Proof/Proofs/InputCommands.lean ====
section
/-! SUPPORT. The events and requests of the contact inputs keep the invariants: a channel that works posts and restores only its own keys. -/

namespace Sys2Proof.Machine

variable {s t : State} {i : Fin 8}

/-! ### A channel at work -/

/-- Channel `c'` has the settings of channel `c`. -/
structure Channel.Same (c c' : Channel) : Prop where
  enabled : c'.enabled = c.enabled
  cls : c'.cls = c.cls
  zone : c'.zone = c.zone
  filterMs : c'.filterMs = c.filterMs
  retard : c'.retard = c.retard
  written : c'.written = c.written

theorem Channel.Same.refl (c : Channel) : c.Same c := ⟨rfl, rfl, rfl, rfl, rfl, rfl⟩
theorem Channel.Same.trans {a b c : Channel} (h : a.Same b) (g : b.Same c) : a.Same c :=
  ⟨g.enabled.trans h.enabled, g.cls.trans h.cls, g.zone.trans h.zone, g.filterMs.trans h.filterMs, g.retard.trans h.retard,
    g.written.trans h.written⟩

theorem Channel.Same.inRange {c c' : Channel} (h : c.Same c') (g : c.InRange) : c'.InRange := by
  unfold Channel.InRange at g ⊢
  rwa [h.cls, h.zone, h.filterMs, h.retard]

/-- From `s` to `t` channel `i` has worked: posts and restores have been made, and its settings stand. -/
structure State.Works (s t : State) (i : Fin 8) : Prop where
  posts : s.Posts t
  same : (s.input i).Same (t.input i)

theorem State.Works.refl (s : State) (i : Fin 8) : s.Works s i := ⟨(State.Tame.refl s).posts, .refl _⟩

/-- The table changed, the channel left alone. -/
theorem State.Works.table {u : State} (h : s.Works t i) (g : t.Posts u) (e : t.OnTable u) : s.Works u i :=
  ⟨h.posts.trans g, by rw [e.input]; exact h.same⟩

theorem State.Works.tame {u : State} (h : s.Works t i) (g : t.Tame u) (e : t.OnTable u) : s.Works u i := h.table g.posts e

theorem State.Posts.setInput (h : s.Posts t) (i : Fin 8) (c : Channel) (range : (t.input i).InRange → c.InRange)
    (marked : (t.input i).written = true → c.written = true) (idle : s.ChannelsIdle → c.enabled = false → c.Idle) :
    s.Posts (t.setInput i c) :=
  ⟨h.toKeeps.setInput i c range marked idle, h.kept, h.mono, h.quiet.trans (.setInput t i c)⟩

theorem State.Posts.updInput (h : s.Posts t) (i : Fin 8) {f : Channel → Channel} (range : (t.input i).InRange → (f (t.input i)).InRange)
    (marked : (t.input i).written = true → (f (t.input i)).written = true)
    (idle : s.ChannelsIdle → (f (t.input i)).enabled = false → (f (t.input i)).Idle) : s.Posts (t.updInput i f) :=
  h.setInput i _ range marked idle

/-- The working state of an enabled channel written. -/
theorem State.Works.upd (h : s.Works t i) (live : s.ChannelsIdle → (s.input i).enabled = true) {f : Channel → Channel}
    (same : ∀ c : Channel, c.Same (f c) := by exact fun _ => ⟨rfl, rfl, rfl, rfl, rfl, rfl⟩) : s.Works (t.updInput i f) i := by
  have hs := h.same.trans (same (t.input i))
  refine ⟨h.posts.setInput i _ (same _).inRange (fun e => (same _).written.trans e) fun g e => ?_, by simpa using hs⟩
  rw [hs.enabled, live g] at e
  cases e

/-- Where a channel shows that it works, a sound state has it enabled. -/
theorem State.ChannelsIdle.enabled (g : s.ChannelsIdle) (h : ¬ (s.input i).Idle) : (s.input i).enabled = true := by
  by_contra e
  exact h (g i (Bool.eq_false_iff.mpr e))

theorem State.channelKey_mayPost (hw : (s.input i).written = true) (cls : Cls) : s.MayPost ⟨16 + i.val, (s.input i).zone, cls⟩ := by
  refine ⟨fun g => ⟨?_, ?_⟩, fun _ j hj => ?_⟩
  · show 16 + i.val ≤ 24
    omega
  · obtain ⟨-, hz, -⟩ := g.inputs i
    exact hz
  · rintro e
    have : i = j := Fin.ext (Nat.add_left_cancel e)
    subst this
    rw [hw] at hj; cases hj

/-- The keys a channel posts are those of its source. -/
theorem State.Works.channelPost (h : s.Works t i) (p : Poster) (cls : Cls) :
    s.Works (t.channelPost i p ⟨16 + i.val, (t.input i).zone, cls⟩) i := by
  unfold State.channelPost
  split
  · next hw => exact h.table (t.internalPost_posts p _ (State.channelKey_mayPost hw cls)) (.internalPost t p _)
  · exact h

theorem State.Works.internalRestore (h : s.Works t i) (key : Key) : s.Works (t.internalRestore key) i :=
  h.tame (t.internalRestore_tame key) (.internalRestore t key)

theorem State.Works.raiseAlarm (h : s.Works t i) (live : s.ChannelsIdle → (s.input i).enabled = true) : s.Works (t.raiseAlarm i) i :=
  (h.upd live).channelPost _ _

theorem State.Works.troubleStep (h : s.Works t i) (live : s.ChannelsIdle → (s.input i).enabled = true) (old new : Level) :
    s.Works (t.troubleStep i old new) i := by
  unfold State.troubleStep
  split
  · split
    · exact h
    · have h1 := h.tame (.raise t .inputTrouble) (.raise t _)
      simp only []
      split
      · exact (h1.upd live).channelPost _ _
      · exact h1
  · split
    · simp only []
      refine State.Works.upd ?_ live
      split
      · exact h.internalRestore _
      · exact h
    · exact h

theorem State.Works.alarmStep (h : s.Works t i) (live : s.ChannelsIdle → (s.input i).enabled = true) (new : Level) :
    s.Works (t.alarmStep i new) i := by
  unfold State.alarmStep
  simp only []
  split
  · split
    · split
      · exact h.raiseAlarm live
      · exact h.upd live
    · exact h
  · split
    · exact h
    · exact h.upd live
  · split
    · exact (h.internalRestore _).upd live
    · exact h
  · split
    · exact h.upd live
    · exact h

theorem State.Works.acceptLevel (h : s.Works t i) (live : s.ChannelsIdle → (s.input i).enabled = true) (new : Level) :
    s.Works (t.acceptLevel i new) i := by
  unfold State.acceptLevel
  simp only []
  exact ((h.upd live).troubleStep live _ _).alarmStep live _

theorem State.Posts.serves (h : s.Posts t) : s.Serves t := ⟨h.upholds (.refl t), h.quiet.callsOk⟩

/-! ### The events -/

theorem State.takeInput_posts (s : State) (i : Fin 8) (count : Nat) : s.Posts (s.takeInput i count) := by
  have sampled : s.Posts (s.updInput i fun c => { c with sample := some count }) :=
    (State.Tame.refl s).posts.setInput i _ id id fun g e => g i e
  unfold State.takeInput
  simp only []
  split
  · exact sampled
  · next he =>
    have en : (s.input i).enabled = true := by simpa using he
    have same : ((s.updInput i fun c => { c with sample := some count }).input i).enabled = true := by simp [en]
    have w : s.Works (s.updInput i fun c => { c with sample := some count }) i := ⟨sampled, by simpa using ⟨rfl, rfl, rfl, rfl, rfl, rfl⟩⟩
    split
    · split
      · exact sampled
      · exact (w.acceptLevel (fun _ => en) _).posts
    · split
      · exact (w.upd fun _ => en).posts
      · split
        · exact sampled
        · exact (w.upd fun _ => en).posts

theorem execInputSample_served (s : State) (i : Fin 8) (count : Nat) : s.Served (execInputSample i count s) :=
  (s.takeInput_posts i count).serves.answered.next

theorem execLevelFilterExpiry_served (s : State) (i : Fin 8) : s.Served (execLevelFilterExpiry i s) := by
  unfold execLevelFilterExpiry
  simp only []
  split
  · next hf _ =>
    have live : s.ChannelsIdle → (s.input i).enabled = true := fun g => g.enabled fun hi => by
      obtain ⟨-, -, h, -⟩ := hi; rw [h] at hf; cases hf
    exact ((State.Works.refl s i).acceptLevel live _).posts.serves.answered.next
  · exact .refl s

theorem execRetardTimerExpiry_served (s : State) (i : Fin 8) : s.Served (execRetardTimerExpiry i s) := by
  unfold execRetardTimerExpiry
  simp only []
  split
  · next h =>
    have live : s.ChannelsIdle → (s.input i).enabled = true := fun g => g.enabled fun hi => by
      obtain ⟨-, -, -, -, hr, -⟩ := hi; simp [hr] at h
    exact ((State.Works.refl s i).raiseAlarm live).posts.serves.answered.next
  · exact .refl s

/-! ### The requests -/

theorem State.answer_serves {s t : State} (h : s.Serves t) (st : Status) (b : List Byte) : s.Serves (t.answer st b) :=
  h.after (State.Tame.answer t st b).safe

theorem State.refused_serves (s : State) (st : Status) (b : List Byte) : s.Serves (s.answer st b) :=
  State.answer_serves (.refl s) st b

theorem Channel.restart_idle (c : Channel) : c.restart.Idle := ⟨rfl, rfl, rfl, rfl, rfl, rfl⟩

theorem State.disableInput_posts (s : State) (i : Fin 8) : s.Posts (s.disableInput i) := by
  unfold State.disableInput
  simp only []
  generalize hu : (if (s.input i).alarm = .raised then s.internalRestore (s.alarmKey i) else s) = u
  have h1 : s.Works u i := by
    rw [← hu]; split
    · exact (State.Works.refl s i).internalRestore _
    · exact .refl s i
  generalize hv : (if (s.input i).trouble = .raised then u.internalRestore (u.troubleKey i) else u) = v
  have h2 : s.Works v i := by
    rw [← hv]; split
    · exact h1.internalRestore _
    · exact h1
  exact h2.posts.setInput i _ id id fun _ _ => (v.input i).restart_idle

theorem State.setInputState_serves (s : State) (input state : Nat) : s.Serves (s.setInputState input state) := by
  unfold State.setInputState
  split
  · next i on _ _ =>
    split
    · exact s.refused_serves _ _
    · split
      · exact State.answer_serves ((State.Tame.refl s).posts.updInput i (by exact id) (by exact id) (by simp)).serves _ _
      · exact State.answer_serves (s.disableInput_posts i).serves.answered _ _
  · exact s.refused_serves _ _

theorem State.unlatchInput_serves (s : State) (input : Nat) : s.Serves (s.unlatchInput input) := by
  unfold State.unlatchInput
  split
  · exact s.refused_serves _ _
  · next i _ =>
    simp only []
    split
    · exact s.refused_serves _ _
    · next hl =>
      split
      · exact s.refused_serves _ _
      · have live : s.ChannelsIdle → (s.input i).enabled = true := fun g => g.enabled fun hi => by
          obtain ⟨-, -, -, ha, -⟩ := hi; simp [Channel.latched, ha] at hl
        exact State.answer_serves (((State.Works.refl s i).internalRestore _).upd live).posts.serves.answered _ _

theorem clamp_mem (lo hi x : Nat) (h : lo ≤ hi) : lo ≤ clamp lo hi x ∧ clamp lo hi x ≤ hi := by
  unfold clamp; omega

theorem inputClsOfCode_some {code : Nat} {c : Cls} (h : inputClsOfCode code = some c) : c = .fire ∨ c = .waterflow ∨ c = .boiler := by
  unfold inputClsOfCode at h
  split at h
  all_goals cases h
  all_goals simp

theorem State.writeInput_serves (s : State) (input cls zone latch sampling filter retard : Nat) :
    s.Serves (s.writeInput input cls zone latch sampling filter retard) := by
  unfold State.writeInput
  split
  · next i c la sa _ hc _ _ =>
    split
    · exact s.refused_serves _ _
    · next hz =>
      split
      · exact s.refused_serves _ _
      · have hf := clamp_mem 50 5000 filter (by omega)
        have hr := clamp_mem 0 120 retard (by omega)
        exact State.answer_serves ((State.Tame.refl s).posts.updInput i
          (fun _ => ⟨inputClsOfCode_some hc, Nat.le_of_not_lt hz, hf.1, hf.2, hr.2⟩) (by exact fun _ => rfl)
          (by exact fun _ _ => (s.input i).restart_idle)).serves _ _
  · exact s.refused_serves _ _

end Sys2Proof.Machine
end

