-- ==== Sys2Proof/Proofs/Requests.lean ====
section
/-! SUPPORT. The requests on cases and settings and the part's own events keep the invariants. -/

namespace Sys2Proof.Machine

variable {s t : State}

/-! ### Settings written -/

/-- Settings outside the tables of destinations, plans, lines and channels written within their ranges. -/
theorem State.Tame.tuned (s : State) (reserve low : Nat) (admission : Vector (Vector Admission 4) 16) (classes : Vector ClassEntry 5)
    (timing : LineTiming) (exchange : ExchangeTiming) (timer : TestTimer)
    (h : s.SettingsInRange → reserve ≤ 16 ∧ low ≤ 16 ∧ (∀ c : Cls, (classes[c.idx]).InRange) ∧ timing.InRange ∧ exchange.InRange ∧
      timer.InRange) :
    s.Tame { s with
      reserve := reserve, lowThreshold := low, admission := admission, classes := classes, timing := timing, exchange := exchange
      testTimer := timer } := by
  refine ⟨⟨⟨⟨id, id, (·.of_eq rfl), fun g => ?_, id, fun g => ⟨g.cases, g.held⟩⟩, fun g => ⟨g.limits, g.within, g.usable⟩⟩, .refl s, rfl⟩,
    fun _ => .refl _, fun _ => rfl, rfl, fun _ => rfl⟩
  obtain ⟨hr, hl, hc, ht, he, hm⟩ := h g
  exact ⟨hr, hl, hc, g.plans, g.dests, ht, he, g.inputs, hm, g.failures, g.held, g.keys⟩

theorem State.writeAdmission_serves (s : State) (linkSource cls entry : Nat) : s.Serves (s.writeAdmission linkSource cls entry) := by
  unfold State.writeAdmission
  split
  · exact State.answer_serves (State.Tame.tuned s _ _ _ _ _ _ _ fun g =>
      ⟨g.reserve, g.threshold, g.classes, g.timing, g.exchange, g.testTimer⟩).serves _ _
  · exact s.refused_serves _ _

theorem State.offerSpace_serves (s : State) : s.Serves s.offerSpace := ⟨s.offerSpace_admits.1.upholds, s.offerSpace_admits.2.callsOk⟩

theorem State.writeCaseLimits_serves (s : State) (reserve threshold : Nat) : s.Serves (s.writeCaseLimits reserve threshold) := by
  have h := State.Tame.tuned s (clamp 0 16 reserve) (clamp 0 16 threshold) s.admission s.classes s.timing s.exchange s.testTimer fun g =>
    ⟨(clamp_mem 0 16 _ (by omega)).2, (clamp_mem 0 16 _ (by omega)).2, g.classes, g.timing, g.exchange, g.testTimer⟩
  unfold State.writeCaseLimits
  simp only [State.answerWrite]
  refine State.answer_serves ?_ _ _
  split
  · exact h.safe.before (State.offerSpace_serves _).answered
  · exact h.serves

theorem ClassEntry.clamped_inRange (base step cap rb rm : Nat) : (ClassEntry.clamped base step cap rb rm).InRange := by
  simp only [ClassEntry.InRange, ClassEntry.clamped, clamp]
  omega

theorem State.writeClass_serves (s : State) (cls base step cap rb rm : Nat) : s.Serves (s.writeClass cls base step cap rb rm) := by
  unfold State.writeClass
  split
  · exact s.refused_serves _ _
  · next c _ =>
    simp only [State.answerWrite]
    refine State.answer_serves (State.Tame.serves (State.Tame.tuned s _ _ _ _ _ _ _ fun g =>
      ⟨g.reserve, g.threshold, fun d => ?_, g.timing, g.exchange, g.testTimer⟩)) _ _
    have hd := g.classes d
    show ((s.setClassEntry c _).classEntry d).InRange
    rw [State.setClassEntry_classEntry]
    split
    · exact ClassEntry.clamped_inRange ..
    · exact hd

theorem LineTiming.clamped_inRange (x : LineTiming) : x.clamped.InRange := by
  simp only [LineTiming.InRange, LineTiming.clamped, clamp]
  omega

theorem ExchangeTiming.clamped_inRange (x : ExchangeTiming) : x.clamped.InRange := by
  simp only [ExchangeTiming.InRange, ExchangeTiming.clamped, clamp]
  omega

theorem State.writeLineTiming_serves (s : State) (x : LineTiming) : s.Serves (s.writeLineTiming x) :=
  State.answer_serves (State.Tame.tuned s _ _ _ _ _ _ _ fun g =>
    ⟨g.reserve, g.threshold, g.classes, x.clamped_inRange, g.exchange, g.testTimer⟩).serves _ _

theorem State.writeExchangeTiming_serves (s : State) (x : ExchangeTiming) : s.Serves (s.writeExchangeTiming x) :=
  State.answer_serves (State.Tame.tuned s _ _ _ _ _ _ _ fun g =>
    ⟨g.reserve, g.threshold, g.classes, g.timing, x.clamped_inRange, g.testTimer⟩).serves _ _

/-- The Test Timer written within its range. -/
theorem State.Tame.setTimer (s : State) (m : TestTimer) (h : s.testTimer.InRange → m.InRange) : s.Tame { s with testTimer := m } :=
  .tuned s _ _ _ _ _ _ _ fun g => ⟨g.reserve, g.threshold, g.classes, g.timing, g.exchange, h g.testTimer⟩

theorem State.writeTestTimer_serves (s : State) (mode period : Nat) : s.Serves (s.writeTestTimer mode period) := by
  unfold State.writeTestTimer
  split
  · exact s.refused_serves _ _
  · obtain ⟨h1, h2⟩ := clamp_mem 1 168 period (by omega)
    refine State.answer_serves (State.Tame.setTimer s _ fun _ => ⟨h1, h2, ?_⟩).serves _ _
    show _ * 3600 ≤ 604800
    omega

theorem length_of_mapM_eq_some {f : α → Option β} : ∀ {xs : List α} {ys : List β}, xs.mapM f = some ys → ys.length = xs.length
  | [], ys, h => by simp only [List.mapM_nil] at h; cases h; rfl
  | x :: xs, ys, h => by
    simp only [List.mapM_cons, Option.bind_eq_bind, Option.bind_eq_some_iff] at h
    obtain ⟨y, -, zs, hzs, e⟩ := h
    cases e
    rw [List.length_cons, List.length_cons, length_of_mapM_eq_some hzs]

theorem dialStringOfCodes_some {xs : List Nat} {ds : List DialSym} (h : dialStringOfCodes xs = some ds) :
    ds.length ≤ 24 ∧ ∃ y ∈ ds, y ≠ .pause := by
  unfold dialStringOfCodes at h
  split at h
  · next hlen =>
    split at h
    · next es he =>
      split at h
      · cases h
      · next hall =>
        cases h
        refine ⟨?_, by simpa using hall⟩
        rw [length_of_mapM_eq_some he]
        exact hlen.2
    · cases h
  · cases h

/-- A destination's setup written where no line calls it. -/
theorem State.Tame.setup (s : State) (d : Fin 8) {f : Destination → Destination} (range : (f (s.dest d)).InRange)
    (state : (f (s.dest d)).state = (s.dest d).state) (call : (f (s.dest d)).callLine = (s.dest d).callLine) :
    s.Tame (s.updDest d f) := by
  refine ⟨⟨⟨.updDest s d f fun _ => range, fun g => ?_⟩, .refl s, rfl⟩, .updDest s d f call⟩
  refine ⟨g.limits, g.within, fun e k h => ?_⟩
  have : (s.updDest d f).usable e = s.usable e := by
    simp only [State.usable, State.updDest_dest]
    split
    · next h => subst h; rw [state]
    · rfl
  rw [this]
  exact g.usable e k h

theorem State.writeDestination_serves (s : State) (dest d1 d2 d3 d4 policy : Nat) (symbols : List Nat) :
    s.Serves (s.writeDestination dest d1 d2 d3 d4 policy symbols) := by
  unfold State.writeDestination
  split
  · next d a p dial _ _ _ hdial =>
    split
    · exact s.refused_serves _ _
    · have h : s.Tame (s.updDest d fun x => { x with dial := dial, account := a, policy := p, toggle := false, last := .none }) :=
        .setup s d (.inr (dialStringOfCodes_some hdial)) (by rfl) (by rfl)
      simp only []
      refine State.answer_serves (State.Tame.serves ?_) _ _
      split
      · exact h.trans (.notify _)
      · exact h
  · exact s.refused_serves _ _

theorem State.enableDest_serves (s : State) (d : Fin 8) : s.Serves (s.enableDest d) := by
  unfold State.enableDest
  split
  · exact s.refused_serves _ _
  · split
    · exact s.refused_serves _ _
    · refine State.answer_serves (State.Tame.serves (State.Tame.trans (t := s.updDest d fun x => { x with state := .enabled }) ?_ (.notify _))) _ _
      refine ⟨⟨⟨.updDest s d _ (by exact id), fun g => ⟨g.limits, g.within, fun e k h => ?_⟩⟩, .refl s, rfl⟩, .updDest s d _ (by rfl)⟩
      have := g.usable e k h
      simp only [State.usable, State.updDest_dest] at this ⊢
      split
      · rfl
      · exact this

theorem State.disableDest_serves (s : State) (d : Fin 8) : s.Serves (s.disableDest d) := by
  unfold State.disableDest
  split
  · exact s.refused_serves _ _
  · exact State.answer_serves (State.Tame.redirect d (fun x => { x with state := .disabled }) rfl rfl (.refl _)).serves.answered _ _

theorem State.setDestinationState_serves (s : State) (dest state : Nat) : s.Serves (s.setDestinationState dest state) := by
  unfold State.setDestinationState
  split
  · split
    · exact s.enableDest_serves _
    · exact s.disableDest_serves _
  · exact s.refused_serves _ _

theorem planListOfCodes_some {xs : List Nat} {ds : List (Fin 8)} (h : planListOfCodes xs = some ds) : ds.length ≤ 4 ∧ ds.Nodup := by
  unfold planListOfCodes at h
  split at h
  · next hlen =>
    split at h
    · next es he =>
      split at h
      · next hn =>
        cases h
        exact ⟨by rw [length_of_mapM_eq_some he]; exact hlen, hn⟩
      · cases h
    · cases h
  · cases h

theorem State.writePlan_serves (s : State) (cls : Nat) (dests : List Nat) (attempts rounds : Nat) :
    s.Serves (s.writePlan cls dests attempts rounds) := by
  unfold State.writePlan
  split
  · next c ds _ hds =>
    obtain ⟨h1, h2⟩ := planListOfCodes_some hds
    obtain ⟨h3, h4⟩ := clamp_mem 1 8 attempts (by omega)
    obtain ⟨h5, h6⟩ := clamp_mem 1 3 rounds (by omega)
    simp only [State.answerWrite]
    exact State.answer_serves (State.Tame.replacePlan s c _ ⟨h1, h2, h3, h4, h5, h6⟩).serves.answered _ _
  · exact s.refused_serves _ _

theorem State.writeLine_serves (s : State) (line enable forced mode : Nat) : s.Serves (s.writeLine line enable forced mode) := by
  unfold State.writeLine
  split
  · next n en fo m _ _ _ _ =>
    exact State.answer_serves ((State.Safe.setEnabled s n en fo m).trans (State.Tame.notify _).safe).serves.answered _ _
  · exact s.refused_serves _ _

/-! ### Requests on cases -/

theorem State.withHandle_serves (s : State) (h : Nat) {f : Fin 48 → Case → State} (hf : ∀ k c, s.caseAt k = some c → s.Serves (f k c)) :
    s.Serves (s.withHandle h f) := by
  unfold State.withHandle
  split
  · exact s.refused_serves _ _
  · split
    · exact s.refused_serves _ _
    · split
      · exact s.refused_serves _ _
      · next hc => exact hf _ _ hc

theorem State.postAdmitted_serves (s : State) (key : Key) (detail : Option Nat) (mark : Mark) (hp : s.MayPost key) :
    s.Serves (s.postAdmitted key detail mark) := by
  unfold State.postAdmitted
  split
  · exact State.answer_serves (s.postCase_tame _ detail).serves _ _
  · split
    · exact s.refused_serves _ _
    · next ht => exact State.answer_serves (s.acceptPost_tame ht hp).serves.answered _ _

theorem State.post_serves (s : State) (src zone cls : Nat) (detail : Option Nat) : s.Serves (s.post src zone cls detail) := by
  unfold State.post
  split
  · exact s.refused_serves _ _
  next i hi =>
  split
  · exact s.refused_serves _ _
  next hz =>
  split
  · exact s.refused_serves _ _
  next c p _ =>
  have hs : src < 16 := by
    unfold indexOf at hi
    split at hi
    · assumption
    · cases hi
  have hp : s.MayPost ⟨src, zone, c⟩ :=
    ⟨fun _ => ⟨show src ≤ 24 by omega, Nat.le_of_not_lt hz⟩, fun _ i _ => show src ≠ 16 + i.val by omega⟩
  split
  · exact s.refused_serves _ _
  · exact s.postAdmitted_serves _ _ _ hp
  · exact s.postAdmitted_serves _ _ _ hp

theorem State.restoreNamed_serves (s : State) (k : Fin 48) (c : Case) : s.Serves (s.restoreNamed k c) := by
  unfold State.restoreNamed
  split
  · exact s.refused_serves _ _
  · exact State.answer_serves (s.restoreCase_tame k).serves.answered _ _

theorem State.restoreByHandle_serves (s : State) (src h : Nat) : s.Serves (s.restoreByHandle src h) :=
  s.withHandle_serves h fun k c _ => by
    split
    · exact s.restoreNamed_serves k c
    · exact s.refused_serves _ _

theorem State.restoreByKey_serves (s : State) (src zone cls : Nat) : s.Serves (s.restoreByKey src zone cls) := by
  unfold State.restoreByKey
  split
  · exact s.refused_serves _ _
  split
  · exact s.refused_serves _ _
  split
  · exact s.refused_serves _ _
  split
  · exact s.refused_serves _ _
  · exact s.restoreNamed_serves _ _

/-- A case that is not SENDING is on no line. -/
theorem State.sendingOn_none {k : Fin 48} {c : Case} (hc : s.caseAt k = some c) (hs : c.state ≠ .sending) : s.sendingOn k = none :=
  (State.sendingOn_of_caseAt s hc).trans (Case.sendingOn_of_ne hs)

theorem State.retire_serves {k : Fin 48} {c : Case} (hc : s.caseAt k = some c) (hs : c.state ≠ .sending) : s.Serves (s.retire k) :=
  ⟨s.retire_upholds k, (s.retire_quiet (State.sendingOn_none hc hs)).callsOk⟩

theorem State.withdraw_serves (s : State) (src h : Nat) : s.Serves (s.withdraw src h) :=
  s.withHandle_serves h fun k c hc => by
    split
    · exact s.refused_serves _ _
    split
    · exact s.refused_serves _ _
    split
    · exact s.refused_serves _ _
    split
    · exact s.refused_serves _ _
    · next hs => exact State.answer_serves (State.retire_serves hc hs).answered _ _

/-- The notice of a clear to channel `i` (R48, R168): a channel it changes is one that works. -/
theorem State.clearNotice_posts (s : State) (key : Key) (i : Fin 8) : s.Posts (s.clearNotice key i) := by
  unfold State.clearNotice
  simp only []
  split
  · next h =>
    refine (State.Works.refl s i).upd (fun g => g.enabled fun hi => ?_) |>.posts
    obtain ⟨-, -, -, ha, -⟩ := hi
    simp [ha] at h
  · split
    · next h =>
      refine (State.Works.refl s i).upd (fun g => g.enabled fun hi => ?_) |>.posts
      obtain ⟨-, -, -, -, -, ha⟩ := hi
      simp [ha] at h
    · exact (State.Tame.refl s).posts

theorem State.clearNotices_posts (key : Key) : ∀ (is : List (Fin 8)) (s : State), s.Posts (is.foldl (fun t i => t.clearNotice key i) s)
  | [], s => (State.Tame.refl s).posts
  | i :: is, s => (s.clearNotice_posts key i).trans (clearNotices_posts key is _)

theorem State.clearCase_serves {k : Fin 48} {c : Case} (hc : s.caseAt k = some c) (hs : c.state ≠ .sending) :
    s.Serves (s.clearCase k c.key) := by
  unfold State.clearCase
  simp only []
  have h1 := State.clearNotices_posts c.key (List.finRange 8) (s.vacate k)
  generalize List.foldl _ _ _ = t at h1
  obtain ⟨h2, q2⟩ := t.offerSpace_admits
  refine ⟨⟨t, ⟨(s.vacate_keeps k).trans h1.toKeeps, fun p key e => h1.mono p key ?_⟩, h2⟩, ?_⟩
  · simpa only [State.heldAt, State.vacate_heldPosts] using e
  · exact (((s.vacate_quiet (State.sendingOn_none hc hs)).trans h1.quiet).trans q2).callsOk

theorem State.clear_serves (s : State) (h : Nat) : s.Serves (s.clear h) :=
  s.withHandle_serves h fun k c hc => by
    split
    · exact s.refused_serves _ _
    · next hs => exact State.answer_serves (State.clearCase_serves hc hs).answered _ _

theorem State.rearm_serves (s : State) (h : Nat) : s.Serves (s.rearm h) :=
  s.withHandle_serves h fun k c hc => by
    split
    · next hs => exact State.answer_serves (s.rearmCase_tame hc hs).serves.answered _ _
    · exact s.refused_serves _ _

theorem State.findKey_serves (s : State) (ks zone cls : Nat) : s.Serves (s.findKey ks zone cls) := by
  unfold State.findKey
  split
  · exact s.refused_serves _ _
  split
  · exact s.refused_serves _ _
  split
  · exact s.refused_serves _ _
  · exact s.refused_serves _ _

theorem State.next_serves (s : State) (start filter : Nat) : s.Serves (s.next start filter) := by
  unfold State.next
  split
  · exact s.refused_serves _ _
  split
  · exact s.refused_serves _ _
  simp only []
  split
  · exact s.refused_serves _ _
  · exact s.refused_serves _ _

theorem State.startTest_serves (s : State) : s.Serves s.startTest := by
  have h := (s.internalPost_posts .test testKey s.testKey_mayPost).serves
  unfold State.startTest
  split
  · next e => rw [e] at h; exact State.answer_serves h.answered _ _
  · next e => rw [e] at h; exact State.answer_serves h _ _
  · next e => rw [e] at h; exact State.answer_serves h _ _

/-! ### The reads -/

theorem State.readConfig_serves (s : State) (item index : Nat) : s.Serves (s.readConfig item index) := by
  unfold State.readConfig
  split <;> exact s.refused_serves _ _

theorem State.readLine_serves (s : State) (line : Nat) : s.Serves (s.readLine line) := by
  unfold State.readLine
  split <;> exact s.refused_serves _ _

theorem State.readDestination_serves (s : State) (dest : Nat) : s.Serves (s.readDestination dest) := by
  unfold State.readDestination
  split <;> exact s.refused_serves _ _

theorem State.readInput_serves (s : State) (input : Nat) : s.Serves (s.readInput input) := by
  unfold State.readInput
  split
  · exact s.refused_serves _ _
  · simp only []
    split
    · exact (State.Tame.own s ..).serves
    · exact s.refused_serves _ _

/-! ### The frame of a request -/

theorem State.controller_served (len src : Nat) {f : State → State} (h : ∀ u : State, u.Serves (f u)) :
    s.Served (.next ((s.takeFrame len).controller src f)) := by
  refine State.Serves.next ((State.Tame.takeFrame s len).safe.before ?_)
  unfold State.controller
  split
  · exact h _
  · split <;> exact State.refused_serves _ _ _

theorem State.anySource_served (len src : Nat) {f : State → State} (h : ∀ u : State, u.Serves (f u)) :
    s.Served (.next ((s.takeFrame len).anySource src f)) := by
  refine State.Serves.next ((State.Tame.takeFrame s len).safe.before ?_)
  unfold State.anySource
  split
  · exact h _
  · exact State.refused_serves _ _ _

/-! ### The part's own events -/

theorem execReadTransaction_served (s : State) (clocked : Nat) : s.Served (execReadTransaction clocked s) :=
  (State.Tame.own s ..).serves.next

/-- The Test Timer after a second (R173). -/
def TestTimer.ticked (m : TestTimer) : TestTimer := if m.mode = .off then m else { m with remaining := m.remaining - 1 }

theorem TestTimer.InRange.ticked {m : TestTimer} (g : m.InRange) : m.ticked.InRange := by
  obtain ⟨h1, h2, h3⟩ := g
  unfold TestTimer.ticked
  split
  · exact ⟨h1, h2, h3⟩
  · exact ⟨h1, h2, (Nat.sub_le _ _).trans h3⟩

theorem execSecondsClockAdvance_served (s : State) : s.Served (execSecondsClockAdvance s) :=
  ((State.Tame.setTimer s s.testTimer.ticked (·.ticked)).trans (.own { s with testTimer := s.testTimer.ticked } ..)).serves.next

theorem execTestTimerExpiry_served (s : State) : s.Served (execTestTimerExpiry s) := by
  unfold execTestTimerExpiry
  split
  · have h := s.internalPost_posts .test testKey s.testKey_mayPost
    simp only []
    refine State.Serves.next (State.Serves.answered (h.serves.after (State.Tame.setTimer _ _ fun g => ?_).safe))
    have ht : (s.internalPost .test testKey).2.testTimer = s.testTimer := (State.OnTable.internalPost s .test testKey).testTimer
    rw [ht] at g
    obtain ⟨h1, h2, h3⟩ := g
    split
    · exact ⟨h1, h2, show _ * 3600 ≤ 604800 by omega⟩
    · exact ⟨h1, h2, h3⟩
  · exact .refl s

theorem execDispatchPass_served (s : State) : s.Served (execDispatchPass s) := by
  unfold execDispatchPass
  split
  · exact .refl s
  · exact State.Serves.next ((State.Tame.own s ..).safe.before (State.Safe.serves ⟨State.Steady.pass _, (·.pass)⟩))

end Sys2Proof.Machine
end

