-- ==== Sys2Proof/Proofs/StepInvariants.lean ====
section
/-! CLAIM. The two resets, and every command: each step keeps every invariant (O54 to O57, O59), and what the resets leave (O32, O33). -/

namespace Sys2Proof.Machine

variable {s t : State}

/-! ### The reset states -/

theorem State.callsOk_of_idle (h : ∀ n, (s.line n).call = none) (hd : ∀ d, (s.dest d).callLine = none) (hq : s.permit.queue = [])
    (hs : ∀ n, (s.line n).state.inCall = false) (he : ∀ n, (s.line n).enabled = false ↔ (s.line n).state = .off)
    (hk : ∀ k, s.caseAt k = none) : s.CallsOk := by
  refine ⟨⟨⟨fun n => ?_, fun d n => ?_, fun n => ?_, by simp [hq]⟩, fun k x => ?_⟩, fun n => .of_idle (h n) (he n)⟩
  · rw [State.call, h n, hs n]; rfl
  · rw [hd, State.call, h n]; simp
  · have hw : (s.line n).state ≠ .awaitPermit := fun e => by have := hs n; rw [e] at this; cases this
    simp [hq, hw]
  · have hn : ∀ n, s.currentOf n = none := fun n => by rw [State.currentOf, State.call, h n]; rfl
    simp [State.sendingOn, hk, hn]

@[simp] theorem State.reset_caseAt (k : Fin 48) : State.reset.caseAt k = none := by
  simp [State.caseAt, State.slot, State.reset]

@[simp] theorem State.reset_heldAt (p : Fin 21) : State.reset.heldAt p = none := by
  simp [State.heldAt, State.reset]

@[simp] theorem State.reset_line (n : Fin 4) : State.reset.line n = Line.atPowerOn := by
  simp [State.line, State.reset]

@[simp] theorem State.reset_dest (d : Fin 8) : State.reset.dest d = Destination.atPowerOn := by
  simp [State.dest, State.reset]

@[simp] theorem State.reset_input (i : Fin 8) : State.reset.input i = Channel.atPowerOn := by
  simp [State.input, State.reset]

@[simp] theorem State.reset_plan (c : Cls) : State.reset.plan c = Plan.atPowerOn := by
  simp [State.plan, State.reset]

theorem State.reset_classEntry (c : Cls) : State.reset.classEntry c = defaultClasses[c.idx] := rfl

theorem State.reset_callsOk : State.reset.CallsOk :=
  State.callsOk_of_idle (by simp [Line.atPowerOn]) (by simp [Destination.atPowerOn]) rfl (by simp [Line.atPowerOn, LineState.inCall])
    (by simp [Line.atPowerOn]) (by simp)

theorem State.reset_planSound : State.reset.PlanSound :=
  ⟨by simp [Plan.atPowerOn], by simp, fun d k h => by
    obtain ⟨c, hc, -⟩ := (State.pendingAt_iff _ d k).mp h
    simp at hc⟩

theorem State.reset_permitSound : State.reset.PermitSound := ⟨rfl, fun h => absurd rfl h, .nil⟩

theorem State.reset_settingsInRange : State.reset.SettingsInRange where
  reserve := by decide
  threshold := by decide
  classes := fun c => by
    simp only [ClassEntry.InRange]
    cases c <;> decide
  plans := fun c => by simp [Plan.InRange, Plan.atPowerOn]
  dests := fun d => by simp [Destination.InRange, Destination.atPowerOn]
  timing := by simp only [LineTiming.InRange]; decide
  exchange := by simp only [ExchangeTiming.InRange]; decide
  inputs := fun i => by simp [Channel.InRange, Channel.atPowerOn]
  testTimer := by simp only [TestTimer.InRange]; decide
  failures := fun n => by simp [Line.atPowerOn]
  held := by simp
  keys := by simp

theorem State.reset_channelsIdle : State.reset.ChannelsIdle := fun i _ => by
  simp [Channel.Idle, Channel.atPowerOn]

theorem State.reset_unwrittenSilent : State.reset.UnwrittenSilent := ⟨by simp, by simp⟩

/-- The queue and the draw of free values are outside every invariant. -/
theorem State.tame_powerOn (s : State) : State.reset.Tame { State.reset with pending := s.pending, freeCount := s.freeCount } :=
  .own State.reset ..

/-- What a reset does: every invariant holds after, where it held before. -/
structure State.Resets (s t : State) : Prop extends State.Keeps s t where
  calls : s.CallsOk → t.CallsOk

theorem State.Serves.resets (h : s.Serves t) : s.Resets t := ⟨h.upholds.keeps, h.calls⟩

theorem State.powerOn_resets (s : State) : s.Resets { State.reset with pending := s.pending, freeCount := s.freeCount } := by
  have h := State.tame_powerOn s
  have hk : State.reset.CasesSound := by simp [State.CasesSound]
  have hd : State.reset.KeysDistinct := by simp [State.KeysDistinct]
  exact ⟨⟨⟨fun _ => h.sound hk, fun _ => h.distinct hd, fun _ => h.permit State.reset_permitSound,
    fun _ => h.ranges State.reset_settingsInRange, fun _ => h.idle State.reset_channelsIdle, fun _ => h.silent State.reset_unwrittenSilent⟩,
    fun _ => h.plan State.reset_planSound⟩, fun _ => h.safe.calls State.reset_callsOk⟩

/-! ### SOFT RESET -/

@[simp] theorem State.afterSoftReset_slot (s : State) (k : Fin 48) : s.afterSoftReset.slot k = ⟨0, none⟩ := by
  simp [State.slot, State.afterSoftReset]

@[simp] theorem State.afterSoftReset_caseAt (s : State) (k : Fin 48) : s.afterSoftReset.caseAt k = none := by simp [State.caseAt]

@[simp] theorem State.afterSoftReset_heldAt (s : State) (p : Fin 21) : s.afterSoftReset.heldAt p = none := by
  simp [State.heldAt, State.afterSoftReset]

@[simp] theorem State.afterSoftReset_dest (s : State) (d : Fin 8) : s.afterSoftReset.dest d = { s.dest d with callLine := none } := by
  simp [State.dest, State.afterSoftReset]

@[simp] theorem State.afterSoftReset_line (s : State) (n : Fin 4) :
    s.afterSoftReset.line n = (s.line n).softReset (s.timing.guardTime * 1000) := by
  simp [State.line, State.afterSoftReset]

@[simp] theorem State.afterSoftReset_input (s : State) (i : Fin 8) : s.afterSoftReset.input i = (s.input i).restart := by
  simp [State.input, State.afterSoftReset]

theorem State.afterSoftReset_callsOk (s : State) : s.afterSoftReset.CallsOk := by
  refine State.callsOk_of_idle (by simp [Line.softReset]) (by simp) rfl (fun n => ?_) (fun n => ?_) (by simp)
  all_goals
    rw [State.afterSoftReset_line]
    unfold Line.softReset
    cases (s.line n).enabled <;> simp [LineState.inCall]

theorem State.afterSoftReset_resets (s : State) : s.Resets s.afterSoftReset where
  sound := fun _ => by simp [State.CasesSound]
  distinct := fun _ => by simp [State.KeysDistinct]
  permit := fun g => ⟨g.stagger, fun h => absurd rfl h, .nil⟩
  ranges := fun g => by
    refine ⟨g.reserve, g.threshold, g.classes, g.plans, fun d => ?_, g.timing, g.exchange, fun i => ?_, ?_, fun n => ?_, by simp, by simp⟩
    · simpa [Destination.InRange] using g.dests d
    · simpa [Channel.InRange, Channel.restart] using g.inputs i
    · obtain ⟨h1, h2, -⟩ := g.testTimer
      exact ⟨h1, h2, show _ * 3600 ≤ 604800 by omega⟩
    · simp [Line.softReset]
  idle := fun _ i _ => by rw [State.afterSoftReset_input]; exact Channel.restart_idle _
  silent := fun _ => ⟨by simp, by simp⟩
  plan := fun g => by
    refine ⟨g.limits, by simp, fun d k h => ?_⟩
    obtain ⟨c, hc, -⟩ := (State.pendingAt_iff _ d k).mp h
    simp at hc
  calls := fun _ => s.afterSoftReset_callsOk

theorem State.Resets.after {u : State} (h : s.Resets t) (g : t.Tame u) : s.Resets u :=
  ⟨h.toKeeps.trans g.toKeeps, g.safe.calls ∘ h.calls⟩

theorem State.Tame.resets {u : State} (h : s.Tame t) (g : t.Resets u) : s.Resets u :=
  ⟨h.toKeeps.trans g.toKeeps, g.calls ∘ h.safe.calls⟩

theorem execSoftReset_resets (s : State) (src : Nat) (h : execSoftReset src s = .next t) : s.Resets t := by
  unfold execSoftReset State.controller at h
  cases h
  refine (State.Tame.takeFrame s 3).resets ?_
  split
  · exact (State.afterSoftReset_resets _).after (.answer _ _ _)
  · split <;> exact (State.refused_serves _ _ _).resets

theorem execSoftReset_served (s : State) {src : Nat} (h : src ≠ 31) : s.Served (execSoftReset src s) := by
  refine State.Serves.next ((State.Tame.takeFrame s 3).safe.before ?_)
  rw [State.controller, if_neg h]
  split <;> exact State.refused_serves _ _ _

/-! ### Every command -/

/-- Every command but the two resets keeps the invariants, and the held posts but for admission. -/
theorem exec_served (i : Instr) (s : State) (hp : i ≠ .powerOnReset) (hs : i ≠ .softReset 31) : s.Served (exec i s) := by
  cases i with
  | post src zone cls detail => exact State.Serves.next ((State.Tame.takeFrame s _).safe.before (State.post_serves _ _ _ _ _))
  | restore src target =>
    cases target with
    | byHandle h => exact State.anySource_served _ _ fun u => u.restoreByHandle_serves src h
    | byKey zone cls => exact State.anySource_served _ _ fun u => u.restoreByKey_serves src zone cls
  | withdraw src h => exact State.anySource_served _ _ fun u => u.withdraw_serves src h
  | find src ks zone cls => exact State.anySource_served _ _ fun u => u.findKey_serves ks zone cls
  | readCase src h => exact State.anySource_served _ _ fun u => u.withHandle_serves h fun _ _ _ => u.refused_serves _ _
  | nextCase src start filter => exact State.anySource_served _ _ fun u => u.next_serves start filter
  | clear src h => exact State.controller_served _ _ fun u => u.clear_serves h
  | rearm src h => exact State.controller_served _ _ fun u => u.rearm_serves h
  | writeAdmission => exact State.controller_served _ _ fun u => u.writeAdmission_serves _ _ _
  | writeCaseLimits => exact State.controller_served _ _ fun u => u.writeCaseLimits_serves _ _
  | writeClass => exact State.controller_served _ _ fun u => u.writeClass_serves _ _ _ _ _ _
  | writeDestination => exact State.controller_served _ _ fun u => u.writeDestination_serves _ _ _ _ _ _ _
  | setDestinationState => exact State.controller_served _ _ fun u => u.setDestinationState_serves _ _
  | writePlan => exact State.controller_served _ _ fun u => u.writePlan_serves _ _ _ _
  | writeLine => exact State.controller_served _ _ fun u => u.writeLine_serves _ _ _ _
  | writeLineTiming => exact State.controller_served _ _ fun u => u.writeLineTiming_serves _
  | writeExchangeTiming => exact State.controller_served _ _ fun u => u.writeExchangeTiming_serves _
  | writeInput => exact State.controller_served _ _ fun u => u.writeInput_serves _ _ _ _ _ _ _
  | setInputState => exact State.controller_served _ _ fun u => u.setInputState_serves _ _
  | unlatchInput => exact State.controller_served _ _ fun u => u.unlatchInput_serves _
  | writeTestTimer => exact State.controller_served _ _ fun u => u.writeTestTimer_serves _ _
  | startTest => exact State.controller_served _ _ fun u => u.startTest_serves
  | readConfig => exact State.anySource_served _ _ fun u => u.readConfig_serves _ _
  | readLine => exact State.anySource_served _ _ fun u => u.readLine_serves _
  | readDestination => exact State.anySource_served _ _ fun u => u.readDestination_serves _
  | readInput => exact State.anySource_served _ _ fun u => u.readInput_serves _
  | readStatus => exact State.controller_served _ _ fun u => (State.Tame.own u ..).serves
  | writeMask => exact State.controller_served _ _ fun u => (State.Tame.own u ..).serves
  | readTime => exact State.anySource_served _ _ fun u => u.refused_serves _ _
  | softReset src => exact execSoftReset_served s fun e => hs (e ▸ rfl)
  | badRequest frame => exact State.Serves.next ((State.Tame.takeFrame s _).safe.before (State.refused_serves _ _ _))
  | readTransaction clocked => exact execReadTransaction_served s clocked
  | powerOnReset => exact absurd rfl hp
  | secondsClockAdvance => exact execSecondsClockAdvance_served s
  | testTimerExpiry => exact execTestTimerExpiry_served s
  | dispatchPass => exact execDispatchPass_served s
  | lineSample n v m => exact execLineSample_served s n v m
  | dialToneOn n => exact execDialToneOn_served s n
  | dialToneOff n => exact execDialToneOff_served s n
  | busyTone n => exact execBusyTone_served s n
  | receivedSymbol n x => exact execReceivedSymbol_served s n x
  | classificationFilterExpiry n => exact execClassificationFilterExpiry_served s n
  | recoveryTimerExpiry n => exact execRecoveryTimerExpiry_served s n
  | staggerTimerExpiry => exact execStaggerTimerExpiry_served s
  | offHookCheckExpiry n => exact execOffHookCheckExpiry_served s n
  | settleTimerExpiry n => exact execSettleTimerExpiry_served s n
  | dialToneWaitExpiry n => exact execDialToneWaitExpiry_served s n
  | intrusionFilterExpiry n => exact execIntrusionFilterExpiry_served s n
  | guardExpiry n => exact execGuardExpiry_served s n
  | faultHoldExpiry n => exact execFaultHoldExpiry_served s n
  | elementTimerExpiry n => exact execElementTimerExpiry_served s n
  | adaptiveCheckExpiry n => exact execAdaptiveCheckExpiry_served s n
  | handshakeWaitExpiry n => exact execHandshakeWaitExpiry_served s n
  | blockSent n => exact execBlockSent_served s n
  | responseWaitExpiry n => exact execResponseWaitExpiry_served s n
  | lingerExpiry n => exact execLingerExpiry_served s n
  | inputSample i x => exact execInputSample_served s i x
  | levelFilterExpiry i => exact execLevelFilterExpiry_served s i
  | retardTimerExpiry i => exact execRetardTimerExpiry_served s i

/-- Every command keeps the invariants. -/
theorem exec_resets (i : Instr) {s t : State} (h : exec i s = .next t) : s.Resets t := by
  by_cases hp : i = .powerOnReset
  · subst hp; cases h; exact s.powerOn_resets
  by_cases hs : i = .softReset 31
  · subst hs; exact execSoftReset_resets s 31 h
  exact (exec_served i s hp hs t h).resets

/-! ### Every step -/

/-- The command at the front of the queue is taken, and what it does decides; an idle step changes nothing. -/
theorem step_cases (h : step s = .next t) :
    (s.pending = [] ∧ t = s) ∨ ∃ i rest, s.pending = i :: rest ∧ exec i { s with pending := rest } = .next t := by
  unfold step at h
  split at h
  · next e => cases h; exact .inl ⟨e, rfl⟩
  · next i rest e => exact .inr ⟨i, rest, e, h⟩

theorem State.tame_popped (s : State) (rest : List Instr) : s.Tame { s with pending := rest } := .own s ..

theorem step_resets (h : step s = .next t) : s.Resets t := by
  rcases step_cases h with ⟨-, rfl⟩ | ⟨i, rest, -, he⟩
  · exact (State.Serves.refl t).resets
  · exact (s.tame_popped rest).resets (exec_resets i he)

theorem step_heldStand (hp : s.pending.head? ≠ some .powerOnReset) (hs : s.pending.head? ≠ some (.softReset 31))
    (h : step s = .next t) : s.HeldStand t := by
  rcases step_cases h with ⟨-, rfl⟩ | ⟨i, rest, hi, he⟩
  · exact fun p key e => .inl e
  · rw [hi] at hp hs
    have hserves := exec_served i _ (fun e => hp (e ▸ rfl)) (fun e => hs (e ▸ rfl)) t he
    exact ((s.tame_popped rest).safe.before hserves).upholds.heldStand

end Sys2Proof.Machine

open Sys2Proof Sys2Proof.Machine

/-- Settles O54. -/
theorem resetIsSound : Obligations.ResetIsSound := by
  refine ⟨by simp [State.CasesSound], by simp [State.KeysDistinct], State.reset_planSound, ?_, ?_, State.reset_permitSound, ?_,
    State.reset_settingsInRange, State.reset_channelsIdle, State.reset_unwrittenSilent⟩
  · exact ((State.callsOk_iff _).mp State.reset_callsOk).1
  · exact ((State.callsOk_iff _).mp State.reset_callsOk).2
  · intro n d h
    simp [State.lingersOn, Line.atPowerOn] at h

/-- Settles O55: what every command owes the records, and HeldStand from the two phases of a command. -/
theorem stepKeepsCaseRecords : Obligations.StepKeepsCaseRecords :=
  ⟨fun _ _ g h => (step_resets h).sound g, fun _ _ g h => (step_resets h).distinct g, fun _ _ hp hs h => step_heldStand hp hs h⟩

/-- Settles O56. -/
theorem stepKeepsPlanRule : Obligations.StepKeepsPlanRule := fun _ _ g h => (step_resets h).plan g

/-- Settles O57: the agreement of the calls is one invariant, kept line by line. -/
theorem stepKeepsCalls : Obligations.StepKeepsCalls :=
  ⟨fun s t g g' h => (State.callsOk_iff t).mp ((step_resets h).calls ((State.callsOk_iff s).mpr ⟨g, g'⟩)),
    fun _ _ g h => (step_resets h).permit g⟩

/-- Settles O59. -/
theorem stepKeepsRanges : Obligations.StepKeepsRanges :=
  ⟨fun _ _ g h => (step_resets h).ranges g, fun _ _ g h => (step_resets h).idle g, fun _ _ g h => (step_resets h).silent g⟩

/-- Settles O32: every field of the reset state, read. -/
theorem powerOnResets : Obligations.PowerOnResets := by
  intro s
  refine ⟨_, rfl, rfl, rfl, fun k => ?_, rfl, rfl, fun p => ?_, fun i p => ?_, State.reset_classEntry .fire,
    State.reset_classEntry .waterflow, State.reset_classEntry .boiler, State.reset_classEntry .trouble, State.reset_classEntry .test, rfl,
    fun d => ?_, fun c => State.reset_plan c, fun n => ?_, rfl, rfl, rfl, fun i => State.reset_input i, rfl, rfl, rfl,
    (by decide : State.reset.attention = false), rfl, rfl⟩
  · show State.reset.slot k = _
    simp [State.slot, State.reset]
  · exact State.reset_heldAt p
  · show State.reset.admissionOf i p = _
    simp [State.admissionOf, State.reset]
  · have h := State.reset_dest d
    exact ⟨congrArg (·.dial) h, congrArg (·.account.digits) h, congrArg (·.state) h, congrArg (·.toggle) h, congrArg (·.policy) h,
      congrArg (·.last) h, congrArg (·.callLine) h⟩
  · have h := State.reset_line n
    exact ⟨congrArg (·.enabled) h, congrArg (·.forced) h, congrArg (·.mode) h, congrArg (·.learned) h, congrArg (·.state) h,
      congrArg (·.cause) h, congrArg (·.failures) h, congrArg (·.sample) h, congrArg (·.band) h, congrArg (·.classFilter) h,
      congrArg (·.recovery) h, congrArg (·.guardTimer) h, congrArg (·.faultHold) h, congrArg (·.call) h⟩

/-- Settles O33: the line of each enable, and every other field read. -/
theorem softResets : Obligations.SoftResets := by
  intro s
  refine ⟨(s.takeFrame 3).afterSoftReset.answer .ok, rfl, ?_⟩
  rw [State.takeFrame_eq]
  generalize hu : ({ s with reply := _, causes := _, serialOut := _ } : State) = u
  refine ⟨rfl, fun k => u.afterSoftReset_slot k, fun p => u.afterSoftReset_heldAt p, rfl, rfl, rfl, ?_⟩
  subst hu
  refine ⟨fun d => State.afterSoftReset_dest _ d, fun n => ?_, rfl, fun i => State.afterSoftReset_input _ i, rfl, rfl, rfl, rfl, rfl, rfl,
    rfl, rfl, rfl, rfl, rfl⟩
  rw [State.answer_line, State.afterSoftReset_line]
  exact ⟨rfl, rfl, rfl, rfl, rfl, rfl, rfl, rfl, rfl, rfl, rfl, fun e => ⟨if_pos e, if_pos e⟩,
    fun e => ⟨if_neg (Bool.eq_false_iff.mp e), if_neg (Bool.eq_false_iff.mp e)⟩⟩
end

