-- ==== Sys2Proof/Proofs/Posting.lean ====
section
/-! CLAIM. POST and the test posts: what a frame leaves of the tables, and what a post that is admitted comes to (O9, O27). -/

namespace Sys2Proof.Machine

variable {s t u : State}

/-! ### A frame taken leaves the tables -/

section
variable (s : State) (len : Nat)

@[simp] theorem State.takeFrame_caseOfKey (key : Key) : (s.takeFrame len).caseOfKey key = s.caseOfKey key := by
  rw [State.takeFrame_eq]; rfl
@[simp] theorem State.takeFrame_caseOfHandle (h : Nat) : (s.takeFrame len).caseOfHandle h = s.caseOfHandle h := by
  rw [State.takeFrame_eq]; rfl
@[simp] theorem State.takeFrame_cases : (s.takeFrame len).cases = s.cases := by rw [State.takeFrame_eq]; rfl
@[simp] theorem State.takeFrame_lowestFree : (s.takeFrame len).lowestFree = s.lowestFree := by rw [State.takeFrame_eq]; rfl
@[simp] theorem State.takeFrame_admissionOf (i : Fin 16) (p : Fin 4) : (s.takeFrame len).admissionOf i p = s.admissionOf i p := by
  rw [State.takeFrame_eq]; rfl
@[simp] theorem State.takeFrame_lingersOn (n : Fin 4) : (s.takeFrame len).lingersOn n = s.lingersOn n := by
  rw [State.takeFrame_eq]; rfl
@[simp] theorem State.takeFrame_pendingAt (d : Fin 8) (k : Fin 48) : (s.takeFrame len).pendingAt d k = s.pendingAt d k := by
  rw [State.takeFrame_eq]; rfl
@[simp] theorem State.takeFrame_currentDest (c : Case) : (s.takeFrame len).currentDest c = s.currentDest c := by
  rw [State.takeFrame_eq]; rfl
@[simp] theorem State.takeFrame_otherCases : (s.takeFrame len).otherCases = s.otherCases := by rw [State.takeFrame_eq]; rfl
theorem State.takeFrame_nobodyOn (d : Fin 8) : (s.takeFrame len).NobodyOn d ↔ s.NobodyOn d := by rw [State.takeFrame_eq]; rfl
theorem State.takeFrame_noRoom (c : Cls) : (s.takeFrame len).NoRoom c ↔ s.NoRoom c := by rw [State.takeFrame_eq]; rfl
@[simp] theorem State.takeFrame_hasRoom (c : Cls) : (s.takeFrame len).hasRoom c = s.hasRoom c := by
  rw [State.takeFrame_eq]; rfl

end

/-! ### No line has an offer -/

/-- A case written that does not wait where a line lingers makes no offer. -/
theorem State.NoOffer.setCase (h : s.NoOffer) (k : Fin 48) (c : Case)
    (hc : c.state = .pending → ∀ d, s.currentDest c = some d → s.NobodyOn d) : (s.setCase k c).NoOffer := by
  intro n d hn j
  have hn : s.lingersOn n = some d := hn
  rw [Bool.eq_false_iff, Ne, State.pendingAt_iff]
  rintro ⟨x, hx, hs, hd⟩
  rw [State.setCase_caseAt] at hx
  split at hx
  · cases hx
    exact hc hs d hd n hn
  · exact Bool.eq_false_iff.mp (h n d hn j) ((s.pendingAt_iff d j).mpr ⟨x, hx, hs, hd⟩)

/-- What the offers of the lingering lines hang on. -/
structure State.SameOffers (s t : State) : Prop where
  slots : t.slots = s.slots := by rfl
  plans : t.plans = s.plans := by rfl
  lines : t.lines = s.lines := by rfl

theorem State.SameOffers.noOffer (h : s.SameOffers t) (g : s.NoOffer) : t.NoOffer := by
  have hl : ∀ n, t.line n = s.line n := fun n => by simp only [State.line, h.lines]
  have hp : ∀ c, t.plan c = s.plan c := fun c => by simp only [State.plan, h.plans]
  have hc : ∀ k, t.caseAt k = s.caseAt k := fun k => by simp only [State.caseAt, State.slot, h.slots]
  intro n d hn k
  rw [State.lingersOn, State.call, hl] at hn
  rw [State.pendingAt, hc]
  simp only [State.currentDest, hp]
  exact g n d hn k

theorem State.NoOffer.takeFrame (h : s.NoOffer) (len : Nat) : (s.takeFrame len).NoOffer := by
  rw [State.takeFrame_eq]
  exact h

/-- The plan rule settles a case where no line lingers, so it makes no offer. -/
theorem State.SettledTo.noOffer {k : Fin 48} {y : Case} (h : s.SettledTo k y u) (g : s.NoOffer) : u.NoOffer := by
  cases h with
  | stays hd => exact g.setCase k y fun _ d e => (hd d e).2
  | moves d e q hd hu hq hn =>
    refine g.setCase k { y with progress := q, retry := s.clock } fun _ e' he => ?_
    obtain ⟨hstep, -⟩ := Plan.sweep_rest _ _ hq
    have : some e = some e' := hstep.symm.trans he
    cases this
    exact hn
  | strands d q hd hu hq => exact g.setCase k { y with state := .stranded, progress := q } (by simp)

theorem State.RestoredTo.noOffer {key : Key} (h : s.RestoredTo key u) (g : s.NoOffer) : u.NoOffer := by
  cases h with
  | absent | already => exact g
  | joins k x ht hk hx hc hh =>
    refine g.setCase k _ fun hs d hd n hn => ?_
    exact Bool.eq_false_iff.mp (g n d hn k) ((s.pendingAt_iff d k).mpr ⟨x, hx, hs, hd⟩)
  | leavesHeld k x u ht hk hx hc hh hu => exact hu.noOffer g

theorem Case.RenewedTo.waits {x y : Case} (h : x.RenewedTo y) (hy : y.state = .pending) :
    x.state = .pending ∧ y.key = x.key ∧ y.progress = x.progress := by
  cases h with
  | emptied ho hs => cases hy
  | followed ho hs => exact ⟨hy, rfl, rfl⟩
  | counted rest hr ho => exact ⟨hy, rfl, rfl⟩

theorem State.PostedTo.noOffer {p : Poster} {key : Key} (h : s.PostedTo p key u) (g : s.NoOffer) : u.NoOffer := by
  cases h with
  | stands | takenIn | isHeld | oldStands => exact g
  | renews k x y ht hk hx hc hy =>
    refine g.setCase k y fun hs d hd n hn => ?_
    obtain ⟨h1, h2, h3⟩ := hy.waits hs
    refine Bool.eq_false_iff.mp (g n d hn k) ((s.pendingAt_iff d k).mpr ⟨x, hx, h1, ?_⟩)
    rwa [State.currentDest, h2, h3] at hd
  | creates k u ht hk hp hr hl hu => exact hu.noOffer g

/-! ### POST of a key that a case holds -/

/-- A class a link source may post is not TEST. -/
theorem postableOfCode_cls {code : Nat} {c : Cls} {p : Fin 4} (h : postableOfCode code = some (c, p)) : c ≠ .test := by
  rintro rfl
  unfold postableOfCode at h
  split at h
  · next d _ => cases d <;> simp [Cls.postable] at h
  · cases h

theorem indexOf_val (n : Nat) (i : Fin n) : indexOf n i.val = some i := by simp [indexOf]

/-- A POST that passes its checks comes to the table under the mark its admission entry gives (R36). -/
theorem exec_post_admitted (i : Fin 16) {zone code : Nat} (detail : Option Nat) {c : Cls} {p : Fin 4} (hz : zone ≤ 999)
    (hc : postableOfCode code = some (c, p)) (ha : s.admissionOf i p ≠ .deny) :
    exec (.post i.val zone code detail) s = .next ((s.takeFrame (if detail.isSome then 8 else 6)).postAdmitted ⟨i.val, zone, c⟩ detail
      (if s.admissionOf i p = .flag then .flagged else .verified)) := by
  show Host.Outcome.next _ = _
  unfold State.post
  simp only [indexOf_val, if_neg (Nat.not_lt.mpr hz), hc, State.takeFrame_admissionOf]
  cases h : s.admissionOf i p with
  | allow => simp
  | flag => simp
  | deny => exact absurd h ha

theorem State.answerHandle_eq {k : Fin 48} {h : Nat} (hk : t.handleOf k = h) (st : Status) :
    t.answerHandle st k = { t with reply := some ⟨st, field2 h⟩ } := by
  subst hk; rfl

theorem State.postAdmitted_of_case {key : Key} {k : Fin 48} {x : Case} (hk : s.caseOfKey key = some k) (hx : s.caseAt k = some x)
    (detail : Option Nat) (mark : Mark) :
    s.postAdmitted key detail mark = { s.setCase k (x.reposted detail) with
      reply := some ⟨if x.stays then .existing else .renewed, field2 (s.handleOf k)⟩ } := by
  unfold State.postAdmitted
  simp only [hk, hx, State.postCase, Option.map_some, Option.getD_some, State.answerHandle, State.setCase_handleOf]
  cases x.stays <;> rfl

/-! ### Room -/

theorem State.hasRoom_of {c : Cls} (hlen : s.cases.length < 48) (hres : c ≠ .fire → s.otherCases < 48 - s.reserve) : s.hasRoom c = true := by
  rw [State.hasRoom_iff, State.NoRoom]
  rintro (h | ⟨hf, h⟩)
  · omega
  · have := hres hf; omega

theorem State.hasRoom_false {c : Cls} (h : s.NoRoom c) : s.hasRoom c = false := by
  rw [Bool.eq_false_iff, Ne, State.hasRoom_iff]
  exact fun g => g h

theorem State.acceptPost_of_room {key : Key} {k : Fin 48} (hr : s.hasRoom key.cls = true) (hn : s.caseOfKey key = none)
    (hk : s.lowestFree = some k) (detail : Option Nat) (mark : Mark) :
    s.acceptPost key detail mark = some (k, s.createAt k key detail mark) := by
  simp [State.acceptPost, hr, hn, hk]

theorem State.acceptPost_full {key : Key} (hr : s.hasRoom key.cls = false) (detail : Option Nat) (mark : Mark) :
    s.acceptPost key detail mark = none := by
  simp [State.acceptPost, hr]

/-! ### The test post -/

/-- The TEST case just created (R3, R177). -/
def Case.newTest (now : Time) : Case :=
  { key := testKey, detail := none, mark := .verified, condition := .restored, state := .pending, owed := [.test], reported := false
    chatter := 0, posted := now, progress := ⟨0, 0, 0⟩, failed := 0, retry := now, last := .none, line := none }

/-- A test post for a case that exists leaves it (R14, R176). -/
theorem State.testPost_applied {k : Fin 48} (hk : s.caseOfKey testKey = some k) : s.internalPost .test testKey = (.applied k, s) := by
  obtain ⟨c, hc, hkey⟩ := s.caseOfKey_some hk
  have hstay : c.reposted none = c := by
    cases c
    simp only [] at hkey
    subst hkey
    simp [Case.reposted, testKey]
  simp [State.internalPost, hk, State.postCase, hc, hstay, State.setCase_self s hc]

theorem State.testPost_held (hk : s.caseOfKey testKey = none) (hp : s.heldAt 20 = some testKey) :
    s.internalPost .test testKey = (.held, s) := by
  simp [State.internalPost, hk, Poster.position, hp]

theorem State.testPost_full (hk : s.caseOfKey testKey = none) (hp : s.heldAt 20 = none) (hr : s.NoRoom .test) :
    s.internalPost .test testKey = (.held, { s.setHeld 20 (some testKey) with causes := s.causes ||| 0x20 }) := by
  simp only [State.internalPost, hk, Poster.position, hp, reduceCtorEq, if_false,
    State.acceptPost_full (s := s) (key := testKey) (State.hasRoom_false hr), State.recordHeld]
  rfl

/-- A test post with room creates the TEST case, which waits at the start of its plan (R3, R10). -/
theorem State.testPost_created {k : Fin 48} (hk : s.caseOfKey testKey = none) (hp : s.heldAt 20 = none) (hlen : s.cases.length < 48)
    (hres : s.otherCases < 48 - s.reserve) (hl : s.lowestFree = some k)
    (hd : ∀ d : Fin 8, (s.plan .test).dests.head? = some d → s.usable d = true ∧ s.NobodyOn d) :
    s.internalPost .test testKey = (.created k, { s.setCase k (Case.newTest s.clock) with
      causes := s.causes ||| (if 48 - s.reserve - (s.otherCases + 1) ≤ s.lowThreshold then 0x10 else 0)
      passesDue := s.passesDue + 1 }) := by
  have hr : s.hasRoom testKey.cls = true := State.hasRoom_of hlen fun _ => hres
  have hst : s.SettledTo k (Case.new testKey none .verified s.clock)
      { s.setCase k (Case.newTest s.clock) with passesDue := s.passesDue + 1 } := by
    refine .stays fun d e => hd d ?_
    rw [← e, List.head?_eq_getElem?]
    rfl
  have hc := s.createAt_of_settledTo (s.lowestFree_some hl) hst
  simp only [State.internalPost, hk, Poster.position, hp, reduceCtorEq, if_false, State.acceptPost_of_room hr hk hl, hc]
  simp [testKey]

/-- The TEST case just created makes no offer where no line lingers on the start of its plan. -/
theorem State.Created.noOffer {k : Fin 48} (h : s.NoOffer)
    (hd : ∀ d : Fin 8, (s.plan .test).dests.head? = some d → s.usable d = true ∧ s.NobodyOn d) :
    (s.setCase k (Case.newTest s.clock)).NoOffer :=
  h.setCase k _ fun _ d e => (hd d (by rw [← e, List.head?_eq_getElem?]; rfl)).2

end Sys2Proof.Machine

open Sys2Proof Sys2Proof.Machine

/-- Settles O9: what a post does to each owed list of R11. -/
theorem postMeetsCase : Obligations.PostMeetsCase := by
  intro s i zone code detail c p k x hz hc ha hk hx d becomes
  have ht : x.key.cls ≠ .test := by
    obtain ⟨x', hx', hkey⟩ := s.caseOfKey_some hk
    rw [hx] at hx'; cases hx'
    rw [hkey]; exact postableOfCode_cls hc
  have step : ∀ {y : Case} {st : Status}, x.reposted detail = y → (if x.stays then Status.existing else .renewed) = st →
      becomes st y := by
    rintro _ _ rfl rfl
    show exec _ s = _
    rw [exec_post_admitted i detail hz hc ha, State.postAdmitted_of_case (by simpa using hk) (by simpa using hx)]
    simp
  refine ⟨fun hact => step ?_ ?_, fun hres => ⟨fun ⟨ho, hs⟩ => step ?_ ?_, fun ⟨ho, hs⟩ => step ?_ ?_, fun ho => step ?_ ?_,
    fun ho => step ?_ ?_⟩⟩
  · simp [Case.reposted, hact, d]
  · simp [Case.stays, hact]
  · simp [Case.reposted, ht, hres, Case.tailInFlight, ho, hs, Progress.zero, d]
  · simp [Case.stays, ht, hres]
  · simp [Case.reposted, ht, hres, Case.tailInFlight, ho, hs, d]
  · simp [Case.stays, ht, hres]
  · simp [Case.reposted, ht, hres, Case.tailInFlight, ho, d]
  · simp [Case.stays, ht, hres]
  · simp [Case.reposted, ht, hres, Case.tailInFlight, ho, d]
  · simp [Case.stays, ht, hres]

/-- Settles O27: START TEST and the timer's expiry make the same post, of which each outcome is known. -/
theorem testPosted : Obligations.TestPosted := by
  constructor
  · intro s request taken key
    have hex : exec request s = .next taken.startTest := rfl
    have key_none : s.caseOfKey testKey = none → taken.caseOfKey testKey = none := (s.takeFrame_caseOfKey 3 testKey).trans
    rw [hex, State.startTest]
    refine ⟨fun k hk => ?_, fun hk hp => ?_, fun hk hp => ⟨fun hr => ?_, fun k hlen hres hl hno hd => ?_⟩⟩
    · rw [State.testPost_applied ((s.takeFrame_caseOfKey 3 testKey).trans hk)]
      simp [State.answerHandle, State.answer, taken]
    · rw [State.testPost_held (key_none hk) ((s.takeFrame_heldAt 3 20).trans hp)]
      rfl
    · rw [State.testPost_full (key_none hk) ((s.takeFrame_heldAt 3 20).trans hp)
        ((s.takeFrame_noRoom 3 .test).mpr (hr.imp_right fun h => ⟨by simp, h⟩))]
      rfl
    · have hd' : ∀ d : Fin 8, (taken.plan .test).dests.head? = some d → taken.usable d = true ∧ taken.NobodyOn d := fun d e => by
        rw [State.takeFrame_plan] at e
        rw [State.takeFrame_usable, State.takeFrame_nobodyOn]
        exact hd d e
      rw [State.testPost_created (key_none hk) ((s.takeFrame_heldAt 3 20).trans hp) (by rwa [State.takeFrame_cases])
        (by rwa [State.takeFrame_otherCases, State.takeFrame_reserve]) ((s.takeFrame_lowestFree 3).trans hl) hd']
      simp only []
      rw [State.answerLingers_eq_self]
      swap
      · exact State.Created.noOffer (hno.takeFrame 3) hd'
      rw [State.answerHandle_eq (h := s.handleOf k)]
      swap
      · exact (taken.setCase_handleOf k k (Case.newTest taken.clock)).trans (s.takeFrame_handleOf 3 k)
      simp [taken, Case.newTest, testKey, key]
  · intro s hm h0 hno key timer
    have hex : exec .testTimerExpiry s = .next ({ (s.internalPost .test testKey).2 with testTimer := timer } : State).answerLingers := by
      have ht : (s.internalPost .test testKey).2.testTimer = s.testTimer := (State.OnTable.internalPost s .test testKey).testTimer
      show (if _ then _ else _) = _
      rw [if_pos ⟨hm, h0⟩]
    rw [hex]
    refine ⟨fun h => ?_, fun hk hp => ⟨fun hr => ?_, fun k hlen hres hl hd => ?_⟩⟩
    · have hs : (s.internalPost .test testKey).2 = s := by
        rcases h with h | h
        · obtain ⟨k, hk⟩ := Option.ne_none_iff_exists'.mp h
          rw [State.testPost_applied hk]
        · cases hk : s.caseOfKey testKey with
          | none => rw [State.testPost_held hk h]
          | some k => rw [State.testPost_applied hk]
      rw [hs, State.answerLingers_eq_self]
      exact hno
    · rw [State.testPost_full hk hp (hr.imp_right fun h => ⟨by simp, h⟩), State.answerLingers_eq_self]
      · rfl
      · exact hno
    · rw [State.testPost_created hk hp hlen hres hl hd, State.answerLingers_eq_self]
      · rfl
      · exact State.Created.noOffer hno hd
end

