-- ==== Sys2Proof/Proofs/Answers.lean ====
section
/-! CLAIM. What the answers to the lingering lines leave, and a POST with room (O8). -/

namespace Sys2Proof.Machine

variable {s t u : State}

/-! ### What the answers to the lingering lines leave -/

/-- From `s` to `t` some PENDING cases are taken up by lingering lines: every other part of a record, every generation, the held posts, the
channels, the reserve, and which lines are in FAULT, stand. -/
structure State.Sends (s t : State) : Prop where
  gens : ∀ j, (t.slot j).gen = (s.slot j).gen
  cases : ∀ j, t.caseAt j = s.caseAt j ∨ ∃ c n, s.caseAt j = some c ∧ c.state = .pending ∧
    t.caseAt j = some { c with state := .sending, line := some n }
  heldPosts : t.heldPosts = s.heldPosts
  inputs : t.inputs = s.inputs
  reserve : t.reserve = s.reserve
  clock : t.clock = s.clock
  fault : ∀ n, (t.line n).state = .fault ↔ (s.line n).state = .fault

theorem State.Sends.refl (s : State) : s.Sends s := ⟨fun _ => rfl, fun _ => .inl rfl, rfl, rfl, rfl, rfl, fun _ => .rfl⟩

theorem State.Sends.trans (h : s.Sends t) (g : t.Sends u) : s.Sends u := by
  refine ⟨fun j => (g.gens j).trans (h.gens j), fun j => ?_, g.heldPosts.trans h.heldPosts, g.inputs.trans h.inputs,
    g.reserve.trans h.reserve, g.clock.trans h.clock, fun n => (g.fault n).trans (h.fault n)⟩
  rcases g.cases j with e | ⟨c, n, hc, hs, e⟩
  · rw [e]; exact h.cases j
  · rcases h.cases j with e' | ⟨c', n', hc', hs', e'⟩
    · exact .inr ⟨c, n, e' ▸ hc, hs, e⟩
    · rw [e'] at hc; cases hc; cases hs

/-- A case after the lines were answered: its record but for state and line. -/
theorem State.Sends.caseAt (h : s.Sends t) {k : Fin 48} {c : Case} (hc : s.caseAt k = some c) :
    ∃ st l, t.caseAt k = some { c with state := st, line := l } ∧ (st = c.state ∨ st = .sending) := by
  rcases h.cases k with e | ⟨c', n, hc', hs, e⟩
  · exact ⟨c.state, c.line, e.trans hc, .inl rfl⟩
  · rw [hc] at hc'; cases hc'
    exact ⟨.sending, some n, e, .inr rfl⟩

theorem State.Sends.key (h : s.Sends t) (k : Fin 48) : (t.caseAt k).map Case.key = (s.caseAt k).map Case.key := by
  rcases h.cases k with e | ⟨c', n, hc', hs, e⟩
  · rw [e]
  · rw [e, hc']; rfl

theorem State.Sends.caseOfKey (h : s.Sends t) (key : Key) : t.caseOfKey key = s.caseOfKey key := by
  unfold State.caseOfKey
  congr 1
  funext k
  rw [h.key]

theorem State.endCall_line_ne (s : State) {n m : Fin 4} (h : n ≠ m) : (s.endCall n).line m = s.line m := by
  unfold State.endCall
  split
  · rfl
  · simp [h]

theorem State.release_sends {n : Fin 4} (hl : (s.line n).state ≠ .fault) : s.Sends (s.release n) := by
  have same : (s.release n).slots = s.slots ∧ (s.release n).heldPosts = s.heldPosts ∧ (s.release n).inputs = s.inputs ∧
      (s.release n).reserve = s.reserve ∧ (s.release n).clock = s.clock := by
    unfold State.release State.endCall
    split <;> exact ⟨rfl, rfl, rfl, rfl, rfl⟩
  obtain ⟨hs, hh, hi, hr, hc⟩ := same
  refine ⟨fun j => by simp only [State.slot, hs], fun j => .inl (by simp only [State.caseAt, State.slot, hs]), hh, hi, hr, hc, fun m => ?_⟩
  unfold State.release
  rw [State.updLine_line]
  split
  · next e =>
    subst e
    split <;> simp [hl]
  · next e => rw [s.endCall_line_ne e]

theorem State.takeUp_sends {n : Fin 4} {k : Fin 48} {c : Case} (hc : s.caseAt k = some c) (hs : c.state = .pending)
    (hl : (s.line n).state ≠ .fault) : s.Sends (s.takeUp n k) := by
  unfold State.takeUp
  split
  · exact .refl s
  simp only [State.sendOn, hc]
  refine ⟨fun j => by simp, fun j => ?_, rfl, rfl, rfl, rfl, fun m => ?_⟩
  · by_cases e : k = j
    · subst e
      exact .inr ⟨c, n, hc, hs, by simp⟩
    · exact .inl (by simp [e])
  · rw [State.updLine_line]
    split
    · next e => subst e; simp [hl]
    · rfl

theorem State.answerLinger_sends (s : State) (n : Fin 4) : s.Sends (s.answerLinger n) := by
  unfold State.answerLinger
  split
  · exact .refl s
  · split
    · next h =>
      have hl : (s.line n).state ≠ .fault := by rw [h.1]; simp
      split
      · exact State.release_sends hl
      · exact .refl s
      · next hk =>
        obtain ⟨c, hc, hs, -⟩ := (State.pendingAt_iff _ _ _).mp (s.answerFor_give hk)
        exact State.takeUp_sends hc hs hl
    · exact .refl s

theorem State.answerLingers_sends (s : State) : s.Sends s.answerLingers := s.foldl_answerLinger .refl .trans State.answerLinger_sends

end Sys2Proof.Machine

open Sys2Proof Sys2Proof.Machine

/-- Settles O8: creation makes the record (`createAt_told`), and the answers to the lingering lines leave all of it but state and line. -/
theorem postAlwaysRecords : Obligations.PostAlwaysRecords := by
  intro s i zone code detail c p k hz hc ha hn hlen hres hl
  generalize hm : (if s.admissionOf i p = .flag then Mark.flagged else .verified) = mark
  generalize hu : s.takeFrame (if detail.isSome then 8 else 6) = u
  have hfree : u.caseAt k = none := by rw [← hu, State.takeFrame_caseAt]; exact s.lowestFree_some hl
  have hex : exec (.post i.val zone code detail) s =
      .next ((u.createAt k ⟨i.val, zone, c⟩ detail mark).answerLingers.answerHandle .created k) := by
    rw [exec_post_admitted i detail hz hc ha, hu, hm]
    have hroom : u.hasRoom c = true := by rw [← hu, State.takeFrame_hasRoom]; exact State.hasRoom_of hlen hres
    have hn' : u.caseOfKey ⟨i.val, zone, c⟩ = none := by rw [← hu, State.takeFrame_caseOfKey]; exact hn
    have hl' : u.lowestFree = some k := by rw [← hu, State.takeFrame_lowestFree]; exact hl
    simp only [State.postAdmitted, hn', State.acceptPost_of_room (key := ⟨i.val, zone, c⟩) hroom hn' hl']
  have htest : c ≠ .test := postableOfCode_cls hc
  obtain ⟨x, hx, hsame⟩ := u.createAt_told k ⟨i.val, zone, c⟩ detail mark
  generalize u.createAt k ⟨i.val, zone, c⟩ detail mark = v at hex hsame
  have hsends := v.answerLingers_sends
  generalize v.answerLingers = w at hex hsends
  obtain ⟨st, l, hy, hst⟩ := hsends.caseAt hsame.caseAt_setCase
  obtain ⟨p', b', rfl⟩ := hsame
  have hgen : ∀ j, (w.slot j).gen = (s.slot j).gen := fun j => by
    rw [hsends.gens]
    exact (u.setCase_gen k j x).trans (by rw [← hu, State.takeFrame_slot])
  have hnew : x = { Case.new ⟨i.val, zone, c⟩ detail mark u.clock with state := x.state, progress := x.progress, retry := x.retry } := hx.only
  have hclock : u.clock = s.clock := by rw [← hu, State.takeFrame_clock]
  have hheld := hx.not_held
  generalize x.state = st', x.progress = pr, x.retry = re at hnew hst hheld
  subst hnew
  refine ⟨_, _, hex, ?_, hy, rfl, rfl, rfl, if_neg htest, if_neg htest, rfl, rfl, rfl, hclock, rfl, ?_, hgen, fun j hj => ?_⟩
  · simp only [State.answerHandle, State.answer_reply, State.handleOf, hgen]
  · rcases hst with rfl | rfl
    · exact hheld
    · simp
  · refine (hsends.key j).trans ?_
    show ((u.setCase k _).caseAt j).map Case.key = _
    rw [State.setCase_caseAt, if_neg hj.symm, ← hu, State.takeFrame_caseAt]
end

