-- ==== Sys2Proof/Proofs/Restores.lean ====
section
/-! CLAIM. RESTORE: its effect on the tail, its refusals, and the offer of a HELD case to the one lingering line (O11). -/

namespace Sys2Proof.Machine

variable {s t u : State} {k : Fin 48} {n : Fin 4} {x : Case} {c : Call}

/-! ### The request -/

/-- Every handle that names a case is in range (R1). -/
theorem State.caseOfHandle_le {h : Nat} (hk : s.caseOfHandle h = some k) : h ≤ 1023 := by
  obtain ⟨-, -, hg⟩ := s.caseOfHandle_eq_some.mp hk
  have := (s.slot k).gen.isLt
  omega

theorem State.withHandle_eq {h : Nat} (hk : s.caseOfHandle h = some k) (hx : s.caseAt k = some x) (f : Fin 48 → Case → State) :
    s.withHandle h f = f k x := by
  unfold State.withHandle
  rw [if_neg (Nat.not_lt.mpr (State.caseOfHandle_le hk)), hk]
  simp only [hx]

theorem State.anySource_eq {src : Nat} (h : src ≤ 15 ∨ src = 31) (f : State → State) : s.anySource src f = f s := if_pos h

/-- A RESTORE that names a case of its source comes to the case (R39, R40). -/
theorem exec_restore_named {src : Nat} {target : RestoreTarget} (hs : src ≤ 15 ∨ src = 31) (hn : s.restoreNames src target k)
    (hx : s.caseAt k = some x) (hsrc : x.key.source = src) :
    exec (.restore src target) s = .next ((s.takeFrame (restoreBytes target)).restoreNamed k x) := by
  cases target with
  | byHandle h =>
    show Host.Outcome.next (State.anySource _ _ _) = _
    rw [State.anySource_eq hs, State.restoreByHandle, State.withHandle_eq (k := k) (x := x), if_pos hsrc]
    · rfl
    · exact (s.takeFrame_caseOfHandle 6 h).trans hn
    · rwa [State.takeFrame_caseAt]
  | byKey zone code =>
    obtain ⟨hz, cls, p, hc, hk⟩ := hn
    show Host.Outcome.next (State.anySource _ _ _) = _
    rw [State.anySource_eq hs, State.restoreByKey, if_neg (Nat.not_lt.mpr hz)]
    simp only [hc, State.takeFrame_caseOfKey, hk, State.takeFrame_caseAt, hx]
    rfl

/-! ### The case restored -/

/-- An ACTIVE case that is not HELD gets a RESTORE at its tail (R12). -/
theorem State.restoreCase_joins (hx : s.caseAt k = some x) (ht : x.key.cls ≠ .test) (hc : x.condition = .active) (hh : x.state ≠ .held) :
    s.restoreCase k = s.setCase k { x with owed := x.owed ++ [.restore], condition := .restored } := by
  have h : x.restored s.clock = { x with owed := x.owed ++ [.restore], condition := .restored } := by simp [Case.restored, hc, ht, hh]
  simp only [State.restoreCase, hx, h, hh, false_and, if_false]

/-- A HELD case after a restore, before the plan rule (R12). -/
def Case.reopened (x : Case) (now : Time) : Case :=
  { x with owed := x.owed ++ [.restore], condition := .restored, state := .pending, progress := ⟨0, 0, 0⟩, retry := now }

theorem State.restoreCase_reopens (hx : s.caseAt k = some x) (ht : x.key.cls ≠ .test) (hc : x.condition = .active) (hh : x.state = .held)
    (hd : ∀ d : Fin 8, (s.plan x.key.cls).dests.head? = some d → s.usable d = true) :
    s.restoreCase k = (s.setCase k (x.reopened s.clock)).notify := by
  have h : x.restored s.clock = x.reopened s.clock := by simp [Case.restored, hc, ht, hh, Case.reopened, Progress.zero]
  have hp : (x.reopened s.clock).state = .pending := rfl
  simp only [State.restoreCase, hx, h, hh, hp, and_self, if_true]
  rw [State.settle_eq _ _ (x.reopened s.clock) (by simp), if_pos]
  intro d e
  refine hd d ?_
  rw [← e, List.head?_eq_getElem?]
  rfl

theorem State.restoreNamed_already (hc : x.condition = .restored) :
    s.restoreNamed k x = { s with reply := some ⟨.unchanged, field2 (s.handleOf k)⟩ } := by
  rw [State.restoreNamed, if_pos hc]; rfl

theorem State.restoreNamed_joins (hx : s.caseAt k = some x) (ht : x.key.cls ≠ .test) (hc : x.condition = .active) (hh : x.state ≠ .held)
    (hno : s.NoOffer) :
    s.restoreNamed k x = { s.setCase k { x with owed := x.owed ++ [.restore], condition := .restored } with
      reply := some ⟨.ok, field2 (s.handleOf k)⟩ } := by
  rw [State.restoreNamed, if_neg (by simp [hc]), State.restoreCase_joins hx ht hc hh, State.answerLingers_eq_self,
    State.answerHandle_eq (s.setCase_handleOf k k _)]
  refine hno.setCase k _ fun hs d hd n hn => ?_
  exact Bool.eq_false_iff.mp (hno n d hn k) ((s.pendingAt_iff d k).mpr ⟨x, hx, hs, hd⟩)

theorem State.restoreNamed_reopens (hx : s.caseAt k = some x) (ht : x.key.cls ≠ .test) (hc : x.condition = .active) (hh : x.state = .held)
    (hno : s.NoOffer) (hd : ∀ d : Fin 8, (s.plan x.key.cls).dests.head? = some d → s.usable d = true ∧ s.NobodyOn d) :
    s.restoreNamed k x = { s.setCase k (x.reopened s.clock) with
      passesDue := s.passesDue + 1, reply := some ⟨.ok, field2 (s.handleOf k)⟩ } := by
  rw [State.restoreNamed, if_neg (by simp [hc]), State.restoreCase_reopens hx ht hc hh fun d e => (hd d e).1, State.answerLingers_eq_self,
    State.answerHandle_eq (h := s.handleOf k)]
  · rfl
  · exact s.setCase_handleOf k k _
  · refine State.SameOffers.noOffer (s := s.setCase k (x.reopened s.clock)) {} (hno.setCase k _ fun _ d e => (hd d ?_).2)
    rw [← e, List.head?_eq_getElem?]
    rfl

/-! ### One lingering line -/

/-- The case taken up by a lingering line (R100, R153, R155). -/
theorem State.takeUp_eq (hc : s.call n = some c) (hx : s.caseAt k = some x) :
    s.takeUp n k = (s.setCase k { x with state := .sending, line := some n }).setLine n
      { s.line n with
        state := .exchange
        call := some { c with
          current := some k, carried := c.carried + 1, linger := none
          block := (composeBlock x (s.dest c.dest)).map fun b =>
            { symbols := b, phase := .sending, repeats := 0, response := none } } } := by
  have hcall : (s.line n).call = some c := hc
  simp only [State.takeUp, hc, State.newBlock, hx, State.sendOn, State.updLine, State.setCase_line, hcall, Option.map_some]

theorem State.foldl_answerLinger_of_none : ∀ (ns : List (Fin 4)) (s : State), (∀ m ∈ ns, s.lingersOn m = none) →
    ns.foldl State.answerLinger s = s
  | [], _, _ => rfl
  | m :: ns, s, h => by
    have hm : s.answerLinger m = s := s.answerLinger_eq_self m fun d e => by rw [h m (List.mem_cons_self ..)] at e; cases e
    rw [List.foldl_cons, hm]
    exact foldl_answerLinger_of_none ns s fun m hm => h m (List.mem_cons_of_mem _ hm)

/-- Where line `n` alone lingers, the answers to all lines are the answer to it. -/
theorem State.answerLingers_eq_one (h : ∀ m, m ≠ n → s.lingersOn m = none) (h' : ∀ m, m ≠ n → (s.answerLinger n).lingersOn m = none) :
    s.answerLingers = s.answerLinger n := by
  obtain ⟨as, bs, e⟩ := List.append_of_mem (List.mem_finRange n)
  have nodup := List.nodup_finRange 4
  rw [e, List.nodup_middle, List.nodup_cons, List.mem_append, not_or] at nodup
  obtain ⟨⟨ha, hb⟩, -⟩ := nodup
  rw [State.answerLingers, e, List.foldl_append, List.foldl_cons,
    State.foldl_answerLinger_of_none as s fun m hm => h m fun e => ha (e ▸ hm)]
  exact State.foldl_answerLinger_of_none bs _ fun m hm => h' m fun e => hb (e ▸ hm)

/-- The one case of a set is its first in the order of R59. -/
theorem State.ranked_eq_singleton {p : Fin 48 → Bool} (hk : p k = true) (h : ∀ j, p j = true → j = k) : s.ranked p = [k] := by
  have perm := s.ranked_perm p
  have hf : (List.finRange 48).filter p = [k] := by
    have hn : ((List.finRange 48).filter p).Nodup := (List.nodup_finRange 48).filter p
    refine List.perm_singleton.mp ((List.perm_ext_iff_of_nodup hn (List.nodup_singleton k)).mpr fun j => ?_)
    simp only [List.mem_filter, List.mem_finRange, true_and, List.mem_singleton]
    exact ⟨h j, fun e => e ▸ hk⟩
  rw [hf] at perm
  exact List.perm_singleton.mp perm

/-- The one case that waits at the destination of the one lingering line is taken up (R98 to R101). -/
theorem State.answerLingers_takes (hx : s.caseAt k = some x) (hp : x.state = .pending) (hd : s.currentDest x = some c.dest)
    (hl : s.lingersOn n = some c.dest) (hc : s.call n = some c) (alone : ∀ m, m ≠ n → s.lingersOn m = none)
    (only : ∀ j, s.pendingAt c.dest j = true → j = k) (hf : s.fireWaiting = false) (hb : c.carried < s.exchange.blockLimit) :
    s.answerLingers = s.takeUp n k := by
  have hk : s.pendingAt c.dest k = true := (s.pendingAt_iff _ _).mpr ⟨x, hx, hp, hd⟩
  have hst : (s.line n).state = .linger := by
    by_contra e
    rw [State.lingersOn, if_neg e] at hl
    cases hl
  have hgive : s.answerFor c.dest c.carried = .give k := by
    rw [State.answerFor, if_neg (Nat.not_le.mpr hb), State.ranked_eq_singleton hk only]
    simp [hf]
  have hone : s.answerLinger n = s.takeUp n k := by
    unfold State.answerLinger
    simp only [hc, hst, true_and, hgive]
    rw [if_pos (List.any_eq_true.mpr ⟨k, List.mem_finRange k, hk⟩)]
  rw [State.answerLingers_eq_one alone, hone]
  intro m hm
  rw [hone, State.takeUp_eq hc hx, State.lingersOn, State.setLine_line, if_neg hm.symm, State.call, State.setLine_line, if_neg hm.symm]
  exact alone m hm

theorem State.restoreNamed_offered (hx : s.caseAt k = some x) (ht : x.key.cls ≠ .test) (hc : x.condition = .active) (hh : x.state = .held)
    (ho : x.owed = []) (hno : s.NoOffer) {c : Call} (hd : (s.plan x.key.cls).dests.head? = some c.dest) (hu : s.usable c.dest = true)
    (hl : s.lingersOn n = some c.dest) (hcall : s.call n = some c) (alone : ∀ m, m ≠ n → s.lingersOn m = none)
    (hf : s.fireWaiting = false) (hb : c.carried < s.exchange.blockLimit) :
    let y : Case := { x with owed := [.restore], condition := .restored, state := .sending, progress := ⟨0, 0, 0⟩,
                             retry := s.clock, line := some n }
    s.restoreNamed k x =
      { (s.setCase k y).setLine n
          { s.line n with
            state := .exchange
            call := some { c with
              current := some k, carried := c.carried + 1, linger := none
              block := (composeBlock y (s.dest c.dest)).map fun b =>
                { symbols := b, phase := .sending, repeats := 0, response := none } } } with
        passesDue := s.passesDue + 1, reply := some ⟨.ok, field2 (s.handleOf k)⟩ } := by
  intro y
  have hopen : x.reopened s.clock = { x with
      owed := [.restore], condition := .restored, state := .pending, progress := ⟨0, 0, 0⟩, retry := s.clock } := by
    rw [Case.reopened, ho]; rfl
  have hr := State.restoreCase_reopens hx ht hc hh fun d e => by rw [hd] at e; cases e; exact hu
  have hv : (s.setCase k (x.reopened s.clock)).notify.caseAt k = some (x.reopened s.clock) := by simp
  have hcur : (s.setCase k (x.reopened s.clock)).notify.currentDest (x.reopened s.clock) = some c.dest := by
    rw [← hd, List.head?_eq_getElem?]; rfl
  have only : ∀ j, (s.setCase k (x.reopened s.clock)).notify.pendingAt c.dest j = true → j = k := by
    intro j hj
    by_contra hne
    obtain ⟨z, hz, hzp, hzd⟩ := (State.pendingAt_iff _ _ _).mp hj
    rw [State.notify_caseAt, State.setCase_caseAt, if_neg (Ne.symm hne)] at hz
    exact Bool.eq_false_iff.mp (hno n c.dest hl j) ((s.pendingAt_iff _ _).mpr ⟨z, hz, hzp, hzd⟩)
  rw [State.restoreNamed, if_neg (by simp [hc]), hr,
    State.answerLingers_takes (c := c) hv rfl hcur hl hcall alone only hf hb,
    State.takeUp_eq (s := (s.setCase k (x.reopened s.clock)).notify) (c := c) hcall hv,
    State.answerHandle_eq (h := s.handleOf k)]
  · rw [hopen]
    have e : (s.setCase k (x.reopened s.clock)).notify.setCase k y = (s.setCase k y).notify :=
      congrArg State.notify (s.setCase_setCase k _ y)
    rw [hopen] at e
    rw [e]
    rfl
  · simp

/-! ### The refusals -/

/-- No postable class has a code outside 1 to 4 (R36). -/
theorem postableOfCode_eq_none {code : Nat} (h : code = 0 ∨ 4 < code) : postableOfCode code = none := by
  rcases h with rfl | h
  · rfl
  · match code, h with
    | 5, _ => rfl
    | n + 6, _ => rfl

end Sys2Proof.Machine

open Sys2Proof Sys2Proof.Machine

/-- Settles O11: the case by its condition and state, then the one lingering line, then the checks in their order. -/
theorem restoreTakesEffect : Obligations.RestoreTakesEffect := by
  refine ⟨?_, ?_, ?_⟩
  · intro s src target k x hs hn hx hsrc ht hno taken handle
    have hx' : taken.caseAt k = some x := by rwa [State.takeFrame_caseAt]
    have hno' : taken.NoOffer := hno.takeFrame _
    have hh : taken.handleOf k = s.handleOf k := s.takeFrame_handleOf _ k
    rw [exec_restore_named hs hn hx hsrc]
    refine ⟨fun hc => ?_, fun hc hheld => ?_, fun hc hheld hd => ?_⟩
    · rw [State.restoreNamed_already hc, hh]
    · rw [State.restoreNamed_joins hx' ht hc hheld hno', hh]
    · rw [State.restoreNamed_reopens hx' ht hc hheld hno' fun d e => ?_, hh]
      · simp only [Case.reopened, taken, handle, State.takeFrame_clock, State.takeFrame_passesDue]
      · rw [State.takeFrame_plan] at e
        rw [State.takeFrame_usable, State.takeFrame_nobodyOn]
        exact hd d e
  · intro s src target k x n c hs hn hx hsrc ht hc hheld ho hno hd hu hl hcall alone hf hb y
    have h := State.restoreNamed_offered (s := s.takeFrame (restoreBytes target)) (k := k) (x := x) (n := n) (c := c)
      (by rwa [State.takeFrame_caseAt]) ht hc hheld ho (hno.takeFrame _) (by rwa [State.takeFrame_plan]) (by rwa [State.takeFrame_usable])
      (by rwa [State.takeFrame_lingersOn]) (by rwa [State.takeFrame_call]) (fun m hm => by rw [State.takeFrame_lingersOn]; exact alone m hm)
      (by rwa [State.takeFrame_fireWaiting]) (by rwa [State.takeFrame_exchange])
    rw [exec_restore_named hs hn hx hsrc, h]
    simp only [State.takeFrame_clock, State.takeFrame_line, State.takeFrame_dest, State.takeFrame_passesDue, State.takeFrame_handleOf, y]
  · intro s src hs refused
    refine ⟨fun h => ⟨fun hh => ?_, fun hh hk => ?_, fun k x hk hx hsrc => ?_⟩, fun zone code => ⟨fun hbad => ?_, fun c p hz hc hk => ?_⟩⟩
    all_goals
      show Host.Outcome.next (State.anySource _ _ _) = _
      rw [State.anySource_eq hs]
    · rw [State.restoreByHandle, State.withHandle, if_pos hh]; rfl
    · rw [State.restoreByHandle, State.withHandle, if_neg (Nat.not_lt.mpr hh), State.takeFrame_caseOfHandle, hk]; rfl
    · rw [State.restoreByHandle, State.withHandle_eq (k := k) (x := x) (by rwa [State.takeFrame_caseOfHandle])
        (by rwa [State.takeFrame_caseAt]), if_neg hsrc]
      rfl
    · rw [State.restoreByKey]
      by_cases hz : 999 < zone
      · rw [if_pos hz]; rfl
      · rw [if_neg hz, postableOfCode_eq_none (hbad.resolve_left hz)]; rfl
    · rw [State.restoreByKey, if_neg (Nat.not_lt.mpr hz)]
      simp only [hc, State.takeFrame_caseOfKey, hk]
      rfl
end

