-- ==== Sys2Proof/Proofs/HeldOffers.lean ====
section
/-! SUPPORT. What the offer of freed space to the held posts comes to, position by position (R23, R24), and so what a retirement does (R16). -/

namespace Sys2Proof.Machine

variable {s t u v : State}

/-! ### Counting by key -/

/-- The number of cases whose key has a property. -/
def State.countKeys (s : State) (q : Key → Bool) : Nat := (List.finRange 48).countP fun j => ((s.caseAt j).map fun c => q c.key).getD false

theorem State.cases_eq (s : State) : s.cases = (List.finRange 48).filterMap s.caseAt := by
  have h : s.slots.toList = (List.finRange 48).map s.slot := by
    refine List.ext_getElem (by simp) fun i h1 h2 => ?_
    simp [State.slot]
  rw [State.cases, h, List.filterMap_map]
  rfl

theorem State.length_cases (s : State) : s.cases.length = s.countKeys fun _ => true := by
  rw [State.cases_eq, ← List.countP_true, List.countP_filterMap]
  rfl

theorem State.otherCases_eq (s : State) : s.otherCases = s.countKeys fun key => decide (key.cls ≠ .fire) := by
  rw [State.otherCases, State.cases_eq, List.countP_filterMap]
  rfl

theorem State.countKeys_at (q : Key → Bool) {j : Fin 48} :
    ((s.caseAt j).map fun c => q c.key).getD false = true ↔ ∃ c, s.caseAt j = some c ∧ q c.key = true := by
  cases s.caseAt j <;> simp

/-- Where every case stays under its key, no count falls. -/
theorem State.KeysKept.countKeys (h : s.KeysKept t) (q : Key → Bool) : s.countKeys q ≤ t.countKeys q := by
  refine List.countP_mono_left fun j _ hj => ?_
  obtain ⟨c, hc, hq⟩ := (State.countKeys_at q).mp hj
  obtain ⟨c', hc', hkey⟩ := h j c hc
  exact (State.countKeys_at q).mpr ⟨c', hc', hkey ▸ hq⟩

theorem State.KeysKept.noRoom (h : s.KeysKept t) (hr : t.reserve = s.reserve) {c : Cls} (g : s.NoRoom c) : t.NoRoom c := by
  have h1 := h.countKeys fun _ => true
  have h2 := h.countKeys fun key => decide (key.cls ≠ .fire)
  rw [← State.length_cases, ← State.length_cases] at h1
  rw [← State.otherCases_eq, ← State.otherCases_eq] at h2
  rw [State.NoRoom, hr]
  exact g.imp (fun g => g.trans h1) fun g => ⟨g.1, g.2.trans h2⟩

theorem State.KeysKept.caseOfKey (h : s.KeysKept t) {key : Key} (g : s.caseOfKey key ≠ none) : t.caseOfKey key ≠ none := by
  obtain ⟨k, hk⟩ := Option.ne_none_iff_exists'.mp g
  obtain ⟨c, hc, hkey⟩ := s.caseOfKey_some hk
  obtain ⟨c', hc', hkey'⟩ := h k c hc
  exact fun e => t.caseOfKey_eq_none.mp e k c' hc' (hkey'.trans hkey)

theorem State.Sends.kept (h : s.Sends t) : s.KeysKept t := fun k c hc => by
  obtain ⟨st, l, e, -⟩ := h.caseAt hc
  exact ⟨_, e, rfl⟩

/-- A free slot leaves fewer than 48 cases. -/
theorem State.length_cases_lt {k : Fin 48} (hk : s.caseAt k = none) : s.cases.length < 48 := by
  rw [State.length_cases, State.countKeys]
  refine lt_of_le_of_ne (List.countP_le_length.trans (by simp)) fun e => ?_
  have := List.countP_eq_length.mp (e.trans (List.length_finRange (n := 48)).symm) k (List.mem_finRange k)
  simp [hk] at this

theorem State.lowestFree_of_lt (h : s.cases.length < 48) : ∃ k, s.lowestFree = some k := by
  rw [← Option.ne_none_iff_exists']
  intro e
  have hall : ∀ j, (s.caseAt j).isSome = true := fun j => by
    have := List.find?_eq_none.mp e j (List.mem_finRange j)
    cases hj : s.caseAt j with
    | none => simp [hj] at this
    | some c => rfl
  rw [State.length_cases, State.countKeys, List.countP_eq_length.mpr] at h
  · simp at h
  · intro j _
    obtain ⟨c, hc⟩ := Option.isSome_iff_exists.mp (hall j)
    simp [hc]

/-! ### The offer of one position -/

/-- The case `x` has been admitted for a held post of `key` (R24). -/
def Case.FromHeld (x : Case) (key : Key) (now : Time) (present : Bool) : Prop :=
  x.key = key ∧ x.mark = .verified ∧ x.detail = none ∧ x.posted = now ∧ x.reported = false ∧
    x.owed = (if key.cls = .test then [.test] else if present then [.alarm] else [.alarm, .restore])

/-- Position `p` of `s` has given up its held post, for a case in a slot that was free. -/
structure State.Admitted (s t : State) (p : Poster) (key : Key) : Prop where
  held : s.heldAt p.position = some key
  heldAt : ∀ q, t.heldAt q = if p.position = q then none else s.heldAt q
  gens : ∀ j, (t.slot j).gen = (s.slot j).gen
  made : ∃ k c, s.caseAt k = none ∧ c.FromHeld key s.clock (s.conditionPresent p) ∧ ∀ j, t.caseAt j = if k = j then some c else s.caseAt j

theorem State.conditionPresent_setHeld (s : State) (q : Fin 21) (key : Option Key) (p : Poster) :
    (s.setHeld q key).conditionPresent p = s.conditionPresent p :=
  (State.OnTable.setHeld s q key).conditionPresent p

/-- A new case that has settled, restored at once, owes the RESTORE too. -/
theorem State.restoreCase_fresh {k : Fin 48} {c : Case} (hk : s.caseAt k = some c) (ht : c.key.cls ≠ .test) (hc : c.condition = .active)
    (hh : c.state ≠ .held) : s.restoreCase k = s.setCase k { c with owed := c.owed ++ [.restore], condition := .restored } :=
  State.restoreCase_joins hk ht hc hh

theorem State.restoreCase_test {k : Fin 48} {c : Case} (hk : s.caseAt k = some c) (ht : c.key.cls = .test) (hh : c.state ≠ .held) :
    s.restoreCase k = s := by
  have h : c.restored s.clock = c := by simp [Case.restored, ht]
  simp only [State.restoreCase, hk, h, hh, false_and, if_false]
  exact s.setCase_self hk

/-- A held post offered is admitted, or does not fit (R23, R24). -/
theorem State.offerHeld_cases (s : State) (p : Poster) :
    (s.offerHeld p = s ∧ ∀ key, s.heldAt p.position = some key → s.caseOfKey key ≠ none ∨ s.NoRoom key.cls) ∨
      ∃ key, s.Admitted (s.offerHeld p) p key := by
  unfold State.offerHeld
  split
  · next h => exact .inl ⟨rfl, fun key e => by rw [h] at e; cases e⟩
  next key hkey =>
  split
  · next hn =>
    refine .inl ⟨rfl, fun key' e => ?_⟩
    rw [hkey] at e; cases e
    by_contra hcon
    rw [not_or, not_not] at hcon
    obtain ⟨hkn, hroom⟩ := hcon
    obtain ⟨k, hk⟩ := State.lowestFree_of_lt (s := s) (by by_contra h; exact hroom (.inl (by omega)))
    rw [State.acceptPost_of_room ((s.hasRoom_iff _).mpr hroom) hkn hk] at hn
    cases hn
  · next k t ht =>
    obtain ⟨-, -, hfree, rfl⟩ := s.acceptPost_some ht
    have hfree := s.lowestFree_some hfree
    obtain ⟨c, hl, p', b, e⟩ := s.createAt_told k key none .verified
    rw [e]
    have hheld := hl.not_held
    have hnew := hl.only
    have hfrom : ∀ present, (key.cls = .test ∨ present = true) → c.FromHeld key s.clock present := by
      intro present h
      rw [hnew]
      refine ⟨rfl, rfl, rfl, rfl, rfl, ?_⟩
      by_cases ht : key.cls = .test
      · simp [Case.new, ht]
      · simp [Case.new, ht, h.resolve_left ht]
    generalize hw : State.setHeld _ p.position none = w
    have hwc : ∀ j, w.caseAt j = if k = j then some c else s.caseAt j := fun j => by rw [← hw]; exact s.setCase_caseAt k j c
    have hwh : ∀ q, w.heldAt q = if p.position = q then none else s.heldAt q := fun q => by
      rw [← hw]; exact State.setHeld_heldAt _ p.position q none
    have hwg : ∀ j, (w.slot j).gen = (s.slot j).gen := fun j => by rw [← hw]; exact s.setCase_gen k j c
    have hwp : w.conditionPresent p = s.conditionPresent p := by
      rw [← hw, State.conditionPresent_setHeld]
      exact (State.OnTable.setCase s k c).conditionPresent p
    have hwk : w.caseAt k = some c := by rw [hwc, if_pos rfl]
    refine .inr ⟨key, ?_⟩
    simp only [hwp]
    split
    · next hp => exact ⟨hkey, hwh, hwg, k, c, hfree, hfrom _ (.inr hp), hwc⟩
    · next hp =>
      by_cases ht : key.cls = .test
      · rw [State.restoreCase_test hwk (by rw [hl.key]; exact ht) hheld]
        exact ⟨hkey, hwh, hwg, k, c, hfree, hfrom _ (.inl ht), hwc⟩
      · have hact : c.condition = .active := by rw [hnew]; exact if_neg ht
        rw [State.restoreCase_fresh hwk (by rw [hl.key]; exact ht) hact hheld]
        refine ⟨hkey, hwh, fun j => (w.setCase_gen k j _).trans (hwg j), k,
          { c with owed := c.owed ++ [.restore], condition := .restored }, hfree, ?_, fun j => ?_⟩
        · rw [hnew]
          refine ⟨rfl, rfl, rfl, rfl, rfl, ?_⟩
          simp [Case.new, ht, hp]
        · rw [State.setCase_caseAt, hwc]
          split <;> rfl

/-! ### The offer of every position -/

theorem Poster.order_positions : Poster.order.map Poster.position = List.finRange 21 := by decide

theorem Poster.mem_order (p : Poster) : p ∈ Poster.order := by
  unfold Poster.order
  cases p <;> simp

theorem Poster.position_inj {p q : Poster} (h : p.position = q.position) : p = q := by
  have hn : (Poster.order.map Poster.position).Nodup := Poster.order_positions ▸ List.nodup_finRange 21
  exact List.inj_on_of_nodup_map hn p.mem_order q.mem_order h

/-- The posters before `p` in the order of the offers, and those after it. -/
theorem Poster.order_split (p : Poster) :
    ∃ as bs, Poster.order = as ++ p :: bs ∧ (∀ q ∈ as, q.position < p.position) ∧ p ∉ bs := by
  obtain ⟨as, bs, e⟩ := List.append_of_mem p.mem_order
  have hp : (Poster.order.map Poster.position).Pairwise (· < ·) := Poster.order_positions ▸ List.pairwise_lt_finRange 21
  rw [e, List.map_append, List.map_cons, List.pairwise_append] at hp
  obtain ⟨-, hpb, hab⟩ := hp
  refine ⟨as, bs, e, fun q hq => hab _ (List.mem_map_of_mem hq) _ (List.mem_cons_self ..), fun hm => ?_⟩
  exact lt_irrefl _ ((List.pairwise_cons.mp hpb).1 _ (List.mem_map_of_mem hm))

/-- From `s` to `t` held posts have been admitted: every case stands as it was, and the settings of the offer too. -/
structure State.Grows (s t : State) : Prop where
  cases : ∀ j c, s.caseAt j = some c → t.caseAt j = some c
  gens : ∀ j, (t.slot j).gen = (s.slot j).gen
  none : ∀ q, s.heldAt q = none → t.heldAt q = none
  onTable : s.OnTable t

theorem State.Grows.refl (s : State) : s.Grows s := ⟨fun _ _ h => h, fun _ => rfl, fun _ h => h, .refl s⟩
theorem State.Grows.trans (h : s.Grows t) (g : t.Grows u) : s.Grows u :=
  ⟨fun j c e => g.cases j c (h.cases j c e), fun j => (g.gens j).trans (h.gens j), fun q e => g.none q (h.none q e),
    h.onTable.trans g.onTable⟩

theorem State.Grows.kept (h : s.Grows t) : s.KeysKept t := fun k c e => ⟨c, h.cases k c e, rfl⟩

theorem State.offerHeld_grows (s : State) (p : Poster) : s.Grows (s.offerHeld p) := by
  rcases s.offerHeld_cases p with ⟨e, -⟩ | ⟨key, h⟩
  · rw [e]; exact .refl s
  · obtain ⟨k, c, hk, -, hc⟩ := h.made
    refine ⟨fun j x e => ?_, h.gens, fun q e => ?_, .offerHeld s p⟩
    · rw [hc, if_neg]
      · exact e
      · rintro rfl; rw [hk] at e; cases e
    · rw [h.heldAt]; split <;> [rfl; exact e]

theorem State.offers_grow : ∀ (ps : List Poster) (s : State), s.Grows (ps.foldl State.offerHeld s)
  | [], s => .refl s
  | p :: ps, s => (s.offerHeld_grows p).trans (offers_grow ps _)

theorem State.offerSpace_grows (s : State) : s.Grows s.offerSpace := State.offers_grow _ s

/-- The offers to other positions leave a held post. -/
theorem State.offers_heldAt {p : Poster} : ∀ (ps : List Poster) (s : State), p ∉ ps →
    (ps.foldl State.offerHeld s).heldAt p.position = s.heldAt p.position
  | [], _, _ => rfl
  | q :: ps, s, h => by
    rw [List.mem_cons, not_or] at h
    obtain ⟨hne, hps⟩ := h
    rw [List.foldl_cons, offers_heldAt ps _ hps]
    rcases s.offerHeld_cases q with ⟨e, -⟩ | ⟨key, had⟩
    · rw [e]
    · rw [had.heldAt, if_neg fun e => hne (Poster.position_inj e).symm]

/-- Where no post is held, an offer changes nothing. -/
theorem State.offers_eq_self : ∀ (ps : List Poster) (s : State), (∀ q ∈ ps, s.heldAt q.position = none) →
    ps.foldl State.offerHeld s = s
  | [], _, _ => rfl
  | q :: ps, s, h => by
    have hq : s.offerHeld q = s := by unfold State.offerHeld; rw [h q (List.mem_cons_self ..)]
    rw [List.foldl_cons, hq]
    exact offers_eq_self ps s fun q hq => h q (List.mem_cons_of_mem _ hq)

theorem State.offerSpace_eq_self (h : s.NoHeld) : s.offerSpace = s := State.offers_eq_self _ s fun q _ => h q.position

/-- What became of a held post once it was offered the space (R23, R24). -/
def State.Offered (s t : State) (p : Poster) (key : Key) : Prop :=
  (t.heldAt p.position = none ∧ ∃ k x, t.caseAt k = some x ∧ x.FromHeld key s.clock (s.conditionPresent p)) ∨
    (t.heldAt p.position = some key ∧ (t.caseOfKey key ≠ none ∨ t.NoRoom key.cls))

theorem State.offerHeld_offered {p : Poster} {key : Key} (h : s.heldAt p.position = some key) : s.Offered (s.offerHeld p) p key := by
  rcases s.offerHeld_cases p with ⟨e, hn⟩ | ⟨key', had⟩
  · rw [e]; exact .inr ⟨h, hn key h⟩
  · have := had.held
    rw [h] at this; cases this
    obtain ⟨k, c, -, hfrom, hc⟩ := had.made
    exact .inl ⟨by rw [had.heldAt, if_pos rfl], k, c, by rw [hc, if_pos rfl], hfrom⟩

/-- What became of it stands while other positions are offered the space. -/
theorem State.Offered.grow {p : Poster} {key : Key} (h : s.Offered t p key) (g : t.Grows u)
    (e : u.heldAt p.position = t.heldAt p.position) : s.Offered u p key := by
  rcases h with ⟨hn, k, x, hx, hf⟩ | ⟨hs, hw⟩
  · exact .inl ⟨e.trans hn, k, x, g.cases k x hx, hf⟩
  · exact .inr ⟨e.trans hs, hw.imp g.kept.caseOfKey fun hr => g.kept.noRoom g.onTable.reserve hr⟩

/-- Every held post is offered the space (R23). -/
theorem State.offerSpace_offered {p : Poster} {key : Key} (h : s.heldAt p.position = some key) : s.Offered s.offerSpace p key := by
  obtain ⟨as, bs, e, ha, hb⟩ := p.order_split
  have hpa : p ∉ as := fun hm => lt_irrefl _ (ha p hm)
  rw [State.offerSpace, e, List.foldl_append, List.foldl_cons]
  have h1 := State.offers_grow as s
  have hh := (State.offers_heldAt as s hpa).trans h
  generalize as.foldl State.offerHeld s = w at h1 hh
  have h2 := State.offerHeld_offered hh
  rw [State.Offered, h1.onTable.clock, h1.onTable.conditionPresent] at h2
  exact State.Offered.grow h2 (State.offers_grow bs _) (State.offers_heldAt bs _ hb)

/-- The post held first is admitted where it fits (R23, R24). -/
theorem State.offerSpace_first {p : Poster} {key : Key} (h : s.heldAt p.position = some key)
    (first : ∀ q : Poster, q.position < p.position → s.heldAt q.position = none) (hk : s.caseOfKey key = none) (hr : ¬ s.NoRoom key.cls) :
    s.offerSpace.heldAt p.position = none ∧ ∃ k x, s.offerSpace.caseAt k = some x ∧ x.key = key := by
  obtain ⟨as, bs, e, ha, hb⟩ := p.order_split
  rw [State.offerSpace, e, List.foldl_append, List.foldl_cons, State.offers_eq_self as s fun q hq => first q (ha q hq)]
  have g := State.offers_grow bs (s.offerHeld p)
  rcases s.offerHeld_cases p with ⟨-, hn⟩ | ⟨key', had⟩
  · exact ((hn key h).elim (fun g => g hk) hr).elim
  · have := had.held
    rw [h] at this; cases this
    obtain ⟨k, c, -, hfrom, hc⟩ := had.made
    exact ⟨g.none _ (by rw [had.heldAt, if_pos rfl]), k, c, g.cases k c (by rw [hc, if_pos rfl]), hfrom.1⟩

/-! ### A slot freed -/

/-- `v` is `s` with the case of slot `k` gone, as far as the offer of its space sees. -/
structure State.Freed (s v : State) (k : Fin 48) : Prop where
  slot : ∀ j, v.slot j = if k = j then ⟨(s.slot k).gen + 1, none⟩ else s.slot j
  heldPosts : v.heldPosts = s.heldPosts
  reserve : v.reserve = s.reserve
  clock : v.clock = s.clock

theorem State.Freed.caseAt {k : Fin 48} (h : s.Freed v k) (j : Fin 48) : v.caseAt j = if k = j then none else s.caseAt j := by
  rw [State.caseAt, h.slot]
  split <;> rfl

theorem State.Freed.heldAt {k : Fin 48} (h : s.Freed v k) (q : Fin 21) : v.heldAt q = s.heldAt q := by
  simp only [State.heldAt, h.heldPosts]

/-- The freed state has the cases of `s` less one. -/
theorem State.Freed.otherCases {k : Fin 48} {x : Case} (h : s.Freed v k) (hx : s.caseAt k = some x) :
    s.otherCases = v.otherCases + if x.key.cls = .fire then 0 else 1 := by
  have hback : ∀ j, (v.setCase k x).caseAt j = s.caseAt j := fun j => by
    rw [State.setCase_caseAt]
    split
    · next e => subst e; exact hx.symm
    · next e => rw [h.caseAt, if_neg e]
  have hs : s.otherCases = (v.setCase k x).otherCases := by
    rw [State.otherCases_eq, State.otherCases_eq]
    simp only [State.countKeys, hback]
  rw [hs]
  split
  · next hf =>
    rw [State.otherCases_eq, State.otherCases_eq, Nat.add_zero]
    refine congrArg (fun p => List.countP p (List.finRange 48)) (funext fun j => ?_)
    rw [State.setCase_caseAt]
    split
    · next e => subst e; rw [h.caseAt, if_pos rfl]; simp [hf]
    · rfl
  · next hf =>
    rw [← State.otherCount_eq, ← State.otherCount_eq]
    exact v.otherCount_setCase (by rw [h.caseAt, if_pos rfl]) (by simp [Case.isFire, hf])

/-- What a retirement of the case in slot `k` comes to: its handle names nothing, and the held posts have been offered its space. -/
structure State.Retired (s t : State) (k : Fin 48) (x : Case) : Prop where
  gen : (t.slot k).gen = (s.slot k).gen + 1
  handle : ∀ h, s.caseOfHandle h = some k → t.caseOfHandle h = none
  offered : s.HeldOffered t
  first : s.FirstAdmitted x t

theorem State.Sends.conditionPresent (h : s.Sends t) (p : Poster) : t.conditionPresent p = s.conditionPresent p := by
  have hi : ∀ i, t.input i = s.input i := fun i => by simp only [State.input, h.inputs]
  cases p <;> simp [State.conditionPresent, hi, h.fault]

theorem State.Sends.heldAt (h : s.Sends t) (q : Fin 21) : t.heldAt q = s.heldAt q := by simp only [State.heldAt, h.heldPosts]

theorem State.Freed.retired {k : Fin 48} {x : Case} (hf : s.Freed v k) (hx : s.caseAt k = some x) (ht : v.offerSpace.Sends t) :
    s.Retired t k x := by
  have g := v.offerSpace_grows
  have hgen : (t.slot k).gen = (s.slot k).gen + 1 := by rw [ht.gens, g.gens, hf.slot, if_pos rfl]
  refine ⟨hgen, fun h hh => ?_, fun p key hp => ?_, fun p key hp hfirst hkey hroom => ?_⟩
  · obtain ⟨h1, -, h3⟩ := s.caseOfHandle_eq_some.mp hh
    by_contra hne
    obtain ⟨j, hj⟩ := Option.ne_none_iff_exists'.mp hne
    obtain ⟨h1', -, h3'⟩ := t.caseOfHandle_eq_some.mp hj
    have : k = j := Fin.ext (h1.symm.trans h1')
    subst this
    rw [hgen, ← h3] at h3'
    generalize (s.slot k).gen = a at h3'
    revert h3' a
    decide
  · rw [← hf.heldAt] at hp
    rcases State.offerSpace_offered hp with ⟨hn, j, y, hy, hfrom⟩ | ⟨hs, hw⟩
    · obtain ⟨st, l, hy', -⟩ := ht.caseAt hy
      rw [hf.clock, ← g.onTable.conditionPresent, ← ht.conditionPresent] at hfrom
      exact .inl ⟨(ht.heldAt _).trans hn, j, _, hy', hfrom⟩
    · exact .inr ⟨(ht.heldAt _).trans hs, hw.imp ht.kept.caseOfKey fun hr => ht.kept.noRoom ht.reserve hr⟩
  · have hsub : v.caseOfKey key = none := by
      rw [State.caseOfKey_eq_none] at hkey ⊢
      intro j c hc
      rw [hf.caseAt] at hc
      split at hc
      · cases hc
      · exact hkey j c hc
    have hroom' : ¬ v.NoRoom key.cls := by
      have hlt := State.length_cases_lt (s := v) (k := k) (by rw [hf.caseAt, if_pos rfl])
      have hcount := hf.otherCases hx
      rintro (h | ⟨hc, h⟩)
      · omega
      · have := hroom hc
        rw [hf.reserve] at h
        omega
    obtain ⟨hn, j, y, hy, hk⟩ := State.offerSpace_first (s := v) ((hf.heldAt _).trans hp)
      (fun q hq => (hf.heldAt _).trans (hfirst q hq)) hsub hroom'
    obtain ⟨st, l, hy', -⟩ := ht.caseAt hy
    exact ⟨(ht.heldAt _).trans hn, j, _, hy', hk⟩

end Sys2Proof.Machine
end

