-- ==== Sys2Proof/Proofs/Retirement.lean ====
section
/-! CLAIM. WITHDRAW, CLEAR and a last acceptance retire the case, end its handle and offer its space (O13). -/

namespace Sys2Proof.Machine

variable {s t u v : State} {k : Fin 48} {x : Case} {n : Fin 4}

/-! ### The slot freed -/

theorem State.vacate_eq (hx : s.caseAt k = some x) :
    s.vacate k = { s.setSlot k ⟨(s.slot k).gen + 1, none⟩ with
      passesDue := s.passesDue + if x.key.cls = .fire ∧ s.fireWaiting = true then 1 else 0 } := by
  simp only [State.vacate, hx, Case.isFire, decide_eq_true_eq, State.notifyWhileFire_eq, State.setSlot_fireWaiting]
  by_cases hf : x.key.cls = .fire <;> simp [hf] <;> rfl

/-- The tables of `u` that a retirement reads are those of `s`. -/
structure State.SameTables (s u : State) : Prop where
  slots : u.slots = s.slots := by rfl
  heldPosts : u.heldPosts = s.heldPosts := by rfl
  reserve : u.reserve = s.reserve := by rfl
  clock : u.clock = s.clock := by rfl

theorem State.SameTables.slot (h : s.SameTables u) (j : Fin 48) : u.slot j = s.slot j := by simp only [State.slot, h.slots]

theorem State.sameTables_takeFrame (s : State) (len : Nat) : s.SameTables (s.takeFrame len) := by
  rw [State.takeFrame_eq]; exact {}

theorem State.SameTables.freed (h : s.SameTables u) (hx : u.caseAt k = some x) : s.Freed (u.vacate k) k := by
  rw [State.vacate_eq hx]
  refine ⟨fun j => ?_, h.heldPosts, h.reserve, h.clock⟩
  rw [← h.slot, ← h.slot]
  exact u.setSlot_slot k j _

theorem State.Freed.before {w : State} (h : s.Freed v k) (g : v.SameTables w) : s.Freed w k :=
  ⟨fun j => (g.slot j).trans (h.slot j), g.heldPosts.trans h.heldPosts, g.reserve.trans h.reserve, g.clock.trans h.clock⟩

theorem State.sends_answer (s : State) (st : Status) (b : List Byte) : s.Sends (s.answer st b) :=
  ⟨fun _ => rfl, fun _ => .inl rfl, rfl, rfl, rfl, rfl, fun _ => .rfl⟩

theorem State.sends_raise (s : State) (c : Cause) : s.Sends (s.raise c) :=
  ⟨fun _ => rfl, fun _ => .inl rfl, rfl, rfl, rfl, rfl, fun _ => .rfl⟩

theorem State.sends_notifyWhileFire (s : State) : s.Sends s.notifyWhileFire := by
  rw [State.notifyWhileFire_eq]
  exact ⟨fun _ => rfl, fun _ => .inl rfl, rfl, rfl, rfl, rfl, fun _ => .rfl⟩

/-- The space freed is offered, the lingering lines answered and the reply given. -/
theorem State.Freed.answered (hf : s.Freed v k) (hx : s.caseAt k = some x) (st : Status) (b : List Byte) :
    s.Retired (v.offerSpace.answerLingers.answer st b) k x :=
  hf.retired hx ((State.answerLingers_sends _).trans (State.sends_answer _ st b))

/-- A slot emptied makes no offer. -/
theorem State.NoOffer.freed (h : s.NoOffer) (hf : s.Freed v k) (plans : v.plans = s.plans) (lines : v.lines = s.lines) : v.NoOffer := by
  have hl : ∀ n, v.line n = s.line n := fun n => by simp only [State.line, lines]
  have hp : ∀ c, v.plan c = s.plan c := fun c => by simp only [State.plan, plans]
  intro n d hn j
  rw [State.lingersOn, State.call, hl] at hn
  rw [State.pendingAt, hf.caseAt]
  simp only [State.currentDest, hp]
  split
  · next e =>
    split at e
    · cases e
    · have := h n d hn j
      rw [State.pendingAt, e] at this
      exact this
  · rfl

/-! ### The notices of a CLEAR -/

theorem State.clearNotice_inputs (s : State) (key : Key) (i : Fin 8) : ∃ cs, s.clearNotice key i = { s with inputs := cs } := by
  unfold State.clearNotice
  simp only []
  split
  · exact ⟨_, rfl⟩
  · split <;> exact ⟨_, rfl⟩

theorem State.clearNotices_inputs (key : Key) : ∀ (is : List (Fin 8)) (s : State),
    ∃ cs, is.foldl (fun t i => t.clearNotice key i) s = { s with inputs := cs }
  | [], s => ⟨s.inputs, rfl⟩
  | i :: is, s => by
    obtain ⟨cs, h⟩ := s.clearNotice_inputs key i
    obtain ⟨cs', h'⟩ := clearNotices_inputs key is { s with inputs := cs }
    exact ⟨cs', by rw [List.foldl_cons, h, h']⟩

/-- A channel that did not post the key takes no notice. -/
theorem State.clearNotice_eq_self {key : Key} {i : Fin 8}
    (ha : key = s.alarmKey i → (s.input i).alarm ≠ .raised) (hb : key = s.troubleKey i → (s.input i).trouble ≠ .raised) :
    s.clearNotice key i = s := by
  simp only [State.clearNotice]
  rw [if_neg fun h => ha h.1 h.2, if_neg fun h => hb h.1 h.2]

theorem State.clearNotice_other {key : Key} {i : Fin 8} (h : key.source ≠ 16 + i.val) : s.clearNotice key i = s :=
  State.clearNotice_eq_self (fun e => absurd (congrArg Key.source e) h) (fun e => absurd (congrArg Key.source e) h)

theorem State.clearNotices_other {key : Key} : ∀ (is : List (Fin 8)) (s : State), (∀ i ∈ is, key.source ≠ 16 + i.val) →
    is.foldl (fun t i => t.clearNotice key i) s = s
  | [], _, _ => rfl
  | i :: is, s, h => by
    rw [List.foldl_cons, State.clearNotice_other (h i (List.mem_cons_self ..))]
    exact clearNotices_other is s fun i hi => h i (List.mem_cons_of_mem _ hi)

/-- The key of one channel is told to that channel alone. -/
theorem State.clearNotices_one {key : Key} {i : Fin 8} (h : key.source = 16 + i.val) (s : State) :
    (List.finRange 8).foldl (fun t i => t.clearNotice key i) s = s.clearNotice key i := by
  obtain ⟨as, bs, e⟩ := List.append_of_mem (List.mem_finRange i)
  have nodup := List.nodup_finRange 8
  rw [e, List.nodup_middle, List.nodup_cons, List.mem_append, not_or] at nodup
  obtain ⟨⟨ha, hb⟩, -⟩ := nodup
  have hne : ∀ j : Fin 8, j ≠ i → key.source ≠ 16 + j.val := fun j hj e => hj (Fin.ext (by omega))
  rw [e, List.foldl_append, List.foldl_cons, State.clearNotices_other as s fun j hj => hne j fun e => ha (e ▸ hj)]
  exact State.clearNotices_other bs _ fun j hj => hne j fun e => hb (e ▸ hj)

/-! ### WITHDRAW and CLEAR -/

theorem exec_withdraw_passed {src h : Nat} (hs : src ≤ 15) (hk : s.caseOfHandle h = some k) (hx : s.caseAt k = some x)
    (hsrc : x.key.source = src) (hf : x.key.cls ≠ .fire) (hr : x.reported = false) (hst : x.state ≠ .sending) :
    exec (.withdraw src h) s = .next ((((s.takeFrame 5).vacate k).offerSpace).answerLingers.answer .ok) := by
  show Host.Outcome.next (State.anySource _ _ _) = _
  rw [State.anySource_eq (.inl hs), State.withdraw, State.withHandle_eq (k := k) (x := x) (by rwa [State.takeFrame_caseOfHandle])
    (by rwa [State.takeFrame_caseAt]), if_neg (not_not.mpr hsrc), if_neg (by simpa [Case.isFire] using hf), if_neg (by simp [hr]), if_neg hst]
  rfl

theorem exec_clear (s : State) (h : Nat) : exec (.clear 31 h) s = .next ((s.takeFrame 5).clear h) := rfl

theorem State.clear_eq {h : Nat} (hk : s.caseOfHandle h = some k) (hx : s.caseAt k = some x) :
    s.clear h = if x.state = .sending then s.answer .inFlight else (s.clearCase k x.key).answerLingers.answer .ok :=
  State.withHandle_eq hk hx _

/-- The Case Table after a CLEAR, before the space is offered: the slot freed and the channels told. -/
def State.cleared (s : State) (k : Fin 48) (key : Key) : State :=
  (List.finRange 8).foldl (fun t i => t.clearNotice key i) (s.vacate k)

theorem State.clearCase_eq (s : State) (k : Fin 48) (key : Key) : s.clearCase k key = (s.cleared k key).offerSpace := rfl

theorem State.cleared_freed (h : s.SameTables u) (hx : u.caseAt k = some x) : s.Freed (u.cleared k x.key) k := by
  obtain ⟨cs, e⟩ := State.clearNotices_inputs x.key (List.finRange 8) (u.vacate k)
  rw [State.cleared, e]
  exact (h.freed hx).before {}

theorem State.cleared_unheard (hx : u.caseAt k = some x) (hno : u.NoOffer) (hh : u.NoHeld) (st : Status) (b : List Byte) :
    (u.clearCase k x.key).answerLingers.answer st b = (u.cleared k x.key).answer st b := by
  have hf := State.cleared_freed (s := u) {} hx
  have hplans : (u.cleared k x.key).plans = u.plans ∧ (u.cleared k x.key).lines = u.lines := by
    obtain ⟨cs, e⟩ := State.clearNotices_inputs x.key (List.finRange 8) (u.vacate k)
    rw [State.cleared, e, State.vacate_eq hx]
    exact ⟨rfl, rfl⟩
  rw [State.clearCase_eq, State.offerSpace_eq_self fun q => (hf.heldAt q).trans (hh q),
    State.answerLingers_eq_self _ (hno.freed hf hplans.1 hplans.2)]

/-! ### A last acceptance -/

/-- The acceptance of a last report is a retirement from a state with the case unsent (R16, R26). -/
theorem State.applyOutcome_last {d : Fin 8} {kind : ReportKind} (hx : s.caseAt k = some x) (hs : x.state = .sending)
    (ho : x.owed = [kind]) (hc : x.condition = .restored) : s.applyOutcome k .accepted d = s.retire k := by
  simp [State.applyOutcome, hx, hs, State.acceptCase, ho, hc]

theorem State.askNext_sends (hl : (s.line n).state = .exchange) : s.Sends (s.askNext n) := by
  have hf : (s.line n).state ≠ .fault := by simp [hl]
  unfold State.askNext
  split
  · exact .refl s
  · split
    · exact State.release_sends hf
    · split
      · exact State.release_sends hf
      · unfold State.enterLinger
        simp only []
        refine State.Sends.trans ?_ (State.sends_notifyWhileFire _)
        refine ⟨fun _ => rfl, fun _ => .inl rfl, rfl, rfl, rfl, rfl, fun m => ?_⟩
        rw [State.updLine_line]
        split
        · next e => subst e; simp [hl]
        · rfl
    · next hk =>
      obtain ⟨c, hc, hs, -⟩ := (State.pendingAt_iff _ _ _).mp (s.answerFor_give hk)
      exact State.takeUp_sends hc hs hf

theorem exec_accept {c : Call} {b : BlockRun} (hl : (s.line n).state = .exchange) (hc : s.call n = some c) (hb : c.block = some b)
    (hp : b.phase = .awaiting) : exec (.receivedSymbol n 12) s = .next (s.accept n).answerLingers := by
  have h : s.blockPhase n = some .awaiting := by simp [State.blockPhase, hl, hc, hb, hp]
  show execReceivedSymbol n 12 s = _
  simp [execReceivedSymbol, hl, h]

theorem State.accept_retired {c : Call} {kind : ReportKind} (hl : (s.line n).state = .exchange) (hc : s.call n = some c)
    (hcur : c.current = some k) (hx : s.caseAt k = some x) (hs : x.state = .sending) (ho : x.owed = [kind]) (hcond : x.condition = .restored) :
    s.Retired (s.accept n).answerLingers k x := by
  generalize hw : ((s.updDest c.dest fun d => { d with toggle := !d.toggle }).updDest c.dest fun d => { d with last := .accepted }).updCall n
    (fun c => { c with current := none, block := none }) = w
  have hsame : s.SameTables w := by rw [← hw]; exact {}
  have hwx : w.caseAt k = some x := by rw [← hw]; exact hx
  have hwl : (w.line n).state = .exchange := by rw [← hw, State.updCall_state]; exact hl
  have haccept : s.accept n = if c.closePending then ((w.retire k).raise .delivered).release n else ((w.retire k).raise .delivered).askNext n := by
    rw [State.accept, hc]
    simp only []
    have hcall : (s.updDest c.dest fun d => { d with toggle := !d.toggle }).call n = some c := hc
    rw [State.handOutcome, hcall]
    simp only [hcur, hw, State.applyOutcome_last hwx hs ho hcond]
  have hline : (((w.retire k).raise .delivered).line n).state = .exchange := by
    rw [State.raise_line, (State.OnTable.retire w k).line]
    exact hwl
  refine (hsame.freed hwx).retired hx (State.Sends.trans (t := s.accept n) ?_ (State.answerLingers_sends _))
  rw [haccept]
  refine (State.sends_raise _ .delivered).trans ?_
  split
  · exact State.release_sends (ne_of_eq_of_ne hline (by decide))
  · exact State.askNext_sends hline

end Sys2Proof.Machine

open Sys2Proof Sys2Proof.Machine

/-- Settles O13: each of the three frees the slot and then offers its space (`Freed.retired`). -/
theorem casesRetired : Obligations.CasesRetired := by
  refine ⟨?_, ?_, ?_, ?_⟩
  · intro s src h k x hs hk hx hsrc hf hr hst
    have htaken : (s.takeFrame 5).caseAt k = some x := by rwa [State.takeFrame_caseAt]
    have hfreed := (s.sameTables_takeFrame 5).freed htaken
    have hex := exec_withdraw_passed hs hk hx hsrc hf hr hst
    refine ⟨?_, fun hh hno => ?_⟩
    · obtain ⟨h1, h2, h3, h4⟩ := hfreed.answered hx .ok []
      exact ⟨_, hex, rfl, h1, h2 h hk, h3, h4⟩
    · rw [hex, State.offerSpace_eq_self fun q => (hfreed.heldAt q).trans (hh q), State.answerLingers_eq_self, State.vacate_eq htaken]
      · simp [hf, State.answer]
      · refine hno.freed hfreed ?_ ?_ <;> rw [State.vacate_eq htaken]
        · exact s.takeFrame_plans 5
        · exact s.takeFrame_lines 5
  · intro s h k x hk hx
    have htaken : (s.takeFrame 5).caseAt k = some x := by rwa [State.takeFrame_caseAt]
    have hclear := State.clear_eq (s := s.takeFrame 5) (by rwa [State.takeFrame_caseOfHandle]) htaken
    refine ⟨fun hst => ?_, fun hst => ⟨?_, fun hh hno => ?_⟩⟩
    · rw [exec_clear, hclear, if_pos hst]; rfl
    · obtain ⟨h1, h2, h3, h4⟩ := (State.cleared_freed (s.sameTables_takeFrame 5) htaken).answered hx .ok []
      exact ⟨_, by rw [exec_clear, hclear, if_neg hst, State.clearCase_eq], rfl, h1, h2 h hk, h3, h4⟩
    · intro freed
      have hex : exec (.clear 31 h) s = .next (((s.takeFrame 5).cleared k x.key).answer .ok) := by
        rw [exec_clear, hclear, if_neg hst,
          State.cleared_unheard htaken (hno.takeFrame 5) (fun q => (s.takeFrame_heldAt 5 q).trans (hh q))]
      have hfreed : ((s.takeFrame 5).vacate k).answer .ok = freed := by
        rw [State.vacate_eq htaken]
        simp [freed, State.answer]
      rw [hex, State.cleared]
      refine ⟨fun hsrc => ?_, fun i hsrc => ?_⟩
      · rw [State.clearNotices_other _ _ fun i _ => by omega, hfreed]
      · rw [State.clearNotices_one hsrc]
        have hinput : ((s.takeFrame 5).vacate k).input i = s.input i := by
          rw [(State.OnTable.vacate _ k).input, State.takeFrame_input]
        have hset : ∀ c, (((s.takeFrame 5).vacate k).setInput i c).answer .ok = freed.setInput i c := fun c => by rw [← hfreed]; rfl
        have halarm : ((s.takeFrame 5).vacate k).alarmKey i = ⟨16 + i.val, (s.input i).zone, (s.input i).cls⟩ := by
          rw [State.alarmKey, hinput]
        have htrouble : ((s.takeFrame 5).vacate k).troubleKey i = ⟨16 + i.val, (s.input i).zone, .trouble⟩ := by
          rw [State.troubleKey, hinput]
        refine ⟨fun hkey ha => ?_, fun hkey hcls hb => ?_, fun ha hb => ?_⟩
        · rw [← hset, State.clearNotice, if_pos ⟨hkey.trans halarm.symm, by rw [hinput]; exact ha⟩, State.updInput, hinput]
        · have hne : x.key ≠ ((s.takeFrame 5).vacate k).alarmKey i := fun e => hcls (by
            rw [halarm, hkey] at e
            exact (congrArg Key.cls e).symm)
          rw [← hset, State.clearNotice, if_neg fun h => hne h.1, if_pos ⟨hkey.trans htrouble.symm, by rw [hinput]; exact hb⟩,
            State.updInput, hinput]
        · rw [State.clearNotice_eq_self, hfreed]
          · rw [halarm, hinput]; exact ha
          · rw [htrouble, hinput]; exact hb
  · intro s h
    refine ⟨fun hh => ?_, fun hh hk => ?_⟩
    · rw [exec_clear, State.clear, State.withHandle, if_pos hh]; rfl
    · rw [exec_clear, State.clear, State.withHandle, if_neg (Nat.not_lt.mpr hh), State.takeFrame_caseOfHandle, hk]; rfl
  · intro s n c b k x kind hl hc hb hp hcur hx hs ho hcond
    obtain ⟨h1, h2, h3, h4⟩ := State.accept_retired hl hc hcur hx hs ho hcond
    have hhandle : s.caseOfHandle (s.handleOf k) = some k := by
      rw [State.caseOfHandle_eq_some, State.handleOf]
      refine ⟨by omega, by simp [hx], by omega⟩
    exact ⟨_, exec_accept hl hc hb hp, h1, h2 _ hhandle, h3, h4⟩
end

