-- ==== Sys2Proof/Proofs/FirstBound.lean ====
section
/-! CLAIM. A dispatch pass binds its first case to the lowest selectable line, and no later turn undoes it (O37). -/

namespace Sys2Proof.Machine

variable {s t : State} {k : Fin 48} {n : Fin 4} {d : Fin 8} {x : Case}

/-- The lowest line of which a property holds. -/
theorem firstLine_eq {p : Fin 4 → Bool} (hn : p n = true) (h : ∀ m, m < n → p m = false) : firstLine p = some n := by
  rw [firstLine, List.find?_eq_some_iff_getElem]
  refine ⟨hn, n.val, by simp, by simp, fun j hj => ?_⟩
  have := h ⟨j, hj.trans n.isLt⟩ hj
  simpa using this

theorem firstLine_eq_none {p : Fin 4 → Bool} (h : ∀ m, p m = false) : firstLine p = none :=
  List.find?_eq_none.mpr fun m _ => by simp [h m]

theorem State.eligible_callLine {c : Case} (h : s.eligible k = true) (hc : s.caseAt k = some c) (hd : s.currentDest c = some d) :
    (s.dest d).callLine = none := by
  simp only [State.eligible, hc, hd, Bool.and_eq_true, Option.isNone_iff_eq_none] at h
  exact h.2.2

/-! ### The call just bound -/

/-- The permit of `t` is held, or waited for, as `p` says, and no line of `p`'s queue has left. -/
structure Permit.Kept (p q : Permit) : Prop where
  taken : p.holder ≠ none ∨ p.queue ≠ []
  holder : q.holder = p.holder
  stagger : q.stagger = p.stagger
  queue : ∀ w ∈ p.queue, w ∈ q.queue

/-- The call of line `n` to `d` for the case `y` in slot `k` stands, the line being `l` and the permit kept as `p` had it. -/
structure State.Seated (t : State) (k : Fin 48) (y : Case) (d : Fin 8) (n : Fin 4) (l : Line) (p : Permit) : Prop where
  case : t.caseAt k = some y
  callLine : (t.dest d).callLine = some n
  line : t.line n = l
  only : ∀ m c, t.call m = some c → c.dest = d → m = n
  permit : p.Kept t.permit

theorem mem_joinQueue {q : List PermitWait} {v w : PermitWait} : v ∈ joinQueue q w ↔ v = w ∨ v ∈ q := by
  rw [(joinQueue_perm q w).mem_iff, List.mem_cons]

/-- A line that asks while the permit is taken joins the queue. -/
theorem State.askPermit_taken (h : s.permit.holder ≠ none ∨ s.permit.queue ≠ []) (fire : Bool) :
    s.askPermit n fire = { s with permit := { s.permit with queue := joinQueue s.permit.queue ⟨n, fire⟩ } } := by
  rw [State.askPermit, if_neg]
  rintro ⟨h1, h2⟩
  exact h.elim (fun g => g h1) fun g => g h2

theorem Permit.Kept.join {p q : Permit} (h : p.Kept q) (w : PermitWait) : p.Kept { q with queue := joinQueue q.queue w } :=
  ⟨h.taken, h.holder, h.stagger, fun v hv => mem_joinQueue.mpr (.inr (h.queue v hv))⟩

theorem Permit.Kept.isTaken {p q : Permit} (h : p.Kept q) : q.holder ≠ none ∨ q.queue ≠ [] := by
  rcases h.taken with g | g
  · exact .inl (h.holder ▸ g)
  · obtain ⟨w, hw⟩ := List.exists_mem_of_ne_nil _ g
    exact .inr (List.ne_nil_of_mem (h.queue w hw))

/-- A line in none of these states is left alone by the turns of a pass. -/
def LineState.bound : LineState → Bool
  | .awaitPermit | .offHook => true
  | _ => false

/-- Another case bound to another line, to another destination, leaves the call seated. -/
theorem State.Seated.bind {y : Case} {l : Line} {p : Permit} (h : t.Seated k y d n l p) {j : Fin 48} (hj : j ≠ k) {x : Case}
    (hx : t.caseAt j = some x) {e : Fin 8} (he : e ≠ d) {m : Fin 4} (hm : m ≠ n) : (t.bind j e m).Seated k y d n l p := by
  obtain ⟨hother, -, ⟨c, hc, hface⟩, hline, -, -⟩ := t.bind_opens (n := m) hx e
  refine ⟨by rw [State.bind_caseAt, if_neg hj]; exact h.case, by rw [hline, if_neg he]; exact h.callLine, (hother n hm.symm).trans h.line,
    fun m' c' hc' hd' => ?_, ?_⟩
  · by_cases e' : m' = m
    · subst e'
      rw [hc] at hc'; cases hc'
      exact absurd ((congrArg Prod.fst hface).symm.trans hd') he
    · rw [State.call, hother m' e'] at hc'
      exact h.only m' c' hc' hd'
  · have hp := h.permit
    rw [← State.bound_permit t j e m] at hp
    rw [State.bind_eq, State.askPermit_taken hp.isTaken]
    exact hp.join _

theorem State.Seated.release {y : Case} {l : Line} {p : Permit} (h : t.Seated k y d n l p) {m : Fin 4} (hm : m ≠ n) :
    (t.release m).Seated k y d n l p := by
  have hline : ∀ m', m ≠ m' → (t.release m).line m' = t.line m' := fun m' e => by
    rw [State.release, State.updLine_line, if_neg e, t.endCall_line_ne e]
  refine ⟨by rw [State.release_caseAt]; exact h.case, ?_, (hline n hm).trans h.line, fun m' c hc hd => ?_, ?_⟩
  · show ((t.endCall m).dest d).callLine = some n
    unfold State.endCall
    split
    · exact h.callLine
    · next c hc =>
      have he : c.dest ≠ d := fun e => hm (h.only m c hc e)
      simpa [he] using h.callLine
  · by_cases e : m = m'
    · subst e
      have hnone : (t.release m).call m = none := by
        have h0 := t.endCall_line_same m
        rw [State.call, State.release, State.updLine_line, if_pos rfl, h0]
        split <;> rfl
      rw [hnone] at hc; cases hc
    · rw [State.call, hline m' e] at hc
      exact h.only m' c hc hd
  · have : (t.release m).permit = t.permit := by
      unfold State.release State.endCall
      split <;> rfl
    rw [this]; exact h.permit

/-- No later turn undoes the call. -/
theorem State.Seated.take {y : Case} {l : Line} {p : Permit} (hl : l.state.bound = true) (r : PassRun) (h : r.st.Seated k y d n l p)
    {j : Fin 48} (hj : j ≠ k) : (r.take j).st.Seated k y d n l p := by
  have other : ∀ m, (r.st.line m).state.bound = false → m ≠ n := fun m hm e => by
    rw [e, h.line, hl] at hm; cases hm
  rcases r.take_cases j with e | ⟨c, e', m, hc, -, hcall, hsel, e⟩ | ⟨m, hm, e⟩ <;> rw [e]
  · exact h
  · have he : e' ≠ d := fun g => by rw [g, h.callLine] at hcall; cases hcall
    refine h.bind hj hc he (other m ?_)
    simp only [State.selectable, State.forceable, State.compatibleIn, Bool.and_eq_true, decide_eq_true_eq] at hsel
    rcases hsel with g | g <;> rw [g.1.1] <;> rfl
  · exact h.release (other m (by rw [hm]; rfl))

theorem State.Seated.turns {y : Case} {l : Line} {p : Permit} (hl : l.state.bound = true) : ∀ (ks : List (Fin 48)) (r : PassRun), k ∉ ks →
    r.st.Seated k y d n l p → (ks.foldl PassRun.take r).st.Seated k y d n l p
  | [], _, _, h => h
  | j :: ks, r, hk, h => by
    rw [List.mem_cons, not_or] at hk
    exact turns hl ks (r.take j) hk.2 (h.take hl r fun e => hk.1 e.symm)

/-- The call just opened, as the permit lets it (R92, R111). -/
structure State.Bound (s t : State) (k : Fin 48) (d : Fin 8) (n : Fin 4) (l : Line) (c : Call) (p : Permit) : Prop where
  seated : ∀ y, t.caseAt k = some y → t.Seated k y d n l p
  bound : l.state.bound = true
  call : l.call = some c
  filter : l.classFilter = none
  dest : c.dest = d
  lead : c.lead = s.handleOf k
  current : c.current = some k
  carried : c.carried = 1
  fresh : c.reference = none ∧ c.closePending = false ∧ c.block = none
  free : s.permit.holder = none → s.permit.queue = [] → l.state = .offHook ∧ p.holder = some n ∧ p.stagger = some s.timing.stagger ∧
    c.check = .running s.timing.check ∧ c.settleTimer = some s.timing.settle ∧ c.dialToneWait = some (s.timing.dialToneWait * 1000)
  taken : s.permit.holder ≠ none → l.state = .awaitPermit ∧ n ∈ p.queue.map PermitWait.line

theorem State.bound_call (s : State) (k : Fin 48) (d : Fin 8) (n : Fin 4) :
    (s.bound k d n).call n = some (Call.opened d (s.handleOf k) k) := by rw [State.call, State.bound_line, if_pos rfl]

@[simp] theorem State.bound_timing (s : State) (k : Fin 48) (d : Fin 8) (n : Fin 4) : (s.bound k d n).timing = s.timing := by
  unfold State.bound State.sendOn; split <;> rfl

theorem State.bind_bound (hx : s.caseAt k = some x) (hd : ∀ m c, s.call m = some c → c.dest ≠ d) :
    ∃ l c p, s.Bound (s.bind k d n) k d n l c p := by
  obtain ⟨hother, -, ⟨c, hc, hface⟩, hline, -, -⟩ := s.bind_opens (n := n) hx d
  have hp := s.bound_permit k d n
  have seated : ∀ p, p.Kept (s.bind k d n).permit → ∀ y, (s.bind k d n).caseAt k = some y →
      (s.bind k d n).Seated k y d n ((s.bind k d n).line n) p := fun p hk y hy => by
    refine ⟨hy, by rw [hline, if_pos rfl], rfl, fun m c' hc' hd' => ?_, hk⟩
    by_contra e
    rw [State.call, hother m e] at hc'
    exact hd m c' hc' hd'
  have hcall := s.bound_call k d n
  rw [State.bind_eq] at seated ⊢
  by_cases hfree : s.permit.holder = none ∧ s.permit.queue = []
  · have hask : (s.bound k d n).askPermit n (((s.caseAt k).map Case.isFire).getD false) = (s.bound k d n).grantPermit n := by
      rw [State.askPermit, if_pos (by rw [hp]; exact hfree)]
    rw [hask] at seated ⊢
    have hl := (s.bound k d n).grantPermit_line n n
    rw [if_pos rfl, State.bound_timing] at hl
    have hlc : ((s.bound k d n).line n).call = some (Call.opened d (s.handleOf k) k) := hcall
    rw [hlc] at hl
    refine ⟨_, (Call.opened d (s.handleOf k) k).granted s.timing, ((s.bound k d n).grantPermit n).permit,
      seated _ ⟨.inl (by simp [State.grantPermit]), rfl, rfl, fun _ h => h⟩, ?_, ?_, ?_, rfl, rfl, rfl, rfl, ⟨rfl, rfl, rfl⟩,
      fun _ _ => ⟨?_, rfl, ?_, rfl, rfl, rfl⟩, fun h => absurd hfree.1 h⟩
    · rw [hl]; rfl
    · rw [hl]; rfl
    · rw [hl]; exact congrArg Line.classFilter ((s.bound_line k d n n).trans (if_pos rfl))
    · rw [hl]
    · show some (s.bound k d n).timing.stagger = _
      rw [State.bound_timing]
  · have htaken : s.permit.holder ≠ none ∨ s.permit.queue ≠ [] := by
      by_cases h1 : s.permit.holder = none
      · exact .inr fun h2 => hfree ⟨h1, h2⟩
      · exact .inl h1
    rw [State.askPermit_taken (by rw [hp]; exact htaken)] at seated ⊢
    have hl : (s.bound k d n).line n = { s.line n with
        state := .awaitPermit, classFilter := none, call := some (Call.opened d (s.handleOf k) k) } :=
      (s.bound_line k d n n).trans (if_pos rfl)
    refine ⟨_, Call.opened d (s.handleOf k) k, _, seated _ ⟨.inr ?_, rfl, rfl, fun _ h => h⟩, ?_, hcall, ?_, rfl, rfl, rfl, rfl,
      ⟨rfl, rfl, rfl⟩, fun h1 h2 => absurd ⟨h1, h2⟩ hfree, fun _ => ⟨congrArg Line.state hl, ?_⟩⟩
    · exact List.ne_nil_of_mem (mem_joinQueue.mpr (.inl rfl))
    · exact congrArg (fun l => l.state.bound) hl
    · exact congrArg Line.classFilter hl
    · exact List.mem_map.mpr ⟨_, mem_joinQueue.mpr (.inl rfl), rfl⟩

/-! ### A pass -/

theorem exec_dispatchPass (h : s.passesDue ≠ 0) : exec .dispatchPass s = .next { s with passesDue := s.passesDue - 1 }.pass := by
  show execDispatchPass s = _
  rw [execDispatchPass, if_neg h]

/-- The first turn of a pass binds its case where a line is selectable. -/
theorem PassRun.take_selects {r : PassRun} (hx : r.st.caseAt k = some x) (hd : r.st.currentDest x = some d)
    (hc : (r.st.dest d).callLine = none) (hn : firstLine (r.st.selectable d) = some n) : r.take k = { r with st := r.st.bind k d n } := by
  unfold PassRun.take
  simp only [hx, hd, hc, Option.isSome_none, Bool.false_eq_true, if_false, hn]

/-- A turn without a selectable line, for no fire alarm, passes the case over. -/
theorem PassRun.take_passes {r : PassRun} (hx : r.st.caseAt k = some x) (hd : r.st.currentDest x = some d)
    (hn : firstLine (r.st.selectable d) = none) (hf : x.isFireAlarm = false) : r.take k = r := by
  unfold PassRun.take
  simp only [hx, hd, hn, hf, Bool.false_eq_true, if_false, ite_self]

end Sys2Proof.Machine

open Sys2Proof Sys2Proof.Machine

/-- Settles O37: the first turn binds (`bind_bound`), and the call stays seated through the other turns. -/
theorem passBindsFirst : Obligations.PassBindsFirst := by
  constructor
  · intro s k rest x d n hcalls hp hr hx hd hsel hlow
    have hk : s.eligible k = true := s.mem_ranked.mp (by rw [hr]; exact List.mem_cons_self ..)
    have hcl := State.eligible_callLine hk hx hd
    have hnd : k ∉ rest := (List.nodup_cons.mp (hr ▸ s.ranked_nodup s.eligible)).1
    have hnone : ∀ m c, s.call m = some c → c.dest ≠ d := fun m c hc e => by
      have := (hcalls.callLine d m).mpr (by rw [hc, ← e]; rfl)
      rw [hcl] at this; cases this
    generalize hs : ({ s with passesDue := s.passesDue - 1 } : State) = s'
    have hx' : s'.caseAt k = some x := by rw [← hs]; exact hx
    have hbound := State.bind_bound (s := s') (n := n) (d := d) hx' (by rw [← hs]; exact hnone)
    obtain ⟨l, c, p, hb⟩ := hbound
    have hseat := hb.seated { x with state := .sending, line := some n } (by rw [State.bind_caseAt, if_pos rfl, hx']; rfl)
    have htake : (PassRun.mk s' []).take k = ⟨s'.bind k d n, []⟩ :=
      PassRun.take_selects hx' (by rw [← hs]; exact hd) (by rw [← hs]; exact hcl) (by rw [← hs]; exact firstLine_eq hsel hlow)
    have hlist : s'.ranked s'.eligible = k :: rest := by rw [← hs]; exact hr
    obtain ⟨h1, h2, h3, -, h5⟩ := State.Seated.turns hb.bound rest ⟨s'.bind k d n, []⟩ hnd hseat
    have hex : exec .dispatchPass s = .next s'.pass := by rw [exec_dispatchPass hp, hs]
    have hfree := hb.free
    have htaken := hb.taken
    have hlead := hb.lead
    rw [← hs] at hfree htaken hlead
    have hpass : s'.pass = { ((k :: rest).foldl PassRun.take ⟨s', []⟩).st with
        fireWaiting := (k :: rest).any ((k :: rest).foldl PassRun.take ⟨s', []⟩).st.fireUnbound } := by
      rw [State.pass, hlist]
    rw [List.foldl_cons, htake] at hpass
    generalize (rest.foldl PassRun.take ⟨s'.bind k d n, []⟩).st = w at h1 h2 h3 h5 hpass
    refine ⟨_, c, hex.trans (congrArg _ hpass), h1, h2, ?_, hb.dest, hlead, hb.current, hb.carried, hb.fresh.1, hb.fresh.2.1, hb.fresh.2.2,
      ?_, fun g1 g2 => ?_, fun g => ?_⟩
    · exact (congrArg Line.call h3).trans hb.call
    · exact (congrArg Line.classFilter h3).trans hb.filter
    · obtain ⟨f1, f2, f3, f4⟩ := hfree g1 g2
      exact ⟨(congrArg Line.state h3).trans f1, h5.holder.trans f2, h5.stagger.trans f3, f4⟩
    · obtain ⟨f1, f2⟩ := htaken g
      obtain ⟨w', hw, e⟩ := List.mem_map.mp f2
      exact ⟨(congrArg Line.state h3).trans f1, List.mem_map.mpr ⟨w', h5.queue w' hw, e⟩⟩
  · intro s
    refine ⟨fun h => if_pos h, fun h hno => ?_, fun k x d h hr hx hd hno hf => ?_⟩
    · have hnil : s.ranked s.eligible = [] := List.eq_nil_iff_forall_not_mem.mpr fun k hk => by
        have := s.mem_ranked.mp hk
        rw [hno k] at this; cases this
      have hpass : ∀ s' : State, s'.ranked s'.eligible = [] → s'.pass = { s' with fireWaiting := false } := fun s' e => by
        rw [State.pass, e]; rfl
      rw [exec_dispatchPass h, hpass]
      exact hnil
    · have hfa : x.isFireAlarm = false := by
        rw [Case.isFireAlarm, Bool.eq_false_iff]
        intro g
        simp only [Case.isFire, Bool.and_eq_true, decide_eq_true_eq] at g
        exact hf g
      generalize hs : ({ s with passesDue := s.passesDue - 1 } : State) = s'
      have hx' : s'.caseAt k = some x := by rw [← hs]; exact hx
      have htake : (PassRun.mk s' []).take k = ⟨s', []⟩ :=
        PassRun.take_passes hx' (by rw [← hs]; exact hd) (by rw [← hs]; exact firstLine_eq_none hno) hfa
      have hlist : s'.ranked s'.eligible = [k] := by rw [← hs]; exact hr
      have hun : [k].any s'.fireUnbound = false := by simp [State.fireUnbound, hx', hfa]
      rw [exec_dispatchPass h, hs, State.pass, hlist]
      simp only [List.foldl_cons, List.foldl_nil, htake, hun]
      rw [← hs]
end

