-- ==== Sys2Proof/Proofs/FaultExits.lean ====
section
/-! CLAIM. A line leaves FAULT: the restore of its trouble case acts on the table alone, and the line is classified (O41). -/

namespace Sys2Proof.Machine

variable {s t u : State} {n : Fin 4} {k : Fin 48}

/-! ### Writing one line -/

theorem State.setLine_setLine (s : State) (n : Fin 4) (a b : Line) : (s.setLine n a).setLine n b = s.setLine n b := by
  simp [State.setLine]

theorem State.setLine_self (s : State) (n : Fin 4) : s.setLine n (s.line n) = s := by
  simp [State.setLine, State.line]

/-! ### The table's answers do not see lines, causes or the link -/

/-- `s` with other lines, more causes and another state of the link. -/
def State.elsewhere (s : State) (lines : Vector Line 4) (b : Byte) (reply : Option Reply) (out : List Byte) : State :=
  { s with lines := lines, causes := s.causes ||| b, reply := reply, serialOut := out }

theorem or_right_swap (a b c : Byte) : a ||| b ||| c = a ||| c ||| b := by rw [BitVec.or_assoc, BitVec.or_comm b c, ← BitVec.or_assoc]

section
variable {lines : Vector Line 4} {b : Byte} {reply : Option Reply} {out : List Byte}

theorem State.SettledTo.elsewhere {y : Case} (h : s.SettledTo k y u)
    (hn : ∀ d, s.NobodyOn d → (s.elsewhere lines b reply out).NobodyOn d) :
    (s.elsewhere lines b reply out).SettledTo k y (u.elsewhere lines b reply out) := by
  cases h with
  | stays hd => exact .stays fun d e => ⟨(hd d e).1, hn d (hd d e).2⟩
  | moves d e q hd hu hq hne => exact .moves d e q hd hu hq (hn e hne)
  | strands d q hd hu hq =>
    have hst : (s.elsewhere lines b reply out).SettledTo k y _ := .strands d q hd hu hq
    rwa [show (s.elsewhere lines b reply out).causes ||| 0x01 = s.causes ||| 0x01 ||| b from or_right_swap ..] at hst

theorem State.RestoredTo.elsewhere {key : Key} (h : s.RestoredTo key u)
    (hn : ∀ d, s.NobodyOn d → (s.elsewhere lines b reply out).NobodyOn d) :
    (s.elsewhere lines b reply out).RestoredTo key (u.elsewhere lines b reply out) := by
  cases h with
  | absent hk => exact .absent hk
  | already k x hk hx hc => exact .already k x hk hx hc
  | joins k x ht hk hx hc hh => exact .joins k x ht hk hx hc hh
  | leavesHeld k x u ht hk hx hc hh hu => exact .leavesHeld k x _ ht hk hx hc hh (hu.elsewhere hn)

end

theorem State.RestoredTo.onTable {key : Key} (h : s.RestoredTo key u) : s.OnTable u := by
  rw [← s.internalRestore_of_restoredTo h]
  exact .internalRestore s key

/-- A restore keeps every cause. -/
theorem State.RestoredTo.causes {key : Key} (h : s.RestoredTo key u) : u.causes ||| s.causes = u.causes := by
  cases h with
  | absent | already | joins => exact BitVec.or_self
  | leavesHeld k x u ht hk hx hc hh hu =>
    cases hu with
    | stays | moves => exact BitVec.or_self
    | strands => rw [or_right_swap, BitVec.or_self]

/-- A line that neither lingered nor lingers written, the same lines linger. -/
theorem State.nobodyOn_setLine {l : Line} (hl : l.state ≠ .linger) (d : Fin 8) (h : s.NobodyOn d) :
    State.NobodyOn { s with lines := s.lines.set n l } d := by
  intro m e
  by_cases hm : n = m
  · subst hm
    rw [State.lingersOn, if_neg] at e
    · cases e
    · show ¬ ((s.setLine n l).line n).state = .linger
      simpa using hl
  · refine h m ?_
    have hline : (s.setLine n l).line m = s.line m := (s.setLine_line n m l).trans (if_neg hm)
    rw [State.lingersOn, State.call] at e ⊢
    rw [← hline]
    exact e

/-- The writing of a line leaves the offers of the others. -/
theorem State.NoOffer.setLine (h : s.NoOffer) {l : Line} (hl : l.state ≠ .linger) : (s.setLine n l).NoOffer := by
  intro m d e k
  have hp : ∀ d k, (s.setLine n l).pendingAt d k = s.pendingAt d k := fun _ _ => rfl
  rw [hp]
  by_contra hk
  have nobody : s.NobodyOn d := fun m' e' => hk (h m' d e' k)
  exact State.nobodyOn_setLine hl d nobody m e

/-! ### The exit -/

/-- A line that has left FAULT for IDLE. -/
def Line.recovered (l : Line) : Line :=
  { l with state := .idle, cause := .none, faultHold := none, recovery := none, band := .high, classFilter := none }

/-- A line whose latest sample, if any, is HIGH. -/
def Line.High (l : Line) : Prop := ∀ x : LineSample, l.sample = some x → 20 ≤ x.volts

theorem Line.High.band {l : Line} (h : l.High) : (l.sample.map fun x => Band.ofVolts x.volts).getD .high = .high := by
  cases hs : l.sample with
  | none => rfl
  | some x =>
    have hx := h x hs
    simp only [Option.map_some, Option.getD_some, Band.ofVolts]
    rw [if_neg (by omega), if_neg (by omega)]

theorem State.classify_high (h : (s.line n).High) :
    s.classify n = (s.setLine n { s.line n with state := .idle, band := .high, classFilter := none }).notify := by
  simp only [State.classify, h.band]
  rfl

/-- Leaving FAULT with a HIGH or absent latest sample: the trouble case restored, the line IDLE, the Arbiter told. -/
theorem State.exitFault_classify_eq {l : Line} (hl : l.High) (hr : s.RestoredTo (lineKey n) u) (reply : Option Reply) (out : List Byte)
    (b : Byte) :
    ((State.exitFault { s.setLine n l with causes := s.causes ||| b, reply := reply, serialOut := out } n .idle).classify n) =
      { u.setLine n l.recovered with causes := u.causes ||| b ||| 0x04, passesDue := u.passesDue + 1, reply := reply, serialOut := out } := by
  let l' : Line := { l with state := .idle, cause := .none, faultHold := none, recovery := none }
  have hlines : u.lines = s.lines := hr.onTable.lines
  have hexit : State.exitFault { s.setLine n l with causes := s.causes ||| b, reply := reply, serialOut := out } n .idle =
      u.elsewhere (s.lines.set n l') (b ||| 0x04) reply out := by
    have hr' := hr.elsewhere (b := b ||| 0x04) (reply := reply) (out := out) (lines := s.lines.set n l')
      fun d => State.nobodyOn_setLine (by simp [l']) d
    rw [← State.internalRestore_of_restoredTo _ hr', State.exitFault]
    congr 1
    simp [State.updLine, State.setLine, State.line, State.raise, Cause.bit, State.elsewhere, l', BitVec.or_assoc]
  have hline : (u.elsewhere (s.lines.set n l') (b ||| 0x04) reply out).line n = l' := by simp [State.line, State.elsewhere]
  rw [hexit, State.classify_high (by rw [hline]; exact hl), hline]
  simp [State.setLine, State.elsewhere, State.notify, Line.recovered, l', hlines, BitVec.or_assoc]

/-- The answers to the lingering lines change nothing after an exit without an offer. -/
theorem State.RestoredTo.left_noOffer {l : Line} (h : s.RestoredTo (lineKey n) u) (g : s.NoOffer) : (u.setLine n l.recovered).NoOffer :=
  (h.noOffer g).setLine (by simp [Line.recovered])

end Sys2Proof.Machine

open Sys2Proof Sys2Proof.Machine

/-- Settles O41: the three exits are one exit of a line written before it (`exitFault_classify_eq`). -/
theorem faultLeft : Obligations.FaultLeft := by
  intro s u n hf hno hhigh hr idle
  have left : ∀ l : Line, l.High → ((s.setLine n l).exitFault n .idle).classify n =
      { u.setLine n l.recovered with causes := u.causes ||| 0x04, passesDue := u.passesDue + 1 } := fun l hl => by
    have h := State.exitFault_classify_eq hl hr s.reply s.serialOut 0
    have hu := hr.onTable
    obtain ⟨_, _, _, _, rfl⟩ := hu
    have zero : ∀ b : Byte, b ||| 0 = b := fun b => BitVec.or_zero
    rw [zero, zero] at h
    exact h
  have quiet : ∀ l : Line, State.answerLingers { u.setLine n l.recovered with causes := u.causes ||| 0x04, passesDue := u.passesDue + 1 } =
      { u.setLine n l.recovered with causes := u.causes ||| 0x04, passesDue := u.passesDue + 1 } := fun l =>
    State.answerLingers_eq_self _ (State.SameOffers.noOffer (s := u.setLine n l.recovered) {} (hr.left_noOffer hno))
  refine ⟨fun hrec => ?_, fun hhold => ?_, fun hcause => ?_⟩
  · show execRecoveryTimerExpiry n s = _
    have h := left (s.line n) hhigh
    rw [State.setLine_self] at h
    simp only [execRecoveryTimerExpiry]
    rw [if_pos ⟨hrec, hf⟩, h, quiet]
    rfl
  · show execFaultHoldExpiry n s = _
    let l : Line := { s.line n with failures := if (s.line n).cause = .overcurrent then (s.line n).failures else 2 }
    have hwrite : (if (s.line n).cause = .overcurrent then s else s.updLine n fun l => { l with failures := 2 }) = s.setLine n l := by
      split
      · next e =>
        have hl : l = s.line n := by
          show ({ s.line n with failures := if (s.line n).cause = .overcurrent then (s.line n).failures else 2 } : Line) = s.line n
          rw [if_pos e]
        rw [hl, State.setLine_self]
      · next e =>
        have hl : l = { s.line n with failures := 2 } := by
          show ({ s.line n with failures := if (s.line n).cause = .overcurrent then (s.line n).failures else 2 } : Line) = _
          rw [if_neg e]
        rw [hl]
        rfl
    simp only [execFaultHoldExpiry]
    rw [if_pos ⟨hhold, hf⟩, hwrite, left l hhigh, quiet]
    rfl
  · show execWriteLine 31 n.val 0 0 0 s = _
    let l : Line := { s.line n with enabled := true, forced := true, mode := .auto, learned := .unknown, failures := 0 }
    have htaken : (s.takeFrame 7).causes = s.causes ||| (if s.reply.isSome then 0x80 else 0) := by
      rw [State.takeFrame_causes]; split <;> simp
    have hex : execWriteLine 31 n.val 0 0 0 s = .next
        ((((State.exitFault { s.setLine n l with causes := (s.takeFrame 7).causes, reply := none, serialOut := List.replicate 7 0 }
          n .idle).classify n).notify).answerLingers.answer .ok) := by
      have hw : ∀ t : State, (t.line n).state = .fault → (t.line n).cause ≠ .noVoltage → t.writeLine n.val 0 0 0 =
          ((((t.setLine n { t.line n with enabled := true, forced := true, mode := .auto, learned := .unknown, failures := 0 }).exitFault
            n .idle).classify n).notify).answerLingers.answer .ok := by
        intro t h1 h2
        have h1' : (t.updLine n fun l => { l with enabled := true, forced := true, mode := .auto, learned := .unknown }).line n =
          { t.line n with enabled := true, forced := true, mode := .auto, learned := .unknown } := by simp
        simp only [State.writeLine, indexOf_val, firstOfTwo, dialModeOfCode, if_true, State.enableLine, h1', h1, h2, if_false]
        simp only [State.updLine, State.setLine_setLine, State.setLine_line, if_true, h1]
      show Host.Outcome.next ((s.takeFrame 7).writeLine n.val 0 0 0) = _
      rw [hw _ (by rwa [State.takeFrame_line]) (by rwa [State.takeFrame_line]), State.takeFrame_line, State.takeFrame_eq]
      rfl
    have hclear : State.NoOffer (State.notify { u.setLine n l.recovered with
        causes := u.causes ||| (if s.reply.isSome then 0x80 else 0) ||| 0x04, passesDue := u.passesDue + 1
        reply := none, serialOut := List.replicate 7 0 }) :=
      State.SameOffers.noOffer (s := u.setLine n l.recovered) {} (hr.left_noOffer hno)
    rw [hex, htaken, State.exitFault_classify_eq (show l.High from hhigh) hr, State.answerLingers_eq_self _ hclear,
      ← BitVec.or_assoc u.causes, hr.causes]
    rfl
end

