-- ==== Sys2Proof/Proofs/CallEnds.lean ====
section
/-! CLAIM. A call ends with a charged or an uncharged outcome for the case it carries (O49). -/

namespace Sys2Proof.Machine

variable {s t u : State} {n : Fin 4} {k : Fin 48} {x y : Case} {c : Call} {kind : OutcomeKind} {l : Line} {d : Fin 8}

/-! ### The outcome handed over -/

/-- The part as line `n` hands an outcome over: the destination has recorded it, and the call has no current case (R73, R142). -/
def State.handed (s : State) (n : Fin 4) (d : Fin 8) (kind : OutcomeKind) : State :=
  (s.updDest d fun x => { x with last := kind }).updCall n fun c => { c with current := none, block := none }

theorem State.handOutcome_eq (hc : s.call n = some c) (hk : c.current = some k) :
    s.handOutcome n kind = (s.handed n c.dest kind).applyOutcome k kind c.dest := by
  simp only [State.handOutcome, hc, hk]
  rfl

theorem State.handed_usable (e : Fin 8) : (s.handed n d kind).usable e = s.usable e := by
  show (((s.updDest d fun x => { x with last := kind }).dest e).state = .enabled : Bool) = _
  rw [State.updDest_dest]
  split
  · next h => subst h; rfl
  · rfl

theorem State.handed_dest : (s.handed n d kind).dest d = { s.dest d with last := kind } :=
  (s.updDest_dest d d fun x => { x with last := kind }).trans (if_pos rfl)

theorem State.handed_call (hc : s.call n = some c) : (s.handed n d kind).call n = some { c with current := none, block := none } := by
  have h : (s.updDest d fun x => { x with last := kind }).call n = some c := hc
  rw [State.handed, State.updCall_call, if_pos rfl, h]
  rfl

theorem State.handed_line_ne {m : Fin 4} (hm : n ≠ m) : (s.handed n d kind).line m = s.line m :=
  (State.updLine_line _ n m _).trans (if_neg hm)

/-- The end of a call whose case has been written. -/
theorem State.endCall_handed (hc : s.call n = some c) :
    ((s.handed n c.dest kind).setCase k y).notify.endCall n = s.callOver k y c.dest kind n { s.line n with call := none } := by
  have hcall : (s.line n).call = some c := hc
  rw [State.endCall_eq _ n { c with current := none, block := none }]
  · simp [State.handed, State.callOver, State.updDest, State.updCall, State.updLine, State.setLine, State.setDest, State.setCase,
      State.setSlot, State.notify, State.dest, State.line, State.slot]
  · simp [State.handed, State.call, State.updCall, hcall]

theorem State.callOver_updLine (f : Line → Line) :
    (s.callOver k y d kind n l).updLine n f = s.callOver k y d kind n (f l) := by
  simp [State.callOver, State.updLine, State.setLine, State.line]

theorem State.callOver_setLine (l' : Line) : (s.setLine n l').callOver k y d kind n l = s.callOver k y d kind n l := by
  simp [State.callOver, State.setLine, State.setCase, State.setSlot, State.slot, State.setDest, State.dest]

theorem State.release_handed (hc : s.call n = some c) (hcl : c.closePending = false) :
    ((s.handed n c.dest kind).setCase k y).notify.release n =
      s.callOver k y c.dest kind n ((s.line n).released (s.timing.guardTime * 1000)) := by
  have hcall : (s.line n).call = some c := hc
  have hclosing : ((s.handed n c.dest kind).setCase k y).notify.closing n = false := by
    simp [State.handed, State.closing, State.call, State.updCall, hcall, hcl]
  rw [State.release, State.endCall_handed hc, State.callOver_updLine, hclosing]
  rfl

/-! ### The case's record -/

/-- An uncharged outcome where the case's current destination, if any, is usable: the case waits there (R28). -/
theorem State.applyOutcome_waits (hx : s.caseAt k = some x) (hs : x.state = .sending) (h1 : kind ≠ .accepted)
    (h2 : s.currentDest x = some d → kind.charged = false ∧ kind ≠ .refused)
    (hu : ∀ e, s.currentDest x = some e → s.usable e = true) :
    s.applyOutcome k kind d = (s.setCase k (x.uncharged kind s.clock)).notify := by
  have step : s.uncharged k { x with last := kind, line := none } = (s.setCase k (x.uncharged kind s.clock)).notify := by
    rw [State.uncharged, State.settle_eq _ k (x.uncharged kind s.clock) (by simp [Case.uncharged]), if_pos]
    · rfl
    · exact hu
  unfold State.applyOutcome
  rw [hx]
  simp only []
  rw [if_pos hs, if_neg h1]
  split
  · next hd =>
    obtain ⟨hc, hr⟩ := h2 hd
    rw [hc, if_neg (by simp), if_neg hr]
    exact step
  · exact step

/-- A charged failure at the case's current destination comes to `charge`. -/
theorem State.applyOutcome_charged (hx : s.caseAt k = some x) (hs : x.state = .sending) (hk : kind.charged = true)
    (hd : s.currentDest x = some d) : s.applyOutcome k kind d = s.charge k { x with last := kind, line := none } d := by
  have h1 : kind ≠ .accepted := by rintro rfl; cases hk
  have hd' : s.currentDest { x with last := kind, line := none } = some d := hd
  unfold State.applyOutcome
  rw [hx]
  simp only []
  rw [if_pos hs, if_neg h1, if_pos hd', if_pos hk]

theorem State.charge_again (hd : s.currentDest x = some d) (hu : s.usable d = true)
    (ha : x.progress.attempts + 1 < (s.plan x.key.cls).attempts) :
    s.charge k { x with last := kind, line := none } d =
      (s.setCase k (x.chargedBy kind (s.after ((s.classEntry x.key.cls).spacing (min 255 (x.failed + 1)))))).notify := by
  rw [State.charge, if_pos ha, State.settle_eq _ k (x.chargedBy kind _) (by rw [State.setCase_caseAt, if_pos rfl]; rfl), if_pos]
  · rfl
  · intro e he
    cases hd.symm.trans he
    exact hu

/-- A charged failure that uses up the attempts comes to an advance (R61). -/
theorem State.charge_exhausted (ha : (s.plan x.key.cls).attempts ≤ x.progress.attempts + 1) :
    s.charge k { x with last := kind, line := none } d =
      (s.setCase k { x with
        state := .pending, last := kind, line := none, failed := min 255 (x.failed + 1)
        progress := { x.progress with attempts := x.progress.attempts + 1 } }).advance k (some d) := by
  rw [State.charge, if_neg (Nat.not_lt.mpr ha)]

/-- An advance whose sweep rests: the case as written (R65). -/
theorem State.advance_rests (hx : s.caseAt k = some x) {charged : Option (Fin 8)} {q : Progress}
    (h : (s.plan x.key.cls).sweep s.usable (s.plan x.key.cls).dests.length x.progress.step x.progress.round = .rest d q) :
    s.advance k charged = (s.setCase k { x with
      state := .pending, progress := q
      retry := if charged = some d then s.after ((s.classEntry x.key.cls).spacing x.failed) else s.clock }).notify := by
  have hne : (s.plan x.key.cls).dests ≠ [] := fun e => by
    obtain ⟨hstep, -⟩ := Plan.sweep_rest _ _ h
    simp [e] at hstep
  simp only [State.advance, hx, if_neg hne, h]

theorem State.advance_strands (hx : s.caseAt k = some x) {charged : Option (Fin 8)} {q : Progress}
    (hne : (s.plan x.key.cls).dests ≠ [])
    (h : (s.plan x.key.cls).sweep s.usable (s.plan x.key.cls).dests.length x.progress.step x.progress.round = .strand q) :
    s.advance k charged = s.strand k x q := by
  simp only [State.advance, hx, if_neg hne, h]

theorem State.strand_eq (q : Progress) :
    s.strand k x q = { s.setCase k { x with state := .stranded, progress := q } with
      causes := s.causes ||| 0x01
      passesDue := s.passesDue + if x.key.cls = .fire ∧ s.fireWaiting = true then 1 else 0 } := by
  simp only [State.strand, Case.isFire, decide_eq_true_eq, State.notifyWhileFire_eq]
  by_cases hf : x.key.cls = .fire
  · cases hw : s.fireWaiting <;> simp [hf, hw, State.raise, Cause.bit]
  · simp [hf, State.raise, Cause.bit]

/-! ### A call that carries a case -/

/-- A line in a call written anew, with its call's destination and current case kept: the call carries the case still. -/
theorem State.Carries.setLine (h : s.Carries n c k x) (hl : l.state ≠ .linger) {c' : Call} (hc : l.call = some c') (hd : c'.dest = c.dest)
    (hk : c'.current = c.current) : (s.setLine n l).Carries n c' k x where
  call := by simpa [State.call] using hc
  current := hk.trans h.current
  case := h.case
  sending := h.sending
  onPlan := hd ▸ h.onPlan
  usable := hd ▸ h.usable
  noOffer := h.noOffer.setLine hl
  nobody m hm := by
    have : (s.setLine n l).lingersOn m = s.lingersOn m := by simp [State.lingersOn, State.call, hm.symm]
    rw [this, hd]
    exact h.nobody m hm

theorem State.Carries.nobodyOn (h : s.Carries n c k x) (hl : (s.line n).state ≠ .linger) : s.NobodyOn c.dest := by
  intro m
  by_cases hm : m = n
  · subst hm
    rw [State.lingersOn, if_neg hl]
    simp
  · exact h.nobody m hm

/-- The end of a call whose case waits where no line lingers makes no offer. -/
theorem State.NoOffer.callOver (h : s.NoOffer) (hy : y.state = .pending → ∀ e, s.currentDest y = some e → s.NobodyOn e)
    (hl : l.state ≠ .linger) : (s.callOver k y d kind n l).NoOffer :=
  State.SameOffers.noOffer (s := (s.setCase k y).setLine n l) {} ((h.setCase k y hy).setLine hl)

/-- A charged failure with attempts left (R25, R27, R121). -/
theorem State.Carries.failCall_charged (h : s.Carries n c k x) (hk : kind.charged = true) (hcl : c.closePending = false)
    (ha : x.progress.attempts + 1 < (s.plan x.key.cls).attempts) :
    s.failCall n kind = s.callOver k (x.chargedBy kind (s.after ((s.classEntry x.key.cls).spacing (min 255 (x.failed + 1))))) c.dest kind n
      ((s.line n).released (s.timing.guardTime * 1000)) := by
  have hd : (s.handed n c.dest kind).currentDest x = some c.dest := h.onPlan
  have hx : (s.handed n c.dest kind).caseAt k = some x := h.case
  rw [State.failCall, State.handOutcome_eq h.call h.current, State.applyOutcome_charged hx h.sending hk hd,
    State.charge_again hd ((State.handed_usable c.dest).trans h.usable) ha, State.release_handed h.call hcl]
  rfl

theorem State.Carries.charged_noOffer (h : s.Carries n c k x) (hl : (s.line n).state ≠ .linger) (retry : Time) {ms : Nat} :
    (s.callOver k (x.chargedBy kind retry) c.dest kind n ((s.line n).released ms)).NoOffer := by
  refine h.noOffer.callOver (fun _ e he => ?_) (by simp [Line.released])
  cases h.onPlan.symm.trans he
  exact h.nobodyOn hl

/-- Every event that ends the call with a charged failure comes to one state, whatever the event wrote to the line before. -/
theorem State.Carries.charged_over (h : s.Carries n c k x) (hk : kind.charged = true) (hl : (s.line n).state ≠ .linger)
    (hcl : c.closePending = false) (ha : x.progress.attempts + 1 < (s.plan x.key.cls).attempts) :
    (s.failCall n kind).answerLingers =
      s.callOver k (x.chargedBy kind (s.after ((s.classEntry x.key.cls).spacing (min 255 (x.failed + 1))))) c.dest kind n
        ((s.line n).released (s.timing.guardTime * 1000)) := by
  rw [h.failCall_charged hk hcl ha, State.answerLingers_eq_self]
  exact h.charged_noOffer hl _

/-- A repeat decision above the limit (R150). -/
theorem State.repeatBlock_fails {b : BlockRun} (hc : s.call n = some c) (hb : c.block = some b) (hr : s.exchange.repeatLimit < b.repeats + 1) :
    s.repeatBlock n = (s.setLine n { s.line n with call := some { c with
      block := some { b with repeats := b.repeats + 1, response := none } } }).failCall n .noResponse := by
  have hcall : (s.line n).call = some c := hc
  simp only [State.repeatBlock, hc, Option.bind_some, hb, if_neg (Nat.not_le.mpr hr), State.updBlock, State.updCall, State.updLine,
    hcall, Option.map_some]

theorem exec_repeat (hl : (s.line n).state = .exchange) (hp : s.blockPhase n = some .awaiting) :
    exec (.receivedSymbol n 13) s = .next (s.repeatBlock n).answerLingers := by
  show execReceivedSymbol n 13 s = _
  simp [execReceivedSymbol, hl, hp]

theorem State.Carries.repeat_over {b : BlockRun} (h : s.Carries n c k x) (hl : (s.line n).state = .exchange) (hcl : c.closePending = false)
    (ha : x.progress.attempts + 1 < (s.plan x.key.cls).attempts) (hb : c.block = some b) (hr : s.exchange.repeatLimit < b.repeats + 1) :
    (s.repeatBlock n).answerLingers =
      s.callOver k (x.chargedBy .noResponse (s.after ((s.classEntry x.key.cls).spacing (min 255 (x.failed + 1))))) c.dest .noResponse n
        ((s.line n).released (s.timing.guardTime * 1000)) := by
  let l : Line := { s.line n with call := some { c with block := some { b with repeats := b.repeats + 1, response := none } } }
  have hlinger : l.state ≠ .linger := by simp [l, hl]
  have h' : (s.setLine n l).Carries n { c with block := some { b with repeats := b.repeats + 1, response := none } } k x :=
    h.setLine hlinger rfl rfl rfl
  rw [State.repeatBlock_fails h.call hb hr, h'.charged_over rfl (by simpa using hlinger) hcl ha, State.callOver_setLine]
  congr 1
  rw [State.setLine_line, if_pos rfl]
  rfl

/-- A part without a lingering line makes no offer, and a line released lingers no more. -/
theorem State.release_noOffer (h : ∀ m, s.lingersOn m = none) : (s.release n).NoOffer := by
  intro m d e j
  have hline : (s.release n).lingersOn m = none := by
    by_cases hm : n = m
    · subst hm
      rw [State.lingersOn, if_neg]
      rw [State.release, State.updLine_line, if_pos rfl]
      split <;> simp
    · have hl : (s.release n).line m = s.line m := by rw [State.release, State.updLine_line, if_neg hm, s.endCall_line_ne hm]
      rw [State.lingersOn, State.call, hl]
      exact h m
  rw [hline] at e
  cases e

@[simp] theorem State.release_causes : (s.release n).causes = s.causes := by
  unfold State.release State.endCall
  split <;> rfl

theorem State.handed_lingersOn (m : Fin 4) : (s.handed n d kind).lingersOn m = s.lingersOn m := by
  have hcall : ((s.handed n d kind).call m).map Call.dest = (s.call m).map Call.dest := by
    rw [State.handed, State.updCall_call]
    split
    · next e => subst e; cases h : s.call n <;> simp [h]
    · rfl
  have hst : ((s.handed n d kind).line m).state = (s.line m).state := State.updCall_state ..
  rw [State.lingersOn, State.lingersOn, hcall, hst]

end Sys2Proof.Machine

open Sys2Proof Sys2Proof.Machine

/-- Settles O49: the outcome's write of the case (`charge_again`, `charge_exhausted`, `applyOutcome_waits`) and the end of the call. -/
theorem chargedFailures : Obligations.ChargedFailures := by
  refine ⟨?_, ?_, ?_⟩
  · intro s n c k x h hcl ha e failed retry ended
    refine ⟨fun hl => ?_, fun hl hh => ?_, fun b hl hb hp hr => ?_⟩
    · show execBusyTone n s = _
      rw [execBusyTone, if_pos hl, h.charged_over rfl (by simp [hl]) hcl ha]
      rfl
    · show execHandshakeWaitExpiry n s = _
      simp only [execHandshakeWaitExpiry, h.call]
      rw [if_pos ⟨hh, hl⟩, h.charged_over rfl (by simp [hl]) hcl ha]
      rfl
    · have hphase : s.blockPhase n = some .awaiting := by simp [State.blockPhase, hl, h.call, hb, hp]
      refine ⟨?_, fun hres => ?_⟩
      · rw [exec_repeat hl hphase, h.repeat_over hl hcl ha hb hr]
        rfl
      · show execResponseWaitExpiry n s = _
        rw [execResponseWaitExpiry, if_pos ⟨hphase, by simpa [h.call, hb] using hres⟩, h.repeat_over hl hcl ha hb hr]
        rfl
  · intro s n c k x h hl hlinger ha p e failed spaced
    let w := s.handed n c.dest .busy
    let y : Case := { x with
      state := .pending, last := .busy, line := none, failed := failed
      progress := { x.progress with attempts := x.progress.attempts + 1 } }
    have hne : p.dests ≠ [] := fun e => by
      have := h.onPlan
      rw [State.currentDest, show (s.plan x.key.cls).dests = [] from e] at this
      cases this
    have hfail : s.failCall n .busy = ((w.setCase k y).advance k (some c.dest)).release n := by
      have hd : w.currentDest x = some c.dest := h.onPlan
      have hx : w.caseAt k = some x := h.case
      rw [State.failCall, State.handOutcome_eq h.call h.current, State.applyOutcome_charged hx h.sending rfl hd,
        State.charge_exhausted (show (w.plan x.key.cls).attempts ≤ _ from ha)]
    have husable : (w.setCase k y).usable = s.usable := funext fun d => State.handed_usable (n := n) d
    have hy : (w.setCase k y).caseAt k = some y := by simp
    have hkept : ∀ m, ((w.setCase k y).advance k (some c.dest)).lingersOn m = none := fun m => by
      have ht := State.OnTable.advance (w.setCase k y) k (some c.dest)
      rw [State.lingersOn, ht.line, ht.call]
      exact (State.handed_lingersOn m).trans (hlinger m)
    have hex : exec (.busyTone n) s = .next (((w.setCase k y).advance k (some c.dest)).release n) := by
      show execBusyTone n s = _
      rw [execBusyTone, if_pos hl, hfail, State.answerLingers_eq_self]
      exact State.release_noOffer hkept
    refine ⟨_, hex, ?_⟩
    split
    · next d q hq =>
      rw [State.release_caseAt, State.advance_rests hy (by rw [husable]; exact hq)]
      by_cases hd : d = c.dest
      · subst hd
        simp [y]
        rfl
      · simp [y, hd, Ne.symm hd]
        rfl
    · next q hq =>
      rw [State.release_caseAt, State.release_causes, State.advance_strands hy hne (by rw [husable]; exact hq), State.strand_eq]
      refine ⟨(State.setCase_caseAt _ k k _).trans (if_pos rfl), ?_⟩
      show (w.causes ||| 0x01).getLsbD 0 = true
      rw [BitVec.getLsbD_or]
      simp
  · intro s n c k x hl hc hk hx hs hcl hno hd hu
    have waits : (s.handed n c.dest .busy).applyOutcome k .busy c.dest = _ :=
      State.applyOutcome_waits hx hs (by simp) (fun e => absurd e hd) fun e he => (State.handed_usable e).trans (hu e he).1
    have hfail : s.failCall n .busy =
        s.callOver k (x.uncharged .busy s.clock) c.dest .busy n ((s.line n).released (s.timing.guardTime * 1000)) := by
      rw [State.failCall, State.handOutcome_eq hc hk, waits, State.release_handed hc hcl]
      rfl
    show execBusyTone n s = _
    rw [execBusyTone, if_pos hl, hfail, State.answerLingers_eq_self]
    exact hno.callOver (fun _ e he => (hu e he).2) (by simp [Line.released])
end

