-- ==== Sys2Proof/Proofs/FaultEntries.lean ====
section
/-! CLAIM. A line enters FAULT and posts its trouble case, and an overcurrent ends a call (O42); with what the answers to the lingering lines spare, and that causes are only ever added. -/

namespace Sys2Proof.Machine

variable {s t u : State} {n : Fin 4} {k : Fin 48} {x y : Case} {c : Call} {kind : OutcomeKind} {l : Line} {d : Fin 8}

/-! ### What the answers to the lingering lines spare -/

/-- From `s` to `t` lingering lines are answered: no cause is raised, no line begins to linger, and a line that does not linger, a destination
on which none lingers, and a case that does not wait at a destination on which one lingers, stand. -/
structure State.Spares (s t : State) : Prop where
  causes : t.causes = s.causes
  plans : t.plans = s.plans
  lingers : ∀ n d, t.lingersOn n = some d → s.lingersOn n = some d
  line : ∀ n, s.lingersOn n = none → t.line n = s.line n
  dest : ∀ d, s.NobodyOn d → t.dest d = s.dest d
  case : ∀ k x, s.caseAt k = some x → (x.state = .pending → ∀ d, s.currentDest x = some d → s.NobodyOn d) → t.caseAt k = some x

theorem State.Spares.refl (s : State) : s.Spares s := ⟨rfl, rfl, fun _ _ => id, fun _ _ => rfl, fun _ _ => rfl, fun _ _ h _ => h⟩

theorem State.Spares.nobodyOn (h : s.Spares t) (hd : s.NobodyOn d) : t.NobodyOn d := fun n e => hd n (h.lingers n d e)

theorem State.Spares.lingersOn_none (h : s.Spares t) (hn : s.lingersOn n = none) : t.lingersOn n = none := by
  rw [Option.eq_none_iff_forall_ne_some]
  intro d e
  rw [h.lingers n d e] at hn
  cases hn

theorem State.Spares.currentDest (h : s.Spares t) (x : Case) : t.currentDest x = s.currentDest x := by
  simp only [State.currentDest, State.plan, h.plans]

theorem State.Spares.trans (h : s.Spares t) (g : t.Spares u) : s.Spares u where
  causes := g.causes.trans h.causes
  plans := g.plans.trans h.plans
  lingers n d e := h.lingers n d (g.lingers n d e)
  line n e := (g.line n (h.lingersOn_none e)).trans (h.line n e)
  dest d e := (g.dest d (h.nobodyOn e)).trans (h.dest d e)
  case k x hx hw := g.case k x (h.case k x hx hw) fun hp d e => h.nobodyOn (hw hp d (h.currentDest x ▸ e))

/-- What the answer to one line can do, with the line that makes it: nothing, or the line lingers, and is released or takes up a case that
waits at its destination. -/
theorem State.answerLinger_moves (s : State) (n : Fin 4) :
    s.answerLinger n = s ∨ ∃ c, s.call n = some c ∧ s.lingersOn n = some c.dest ∧
      (s.answerLinger n = s.release n ∨ ∃ k x, s.caseAt k = some x ∧ x.state = .pending ∧ s.currentDest x = some c.dest ∧
        s.answerLinger n = s.takeUp n k) := by
  unfold State.answerLinger
  split
  · exact .inl rfl
  · next c hc =>
    split
    · next h =>
      have hl : s.lingersOn n = some c.dest := by rw [State.lingersOn, if_pos h.1, hc]; rfl
      split
      · exact .inr ⟨c, hc, hl, .inl rfl⟩
      · exact .inl rfl
      · next hk =>
        obtain ⟨x, hx, hs, hd⟩ := (State.pendingAt_iff _ _ _).mp (s.answerFor_give hk)
        exact .inr ⟨c, hc, hl, .inr ⟨_, x, hx, hs, hd, rfl⟩⟩
    · exact .inl rfl

theorem State.lingersOn_of_line (h : t.line n = s.line n) : t.lingersOn n = s.lingersOn n := by
  rw [State.lingersOn, State.lingersOn, State.call, State.call, h]

/-- One line written that does not linger: no line lingers where none did. -/
theorem State.NobodyOn.of_lines (h : s.NobodyOn d) (hn : (t.line n).state ≠ .linger) (hm : ∀ m, n ≠ m → t.line m = s.line m) :
    t.NobodyOn d := by
  intro m
  by_cases e : n = m
  · subst e
    rw [State.lingersOn, if_neg hn]
    simp
  · rw [State.lingersOn_of_line (hm m e)]
    exact h m

/-- One line that lingers is written and lingers no more. -/
theorem State.Spares.of_line (hl : s.lingersOn n = some d) (causes : t.causes = s.causes) (plans : t.plans = s.plans)
    (gone : (t.line n).state ≠ .linger) (lines : ∀ m, n ≠ m → t.line m = s.line m) (dests : ∀ e, d ≠ e → t.dest e = s.dest e)
    (case : ∀ k x, s.caseAt k = some x → (x.state = .pending → s.currentDest x ≠ some d) → t.caseAt k = some x) : s.Spares t where
  causes := causes
  plans := plans
  lingers m e h := by
    by_cases hm : n = m
    · subst hm
      rw [State.lingersOn, if_neg gone] at h
      cases h
    · rwa [State.lingersOn_of_line (lines m hm)] at h
  line m h := lines m fun e => by rw [← e, hl] at h; cases h
  dest e h := dests e fun g => h n (g ▸ hl)
  case k x hx h := case k x hx fun hp e => h hp d e n hl

theorem State.Spares.release (hc : s.call n = some c) (hl : s.lingersOn n = some c.dest) : s.Spares (s.release n) := by
  refine .of_line hl State.release_causes ?_ ?_ (fun m hm => ?_) (fun e he => ?_) (fun k x hx _ => ?_)
  · rw [State.release, State.endCall_eq _ n c hc]; rfl
  · rw [State.release, State.updLine_line, if_pos rfl]; split <;> simp
  · rw [State.release, State.updLine_line, if_neg hm, s.endCall_line_ne hm]
  · rw [State.release, State.endCall_eq _ n c hc]
    exact (s.setDest_dest c.dest e _).trans (if_neg he)
  · rwa [State.release_caseAt]

theorem State.Spares.takeUp (hc : s.call n = some c) (hl : s.lingersOn n = some c.dest) (hx : s.caseAt k = some x)
    (hs : x.state = .pending) (hd : s.currentDest x = some c.dest) : s.Spares (s.takeUp n k) := by
  rw [State.takeUp_eq hc hx]
  refine .of_line hl rfl rfl ?_ (fun m hm => ?_) (fun _ _ => rfl) (fun j z hz h => ?_)
  · simp
  · simp [hm]
  · refine (State.setCase_caseAt _ k j _).trans ((if_neg fun e => ?_).trans hz)
    subst e
    cases hx.symm.trans hz
    exact h hs hd

theorem State.answerLinger_spares (s : State) (n : Fin 4) : s.Spares (s.answerLinger n) := by
  rcases s.answerLinger_moves n with e | ⟨c, hc, hl, e | ⟨k, x, hx, hs, hd, e⟩⟩
  · rw [e]; exact .refl s
  · rw [e]; exact .release hc hl
  · rw [e]; exact .takeUp hc hl hx hs hd

theorem State.answerLingers_spares (s : State) : s.Spares s.answerLingers :=
  s.foldl_answerLinger .refl .trans State.answerLinger_spares

/-! ### Causes are added -/

/-- Every cause set in `s` is set in `t`. -/
def State.Raises (s t : State) : Prop := ∃ b, t.causes = s.causes ||| b

theorem State.Raises.of_eq (h : t.causes = s.causes) : s.Raises t := ⟨0, h.trans BitVec.or_zero.symm⟩

theorem State.Raises.trans (h : s.Raises t) (g : t.Raises u) : s.Raises u := by
  obtain ⟨a, ha⟩ := h
  obtain ⟨b, hb⟩ := g
  exact ⟨a ||| b, by rw [hb, ha, BitVec.or_assoc]⟩

theorem State.Raises.bit (h : s.Raises t) {i : Nat} (hi : s.causes.getLsbD i = true) : t.causes.getLsbD i = true := by
  obtain ⟨b, hb⟩ := h
  rw [hb, BitVec.getLsbD_or, hi, Bool.true_or]

theorem State.Raises.raise (s : State) (cause : Cause) : s.Raises (s.raise cause) := ⟨cause.bit, rfl⟩

theorem State.Raises.notifyWhileFire (s : State) : s.Raises s.notifyWhileFire := .of_eq (by rw [State.notifyWhileFire_eq])

theorem State.Raises.advance (s : State) (k : Fin 48) (charged : Option (Fin 8)) : s.Raises (s.advance k charged) := by
  rcases s.advance_cases k charged with e | ⟨c, -, ⟨d, q, r, -, -, -, -, e⟩ | ⟨q, -, e⟩⟩
  · rw [e]; exact .of_eq rfl
  · rw [e]; exact .of_eq rfl
  · rw [e, State.strand_eq]; exact ⟨0x01, rfl⟩

theorem State.Raises.settle (s : State) (k : Fin 48) : s.Raises (s.settle k) := by
  unfold State.settle
  split
  · exact .of_eq rfl
  · split
    · exact .of_eq rfl
    · split
      · exact .of_eq rfl
      · exact .advance s k none

theorem State.Raises.createAt (s : State) (k : Fin 48) (key : Key) (detail : Option Nat) (mark : Mark) :
    s.Raises (s.createAt k key detail mark) := by
  refine State.Raises.trans ?_ (.settle _ k)
  unfold State.noteAdmission
  split
  · exact ⟨_, rfl⟩
  · exact .of_eq rfl

theorem State.Raises.internalPost (s : State) (p : Poster) (key : Key) : s.Raises (s.internalPost p key).2 := by
  unfold State.internalPost
  split
  · refine .of_eq ?_
    unfold State.postCase
    split <;> rfl
  · split
    · exact .of_eq rfl
    · split
      · next h =>
        obtain ⟨-, -, -, rfl⟩ := s.acceptPost_some h
        exact .createAt ..
      · unfold State.recordHeld
        split <;> exact ⟨_, rfl⟩

/-! ### The post of a trouble case -/

/-- A post leaves every case that does not hold its key. -/
theorem State.internalPost_other {p : Poster} {key : Key} (hx : s.caseAt k = some x) (hk : x.key ≠ key) :
    (s.internalPost p key).2.caseAt k = some x := by
  unfold State.internalPost
  split
  · next j hj =>
    obtain ⟨z, hz, hzk⟩ := s.caseOfKey_some hj
    have hjk : j ≠ k := by rintro rfl; cases hx.symm.trans hz; exact hk hzk
    simp only [State.postCase, hz, State.setCase_caseAt, if_neg hjk, hx]
  · split
    · exact hx
    · split
      · next j t h =>
        obtain ⟨-, -, hfree, rfl⟩ := s.acceptPost_some h
        have hjk : j ≠ k := by rintro rfl; rw [s.lowestFree_some hfree] at hx; cases hx
        obtain ⟨c, -, p', b, e⟩ := s.createAt_told j key none .verified
        simp only [e]
        exact (s.setCase_caseAt j k c).trans ((if_neg hjk).trans hx)
      · unfold State.recordHeld
        split <;> exact hx

theorem State.internalPost_full {p : Poster} {key : Key} (hk : s.caseOfKey key = none) (hp : s.heldAt p.position = none) (hr : s.NoRoom key.cls) :
    (s.internalPost p key).2 = (s.setHeld p.position (some key)).raise .postHeld := by
  simp only [State.internalPost, hk, hp, reduceCtorEq, if_false, State.acceptPost_full (State.hasRoom_false hr), State.recordHeld]

theorem State.internalPost_creates {p : Poster} {key : Key} (hk : s.caseOfKey key = none) (hp : s.heldAt p.position = none)
    (hlen : s.cases.length < 48) (hres : s.otherCases < 48 - s.reserve) (hf : s.lowestFree = some k) :
    (s.internalPost p key).2 = s.createAt k key none .verified := by
  have hr : s.hasRoom key.cls = true := State.hasRoom_of hlen fun _ => hres
  simp only [State.internalPost, hk, hp, reduceCtorEq, if_false, State.acceptPost_of_room hr hk hf]

/-! ### FAULT entered -/

/-- A line in FAULT after the entry, with LINE FAULT raised, whatever became of its post (R117). -/
theorem State.enterFault_answered (s : State) (n : Fin 4) (cause : FaultCause) :
    (s.enterFault n cause).answerLingers.line n = (s.line n).inFault cause (s.timing.faultHold * 1000) ∧
      (s.enterFault n cause).answerLingers.causes.getLsbD 2 = true := by
  have spares := (s.enterFault n cause).answerLingers_spares
  have table := State.OnTable.internalPost (s.inFault n cause) (.line n) (lineKey n)
  have hline : (s.enterFault n cause).line n = (s.line n).inFault cause (s.timing.faultHold * 1000) := by
    rw [State.enterFault_eq, table.line]
    exact (s.setLine_line n n _).trans (if_pos rfl)
  have hbit : (s.inFault n cause).causes.getLsbD 2 = true := by
    show (s.causes ||| 0x04).getLsbD 2 = true
    rw [BitVec.getLsbD_or]
    simp
  constructor
  · rw [spares.line n, hline]
    rw [State.lingersOn, hline, if_neg]
    simp [Line.inFault]
  · rw [spares.causes, State.enterFault_eq]
    exact (State.Raises.internalPost _ _ _).bit hbit

theorem State.inFault_noOffer (h : s.NoOffer) (cause : FaultCause) : (s.inFault n cause).NoOffer :=
  State.SameOffers.noOffer (s := s.setLine n ((s.line n).inFault cause (s.timing.faultHold * 1000))) {}
    (h.setLine (by simp [Line.inFault]))

/-- The trouble case of a line entering FAULT, where there is room (R20, R117). -/
theorem State.enterFault_creates {cause : FaultCause} (hk : s.caseOfKey (lineKey n) = none) (hp : s.heldAt (Poster.line n).position = none)
    (hlen : s.cases.length < 48) (hres : s.otherCases < 48 - s.reserve) (hf : s.lowestFree = some k) :
    ∃ x, (s.enterFault n cause).answerLingers.caseAt k = some x ∧ x.key = lineKey n ∧ x.condition = .active ∧ x.owed = [.alarm] ∧
      x.mark = .verified ∧ x.detail = none ∧ x.posted = s.clock := by
  have hpost : s.enterFault n cause = (s.inFault n cause).createAt k (lineKey n) none .verified := by
    rw [State.enterFault_eq]
    exact State.internalPost_creates hk hp hlen hres hf
  obtain ⟨z, hz, told⟩ := (s.inFault n cause).createAt_told k (lineKey n) none .verified
  obtain ⟨st, l, hx, -⟩ := (s.enterFault n cause).answerLingers_sends.caseAt (hpost ▸ told.caseAt_setCase)
  have hnew := hz.only
  generalize z.state = st', z.progress = pr, z.retry = re at hnew
  subst hnew
  exact ⟨_, hx, rfl, rfl, rfl, rfl, rfl, rfl⟩

/-- The post of a line entering FAULT held, where there is no room (R22, R117). -/
theorem State.enterFault_holds {cause : FaultCause} (hk : s.caseOfKey (lineKey n) = none) (hp : s.heldAt (Poster.line n).position = none)
    (hr : s.NoRoom .trouble) (hno : s.NoOffer) :
    (s.enterFault n cause).answerLingers = ((s.inFault n cause).setHeld (Poster.line n).position (some (lineKey n))).raise .postHeld := by
  have hpost : s.enterFault n cause = ((s.inFault n cause).setHeld (Poster.line n).position (some (lineKey n))).raise .postHeld := by
    rw [State.enterFault_eq]
    exact State.internalPost_full hk hp hr
  rw [hpost, State.answerLingers_eq_self]
  exact State.inFault_noOffer hno cause

/-! ### Overcurrent -/

/-- An overcurrent of a call that carries a case: the case waits again at its destination and the call is over (R28, R114). -/
theorem State.Carries.abandons (h : s.Carries n c k x) :
    (s.handOutcome n .abandoned).endCall n =
      s.callOver k (x.uncharged .abandoned s.clock) c.dest .abandoned n { s.line n with call := none } := by
  have waits : (s.handed n c.dest .abandoned).applyOutcome k .abandoned c.dest = _ :=
    State.applyOutcome_waits h.case h.sending (by simp) (fun _ => ⟨rfl, by simp⟩) fun e he => by
      cases h.onPlan.symm.trans he
      exact (State.handed_usable c.dest).trans h.usable
  rw [State.handOutcome_eq h.call h.current, waits, State.endCall_handed h.call]
  rfl

theorem State.closing_eq (hc : s.call n = some c) : s.closing n = c.closePending := by rw [State.closing, hc]; rfl

theorem State.Carries.overcurrent_closing (h : s.Carries n c k x) (hl : (s.line n).state ≠ .linger) (hcl : c.closePending = true) :
    (s.overcurrent n).answerLingers =
      s.callOver k (x.uncharged .abandoned s.clock) c.dest .abandoned n { s.line n with state := .off, call := none } := by
  have hover : s.overcurrent n =
      s.callOver k (x.uncharged .abandoned s.clock) c.dest .abandoned n { s.line n with state := .off, call := none } := by
    simp only [State.overcurrent, State.closing_eq h.call, hcl, if_true, h.abandons, State.callOver_updLine]
  rw [hover, State.answerLingers_eq_self]
  refine h.noOffer.callOver (fun _ e he => ?_) (by simp)
  cases h.onPlan.symm.trans he
  exact h.nobodyOn hl

theorem State.Carries.overcurrent_fault (h : s.Carries n c k x) (hl : (s.line n).state ≠ .linger) (hcl : c.closePending = false)
    (hkey : x.key ≠ lineKey n) :
    (s.overcurrent n).answerLingers.line n =
        { s.line n with state := .fault, cause := .overcurrent, classFilter := none, recovery := none, guardTimer := none
                        faultHold := some (s.timing.faultHold * 1000), call := none } ∧
      (s.overcurrent n).answerLingers.causes.getLsbD 2 = true ∧
      (s.overcurrent n).answerLingers.caseAt k = some (x.uncharged .abandoned s.clock) ∧
      (s.overcurrent n).answerLingers.dest c.dest = { s.dest c.dest with last := .abandoned, callLine := none } := by
  let v := s.callOver k (x.uncharged .abandoned s.clock) c.dest .abandoned n { s.line n with call := none }
  have hover : s.overcurrent n = v.enterFault n .overcurrent := by
    simp only [State.overcurrent, State.closing_eq h.call, hcl, h.abandons, v, Bool.false_eq_true, if_false]
  have hvline : v.line n = { s.line n with call := none } := (State.setLine_line _ n n _).trans (if_pos rfl)
  have hvcase : (v.inFault n .overcurrent).caseAt k = some (x.uncharged .abandoned s.clock) :=
    (s.setCase_caseAt k k _).trans (if_pos rfl)
  have table := State.OnTable.internalPost (v.inFault n .overcurrent) (.line n) (lineKey n)
  have nobody : (v.enterFault n .overcurrent).NobodyOn c.dest := by
    have hlines : ∀ m, (v.enterFault n .overcurrent).line m =
        if n = m then (v.line n).inFault .overcurrent (s.timing.faultHold * 1000) else v.line m := fun m => by
      rw [State.enterFault_eq, table.line]
      exact v.setLine_line n m _
    refine (h.nobodyOn hl).of_lines (n := n) ?_ fun m hm => ?_
    · rw [hlines, if_pos rfl]; simp [Line.inFault]
    · rw [hlines, if_neg hm]
      exact (State.setLine_line _ n m _).trans (if_neg hm)
  have spares := (v.enterFault n .overcurrent).answerLingers_spares
  obtain ⟨hline, hbit⟩ := v.enterFault_answered n .overcurrent
  rw [hover]
  refine ⟨?_, hbit, ?_, ?_⟩
  · rw [hline, hvline]; rfl
  · refine spares.case k _ ?_ fun _ e hcur' => ?_
    · rw [State.enterFault_eq]
      exact State.internalPost_other hvcase hkey
    · have hcur : (v.enterFault n .overcurrent).currentDest (x.uncharged .abandoned s.clock) = s.currentDest x := by
        rw [State.enterFault_eq, State.currentDest, table.plan]
        rfl
      cases h.onPlan.symm.trans (hcur.symm.trans hcur')
      exact nobody
  · rw [spares.dest _ nobody, State.enterFault_eq, table.dest]
    exact (State.setDest_dest _ _ _ _).trans (if_pos rfl)

/-- A lingering call that ends carries no case: nothing is handed over (R114). -/
theorem State.overcurrent_lingers (hc : s.call n = some c) (hk : c.current = none) :
    s.overcurrent n =
      if c.closePending then s.callDropped c.dest n { s.line n with state := .off, call := none }
      else (s.callDropped c.dest n { s.line n with call := none }).enterFault n .overcurrent := by
  have hand : s.handOutcome n .abandoned = s := by simp only [State.handOutcome, hc, hk]
  have hend : s.endCall n = s.callDropped c.dest n { s.line n with call := none } := State.endCall_eq _ n c hc
  have hupd : ∀ f, (s.callDropped c.dest n { s.line n with call := none }).updLine n f =
      s.callDropped c.dest n (f { s.line n with call := none }) := fun f => by
    simp [State.callDropped, State.updLine, State.setLine, State.line]
  simp only [State.overcurrent, State.closing_eq hc, hand, hend, hupd]

/-- A sample above 120 mA once the off-hook check is over is an overcurrent, on the line with the sample recorded (R105, R112, R114). -/
theorem State.takeSample_overcurrent {volts milliamps : Nat} (hc : s.call n = some c) (hma : 120 < milliamps)
    (hst : ((s.line n).state = .offHook ∧ (c.check = .judged ∨ c.check = .awaitingSample)) ∨ (s.line n).state = .dialling ∨
      (s.line n).state = .awaitHandshake ∨ (s.line n).state = .exchange ∨ (s.line n).state = .linger) :
    ∃ sampled, s.takeSample n volts milliamps =
      (s.setLine n { s.line n with
        sample := some ⟨volts, min 150 milliamps⟩, call := some { c with sampled := sampled } }).overcurrent n := by
  have hcall : (s.line n).call = some c := hc
  have hi : Config.overcurrentMa < min Config.currentMaxMa milliamps := lt_min (by decide) hma
  have hsampled : (s.updLine n fun l => { l with sample := some ⟨volts, min Config.currentMaxMa milliamps⟩ }) =
      s.setLine n { s.line n with
        sample := some ⟨volts, min 150 milliamps⟩, call := some { c with sampled := c.sampled } } := by
    rw [State.updLine, hcall]; rfl
  rcases hst with ⟨hl, hcheck⟩ | hl | hl | hl | hl
  · refine ⟨true, ?_⟩
    have htwice : ((s.updLine n fun l => { l with sample := some ⟨volts, min Config.currentMaxMa milliamps⟩ }).updCall n
        fun c => { c with sampled := true }) = s.setLine n { s.line n with
          sample := some ⟨volts, min 150 milliamps⟩, call := some { c with sampled := true } } := by
      simp [State.updCall, State.updLine, State.setLine_setLine, hcall, Config.currentMaxMa]
    simp only [State.takeSample, hl, hc, Option.map_some, htwice]
    rcases hcheck with e | e <;> rw [e]
    · simp only [State.judgeCurrent, if_pos hi]
    · simp only [State.judgeLoop]
      rw [if_neg (Nat.not_lt.mpr (le_of_lt (lt_trans (by decide) hi))), if_pos hi]
  all_goals
    refine ⟨c.sampled, ?_⟩
    simp only [State.takeSample, hl, hsampled, State.judgeCurrent, if_pos hi]

theorem State.callDropped_setLine (l' : Line) : (s.setLine n l').callDropped d n l = s.callDropped d n l := by
  simp [State.callDropped, State.setLine, State.setDest, State.dest]

theorem State.NoOffer.callDropped (h : s.NoOffer) (hl : l.state ≠ .linger) : (s.callDropped d n l).NoOffer :=
  State.SameOffers.noOffer (s := s.setLine n l) {} (h.setLine hl)

theorem State.callDropped_inFault (hs : l.state ≠ .guarded) (cause : FaultCause) :
    (s.callDropped d n l).inFault n cause =
      { s.callDropped d n (l.inFault cause (s.timing.faultHold * 1000)) with causes := s.causes ||| 0x04 } := by
  have hline : (s.callDropped d n l).line n = l := (State.setLine_line _ n n l).trans (if_pos rfl)
  rw [State.inFault, hline, if_neg fun e => hs e.1]
  simp [State.callDropped, State.setLine]

end Sys2Proof.Machine

open Sys2Proof Sys2Proof.Machine

/-- Settles O42: the entry with its post (`enterFault_answered`, `_creates`, `_holds`), and the overcurrent of a call that carries a case
and of one that lingers. -/
theorem faultEntered : Obligations.FaultEntered := by
  refine ⟨?_, ?_, ?_⟩
  · intro s n hk hp entered
    have enters : ∀ cause, s.NoOffer →
        entered cause (if cause = .noVoltage then none else some (s.timing.faultHold * 1000)) (s.enterFault n cause).answerLingers := by
      intro cause hno
      obtain ⟨hline, hbit⟩ := s.enterFault_answered n cause
      refine ⟨hline, hbit, fun k hlen hres hf => State.enterFault_creates hk hp hlen hres hf, fun hr => ?_⟩
      rw [State.enterFault_holds hk hp (hr.imp_right fun h => ⟨by simp, h⟩) hno]
      refine ⟨(State.setHeld_heldAt _ _ _ _).trans (if_pos rfl), ?_, rfl⟩
      show (s.causes ||| 0x04 ||| 0x20).getLsbD 5 = true
      rw [BitVec.getLsbD_or]
      simp
    refine ⟨fun hfilter hst hband hno => ⟨_, ?_, enters .noVoltage hno⟩,
      fun hguard hst hfail hcause hno => ⟨(s.enterFault n (s.line n).failureCause).answerLingers, ?_, ?_⟩⟩
    · show execClassificationFilterExpiry n s = _
      simp only [execClassificationFilterExpiry, hband]
      rw [if_pos ⟨hfilter, hst⟩]
    · show execGuardExpiry n s = _
      simp only [execGuardExpiry, hfail]
      rw [if_pos ⟨hguard, hst⟩, if_pos trivial]
    · have h := enters (s.line n).failureCause hno
      rwa [if_neg (by rcases hcause with e | e <;> simp [e])] at h
  · intro s n c k x h ended
    have ends : ∀ (event : Instr) (l : Line) (c' : Call), l.state ≠ .linger → c'.dest = c.dest →
        c'.current = c.current → c'.closePending = c.closePending →
        exec event s = .next ((s.setLine n { l with call := some c' }).overcurrent n).answerLingers → ended event l := by
      intro event l c' hl hd hcur hclose hex
      have h' : (s.setLine n { l with call := some c' }).Carries n c' k x :=
        h.setLine (l := { l with call := some c' }) hl rfl hd hcur
      have hline : (s.setLine n { l with call := some c' }).line n = { l with call := some c' } :=
        (s.setLine_line n n _).trans (if_pos rfl)
      refine ⟨fun hcl => ?_, fun hcl hkey => ⟨_, hex, ?_⟩⟩
      · rw [hex, h'.overcurrent_closing (by rwa [hline]) (hclose.trans hcl), State.callOver_setLine, hline, hd]
        rfl
      · have := h'.overcurrent_fault (by rwa [hline]) (hclose.trans hcl) hkey
        rw [hline, hd] at this
        exact this
    have hcall : (s.line n).call = some c := h.call
    refine ⟨fun volts milliamps hma hst => ?_, fun ms y hst hcheck hsampled hy hma => ?_⟩
    · obtain ⟨sampled, htake⟩ := State.takeSample_overcurrent (volts := volts) h.call hma (by tauto)
      refine ends _ _ { c with sampled := sampled } ?_ rfl rfl rfl ?_
      · show (s.line n).state ≠ .linger
        rcases hst with ⟨e, -⟩ | e | e | e <;> simp [e]
      · show execLineSample n volts milliamps s = _
        rw [execLineSample, htake]
    · refine ends _ _ c (by simp [hst]) rfl rfl rfl ?_
      show execOffHookCheckExpiry n s = _
      have hself : s.setLine n { s.line n with call := some c } = s := by rw [← hcall]; exact s.setLine_self n
      rw [hself]
      simp only [execOffHookCheckExpiry, h.call, hcheck, hst, if_true, hsampled, hy, State.judgeLoop]
      rw [if_neg (Nat.not_lt.mpr (le_of_lt (lt_trans (by decide) hma))), if_pos (show Config.overcurrentMa < y.milliamps from hma)]
  · intro s n volts milliamps c hl hc hk hma hno l
    obtain ⟨sampled, htake⟩ := State.takeSample_overcurrent (volts := volts) hc hma (by tauto)
    let l' : Line := { s.line n with sample := some ⟨volts, min 150 milliamps⟩, call := some { c with sampled := sampled } }
    have hline : (s.setLine n l').line n = l' := (s.setLine_line n n l').trans (if_pos rfl)
    have hcall : (s.setLine n l').call n = some { c with sampled := sampled } := by simp [State.call, l']
    have hstate : l'.state ≠ .guarded := by simp [l', hl]
    have hover := State.overcurrent_lingers hcall hk
    rw [hline, State.callDropped_setLine, State.callDropped_setLine] at hover
    refine ⟨fun hcl => ?_, fun hcl u hu => ?_⟩
    · show execLineSample n volts milliamps s = _
      rw [execLineSample, htake, hover, if_pos hcl, State.answerLingers_eq_self]
      exact hno.callDropped (by simp)
    · show execLineSample n volts milliamps s = _
      rw [execLineSample, htake, hover, if_neg (by simp [hcl]), State.enterFault_eq, State.callDropped_inFault (l := { l' with call := none }) hstate]
      have hpost := State.internalPost_of_postedTo _ hu
      refine congrArg Host.Outcome.next ((congrArg State.answerLingers hpost).trans ?_)
      rw [State.answerLingers_eq_self]
      refine hu.noOffer ?_
      exact hno.callDropped (by simp)
end

