-- ==== Sys2Proof/Proofs/Refusals.lean ====
section
/-! CLAIM. The station refuses a block: the destination refuses, the waiting cases move on, and the call is over (O51). -/

namespace Sys2Proof.Machine

variable {s t u : State} {n : Fin 4} {k : Fin 48} {x y : Case} {c : Call} {d : Fin 8}

/-! ### The sweep of the waiting cases -/

/-- A relation that each turn of the sweep keeps holds over the sweep. -/
theorem State.foldl_moveOn {P : State → State → Prop} (refl : ∀ s, P s s) (trans : ∀ {s t u}, P s t → P t u → P s u)
    (one : ∀ s k, P s (s.moveOn d k)) (s : State) : P s (s.advanceWaiting d) := by
  rw [State.advanceWaiting_eq]
  generalize List.finRange 48 = ks
  induction ks generalizing s with
  | nil => exact refl s
  | cons k ks ih => exact trans (one s k) (ih _)

theorem State.OnTable.advanceWaiting (s : State) (d : Fin 8) : s.OnTable (s.advanceWaiting d) :=
  State.foldl_moveOn .refl .trans (fun s k => by
    unfold State.moveOn
    split
    · exact .advance s k none
    · exact .refl s) s

theorem State.Raises.advanceWaiting (s : State) (d : Fin 8) : s.Raises (s.advanceWaiting d) :=
  State.foldl_moveOn (fun _ => .of_eq rfl) .trans (fun s k => by
    unfold State.moveOn
    split
    · exact .advance s k none
    · exact .of_eq rfl) s

/-- The sweep leaves a case that does not wait. -/
theorem State.advanceWaiting_caseAt (hx : s.caseAt k = some x) (hs : x.state ≠ .pending) : (s.advanceWaiting d).caseAt k = some x := by
  refine State.foldl_moveOn (P := fun s t => s.caseAt k = some x → t.caseAt k = some x) (fun _ => id) (fun h g => g ∘ h)
    (fun s j h => ?_) s hx
  by_cases hj : k = j
  · subst hj
    have hp : s.pendingAt d k = false := by
      rw [Bool.eq_false_iff, Ne, State.pendingAt_iff]
      rintro ⟨z, hz, hzs, -⟩
      cases h.symm.trans hz
      exact hs hzs
    unfold State.moveOn
    rw [hp]
    exact h
  · rw [(s.moveOn_touches d j).other k hj]
    exact h

/-! ### The refusal -/

/-- The destination after a refusal, its call still open (R78). -/
theorem State.refuseDest_facts (s : State) (d : Fin 8) :
    (s.refuseDest d).dest d =
        { s.dest d with last := .refused, state := if (s.dest d).state = .enabled then .refusing else (s.dest d).state } ∧
      (∀ j, (s.refuseDest d).pendingAt d j = false) ∧ (s.refuseDest d).usable d = false ∧
      (s.refuseDest d).causes.getLsbD 1 = true := by
  let f : Destination → Destination := fun x =>
    { x with last := .refused, state := if x.state = .enabled then .refusing else x.state }
  let w := (s.updDest d f).raise .destinationRefused
  have hw : w.dest d = f (s.dest d) := (s.updDest_dest d d f).trans (if_pos rfl)
  have husable : w.usable d = false := by
    rw [State.usable, hw]
    by_cases h : (s.dest d).state = .enabled <;> simp [f, h]
  have hbit : w.causes.getLsbD 1 = true := by
    show (s.causes ||| 0x02).getLsbD 1 = true
    rw [BitVec.getLsbD_or]
    simp
  have table := State.OnTable.advanceWaiting w d
  exact ⟨(table.dest d).trans hw, w.advanceWaiting_pendingAt d husable, (table.usable d).trans husable,
    (State.Raises.advanceWaiting w d).bit hbit⟩

/-- A refused case waits or strands with the refusal on its record, and nothing else of it changes (R25, R28). -/
theorem State.applyOutcome_refused (hx : s.caseAt k = some x) (hs : x.state = .sending) :
    s.Raises (s.applyOutcome k .refused d) ∧
    ∃ y retry, s.Lands { x with state := .pending, last := .refused, line := none, retry := retry } y ∧
      (s.setCase k y).Told (s.applyOutcome k .refused d) := by
  have moved : s.currentDest x = some d → s.applyOutcome k .refused d =
      (s.setCase k { x with state := .pending, last := .refused, line := none }).advance k none := fun hd => by
    have hd' : s.currentDest { x with last := .refused, line := none } = some d := hd
    unfold State.applyOutcome
    rw [hx]
    simp only []
    rw [if_pos hs, if_neg (by simp), if_pos hd', if_neg (by simp [OutcomeKind.charged]), if_pos trivial]
  have stays : s.currentDest x ≠ some d → s.applyOutcome k .refused d =
      (s.setCase k { x with state := .pending, last := .refused, line := none, retry := s.clock }).settle k := fun hd => by
    have hd' : s.currentDest { x with last := .refused, line := none } ≠ some d := hd
    unfold State.applyOutcome
    rw [hx]
    simp only []
    rw [if_pos hs, if_neg (by simp), if_neg hd']
    rfl
  by_cases hd : s.currentDest x = some d
  · have hne : (s.plan x.key.cls).dests ≠ [] := fun e => by simp [State.currentDest, e] at hd
    obtain ⟨y, hy, -, told⟩ := s.advance_setCase k { x with state := .pending, last := .refused, line := none } none hne
    rw [moved hd]
    exact ⟨State.Raises.trans (.of_eq rfl) (.advance _ k none), y, x.retry, hy, told⟩
  · obtain ⟨y, hy, told⟩ := s.settle_setCase k { x with state := .pending, last := .refused, line := none, retry := s.clock } rfl
    rw [stays hd]
    exact ⟨State.Raises.trans (.of_eq rfl) (.settle _ k), y, s.clock, hy, told⟩

/-- A refused case does not wait at a destination that is not usable, and the other cases stand. -/
theorem State.applyOutcome_refused_pendingAt (hx : s.caseAt k = some x) (hs : x.state = .sending) (hu : s.usable d = false)
    (hp : ∀ j, s.pendingAt d j = false) (j : Fin 48) : (s.applyOutcome k .refused d).pendingAt d j = false := by
  obtain ⟨-, y, retry, hy, told⟩ := State.applyOutcome_refused (d := d) hx hs
  generalize s.applyOutcome k .refused d = t at told
  obtain ⟨p, b, rfl⟩ := told
  rw [Bool.eq_false_iff, Ne, State.pendingAt_iff]
  rintro ⟨z, hz, hzs, hzd⟩
  have hz : (s.setCase k y).caseAt j = some z := hz
  rw [State.setCase_caseAt] at hz
  split at hz
  · cases hz
    rw [hy.usable hzs d hzd] at hu
    cases hu
  · exact Bool.eq_false_iff.mp (hp j) ((s.pendingAt_iff d j).mpr ⟨z, hz, hzs, hzd⟩)

/-- A destination's call is the call of one line: no other line lingers on it (R71). -/
theorem State.CallsSound.nobodyOn (h : s.CallsSound) (hc : s.call n = some c) (hl : (s.line n).state ≠ .linger) : s.NobodyOn c.dest := by
  intro m e
  have hn : (s.dest c.dest).callLine = some n := (h.callLine c.dest n).mpr (by rw [hc]; rfl)
  have hm : (s.dest c.dest).callLine = some m := by
    refine (h.callLine c.dest m).mpr ?_
    rw [State.lingersOn] at e
    split at e
    · exact e
    · cases e
  cases hn.symm.trans hm
  rw [State.lingersOn, if_neg hl] at e
  cases e

/-- A release into GUARD (R121). -/
theorem State.release_guarded (hc : s.call n = some c) (hcl : c.closePending = false) :
    s.release n = { (s.setDest c.dest { s.dest c.dest with callLine := none }).setLine n
      ((s.line n).released (s.timing.guardTime * 1000)) with passesDue := s.passesDue + 1 } := by
  rw [State.release, State.closing_eq hc, hcl, State.endCall_eq _ n c hc]
  simp [State.updLine, State.setLine, State.setDest, State.line, Line.released]

theorem exec_refuse {b : BlockRun} (hl : (s.line n).state = .exchange) (hc : s.call n = some c) (hb : c.block = some b)
    (hp : b.phase = .awaiting) : exec (.receivedSymbol n 14) s = .next ((s.refuseDest c.dest).failCall n .refused).answerLingers := by
  have h : s.blockPhase n = some .awaiting := by simp [State.blockPhase, hl, hc, hb, hp]
  show execReceivedSymbol n 14 s = _
  simp [execReceivedSymbol, hl, h, State.refuse, hc]

end Sys2Proof.Machine

open Sys2Proof Sys2Proof.Machine

/-- Settles O51: the destination's part, the case's part and the release, which the answers to the lingering lines spare. -/
theorem refusalMovesCases : Obligations.RefusalMovesCases := by
  intro s n c b k x hl hc hb hp hk hx hs hcalls hcl
  obtain ⟨hdest, hpending, husable, hbit⟩ := s.refuseDest_facts c.dest
  have table : State.OnTable _ (s.refuseDest c.dest) := State.OnTable.advanceWaiting _ c.dest
  have hvline : ∀ m, (s.refuseDest c.dest).line m = s.line m := table.line
  have hvcall : (s.refuseDest c.dest).call n = some c := (table.call n).trans hc
  have hvcase : (s.refuseDest c.dest).caseAt k = some x := State.advanceWaiting_caseAt hx (by simp [hs])
  have hvtime : (s.refuseDest c.dest).timing = s.timing := table.timing
  rw [exec_refuse hl hc hb hp]
  have hnobody : s.NobodyOn c.dest := hcalls.nobodyOn hc (by simp [hl])
  clear table
  generalize s.refuseDest c.dest = v at hdest hpending husable hbit hvline hvcall hvcase hvtime
  -- the outcome
  let w := v.handed n c.dest .refused
  have hwcase : w.caseAt k = some x := hvcase
  obtain ⟨hraises, y, retry, hland, told⟩ := State.applyOutcome_refused (d := c.dest) hwcase hs
  have hzpending := State.applyOutcome_refused_pendingAt hwcase hs ((State.handed_usable c.dest).trans husable) hpending
  have hztable := State.OnTable.applyOutcome w k .refused c.dest
  have hzcase := told.caseAt_setCase
  have hfail : v.failCall n .refused = (w.applyOutcome k .refused c.dest).release n := by
    rw [State.failCall, State.handOutcome_eq hvcall hk]
  rw [hfail]
  clear hfail told
  generalize w.applyOutcome k .refused c.dest = z at hraises hzpending hztable hzcase
  -- the release
  have hzcall : z.call n = some { c with current := none, block := none } := (hztable.call n).trans (State.handed_call hvcall)
  have hzdest : z.dest c.dest = { v.dest c.dest with last := .refused } := (hztable.dest _).trans State.handed_dest
  have hzline : ∀ m, n ≠ m → z.line m = s.line m := fun m hm => ((hztable.line m).trans (State.handed_line_ne hm)).trans (hvline m)
  have hztime : z.timing = s.timing := hztable.timing.trans hvtime
  have hzcauses := hraises.bit (i := 1) hbit
  have hrel := State.release_guarded hzcall hcl
  have hrline : (z.release n).line n = (z.line n).released (s.timing.guardTime * 1000) := by
    rw [hrel, hztime]
    exact (State.setLine_line _ n n _).trans (if_pos rfl)
  have hrlines : ∀ m, n ≠ m → (z.release n).line m = s.line m := fun m hm => by
    rw [hrel]
    exact ((State.setLine_line _ n m _).trans (if_neg hm)).trans (hzline m hm)
  have hrdest : (z.release n).dest c.dest = { z.dest c.dest with callLine := none } := by
    rw [hrel]
    exact (State.setDest_dest _ c.dest c.dest _).trans (if_pos rfl)
  have hrcase : (z.release n).caseAt k = some y := (State.release_caseAt ..).trans hzcase
  have hrpending : ∀ j, (z.release n).pendingAt c.dest j = false := fun j => by
    rw [hrel]
    exact hzpending j
  have hrcauses : (z.release n).causes.getLsbD 1 = true := by rwa [State.release_causes]
  clear hrel
  generalize z.release n = r at hrline hrlines hrdest hrcase hrpending hrcauses
  -- the answers to the lingering lines
  have hrlinger : (r.line n).state ≠ .linger := by simp [hrline, Line.released]
  have spares := r.answerLingers_spares
  have sends := r.answerLingers_sends
  obtain ⟨st, l, hcase, -⟩ := sends.caseAt hrcase
  have hline : r.answerLingers.line n = r.line n := spares.line n (by rw [State.lingersOn, if_neg hrlinger])
  have hd : r.answerLingers.dest c.dest = { s.dest c.dest with
      last := .refused, callLine := none
      state := if (s.dest c.dest).state = .enabled then .refusing else (s.dest c.dest).state } := by
    rw [spares.dest c.dest (hnobody.of_lines (n := n) hrlinger hrlines), hrdest, hzdest, hdest]
  refine ⟨_, _, rfl, ?_, ?_, ?_, ?_, spares.causes ▸ hrcauses, fun j => ?_, hcase, ?_, ?_, ?_, ?_, ?_, ?_⟩
  · rw [hd]
  · rw [hd]
  · rw [hd]
  · rw [hd]
  · rw [Bool.eq_false_iff, Ne, State.pendingAt_iff]
    rintro ⟨e, he, hes, hed⟩
    rcases sends.cases j with h | ⟨e', m, -, -, h⟩
    · exact Bool.eq_false_iff.mp (hrpending j) ((State.pendingAt_iff _ _ _).mpr ⟨e, h ▸ he, hes, (spares.currentDest e).symm.trans hed⟩)
    · cases h.symm.trans he
      cases hes
  · exact hland.failed
  · exact hland.owed
  · exact hland.last
  · rw [hline, hrline]; rfl
  · rw [hline, hrline]; rfl
  · rw [State.call, hline, hrline]; rfl
end

