-- ==== Sys2Proof/Proofs/Acceptances.lean ====
section
/-! CLAIM. The station accepts a block: the case is HELD, retired or taken up again, and the Arbiter answers for the next one (O50). -/

namespace Sys2Proof.Machine

variable {s t u : State} {n : Fin 4} {k : Fin 48} {x y : Case} {c : Call} {d : Fin 8} {l : Line}

/-! ### The first case of a ranking -/

theorem mem_foldr_insertRank {r : Rank} : ∀ {ks : List (Fin 48)}, r ∈ ks.foldr (fun k rs => insertRank (s.rankOf k) rs) [] →
    ∃ j ∈ ks, r = s.rankOf j
  | [], h => absurd h List.not_mem_nil
  | k :: ks, h => by
    rw [List.foldr_cons, (insertRank_perm _ _).mem_iff, List.mem_cons] at h
    rcases h with e | h
    · exact ⟨k, List.mem_cons_self .., e⟩
    · obtain ⟨j, hj, e⟩ := mem_foldr_insertRank h
      exact ⟨j, List.mem_cons_of_mem _ hj, e⟩

/-- A rank that is before all the others stands first (R59). -/
theorem head_foldr_insertRank : ∀ {ks : List (Fin 48)}, k ∈ ks → (∀ j ∈ ks, (s.rankOf k).before (s.rankOf j) = true) →
    (∀ j ∈ ks, j ≠ k → (s.rankOf j).before (s.rankOf k) = false) →
    (ks.foldr (fun k rs => insertRank (s.rankOf k) rs) []).head? = some (s.rankOf k)
  | [], h, _, _ => absurd h List.not_mem_nil
  | i :: ks, h, first, only => by
    rw [List.foldr_cons]
    have first' : ∀ j ∈ ks, (s.rankOf k).before (s.rankOf j) = true := fun j hj => first j (List.mem_cons_of_mem _ hj)
    by_cases hi : i = k
    · subst hi
      cases hr : ks.foldr (fun k rs => insertRank (s.rankOf k) rs) [] with
      | nil => rfl
      | cons r rs =>
        obtain ⟨j, hj, rfl⟩ := mem_foldr_insertRank (hr ▸ List.mem_cons_self .. : r ∈ ks.foldr _ [])
        rw [insertRank, if_pos (first' j hj)]
        rfl
    · have hk : k ∈ ks := (List.mem_cons.mp h).resolve_left fun e => hi e.symm
      have ih := head_foldr_insertRank hk first' fun j hj => only j (List.mem_cons_of_mem _ hj)
      cases hr : ks.foldr (fun k rs => insertRank (s.rankOf k) rs) [] with
      | nil => rw [hr] at ih; cases ih
      | cons r rs =>
        rw [hr] at ih
        cases ih
        rw [insertRank, if_neg (by simp [only i (List.mem_cons_self ..) hi])]
        rfl

theorem State.rankOf_eq (hx : s.caseAt k = some x) : s.rankOf k = ⟨s.urgency x, s.since x.posted, k⟩ := by
  rw [State.rankOf, hx]

/-- A case of a set that no other of the set ranks before is its first (R59). -/
theorem State.ranked_head {p : Fin 48 → Bool} (hk : p k = true) (hx : s.caseAt k = some x) (hp : ∀ j, p j = true → ∃ y, s.caseAt j = some y)
    (best : ∀ j y, j ≠ k → p j = true → s.caseAt j = some y → s.urgency y < s.urgency x ∨ (s.urgency x = s.urgency y ∧
      (s.since y.posted < s.since x.posted ∨ (s.since x.posted = s.since y.posted ∧ k < j)))) :
    (s.ranked p).head? = some k := by
  have mem : ∀ {j}, j ∈ (List.finRange 48).filter p → p j = true := fun h => (List.mem_filter.mp h).2
  have before : ∀ j, p j = true → j ≠ k → (s.rankOf k).before (s.rankOf j) = true ∧ (s.rankOf j).before (s.rankOf k) = false := by
    intro j hj hne
    obtain ⟨y, hy⟩ := hp j hj
    rw [State.rankOf_eq hx, State.rankOf_eq hy]
    simp only [Rank.before, Bool.or_eq_true, Bool.and_eq_true, decide_eq_true_eq, Bool.or_eq_false_iff, Bool.and_eq_false_iff,
      decide_eq_false_iff_not, Fin.le_def]
    have := best j y hne hj hy
    rw [Fin.lt_def] at this
    omega
  have self : (s.rankOf k).before (s.rankOf k) = true := by simp [Rank.before]
  have head := head_foldr_insertRank (s := s) (List.mem_filter.mpr ⟨List.mem_finRange k, hk⟩)
    (fun j hj => by
      by_cases e : j = k
      · subst e; exact self
      · exact (before j (mem hj) e).1)
    (fun j hj e => (before j (mem hj) e).2)
  rw [State.ranked, List.head?_map, head, Option.map_some, State.rankOf_slot]

theorem State.pendingAt_caseAt {j : Fin 48} (h : s.pendingAt d j = true) : ∃ y, s.caseAt j = some y := by
  obtain ⟨y, hy, -⟩ := (s.pendingAt_iff d j).mp h
  exact ⟨y, hy⟩

theorem State.answerFor_over {carried : Nat} (h : s.exchange.blockLimit ≤ carried) : s.answerFor d carried = .over := if_pos h

theorem State.answerFor_nothing {carried : Nat} (h : carried < s.exchange.blockLimit) (hp : ∀ j, s.pendingAt d j = false) :
    s.answerFor d carried = .nothing := by
  have hr : s.ranked (s.pendingAt d) = [] := List.eq_nil_iff_forall_not_mem.mpr fun k hk => by
    have := s.mem_ranked.mp hk
    rw [hp] at this
    cases this
  rw [State.answerFor, if_neg (Nat.not_le.mpr h), hr]
  rfl

theorem State.answerFor_head {carried : Nat} (h : carried < s.exchange.blockLimit) (hr : (s.ranked (s.pendingAt d)).head? = some k)
    (hx : s.caseAt k = some x) :
    s.answerFor d carried = if s.fireWaiting = true ∧ ¬ (x.key.cls = .fire ∧ x.owed.head? = some .alarm) then .over else .give k := by
  have hf : x.isFireAlarm = true ↔ x.key.cls = .fire ∧ x.owed.head? = some .alarm := by
    simp [Case.isFireAlarm, Case.isFire]
  rw [State.answerFor, if_neg (Nat.not_le.mpr h), hr]
  simp only [hx, Option.map_some, Option.getD_some, hf]

/-! ### The accepted case -/

theorem Case.acceptedBy_eq {kind : ReportKind} {rest : List ReportKind} (now : Time) (ho : x.owed = kind :: rest) :
    Case.acceptedBy { x with last := .accepted, line := none } now =
      { x with owed := rest, failed := 0, progress := ⟨0, 0, 0⟩, retry := now, last := .accepted, line := none
               reported := x.reported || decide (kind = .alarm), chatter := if kind = .alarm then 0 else x.chatter
               state := if rest = [] then .held else .pending } := by
  cases kind <;> simp [Case.acceptedBy, ho, Progress.zero]

theorem State.applyOutcome_accept (hx : s.caseAt k = some x) (hs : x.state = .sending) :
    s.applyOutcome k .accepted d = s.acceptCase k { x with last := .accepted, line := none } := by
  unfold State.applyOutcome
  rw [hx]
  simp only []
  rw [if_pos hs, if_pos trivial]

/-- The acceptance of the only report of an ACTIVE case leaves it HELD (R26). -/
theorem State.applyOutcome_holds (hx : s.caseAt k = some x) (hs : x.state = .sending) (ho : x.owed = [.alarm]) (hc : x.condition = .active) :
    s.applyOutcome k .accepted d = s.setCase k { x with
      owed := [], reported := true, chatter := 0, failed := 0, progress := ⟨0, 0, 0⟩, retry := s.clock
      state := .held, last := .accepted, line := none } := by
  rw [State.applyOutcome_accept hx hs, State.acceptCase, Case.acceptedBy_eq _ ho]
  simp [hc]

/-- The case whose head `kind` has been accepted, with `rest` behind it (R26). -/
def Case.headAccepted (x : Case) (kind : ReportKind) (rest : List ReportKind) (now : Time) : Case :=
  { x with owed := rest, failed := 0, progress := ⟨0, 0, 0⟩, retry := now, last := .accepted, line := none
           reported := x.reported || decide (kind = .alarm), chatter := if kind = .alarm then 0 else x.chatter
           state := .pending }

/-- The acceptance of a head with more behind it: the case waits at the start of its plan (R10, R26). -/
theorem State.applyOutcome_continues {kind : ReportKind} {rest : List ReportKind} (hx : s.caseAt k = some x) (hs : x.state = .sending)
    (ho : x.owed = kind :: rest) (hr : rest ≠ []) {e : Fin 8} (he : (s.plan x.key.cls).dests.head? = some e) (hu : s.usable e = true) :
    s.applyOutcome k .accepted d = (s.setCase k (x.headAccepted kind rest s.clock)).notify := by
  have ha : Case.acceptedBy { x with last := .accepted, line := none } s.clock = x.headAccepted kind rest s.clock := by
    rw [Case.acceptedBy_eq _ ho, if_neg hr]
    rfl
  have hcur : s.currentDest (x.headAccepted kind rest s.clock) = some e := by
    rw [← he, List.head?_eq_getElem?]
    rfl
  rw [State.applyOutcome_accept hx hs, State.acceptCase]
  simp only [ha]
  rw [if_neg (show (x.headAccepted kind rest s.clock).owed ≠ [] from hr), State.settle_eq _ k (x.headAccepted kind rest s.clock) (by simp), if_pos]
  intro e' he'
  cases hcur.symm.trans he'
  exact hu

/-! ### The line after an acceptance -/

/-- The part as line `n` hands an acceptance over: the toggle flipped, ACCEPTED recorded, and no current case (R72, R73). -/
def State.accepting (s : State) (n : Fin 4) (d : Fin 8) : State :=
  (s.updDest d fun x => { x with toggle := !x.toggle }).handed n d .accepted

theorem State.accept_eq (hc : s.call n = some c) (hk : c.current = some k) :
    s.accept n =
      if c.closePending then (((s.accepting n c.dest).applyOutcome k .accepted c.dest).raise .delivered).release n
      else (((s.accepting n c.dest).applyOutcome k .accepted c.dest).raise .delivered).askNext n := by
  have hcall : (s.updDest c.dest fun x => { x with toggle := !x.toggle }).call n = some c := hc
  rw [State.accept, hc]
  simp only [State.handOutcome_eq hcall hk]
  rfl

/-- The destination after an acceptance, its call still open (R72, R73). -/
def Destination.accepted (d : Destination) : Destination := { d with toggle := !d.toggle, last := .accepted }

theorem State.accepting_eq (hc : s.call n = some c) :
    s.accepting n d = (s.setDest d (s.dest d).accepted).setLine n
      { s.line n with call := some { c with current := none, block := none } } := by
  have hcall : (s.line n).call = some c := hc
  have hdest : (s.updDest d fun x => { x with toggle := !x.toggle }).updDest d (fun x => { x with last := .accepted }) =
      s.setDest d (s.dest d).accepted := by
    simp [State.updDest, State.setDest, State.dest, Destination.accepted]
  show ((s.updDest d fun x => { x with toggle := !x.toggle }).updDest d fun x => { x with last := .accepted }).setLine n
    { s.line n with call := (s.line n).call.map fun c => { c with current := none, block := none } } = _
  rw [hcall, hdest]
  rfl

/-- Without a case for its destination the line releases by the block limit or the linger time, or lingers (R99, R153). -/
theorem State.askNext_idle (hc : s.call n = some c) (hp : ∀ j, s.pendingAt c.dest j = false) :
    s.askNext n = if s.exchange.blockLimit ≤ c.carried ∨ s.exchange.linger = 0 then s.release n else s.enterLinger n := by
  rw [State.askNext, hc]
  simp only []
  by_cases hb : s.exchange.blockLimit ≤ c.carried
  · simp only [State.answerFor_over hb, hb, true_or, if_true]
  · simp only [State.answerFor_nothing (Nat.lt_of_not_le hb) hp, hb, false_or]

/-- A release into OFF (R124). -/
theorem State.release_off (hc : s.call n = some c) (hcl : c.closePending = true) :
    s.release n = { (s.setDest c.dest { s.dest c.dest with callLine := none }).setLine n
      { s.line n with state := .off, call := none } with passesDue := s.passesDue + 1 } := by
  rw [State.release, State.closing_eq hc, hcl, State.endCall_eq _ n c hc]
  simp [State.updLine, State.setLine, State.setDest, State.line]

theorem State.enterLinger_eq (hc : s.call n = some c) :
    s.enterLinger n = { s.setLine n { s.line n with
      state := .linger, call := some { c with linger := some (s.exchange.linger * 1000) } } with
      passesDue := s.passesDue + if s.fireWaiting = true then 1 else 0 } := by
  have hcall : (s.line n).call = some c := hc
  rw [State.enterLinger, State.notifyWhileFire_eq]
  simp [State.updLine, hcall]

theorem State.NoOffer.release (h : s.NoOffer) (hc : s.call n = some c) : (s.release n).NoOffer := by
  cases hcl : c.closePending
  · rw [State.release_guarded hc hcl]
    exact State.SameOffers.noOffer (s := s.setLine n ((s.line n).released (s.timing.guardTime * 1000))) {}
      (h.setLine (by simp [Line.released]))
  · rw [State.release_off hc hcl]
    exact State.SameOffers.noOffer (s := s.setLine n { s.line n with state := .off, call := none }) {} (h.setLine (by simp))

/-- A line written that lingers where no case waits makes no offer. -/
theorem State.NoOffer.setLine_idle (h : s.NoOffer) (hd : l.call.map Call.dest = some d) (hp : ∀ j, s.pendingAt d j = false) :
    (s.setLine n l).NoOffer := by
  intro m e he j
  show s.pendingAt e j = false
  by_cases hm : n = m
  · subst hm
    have hline : (s.setLine n l).line n = l := (s.setLine_line n n l).trans (if_pos rfl)
    rw [State.lingersOn, State.call, hline] at he
    split at he
    · cases hd.symm.trans he
      exact hp j
    · cases he
  · rw [State.lingersOn_of_line ((s.setLine_line n m l).trans (if_neg hm))] at he
    exact h m e he j

theorem State.NoOffer.enterLinger (h : s.NoOffer) (hc : s.call n = some c) (hp : ∀ j, s.pendingAt c.dest j = false) :
    (s.enterLinger n).NoOffer := by
  rw [State.enterLinger_eq hc]
  exact State.SameOffers.noOffer (s := s.setLine n { s.line n with
    state := .linger, call := some { c with linger := some (s.exchange.linger * 1000) } }) {} (h.setLine_idle rfl hp)

theorem State.accepting_noOffer (h : s.NoOffer) (hc : s.call n = some c) (hl : (s.line n).state ≠ .linger) : (s.accepting n d).NoOffer := by
  rw [State.accepting_eq hc]
  exact State.SameOffers.noOffer (s := s.setLine n { s.line n with call := some { c with current := none, block := none } }) {}
    (h.setLine hl)

/-- A case written that does not wait adds none that does. -/
theorem State.setCase_pendingAt {j : Fin 48} (hy : y.state ≠ .pending) (hp : s.pendingAt d j = false) : (s.setCase k y).pendingAt d j = false := by
  rw [Bool.eq_false_iff, Ne, State.pendingAt_iff] at hp ⊢
  rintro ⟨z, hz, hzs, hzd⟩
  rw [State.setCase_caseAt] at hz
  split at hz
  · cases hz; exact hy hzs
  · exact hp ⟨z, hz, hzs, hzd⟩

/-- The part after the acceptance of a case in slot `k`, now `y`, with the destination `d'` and the line `l` written. -/
def State.accepted (s : State) (k : Fin 48) (y : Case) (d : Fin 8) (d' : Destination) (n : Fin 4) (l : Line) : State :=
  { ((s.setCase k y).setDest d d').setLine n l with causes := s.causes ||| 0x40 }

theorem State.accepted_eq (hc : s.call n = some c) :
    ((s.accepting n d).setCase k y).raise .delivered =
      s.accepted k y d (s.dest d).accepted n { s.line n with call := some { c with current := none, block := none } } := by
  rw [State.accepting_eq hc]
  rfl

theorem State.NoOffer.accepted {d' : Destination} (h : s.NoOffer) (hy : y.state ≠ .pending) (hl : l.state ≠ .linger) :
    (s.accepted k y d d' n l).NoOffer :=
  State.SameOffers.noOffer (s := (s.setCase k y).setLine n l) {} ((h.setCase k y fun e => absurd e hy).setLine hl)

theorem State.accepted_setLine {d' : Destination} (l' : Line) : (s.accepted k y d d' n l).setLine n l' = s.accepted k y d d' n l' := by
  simp [State.accepted, State.setLine]

theorem State.accepted_setDest {d' : Destination} (e : Destination) : (s.accepted k y d d' n l).setDest d e = s.accepted k y d e n l := by
  simp [State.accepted, State.setLine, State.setDest]

theorem State.accepted_setCase {d' : Destination} (z : Case) : (s.accepted k y d d' n l).setCase k z = s.accepted k z d d' n l := by
  simp [State.accepted, State.setCase, State.setSlot, State.slot, State.setLine, State.setDest]

theorem State.accepted_line {d' : Destination} : (s.accepted k y d d' n l).line n = l := (State.setLine_line _ n n l).trans (if_pos rfl)

theorem State.accepted_dest {d' : Destination} : (s.accepted k y d d' n l).dest d = d' := (State.setDest_dest _ d d d').trans (if_pos rfl)

theorem State.accepted_call {d' : Destination} : (s.accepted k y d d' n l).call n = l.call := congrArg Line.call State.accepted_line

/-- With nothing more for its destination the line changes no slot and no cause, nor the toggle and last outcome of its destination. -/
theorem State.askNext_idle_keeps (hc : s.call n = some c) (hcl : c.closePending = false) (hp : ∀ j, s.pendingAt c.dest j = false) :
    (s.askNext n).slots = s.slots ∧ (s.askNext n).causes = s.causes ∧ ((s.askNext n).dest c.dest).toggle = (s.dest c.dest).toggle ∧
      ((s.askNext n).dest c.dest).last = (s.dest c.dest).last := by
  rw [State.askNext_idle hc hp]
  split
  · rw [State.release_guarded hc hcl]
    have hd : ∀ l p, ({ (s.setDest c.dest { s.dest c.dest with callLine := none }).setLine n l with passesDue := p } : State).dest c.dest =
        { s.dest c.dest with callLine := none } := fun _ _ => (State.setDest_dest _ c.dest c.dest _).trans (if_pos rfl)
    rw [hd]
    exact ⟨rfl, rfl, rfl, rfl⟩
  · rw [State.enterLinger_eq hc]
    exact ⟨rfl, rfl, rfl, rfl⟩

theorem State.NoOffer.askNext_idle (h : s.NoOffer) (hc : s.call n = some c) (hp : ∀ j, s.pendingAt c.dest j = false) :
    (s.askNext n).NoOffer := by
  rw [State.askNext_idle hc hp]
  split
  · exact h.release hc
  · exact h.enterLinger hc hp

/-- The one case that waits for the destination is taken up again (R99, R100). -/
theorem State.askNext_takes (hc : s.call n = some c) (hk : s.pendingAt c.dest k = true) (only : ∀ j, s.pendingAt c.dest j = true → j = k)
    (hb : c.carried < s.exchange.blockLimit) (hf : s.fireWaiting = false) : s.askNext n = s.takeUp n k := by
  obtain ⟨x, hx⟩ := State.pendingAt_caseAt hk
  have hhead : (s.ranked (s.pendingAt c.dest)).head? = some k := by rw [State.ranked_eq_singleton hk only]; rfl
  have hgive : s.answerFor c.dest c.carried = .give k := by
    rw [State.answerFor_head hb hhead hx, if_neg (by simp [hf])]
  rw [State.askNext, hc]
  simp only [hgive]

/-! ### The event -/

/-- Line `n` awaits the response to the block of the case `x` in slot `k`, no lingering line has an offer, and no other case waits for the
call's destination. -/
structure State.Reporting (s : State) (n : Fin 4) (c : Call) (k : Fin 48) (x : Case) : Prop where
  line : (s.line n).state = .exchange
  call : s.call n = some c
  block : ∃ b, c.block = some b ∧ b.phase = .awaiting
  current : c.current = some k
  case : s.caseAt k = some x
  sending : x.state = .sending
  noOffer : s.NoOffer
  alone : ∀ j : Fin 48, s.pendingAt c.dest j = false

theorem State.Reporting.exec_eq (h : s.Reporting n c k x) :
    exec (.receivedSymbol n 12) s = .next (State.answerLingers
      (if c.closePending then (((s.accepting n c.dest).applyOutcome k .accepted c.dest).raise .delivered).release n
        else (((s.accepting n c.dest).applyOutcome k .accepted c.dest).raise .delivered).askNext n)) := by
  obtain ⟨b, hb, hp⟩ := h.block
  rw [exec_accept h.line h.call hb hp, State.accept_eq h.call h.current]

theorem State.Reporting.accepting_call (h : s.Reporting n c k x) :
    (s.accepting n c.dest).call n = some { c with current := none, block := none } := State.handed_call h.call

/-- The last report of a RESTORED case accepted, without a held post: its slot is free and nothing else of the table changes (R16, R26). -/
theorem State.Reporting.retires {kind : ReportKind} (h : s.Reporting n c k x) (hcl : c.closePending = false) (ho : x.owed = [kind])
    (hcond : x.condition = .restored) (hheld : s.NoHeld) :
    ∃ t : State, exec (.receivedSymbol n 12) s = .next t ∧ t.slot k = ⟨(s.slot k).gen + 1, none⟩ ∧
      (∀ j : Fin 48, j ≠ k → t.slot j = s.slot j) ∧ (t.dest c.dest).toggle = (s.dest c.dest).accepted.toggle ∧
      (t.dest c.dest).last = .accepted ∧ t.causes = s.causes ||| 0x40 := by
  have hex := h.exec_eq
  rw [if_neg (by simp [hcl])] at hex
  let w := s.accepting n c.dest
  have hc := h.call
  have hwno : w.NoOffer := State.accepting_noOffer h.noOffer hc (by simp [h.line])
  have hwx : w.caseAt k = some x := h.case
  have hfreed : s.Freed (w.vacate k) k := State.SameTables.freed (by simp only [w, State.accepting_eq hc]; exact {}) hwx
  have hretire : w.applyOutcome k .accepted c.dest = w.vacate k := by
    rw [State.applyOutcome_last hwx h.sending ho hcond]
    exact State.offerSpace_eq_self fun q => (hfreed.heldAt q).trans (hheld q)
  have htable := State.OnTable.vacate w k
  have hzno : ((w.vacate k).raise .delivered).NoOffer :=
    State.SameOffers.noOffer (s := w.vacate k) {} (hwno.freed (State.SameTables.freed (s := w) {} hwx)
      (by rw [State.vacate_eq hwx]; rfl) (by rw [State.vacate_eq hwx]; rfl))
  have hzcall : ((w.vacate k).raise .delivered).call n = some { c with current := none, block := none } :=
    (htable.call n).trans h.accepting_call
  have hzdest : ((w.vacate k).raise .delivered).dest c.dest = (s.dest c.dest).accepted := by
    refine (htable.dest c.dest).trans ?_
    simp only [w, State.accepting_eq hc]
    exact (State.setDest_dest s c.dest c.dest _).trans (if_pos rfl)
  have hzcauses : ((w.vacate k).raise .delivered).causes = s.causes ||| 0x40 := by
    rw [State.vacate_eq hwx]
    rfl
  have hzp : ∀ j, ((w.vacate k).raise .delivered).pendingAt c.dest j = false := by
    intro j
    rw [Bool.eq_false_iff, Ne, State.pendingAt_iff]
    rintro ⟨z, hz, hzs, hzd⟩
    have hz : (w.vacate k).caseAt j = some z := hz
    rw [hfreed.caseAt] at hz
    split at hz
    · cases hz
    · have hcur : s.currentDest z = some c.dest := by
        rw [← hzd]
        exact congrArg (fun p : Plan => p.dests[z.progress.step]?) (htable.plan z.key.cls).symm
      exact Bool.eq_false_iff.mp (h.alone j) ((s.pendingAt_iff c.dest j).mpr ⟨z, hz, hzs, hcur⟩)
  rw [hretire] at hex
  obtain ⟨hslots, hcauses, htoggle, hlast⟩ := State.askNext_idle_keeps hzcall hcl hzp
  have hslot : ∀ j, (((w.vacate k).raise .delivered).askNext n).slot j = if k = j then ⟨(s.slot k).gen + 1, none⟩ else s.slot j :=
    fun j => (congrArg (fun v : Vector Slot 48 => v[j]) hslots).trans (hfreed.slot j)
  refine ⟨((w.vacate k).raise .delivered).askNext n, ?_, ?_, fun j hj => ?_, ?_, ?_, ?_⟩
  · rw [hex, State.answerLingers_eq_self]
    exact hzno.askNext_idle hzcall hzp
  · rw [hslot, if_pos rfl]
  · rw [hslot, if_neg hj.symm]
  · rw [htoggle, hzdest]
  · rw [hlast, hzdest]
    rfl
  · rw [hcauses, hzcauses]

/-- A head accepted with more behind it: the call takes its case up again at once (R26, R100, R153). -/
theorem State.Reporting.continues {kind : ReportKind} {rest : List ReportKind} (h : s.Reporting n c k x) (hcl : c.closePending = false)
    (ho : x.owed = kind :: rest) (hrest : rest ≠ []) (hplan : (s.plan x.key.cls).dests.head? = some c.dest) (hu : s.usable c.dest = true)
    (hlim : c.carried < s.exchange.blockLimit) (hfire : s.fireWaiting = false) :
    let y : Case := { x.headAccepted kind rest s.clock with state := .sending, line := some n }
    exec (.receivedSymbol n 12) s = .next (s.accepted k y c.dest (s.dest c.dest).accepted n { s.line n with
      call := some { c with
        current := some k, carried := c.carried + 1, linger := none
        block := (composeBlock y (s.dest c.dest).accepted).map fun b =>
          { symbols := b, phase := .sending, repeats := 0, response := none } } }).notify := by
  intro y
  have hex := h.exec_eq
  rw [if_neg (by simp [hcl])] at hex
  let d := (s.dest c.dest).accepted
  have hc := h.call
  have hl := h.line
  have hwx : (s.accepting n c.dest).caseAt k = some x := h.case
  let a := x.headAccepted kind rest s.clock
  let l : Line := { s.line n with call := some { c with current := none, block := none } }
  have hwu : (s.accepting n c.dest).usable c.dest = true := (State.handed_usable c.dest).trans (by
    rw [← hu, State.usable, State.usable, State.updDest_dest, if_pos rfl])
  have hnext : ((s.accepting n c.dest).applyOutcome k .accepted c.dest).raise .delivered = (s.accepted k a c.dest d n l).notify := by
    rw [State.applyOutcome_continues hwx h.sending ho hrest (e := c.dest) hplan hwu]
    exact congrArg State.notify (State.accepted_eq hc)
  rw [hnext] at hex
  have hvcall : (s.accepted k a c.dest d n l).notify.call n = some { c with current := none, block := none } := State.accepted_call
  have hva : (s.accepted k a c.dest d n l).notify.caseAt k = some a := (s.setCase_caseAt k k a).trans (if_pos rfl)
  have hcur : s.currentDest a = some c.dest := by
    rw [← hplan, List.head?_eq_getElem?]
    rfl
  have hvk : (s.accepted k a c.dest d n l).notify.pendingAt c.dest k = true := (State.pendingAt_iff _ _ _).mpr ⟨a, hva, rfl, hcur⟩
  have only : ∀ j, (s.accepted k a c.dest d n l).notify.pendingAt c.dest j = true → j = k := by
    intro j hj
    by_contra hne
    obtain ⟨z, hz, hzs, hzd⟩ := (State.pendingAt_iff _ _ _).mp hj
    have hz : s.caseAt j = some z := ((s.setCase_caseAt k j a).trans (if_neg (Ne.symm hne))).symm.trans hz
    exact Bool.eq_false_iff.mp (h.alone j) ((s.pendingAt_iff c.dest j).mpr ⟨z, hz, hzs, hzd⟩)
  have hask := State.askNext_takes hvcall hvk only hlim hfire
  have hset : (s.accepted k a c.dest d n l).notify.setCase k y = (s.accepted k y c.dest d n l).notify :=
    congrArg State.notify (State.accepted_setCase y)
  have hkeep : ∀ call, ({ s.line n with state := .exchange, call := call } : Line) = { s.line n with call := call } := fun call => by
    rw [← hl]
  have htake : (s.accepted k a c.dest d n l).notify.takeUp n k = (s.accepted k y c.dest d n { s.line n with
      call := some { c with
        current := some k, carried := c.carried + 1, linger := none
        block := (composeBlock y d).map fun b => { symbols := b, phase := .sending, repeats := 0, response := none } } }).notify := by
    rw [State.takeUp_eq hvcall hva, ← hkeep]
    refine (congrArg (fun t => State.setLine t n _) hset).trans ?_
    rw [State.notify_line, State.accepted_line, State.notify_dest, State.accepted_dest]
    exact congrArg State.notify (State.accepted_setLine _)
  rw [hex, hask, htake, State.answerLingers_eq_self]
  exact State.SameOffers.noOffer (s := s.accepted k y c.dest d n _) {} (h.noOffer.accepted (by simp [y]) (by simp [hl]))

end Sys2Proof.Machine

open Sys2Proof Sys2Proof.Machine

/-- Settles O50: what is left of the case's list (`applyOutcome_holds`, `_last`, `_continues`), what the line does then (`askNext_idle`,
`takeUp_eq`), and the Arbiter's answer by the head of the ranking (`ranked_head`). -/
theorem acceptanceApplied : Obligations.AcceptanceApplied := by
  refine ⟨?_, ?_, ?_⟩
  · intro s n c b k x hl hc hb hph hk hx hs ho hcond hno hp d y after gone
    let l : Line := { s.line n with call := some { c with current := none, block := none } }
    have haccept : s.accept n = if c.closePending then (s.accepted k y c.dest d n l).release n else (s.accepted k y c.dest d n l).askNext n := by
      have hheld : (s.accepting n c.dest).applyOutcome k .accepted c.dest = (s.accepting n c.dest).setCase k y :=
        State.applyOutcome_holds hx hs ho hcond
      rw [State.accept_eq hc hk, hheld, State.accepted_eq hc]
      rfl
    have hvcall : (s.accepted k y c.dest d n l).call n = some { c with current := none, block := none } := State.accepted_call
    have hvno : (s.accepted k y c.dest d n l).NoOffer := hno.accepted (by simp [y]) (by simp [l, hl])
    have hvp : ∀ j, (s.accepted k y c.dest d n l).pendingAt c.dest j = false := fun j => State.setCase_pendingAt (by simp [y]) (hp j)
    have hask : (s.accepted k y c.dest d n l).askNext n =
        if s.exchange.blockLimit ≤ c.carried ∨ s.exchange.linger = 0 then (s.accepted k y c.dest d n l).release n
        else (s.accepted k y c.dest d n l).enterLinger n := State.askNext_idle (c := { c with current := none, block := none }) hvcall hvp
    refine ⟨fun hcl hlim hlin => ?_, fun hcl hend => ?_, fun hcl => ?_⟩
    · rw [exec_accept hl hc hb hph, haccept, if_neg (by simp [hcl]), hask, if_neg (not_or.mpr ⟨Nat.not_le.mpr hlim, hlin⟩),
        State.answerLingers_eq_self]
      · rw [State.enterLinger_eq hvcall, State.accepted_setLine, State.accepted_line]
        rfl
      · exact hvno.enterLinger hvcall hvp
    · rw [exec_accept hl hc hb hph, haccept, if_neg (by simp [hcl]), hask, if_pos hend, State.answerLingers_eq_self]
      · rw [State.release_guarded hvcall hcl, State.accepted_setDest, State.accepted_setLine, State.accepted_line, State.accepted_dest]
        rfl
      · exact hvno.release hvcall
    · rw [exec_accept hl hc hb hph, haccept, if_pos hcl, State.answerLingers_eq_self]
      · rw [State.release_off hvcall hcl, State.accepted_setDest, State.accepted_setLine, State.accepted_line, State.accepted_dest]
        rfl
      · exact hvno.release hvcall
  · intro s n c b k x hl hc hb hph hk hx hs hno hcl hp d
    have h : s.Reporting n c k x := ⟨hl, hc, ⟨b, hb, hph⟩, hk, hx, hs, hno, hp⟩
    exact ⟨fun kind ho hcond hheld => h.retires hcl ho hcond hheld,
      fun kind rest ho hrest hplan hu hlim _ hfire => h.continues hcl ho hrest hplan hu hlim hfire⟩
  · intro s d carried
    refine ⟨State.answerFor_over, State.answerFor_nothing, fun k x hb hk hx best => ?_⟩
    rw [State.answerFor_head hb (State.ranked_head hk hx (fun j => State.pendingAt_caseAt) best) hx]
end

