-- ==== Sys2Proof/Proofs/Levels.lean ====
section
/-! CLAIM. A channel judges and accepts levels, posts its keys and restores its cases (O52, O53): posts and restores act on the table alone, whatever the channels are. -/

namespace Sys2Proof.Machine

variable {s t u : State} {i : Fin 8} {k : Fin 48} {p : Poster} {key : Key} {v : Vector Channel 8} {level old : Level} {event : Instr}
  {sample : Option Nat} {ch : Channel}

/-! ### The table's answers do not see the channels -/

/-- `s` with other channels. -/
def State.withInputs (s : State) (v : Vector Channel 8) : State := { s with inputs := v }

theorem State.SettledTo.withInputs {y : Case} (h : s.SettledTo k y u) : (s.withInputs v).SettledTo k y (u.withInputs v) := by
  cases h with
  | stays hd => exact .stays hd
  | moves d e q hd hu hq hn => exact .moves d e q hd hu hq hn
  | strands d q hd hu hq => exact .strands d q hd hu hq

theorem State.RestoredTo.withInputs (h : s.RestoredTo key u) : (s.withInputs v).RestoredTo key (u.withInputs v) := by
  cases h with
  | absent hk => exact .absent hk
  | already k x hk hx hc => exact .already k x hk hx hc
  | joins k x ht hk hx hc hh => exact .joins k x ht hk hx hc hh
  | leavesHeld k x u ht hk hx hc hh hu => exact .leavesHeld k x _ ht hk hx hc hh hu.withInputs

theorem State.PostedTo.withInputs (h : s.PostedTo p key u) : (s.withInputs v).PostedTo p key (u.withInputs v) := by
  cases h with
  | stands k x hk hx hc => exact .stands k x hk hx hc
  | renews k x y ht hk hx hc hy => exact .renews k x y ht hk hx hc hy
  | takenIn hk hp => exact .takenIn hk hp
  | creates k u ht hk hp hr hl hu => exact .creates (s := s.withInputs v) k (u.withInputs v) ht hk hp hr hl hu.withInputs
  | isHeld hk hp hr => exact .isHeld hk hp hr
  | oldStands old hk hp ho hr => exact .oldStands old hk hp ho hr

theorem State.ChannelPostedTo.withInputs (h : s.ChannelPostedTo i p key u)
    (hw : ((s.withInputs v).input i).written = (s.input i).written) :
    (s.withInputs v).ChannelPostedTo i p key (u.withInputs v) := by
  unfold State.ChannelPostedTo at h ⊢
  rw [hw]
  split at h
  · next hw => rw [if_pos hw]; exact State.PostedTo.withInputs h
  · next hw => rw [if_neg hw, h]

theorem State.ChannelPostedTo.onTable (h : s.ChannelPostedTo i p key u) : s.OnTable u := by
  rw [← s.channelPost_of_channelPostedTo h, State.channelPost_eq]
  split
  · exact .internalPost s p key
  · exact .refl s

theorem State.ChannelPostedTo.noOffer (h : s.ChannelPostedTo i p key u) (g : s.NoOffer) : u.NoOffer := by
  unfold State.ChannelPostedTo at h
  split at h
  · exact State.PostedTo.noOffer h g
  · rw [h]; exact g

theorem State.OnTable.inputs (h : s.OnTable t) : t.inputs = s.inputs := by obtain ⟨_, _, _, _, rfl⟩ := h; rfl

theorem State.NoOffer.setInput (h : s.NoOffer) : (s.setInput i ch).NoOffer := State.SameOffers.noOffer {} h

theorem State.setInput_setInput (ch' : Channel) : (s.setInput i ch).setInput i ch' = s.setInput i ch' := by
  simp [State.setInput]

theorem State.updInput_setInput (f : Channel → Channel) : (s.setInput i ch).updInput i f = s.setInput i (f ch) := by
  rw [State.updInput, State.setInput_input, if_pos rfl, State.setInput_setInput]

/-- A channel written before a restore and after it: the restore, and the channel as last written. -/
theorem State.RestoredTo.setInput (h : s.RestoredTo key u) (f : Channel → Channel) :
    ((s.setInput i ch).internalRestore key).updInput i f = u.setInput i (f ch) := by
  have hi : u.inputs = s.inputs := h.onTable.inputs
  rw [State.internalRestore_of_restoredTo (s.setInput i ch) (h.withInputs (v := s.inputs.set i ch))]
  have : u.withInputs (s.inputs.set i ch) = u.setInput i ch := by rw [← hi]; rfl
  rw [this, State.updInput_setInput]

/-- A channel that posts, its channel then written anew, the mark of its write kept: the post, and the channel as last written. -/
theorem State.ChannelPostedTo.setInput {f : Channel → Channel} (h : (s.setInput i (f ch)).ChannelPostedTo i p key u)
    (hw : (f ch).written = ch.written) :
    ((s.setInput i ch).channelPost i p key).updInput i f = u := by
  have hi : u.inputs = s.inputs.set i (f ch) := h.onTable.inputs
  have hback : (s.setInput i (f ch)).withInputs (s.inputs.set i ch) = s.setInput i ch := rfl
  have h' := h.withInputs (v := s.inputs.set i ch) (by rw [hback]; simp [hw])
  rw [hback] at h'
  rw [State.channelPost_of_channelPostedTo _ h']
  simp [State.updInput, State.setInput, State.input, State.withInputs, ← hi]

/-! ### The stages -/

/-- The level leaves the alarm stage of the channel (R163, R164, R165, R168). -/
def Channel.Stands (c : Channel) (level : Level) : Prop :=
  match c.alarm with
  | .quiet => level ≠ .active
  | .retarding => level = .active
  | .raised => ¬ (level = .normal ∧ c.latch = .following)
  | .cleared => level ≠ .normal

theorem State.alarmStep_stands (h : (s.input i).Stands level) : s.alarmStep i level = s := by
  unfold Channel.Stands at h
  simp only [State.alarmStep]
  cases ha : (s.input i).alarm <;> simp only [ha] at h ⊢
  case quiet | raised | cleared => exact if_neg h
  case retarding => exact if_pos h

/-- A retarding alarm is dropped at any level but ACTIVE (R164). -/
theorem State.alarmStep_drops (ha : (s.input i).alarm = .retarding) (hl : level ≠ .active) :
    s.alarmStep i level = s.updInput i fun c => { c with alarm := .quiet, retardTimer := none } := by
  simp only [State.alarmStep, ha, if_neg hl]

theorem State.troubleStep_same (h : level.troubled = old.troubled) : s.troubleStep i old level = s := by
  unfold State.troubleStep
  cases ho : old.troubled <;> rw [ho] at h <;> simp [h]

/-- The acceptance of OPEN or SHORT where the stage has moved already (R167). -/
theorem State.troubleStep_raised (hl : level.troubled = true) (ho : old.troubled = false) (ht : (s.input i).trouble ≠ .quiet) :
    s.troubleStep i old level = s.raise .inputTrouble := by
  simp [State.troubleStep, hl, ho, ht]

theorem State.troubleStep_posts (hl : level.troubled = true) (ho : old.troubled = false) (ht : (s.input i).trouble = .quiet) :
    s.troubleStep i old level = (((s.raise .inputTrouble).updInput i fun c => { c with trouble := .raised }).channelPost i (.inputTrouble i)
      (s.troubleKey i)) := by
  have hkey : ((s.raise .inputTrouble).updInput i fun c => { c with trouble := .raised }).troubleKey i = s.troubleKey i := by
    simp [State.troubleKey]
  simp only [State.troubleStep, hl, ho, ht, if_true, hkey, Bool.false_eq_true, if_false]

theorem State.troubleStep_returns (hl : level.troubled = false) (ho : old.troubled = true) (ht : (s.input i).trouble ≠ .raised) :
    s.troubleStep i old level = s.updInput i fun c => { c with trouble := .quiet } := by
  simp [State.troubleStep, hl, ho, ht]

theorem State.troubleStep_restores (hl : level.troubled = false) (ho : old.troubled = true) (ht : (s.input i).trouble = .raised) :
    s.troubleStep i old level = (s.internalRestore (s.troubleKey i)).updInput i fun c => { c with trouble := .quiet } := by
  simp [State.troubleStep, hl, ho, ht]

/-! ### The acceptance of a level -/

/-- The channel as it accepts a level, before its stages move (R162). -/
def Channel.accepting (c : Channel) (sample : Option Nat) (level : Level) : Channel :=
  { c with sample := sample, accepted := level, candidate := none, levelFilter := none }

theorem State.acceptLevel_eq :
    (s.setInput i ch).acceptLevel i level =
      (((s.setInput i (ch.accepting ch.sample level)).troubleStep i ch.accepted level).alarmStep i level) := by
  have hin : (s.setInput i ch).input i = ch := (s.setInput_input i i ch).trans (if_pos rfl)
  rw [State.acceptLevel, hin, State.updInput_setInput]
  rfl

/-- Both ways in which a level is accepted come to its acceptance on the channel with its latest sample (R162). -/
theorem State.Accepts.exec (h : s.Accepts i level event sample) :
    exec event s = .next
      (((s.setInput i ((s.input i).accepting sample level)).troubleStep i (s.input i).accepted level).alarmStep i level).answerLingers := by
  obtain ⟨hne, ⟨count, rfl, rfl, hen, hfast, hlevel⟩ | ⟨rfl, rfl, hfilter, hcand⟩⟩ := h
  · have hlevel : Level.ofCount count = level := hlevel.symm
    show execInputSample i count s = _
    have hacc := State.acceptLevel_eq (s := s) (i := i) (ch := { s.input i with sample := some count }) (level := level)
    simp only [execInputSample, State.takeInput, hen, hfast, hlevel, if_neg hne]
    exact congrArg (fun t => Host.Outcome.next (State.answerLingers t)) hacc
  · show execLevelFilterExpiry i s = _
    obtain ⟨f, hf⟩ := Option.isSome_iff_exists.mp hfilter
    have hself : s.setInput i (s.input i) = s := by simp [State.setInput, State.input]
    have hacc := State.acceptLevel_eq (s := s) (i := i) (ch := s.input i) (level := level)
    rw [hself] at hacc
    simp only [execLevelFilterExpiry, hf, hcand, hacc]

/-- An acceptance between levels that are both in trouble or both not: the alarm stage alone is acted on. -/
theorem State.Accepts.exec_alarmStep (h : s.Accepts i level event sample) (ht : level.troubled = (s.input i).accepted.troubled) :
    Machine.exec event s = .next ((s.setInput i ((s.input i).accepting sample level)).alarmStep i level).answerLingers := by
  rw [h.exec, State.troubleStep_same ht]

theorem State.setInput_input_self : (s.setInput i ch).input i = ch := (s.setInput_input i i ch).trans (if_pos rfl)

/-! ### The alarm stage moves -/

theorem State.alarmStep_retards (ha : ch.alarm = .quiet) (hr : ch.retard ≠ 0) :
    (s.setInput i ch).alarmStep i .active = s.setInput i { ch with alarm := .retarding, retardTimer := some ⟨ch.retard, s.clock⟩ } := by
  simp only [State.alarmStep, State.setInput_input_self, ha, if_true, if_neg hr, State.updInput_setInput]
  rfl

theorem State.alarmStep_clears (ha : ch.alarm = .cleared) :
    (s.setInput i ch).alarmStep i .normal = s.setInput i { ch with alarm := .quiet } := by
  simp only [State.alarmStep, State.setInput_input_self, ha, if_true, State.updInput_setInput]

theorem State.alarmStep_setInput_drops (ha : ch.alarm = .retarding) (hl : level ≠ .active) :
    (s.setInput i ch).alarmStep i level = s.setInput i { ch with alarm := .quiet, retardTimer := none } := by
  rw [State.alarmStep_drops (by rwa [State.setInput_input_self]) hl, State.updInput_setInput]

/-- A FOLLOWING alarm restored (R165). -/
theorem State.alarmStep_restores (ha : ch.alarm = .raised) (hl : ch.latch = .following)
    (hu : s.RestoredTo ⟨16 + i.val, ch.zone, ch.cls⟩ u) :
    (s.setInput i ch).alarmStep i .normal = u.setInput i { ch with alarm := .quiet } := by
  have hkey : (s.setInput i ch).alarmKey i = ⟨16 + i.val, ch.zone, ch.cls⟩ := by rw [State.alarmKey, State.setInput_input_self]
  simp only [State.alarmStep, State.setInput_input_self, ha]
  rw [if_pos ⟨trivial, hl⟩, hkey]
  exact hu.setInput _

theorem State.raiseAlarm_of_posted (hu : (s.setInput i { ch with alarm := .raised, retardTimer := none }).ChannelPostedTo i (.inputAlarm i)
    ⟨16 + i.val, ch.zone, ch.cls⟩ u) : (s.setInput i ch).raiseAlarm i = u := by
  have hkey : (s.setInput i { ch with alarm := .raised, retardTimer := none }).alarmKey i = ⟨16 + i.val, ch.zone, ch.cls⟩ := by
    rw [State.alarmKey, State.setInput_input_self]
  simp only [State.raiseAlarm, State.updInput_setInput, hkey]
  exact State.channelPost_of_channelPostedTo _ hu

theorem State.alarmStep_raises (ha : ch.alarm = .quiet) (hr : ch.retard = 0) :
    (s.setInput i ch).alarmStep i .active = (s.setInput i ch).raiseAlarm i := by
  simp only [State.alarmStep, State.setInput_input_self, ha, hr, if_true]

end Sys2Proof.Machine

open Sys2Proof Sys2Proof.Machine

/-- Settles O52: a sample that is not accepted, and then each move of the alarm stage at an acceptance. -/
theorem levelsAccepted : Obligations.LevelsAccepted := by
  refine ⟨?_, ?_, ?_⟩
  · intro s i count hno level ch becomes
    have take : ∀ ch', s.takeInput i count = s.setInput i ch' → becomes ch' := fun ch' h => by
      show execInputSample i count s = _
      rw [execInputSample, h, State.answerLingers_eq_self]
      exact hno.setInput
    have hlevel : Level.ofCount count = level := rfl
    have hsampled : (s.updInput i fun c => { c with sample := some count }) = s.setInput i ch := rfl
    refine ⟨fun hen => take _ ?_, fun hen hfast heq => take _ ?_, fun hen hfil => ⟨fun heq => take _ ?_, fun hne hcand => take _ ?_,
      fun hne hcand => take _ ?_⟩⟩
    · simp only [State.takeInput, hen, hsampled]
      rfl
    · simp only [State.takeInput, hen, hfast, hlevel, if_pos heq, hsampled]
      rfl
    · simp only [State.takeInput, hen, hfil, hlevel, if_pos heq, hsampled, State.updInput_setInput]
      rfl
    · simp only [State.takeInput, hen, hfil, hlevel, if_neg hne, if_pos hcand, hsampled]
      rfl
    · simp only [State.takeInput, hen, hfil, hlevel, if_neg hne, if_neg hcand, hsampled, State.updInput_setInput]
      rfl
  · intro s i count level hno hlevel hne htr hold becomes
    have step : ∀ ch : Channel, ch.sample = (s.input i).sample →
        (∀ sample, (s.setInput i ((s.input i).accepting sample level)).alarmStep i level = s.setInput i (ch.accepting sample level)) →
        becomes ch := by
      intro ch hch h
      have ex : ∀ event sample, s.Accepts i level event sample → exec event s = .next (s.setInput i (ch.accepting sample level)) :=
        fun event sample hacc => by
          rw [hacc.exec_alarmStep (htr.trans hold.symm), h, State.answerLingers_eq_self]
          exact hno.setInput
      refine ⟨fun hen hfast => ex _ _ ⟨hne, .inl ⟨count, rfl, rfl, hen, hfast, hlevel⟩⟩, fun hfilter hcand => ?_⟩
      have := ex _ _ ⟨hne, .inr ⟨rfl, rfl, hfilter, hcand⟩⟩
      rw [← hch] at this
      exact this
    have stands : (∀ sample, ((s.input i).accepting sample level).Stands level) → becomes (s.input i) := fun h =>
      step _ rfl fun sample => State.alarmStep_stands (by rw [State.setInput_input_self]; exact h sample)
    refine ⟨?_, ?_, ?_, ?_, ?_, ?_⟩
    · rintro rfl ha hr
      exact step _ rfl fun sample => State.alarmStep_retards ha hr
    · rintro rfl (ha | ha) <;> refine stands fun sample => ?_ <;> simp [Channel.Stands, Channel.accepting, ha]
    · rintro rfl ha
      exact step _ rfl fun sample => State.alarmStep_setInput_drops ha (by simp)
    · rintro rfl ha hl
      refine stands fun sample => ?_
      simp [Channel.Stands, Channel.accepting, ha, hl]
    · rintro rfl ha
      exact step _ rfl fun sample => State.alarmStep_clears ha
    · rintro rfl ha hl hk
      exact step _ rfl fun sample => State.alarmStep_restores ha hl (.absent hk)
  · intro s i level event sample hno hacc htr hold key ch
    have hex := hacc.exec_alarmStep (htr.trans hold.symm)
    refine ⟨?_, ?_⟩
    · rintro rfl ha hl u hu
      rw [hex, State.alarmStep_restores (ch := (s.input i).accepting sample .normal) ha hl hu, State.answerLingers_eq_self]
      · rfl
      · exact (hu.noOffer hno).setInput
    · rintro rfl ha hr u hu
      rw [hex, State.alarmStep_raises (ch := (s.input i).accepting sample .active) ha hr,
        State.raiseAlarm_of_posted (ch := (s.input i).accepting sample .active) hu, State.answerLingers_eq_self]
      exact hu.noOffer hno.setInput
end

