-- ==== Sys2Proof/Proofs/Troubles.lean ====
section
/-! CLAIM. A channel posts its trouble key and its alarm key, and restores its trouble case (O53). -/

namespace Sys2Proof.Machine

variable {s t u : State} {i : Fin 8} {k : Fin 48} {level old : Level} {event : Instr} {sample : Option Nat} {ch : Channel}

/-- The channel with a retarding alarm dropped (R164). -/
def Channel.dropped (c : Channel) : Channel := if c.alarm = .retarding then { c with alarm := .quiet, retardTimer := none } else c

theorem Channel.dropped_trouble (c : Channel) (stage : TroubleStage) :
    Channel.dropped { c with trouble := stage } = { c.dropped with trouble := stage } := by
  unfold Channel.dropped
  split <;> rfl

theorem Channel.dropped_written (c : Channel) : c.dropped.written = c.written := by
  unfold Channel.dropped
  split <;> rfl

theorem State.setInput_self (s : State) (i : Fin 8) : s.setInput i (s.input i) = s := by simp [State.setInput, State.input]

/-- The alarm stage at a level in trouble: a retarding alarm is dropped, and no other stage moves (R163 to R168). -/
theorem State.alarmStep_troubled (hl : level.troubled = true) : s.alarmStep i level = s.updInput i Channel.dropped := by
  have h1 : level ≠ .active := by rintro rfl; cases hl
  have h2 : level ≠ .normal := by rintro rfl; cases hl
  by_cases ha : (s.input i).alarm = .retarding
  · rw [State.alarmStep_drops ha h1, State.updInput, State.updInput, Channel.dropped, if_pos ha]
  · have hstands : (s.input i).Stands level := by
      unfold Channel.Stands
      split
      · exact h1
      · next e => exact absurd e ha
      · exact fun e => h2 e.1
      · exact h2
    rw [State.alarmStep_stands hstands, State.updInput, Channel.dropped, if_neg ha, State.setInput_self]

/-- A level at which the alarm stage of a channel that is not retarding stands. -/
theorem Channel.stands_of (h : (level = .normal ∧ (ch.alarm = .quiet ∨ (ch.alarm = .raised ∧ ch.latch = .latching))) ∨
    (level = .active ∧ (ch.alarm = .raised ∨ ch.alarm = .cleared))) : ch.Stands level ∧ ch.alarm ≠ .retarding := by
  rcases h with ⟨rfl, ha | ⟨ha, hl⟩⟩ | ⟨rfl, ha | ha⟩
  · simp [Channel.Stands, ha]
  · simp [Channel.Stands, ha, hl]
  · simp [Channel.Stands, ha]
  · simp [Channel.Stands, ha]

theorem State.raise_setInput (c : Cause) : (s.setInput i ch).raise c = (s.raise c).setInput i ch := rfl

/-- The expiry of the retard timer (R164). -/
theorem exec_retardTimerExpiry (hr : (s.input i).retardTimer.isSome) (ha : (s.input i).alarm = .retarding) (hno : s.NoOffer)
    (hu : (s.setInput i { s.input i with alarm := .raised, retardTimer := none }).ChannelPostedTo i (.inputAlarm i)
      ⟨16 + i.val, (s.input i).zone, (s.input i).cls⟩ u) : exec (.retardTimerExpiry i) s = .next u := by
  have hraise := State.raiseAlarm_of_posted (s := s) (ch := s.input i) hu
  rw [State.setInput_self] at hraise
  show execRetardTimerExpiry i s = _
  simp only [execRetardTimerExpiry]
  rw [if_pos ⟨hr, ha⟩, hraise, State.answerLingers_eq_self]
  exact hu.noOffer hno.setInput

/-- OPEN or SHORT accepted from NORMAL or ACTIVE with the trouble stage QUIET: INPUT TROUBLE, the post, and the alarm dropped (R167). -/
theorem State.troubleStep_alarmStep_posts (hl : level.troubled = true) (ho : old.troubled = false) (ht : ch.trouble = .quiet)
    (hu : State.ChannelPostedTo { s.setInput i { ch.dropped with trouble := .raised } with causes := s.causes ||| 0x08 } i (.inputTrouble i)
      ⟨16 + i.val, ch.zone, .trouble⟩ u) :
    ((s.setInput i ch).troubleStep i old level).alarmStep i level = u := by
  have hkey : (s.setInput i ch).troubleKey i = ⟨16 + i.val, ch.zone, .trouble⟩ := by rw [State.troubleKey, State.setInput_input_self]
  rw [State.troubleStep_posts hl ho (by rwa [State.setInput_input_self]), hkey, State.alarmStep_troubled hl, State.raise_setInput,
    State.updInput_setInput]
  refine State.ChannelPostedTo.setInput (f := Channel.dropped) ?_ (Channel.dropped_written _)
  rw [Channel.dropped_trouble]
  exact hu

end Sys2Proof.Machine

open Sys2Proof Sys2Proof.Machine

/-- Settles O53: the trouble stage's moves with the alarm stage behind them, and the retard timer's expiry with each way of the post. -/
theorem inputPosts : Obligations.InputPosts := by
  refine ⟨?_, ?_, fun s u i hr ha hno hu => exec_retardTimerExpiry hr ha hno hu⟩
  · intro s i level event sample hno hacc key ch₀ ch
    have hex := hacc.exec
    refine ⟨fun hl ho => ⟨fun ht u hu => ?_, fun ht => ?_⟩, fun hl ho => ?_, fun hl ho hstands => ⟨fun ht u hu => ?_, fun ht => ?_⟩⟩
    · rw [hex, State.troubleStep_alarmStep_posts (ch := (s.input i).accepting sample level) hl ho ht hu, State.answerLingers_eq_self]
      exact hu.noOffer (State.SameOffers.noOffer (s := s) {} hno)
    · rw [hex, State.troubleStep_raised hl ho (by rwa [State.setInput_input_self]), State.alarmStep_troubled hl, State.raise_setInput,
        State.updInput_setInput, State.answerLingers_eq_self]
      · rfl
      · exact State.SameOffers.noOffer (s := s) {} hno
    · rw [hex, State.troubleStep_same (hl.trans ho.symm), State.alarmStep_troubled hl, State.updInput_setInput, State.answerLingers_eq_self]
      · rfl
      · exact hno.setInput
    · obtain ⟨hst, hnr⟩ := Channel.stands_of hstands
      have hch : ch = (s.input i).accepting sample level := if_neg hnr
      have hkey : (s.setInput i ((s.input i).accepting sample level)).troubleKey i = key := by
        rw [State.troubleKey, State.setInput_input_self]; rfl
      rw [hex, State.troubleStep_restores hl ho (by rwa [State.setInput_input_self]), hkey, hu.setInput, hch,
        State.alarmStep_stands (by rw [State.setInput_input_self]; exact hst), State.answerLingers_eq_self]
      exact (hu.noOffer hno).setInput
    · obtain ⟨hst, hnr⟩ := Channel.stands_of hstands
      have hch : ch = (s.input i).accepting sample level := if_neg hnr
      rw [hex, State.troubleStep_returns hl ho (by rwa [State.setInput_input_self]), State.updInput_setInput, hch,
        State.alarmStep_stands (by rw [State.setInput_input_self]; exact hst), State.answerLingers_eq_self]
      exact hno.setInput
  · intro s i hr ha hno key position raised hw hk htest
    have ex : ∀ u, raised.PostedTo (.inputAlarm i) key u → exec (.retardTimerExpiry i) s = .next u := fun u hu =>
      exec_retardTimerExpiry hr ha hno (by
        rw [State.ChannelPostedTo, if_pos (by rw [State.setInput_input_self]; exact hw)]
        exact hu)
    refine ⟨fun hp => ex _ (.takenIn hk hp), fun hp => ⟨fun hroom => ex _ (.isHeld hk hp hroom), fun k hlen hres hf hd => ?_⟩⟩
    have hroom : ¬ raised.NoRoom key.cls := by
      rintro (h | ⟨hfire, h⟩)
      · exact absurd hlen (Nat.not_lt.mpr h)
      · exact absurd (hres hfire) (Nat.not_lt.mpr h)
    have hfree : raised.heldAt position ≠ some key := by rw [show raised.heldAt position = none from hp]; simp
    refine ex _ (.creates k { raised.setCase k _ with passesDue := raised.passesDue + 1 } htest hk hfree hroom hf (.stays fun d e => hd d ?_))
    rw [← e, List.head?_eq_getElem?]
    rfl
end

