-- ==== Sys2Proof/Proofs/RequestChecks.lean ====
section
/-! CLAIM. Every request is checked for its source first, and one that is refused changes nothing but its reply (O6, O7). -/

namespace Sys2Proof.Machine

variable {u t : State} {st : Status} {b : List Byte}

/-! ### A reply that leaves the part -/

/-- From `u` to `t` a reply was given, and where it is a refusal it has no body and is all that changed (R31, R52). -/
def State.Replies (u t : State) : Prop := ∃ r : Reply, t.reply = some r ∧ (r.status.refusal = true → t = u.answer r.status)

theorem State.Replies.refused (u : State) (st : Status) : u.Replies (u.answer st) := ⟨⟨st, []⟩, rfl, fun _ => rfl⟩

/-- Whatever was done before it, an answer that is no refusal is a reply. -/
theorem State.Replies.accepted (h : st.refusal = false) : u.Replies (t.answer st b) :=
  ⟨⟨st, b⟩, rfl, fun e => absurd e (Bool.eq_false_iff.mp h)⟩

theorem State.Replies.written (changed : Bool) : u.Replies (t.answerWrite changed) := by
  cases changed <;> exact .accepted rfl

theorem State.withHandle_replies {h : Nat} {f : Fin 48 → Case → State} (hf : ∀ k c, u.Replies (f k c)) : u.Replies (u.withHandle h f) := by
  unfold State.withHandle
  split
  · exact .refused u _
  · split
    · exact .refused u _
    · split
      · exact .refused u _
      · exact hf _ _

/-! ### Requests on cases -/

section
variable (u : State)

theorem State.postAdmitted_replies (key : Key) (detail : Option Nat) (mark : Mark) : u.Replies (u.postAdmitted key detail mark) := by
  unfold State.postAdmitted
  split
  · simp only []
    split <;> exact .accepted rfl
  · split
    · exact .refused u _
    · exact .accepted rfl

theorem State.post_replies (src zone cls : Nat) (detail : Option Nat) : u.Replies (u.post src zone cls detail) := by
  unfold State.post
  split
  · exact .refused u _
  · split
    · exact .refused u _
    · split
      · exact .refused u _
      · split
        · exact .refused u _
        · exact u.postAdmitted_replies _ _ _
        · exact u.postAdmitted_replies _ _ _

theorem State.restoreNamed_replies (k : Fin 48) (c : Case) : u.Replies (u.restoreNamed k c) := by
  unfold State.restoreNamed
  split <;> exact .accepted rfl

theorem State.restoreByHandle_replies (src h : Nat) : u.Replies (u.restoreByHandle src h) :=
  State.withHandle_replies fun k c => by
    split
    · exact u.restoreNamed_replies k c
    · exact .refused u _

theorem State.restoreByKey_replies (src zone cls : Nat) : u.Replies (u.restoreByKey src zone cls) := by
  unfold State.restoreByKey
  split
  · exact .refused u _
  · split
    · exact .refused u _
    · split
      · exact .refused u _
      · split
        · exact .refused u _
        · exact u.restoreNamed_replies _ _

theorem State.withdraw_replies (src h : Nat) : u.Replies (u.withdraw src h) :=
  State.withHandle_replies fun k c => by
    split
    · exact .refused u _
    · split
      · exact .refused u _
      · split
        · exact .refused u _
        · split
          · exact .refused u _
          · exact .accepted rfl

theorem State.findKey_replies (ks zone cls : Nat) : u.Replies (u.findKey ks zone cls) := by
  unfold State.findKey
  split
  · exact .refused u _
  · split
    · exact .refused u _
    · split
      · exact .refused u _
      · exact .accepted rfl

theorem State.next_replies (start filter : Nat) : u.Replies (u.next start filter) := by
  unfold State.next
  split
  · exact .refused u _
  · split
    · exact .refused u _
    · simp only []
      split
      · exact .refused u _
      · exact .accepted rfl

theorem State.clear_replies (h : Nat) : u.Replies (u.clear h) :=
  State.withHandle_replies fun k c => by
    split
    · exact .refused u _
    · exact .accepted rfl

theorem State.rearm_replies (h : Nat) : u.Replies (u.rearm h) :=
  State.withHandle_replies fun k c => by
    split
    · exact .accepted rfl
    · exact .refused u _

/-! ### Configuration and reading requests -/

theorem State.writeAdmission_replies (linkSource cls entry : Nat) : u.Replies (u.writeAdmission linkSource cls entry) := by
  unfold State.writeAdmission
  split
  · exact .accepted rfl
  · exact .refused u _

theorem State.writeClass_replies (cls base step cap rb rm : Nat) : u.Replies (u.writeClass cls base step cap rb rm) := by
  unfold State.writeClass
  split
  · exact .refused u _
  · exact .written _

theorem State.writeDestination_replies (dest d1 d2 d3 d4 policy : Nat) (symbols : List Nat) :
    u.Replies (u.writeDestination dest d1 d2 d3 d4 policy symbols) := by
  unfold State.writeDestination
  split
  · split
    · exact .refused u _
    · exact .accepted rfl
  · exact .refused u _

theorem State.enableDest_replies (d : Fin 8) : u.Replies (u.enableDest d) := by
  unfold State.enableDest
  split
  · exact .refused u _
  · split <;> exact .accepted rfl

theorem State.disableDest_replies (d : Fin 8) : u.Replies (u.disableDest d) := by
  unfold State.disableDest
  split <;> exact .accepted rfl

theorem State.setDestinationState_replies (dest state : Nat) : u.Replies (u.setDestinationState dest state) := by
  unfold State.setDestinationState
  split
  · split
    · exact u.enableDest_replies _
    · exact u.disableDest_replies _
  · exact .refused u _

theorem State.writePlan_replies (cls : Nat) (dests : List Nat) (attempts rounds : Nat) :
    u.Replies (u.writePlan cls dests attempts rounds) := by
  unfold State.writePlan
  split
  · exact .written _
  · exact .refused u _

theorem State.writeLine_replies (line enable forced mode : Nat) : u.Replies (u.writeLine line enable forced mode) := by
  unfold State.writeLine
  split
  · exact .accepted rfl
  · exact .refused u _

theorem State.writeInput_replies (input cls zone latch sampling filter retard : Nat) :
    u.Replies (u.writeInput input cls zone latch sampling filter retard) := by
  unfold State.writeInput
  split
  · split
    · exact .refused u _
    · split
      · exact .refused u _
      · exact .written _
  · exact .refused u _

theorem State.setInputState_replies (input state : Nat) : u.Replies (u.setInputState input state) := by
  unfold State.setInputState
  split
  · split
    · exact .accepted rfl
    · split <;> exact .accepted rfl
  · exact .refused u _

theorem State.unlatchInput_replies (input : Nat) : u.Replies (u.unlatchInput input) := by
  unfold State.unlatchInput
  split
  · exact .refused u _
  · simp only []
    split
    · exact .accepted rfl
    · split
      · exact .refused u _
      · exact .accepted rfl

theorem State.writeTestTimer_replies (mode period : Nat) : u.Replies (u.writeTestTimer mode period) := by
  unfold State.writeTestTimer
  split
  · exact .refused u _
  · exact .written _

theorem State.startTest_replies : u.Replies u.startTest := by
  unfold State.startTest
  split <;> exact .accepted rfl

theorem State.readConfig_replies (item index : Nat) : u.Replies (u.readConfig item index) := by
  unfold State.readConfig
  split
  · exact .refused u _
  · exact .accepted rfl

theorem State.readLine_replies (line : Nat) : u.Replies (u.readLine line) := by
  unfold State.readLine
  split
  · exact .refused u _
  · exact .accepted rfl

theorem State.readDestination_replies (dest : Nat) : u.Replies (u.readDestination dest) := by
  unfold State.readDestination
  split
  · exact .refused u _
  · exact .accepted rfl

/-- READ INPUT may draw a free value behind its answer. -/
theorem State.readInput_replies (input : Nat) : u.Replies (u.readInput input) := by
  unfold State.readInput
  split
  · exact .refused u _
  · simp only []
    split
    · exact ⟨_, rfl, fun e => by cases e⟩
    · exact .accepted rfl

end

/-! ### Every request -/

/-- The source check of a request by its code (R32): a controller request, or one that any requester may make. -/
def State.checked (u : State) (code src : Nat) (f : State → State) : State :=
  if code ∈ controllerCodes then u.controller src f else u.anySource src f

theorem State.checked_badValue {code src : Nat} (h : ¬ (src ≤ 15 ∨ src = 31)) (f : State → State) : u.checked code src f = u.answer .badValue := by
  rw [not_or] at h
  unfold State.checked State.controller State.anySource
  rw [if_neg h.2, if_neg h.1, if_neg (not_or.mpr h), ite_self]

theorem State.checked_notOwner {code src : Nat} (h : src ≤ 15) (hc : code ∈ controllerCodes) (f : State → State) :
    u.checked code src f = u.answer .notOwner := by
  unfold State.checked State.controller
  rw [if_pos hc, if_neg (by omega), if_pos h]

theorem State.checked_replies (code src : Nat) {f : State → State} (hf : u.Replies (f u)) : u.Replies (u.checked code src f) := by
  unfold State.checked State.controller State.anySource
  split
  · split
    · exact hf
    · split <;> exact .refused u _
  · split
    · exact hf
    · exact .refused u _

/-- The frame of a request is taken, its source checked, and it is then answered by some operation (R31, R32, R179). -/
def Handled (i : Instr) (code : Nat) (body : List Nat) : Prop :=
  ∃ src rest f, body = src :: rest ∧ (∀ s, exec i s = .next ((s.takeFrame (rest.length + 3)).checked code src f)) ∧
    ∀ u : State, u.Replies (f u)

section
variable {i : Instr} {code src len : Nat} {rest : List Nat} {f : State → State}

theorem Handled.controller (hex : ∀ s, exec i s = .next ((s.takeFrame len).controller src f)) (hr : ∀ u : State, u.Replies (f u))
    (hc : code ∈ controllerCodes := by decide) (hl : len = rest.length + 3 := by rfl) : Handled i code (src :: rest) :=
  ⟨src, rest, f, rfl, fun s => by rw [hex, hl, State.checked, if_pos hc], hr⟩

theorem Handled.anySource (hex : ∀ s, exec i s = .next ((s.takeFrame len).anySource src f)) (hr : ∀ u : State, u.Replies (f u))
    (hc : code ∉ controllerCodes := by decide) (hl : len = rest.length + 3 := by rfl) : Handled i code (src :: rest) :=
  ⟨src, rest, f, rfl, fun s => by rw [hex, hl, State.checked, if_neg hc], hr⟩

end

/-- A source that is no requester is a value out of range for POST too, which checks it as the source of a link (R32, R36). -/
theorem State.post_anySource (u : State) (src zone cls : Nat) (detail : Option Nat) :
    u.post src zone cls detail = u.anySource src fun v => v.post src zone cls detail := by
  unfold State.anySource
  split
  · rfl
  · next h => rw [State.post, indexOf, dif_neg (by omega)]

/-- Every request is handled so, by the code and the body of its frame. -/
theorem request_handled {i : Instr} {code : Nat} {body : List Nat} (h : encodeRequest i = some (code, body)) :
    Handled i code body := by
  cases i with
  | post src zone cls detail =>
    cases detail with
    | none => cases h; exact .anySource (fun _ => congrArg _ (State.post_anySource ..)) fun u => u.post_replies _ _ _ _
    | some d => cases h; exact .anySource (fun _ => congrArg _ (State.post_anySource ..)) fun u => u.post_replies _ _ _ _
  | restore src target =>
    cases target with
    | byHandle h' => cases h; exact .anySource (fun _ => rfl) fun u => u.restoreByHandle_replies _ _
    | byKey zone cls => cases h; exact .anySource (fun _ => rfl) fun u => u.restoreByKey_replies _ _ _
  | withdraw => cases h; exact .anySource (fun _ => rfl) fun u => u.withdraw_replies _ _
  | find => cases h; exact .anySource (fun _ => rfl) fun u => u.findKey_replies _ _ _
  | readCase =>
    cases h; exact .anySource (fun _ => rfl) fun u => State.withHandle_replies fun _ _ => .accepted rfl
  | nextCase => cases h; exact .anySource (fun _ => rfl) fun u => u.next_replies _ _
  | clear => cases h; exact .controller (fun _ => rfl) fun u => u.clear_replies _
  | rearm => cases h; exact .controller (fun _ => rfl) fun u => u.rearm_replies _
  | writeAdmission => cases h; exact .controller (fun _ => rfl) fun u => u.writeAdmission_replies _ _ _
  | writeCaseLimits => cases h; exact .controller (fun _ => rfl) fun u => .written _
  | writeClass => cases h; exact .controller (fun _ => rfl) fun u => u.writeClass_replies _ _ _ _ _ _
  | writeDestination =>
    cases h; exact .controller (hl := by simp; omega) (fun _ => rfl) fun u => u.writeDestination_replies _ _ _ _ _ _ _
  | setDestinationState =>
    cases h; exact .controller (fun _ => rfl) fun u => u.setDestinationState_replies _ _
  | writePlan =>
    cases h; exact .controller (hl := by simp; omega) (fun _ => rfl) fun u => u.writePlan_replies _ _ _ _
  | writeLine => cases h; exact .controller (fun _ => rfl) fun u => u.writeLine_replies _ _ _ _
  | writeLineTiming => cases h; exact .controller (fun _ => rfl) fun u => .written _
  | writeExchangeTiming => cases h; exact .controller (fun _ => rfl) fun u => .written _
  | writeInput => cases h; exact .controller (fun _ => rfl) fun u => u.writeInput_replies _ _ _ _ _ _ _
  | setInputState => cases h; exact .controller (fun _ => rfl) fun u => u.setInputState_replies _ _
  | unlatchInput => cases h; exact .controller (fun _ => rfl) fun u => u.unlatchInput_replies _
  | writeTestTimer => cases h; exact .controller (fun _ => rfl) fun u => u.writeTestTimer_replies _ _
  | startTest => cases h; exact .controller (fun _ => rfl) fun u => u.startTest_replies
  | readConfig => cases h; exact .anySource (fun _ => rfl) fun u => u.readConfig_replies _ _
  | readLine => cases h; exact .anySource (fun _ => rfl) fun u => u.readLine_replies _
  | readDestination => cases h; exact .anySource (fun _ => rfl) fun u => u.readDestination_replies _
  | readInput => cases h; exact .anySource (fun _ => rfl) fun u => u.readInput_replies _
  | readStatus => cases h; exact .controller (fun _ => rfl) fun u => .accepted rfl
  | writeMask => cases h; exact .controller (fun _ => rfl) fun u => .accepted rfl
  | readTime => cases h; exact .anySource (fun _ => rfl) fun u => .accepted rfl
  | softReset => cases h; exact .controller (fun _ => rfl) fun u => .accepted rfl
  | _ => cases h

/-- Every request frame, malformed or not, is taken and then replied to. -/
theorem exec_replies {i : Instr} {s t : State} (h : (encodeRequest i).isSome ∨ ∃ f, i = .badRequest f) (hex : exec i s = .next t) :
    ∃ len, (s.takeFrame len).Replies t := by
  rcases h with h | ⟨frame, rfl⟩
  · obtain ⟨⟨code, body⟩, h⟩ := Option.isSome_iff_exists.mp h
    obtain ⟨src, rest, f, -, hf, hr⟩ := request_handled h
    rw [hf] at hex
    cases hex
    exact ⟨_, State.checked_replies code src (hr _)⟩
  · cases hex
    exact ⟨_, .refused _ _⟩

end Sys2Proof.Machine

open Sys2Proof Sys2Proof.Machine

/-- Settles O6: every request is handled by the check of its source and what it does then (`request_handled`). -/
theorem sourceCheckedFirst : Obligations.SourceCheckedFirst := by
  intro i code src rest s h
  obtain ⟨src', rest', f, e, hf, -⟩ := request_handled h
  cases e
  rw [hf]
  exact ⟨fun hs => congrArg _ (State.checked_badValue hs f), fun hs hc => congrArg _ (State.checked_notOwner hs hc f)⟩

/-- Settles O7: a refusal is an answer to the state the taken frame left, whose frame is known (`takeFrame_eq`). -/
theorem refusalChangesNothing : Obligations.RefusalChangesNothing := by
  intro i s t r h hex hr href
  obtain ⟨len, r', hr', ht⟩ := exec_replies h hex
  cases hr.symm.trans hr'
  have ht := ht href
  have hbody : r = ⟨r.status, []⟩ := by rw [ht] at hr; exact (Option.some.inj hr).symm
  refine ⟨congrArg Reply.body hbody, ?_⟩
  rw [hbody, ht, State.takeFrame_eq]
  rfl
end

