-- ==== Sys2Proof/Proofs/CaseQueries.lean ====
section
/-! CLAIM. WITHDRAW's checks in their order, and the requests that look cases up: FIND, READ CASE and NEXT CASE (O12, O15, O16, O17). -/

namespace Sys2Proof.Machine

variable {s : State} {k : Fin 48} {x : Case} {h src : Nat}

/-! ### Handles -/

theorem State.withHandle_badValue (hh : 1023 < h) (f : Fin 48 → Case → State) : s.withHandle h f = s.answer .badValue := if_pos hh

theorem State.withHandle_noCase (hh : h ≤ 1023) (hk : s.caseOfHandle h = none) (f : Fin 48 → Case → State) :
    s.withHandle h f = s.answer .noCase := by
  rw [State.withHandle, if_neg (Nat.not_lt.mpr hh), hk]

/-- A handle that names a slot names the case in it. -/
theorem State.caseOfHandle_caseAt (hk : s.caseOfHandle h = some k) : ∃ x, s.caseAt k = some x := by
  obtain ⟨-, hx, -⟩ := s.caseOfHandle_eq_some.mp hk
  exact Option.isSome_iff_exists.mp hx

/-- The handle of a slot is the one that names it (R1). -/
theorem State.handleOf_eq (hk : s.caseOfHandle h = some k) : s.handleOf k = h := by
  obtain ⟨hslot, -, hgen⟩ := s.caseOfHandle_eq_some.mp hk
  rw [State.handleOf, hgen]
  omega

/-! ### WITHDRAW -/

theorem exec_withdraw (hs : src ≤ 15 ∨ src = 31) : exec (.withdraw src h) s = .next ((s.takeFrame 5).withdraw src h) :=
  congrArg _ (State.anySource_eq hs _)

theorem State.withdraw_eq (hk : s.caseOfHandle h = some k) (hx : s.caseAt k = some x) :
    s.withdraw src h =
      if x.key.source ≠ src then s.answer .notOwner
      else if x.key.cls = .fire then s.answer .denied
      else if x.reported = true then s.answer .delivered
      else if x.state = .sending then s.answer .inFlight
      else (s.retire k).answerLingers.answer .ok := by
  rw [State.withdraw, State.withHandle_eq hk hx]
  simp only [Case.isFire, decide_eq_true_eq]

/-! ### FIND -/

theorem clsOfCode_code (c : Cls) : clsOfCode c.code = some c := by cases c <;> rfl

/-- No class has a code outside 1 to 5 (R183). -/
theorem clsOfCode_eq_none {code : Nat} (hc : code = 0 ∨ 5 < code) : clsOfCode code = none := by
  rcases hc with rfl | hc
  · rfl
  · match code, hc with
    | n + 6, _ => rfl

/-- Where no two cases have one key, a key is found where its case stands (R3). -/
theorem State.KeysDistinct.caseOfKey (hd : s.KeysDistinct) (hx : s.caseAt k = some x) : s.caseOfKey x.key = some k := by
  cases hf : s.caseOfKey x.key with
  | none => exact absurd rfl (s.caseOfKey_eq_none.mp hf k x hx)
  | some j =>
    obtain ⟨y, hy, hkey⟩ := s.caseOfKey_some hf
    rw [hd j k y x hy hx hkey]

/-! ### READ CASE -/

theorem exec_readCase (hs : src ≤ 15 ∨ src = 31) : exec (.readCase src h) s = .next ((s.takeFrame 5).withHandle h fun k x =>
    (s.takeFrame 5).answer .ok ((s.takeFrame 5).caseBody k x)) :=
  congrArg _ (State.anySource_eq hs _)

theorem exec_readCase_found (hs : src ≤ 15 ∨ src = 31) (hk : s.caseOfHandle h = some k) (hx : s.caseAt k = some x) :
    exec (.readCase src h) s = .next ((s.takeFrame 5).answer .ok ((s.takeFrame 5).caseBody k x)) := by
  rw [exec_readCase hs, State.withHandle_eq (by rwa [State.takeFrame_caseOfHandle]) (by rwa [State.takeFrame_caseAt])]

/-- The reply's 29 bytes, one by one (R184). -/
theorem State.caseBody_eq (s : State) (k : Fin 48) (x : Case) : s.caseBody k x =
    [byteOf (s.handleOf k / 256), byteOf (s.handleOf k), byteOf x.key.source, byteOf (x.key.zone / 256), byteOf x.key.zone,
      byteOf x.key.cls.code, byteOf x.flags, byteOf (x.detail.getD 0 / 256), byteOf (x.detail.getD 0), byteOf x.state.code,
      byteOf x.owed.length, byteOf (x.owedCode 0), byteOf (x.owedCode 1), byteOf (x.owedCode 2), byteOf x.chatter,
      byteOf (x.posted.toNat / 16777216), byteOf (x.posted.toNat / 65536), byteOf (x.posted.toNat / 256), byteOf x.posted.toNat,
      byteOf x.progress.step, byteOf x.progress.attempts, byteOf x.progress.round, byteOf x.failed,
      byteOf (x.retry.toNat / 16777216), byteOf (x.retry.toNat / 65536), byteOf (x.retry.toNat / 256), byteOf x.retry.toNat,
      byteOf x.last.code, byteOf ((x.line.map Fin.val).getD 0)] := by
  delta State.caseBody
  simp only [field1, field2, field4, List.cons_append, List.nil_append]

/-- Six bits packed from the lowest up are read back one by one, and the two bits above them are 0. -/
theorem packed_bits : ∀ b₀ b₁ b₂ b₃ b₄ b₅ : Bool,
    let byte := byteOf ((if b₀ then 1 else 0) + (if b₁ then 2 else 0) + (if b₂ then 4 else 0) + (if b₃ then 8 else 0) +
      (if b₄ then 16 else 0) + (if b₅ then 32 else 0))
    byte.getLsbD 0 = b₀ ∧ byte.getLsbD 1 = b₁ ∧ byte.getLsbD 2 = b₂ ∧ byte.getLsbD 3 = b₃ ∧ byte.getLsbD 4 = b₄ ∧
      byte.getLsbD 5 = b₅ ∧ byte.getLsbD 6 = false ∧ byte.getLsbD 7 = false := by
  decide

/-- The bits of the flags byte (R184). -/
theorem Case.flags_bits (x : Case) :
    ((byteOf x.flags).getLsbD 0 = true ↔ x.detail.isSome) ∧ ((byteOf x.flags).getLsbD 1 = true ↔ x.mark = .flagged) ∧
    ((byteOf x.flags).getLsbD 2 = true ↔ x.condition = .restored) ∧ ((byteOf x.flags).getLsbD 3 = true ↔ x.reported = true) ∧
    ((byteOf x.flags).getLsbD 4 = true ↔ x.state = .sending) ∧ ((byteOf x.flags).getLsbD 5 = true ↔ x.line.isSome) ∧
    (byteOf x.flags).getLsbD 6 = false ∧ (byteOf x.flags).getLsbD 7 = false := by
  have hp := packed_bits x.detail.isSome (decide (x.mark = .flagged)) (decide (x.condition = .restored)) x.reported
    (decide (x.state = .sending)) x.line.isSome
  simp only [decide_eq_true_eq] at hp
  obtain ⟨h0, h1, h2, h3, h4, h5, h6, h7⟩ := hp
  unfold Case.flags
  exact ⟨by rw [h0], by rw [h1, decide_eq_true_eq], by rw [h2, decide_eq_true_eq], by rw [h3], by rw [h4, decide_eq_true_eq], by rw [h5],
    h6, h7⟩

/-! ### NEXT CASE -/

/-- The first index of which a property holds is the one a search finds. -/
theorem find?_finRange_eq {n : Nat} {p : Fin n → Bool} {i : Fin n} (hi : p i = true) (first : ∀ j, j < i → p j = false) :
    (List.finRange n).find? p = some i := by
  rw [List.find?_eq_some_iff_getElem]
  refine ⟨hi, i.val, by simp, by simp, fun j hj => ?_⟩
  simpa using first ⟨j, hj.trans i.isLt⟩ hj

theorem State.matchesFrom_iff (low : Nat) (filter : Option CaseState) :
    s.matchesFrom low filter k = true ↔ low ≤ k.val ∧ ∃ x, s.caseAt k = some x ∧ ∀ st, filter = some st → x.state = st := by
  unfold State.matchesFrom
  cases s.caseAt k with
  | none => simp
  | some c => cases filter <;> simp

section
variable {start code : Nat} {filter : Option CaseState} (hs : start ≤ 1023 ∨ start = 65535) (hf : filterOfCode code = some filter)
include hs hf

theorem State.next_found
    (h : (List.finRange 48).find? (s.matchesFrom (if start = 65535 then 0 else start % 64 + 1) filter) = some k) :
    s.next start code = s.answerHandle .ok k := by
  rw [State.next, if_neg (by omega), hf]
  simp only [h]

theorem State.next_noCase
    (h : (List.finRange 48).find? (s.matchesFrom (if start = 65535 then 0 else start % 64 + 1) filter) = none) :
    s.next start code = s.answer .noCase := by
  rw [State.next, if_neg (by omega), hf]
  simp only [h]

end

/-- A filter code in range is 5 for every state or the code of one (R46, R183). -/
theorem filterOfCode_of_le {code : Nat} (hc : code ≤ 5) (h4 : code ≠ 4) :
    ∃ filter, filterOfCode code = some filter ∧
      ∀ state : CaseState, (∀ st, filter = some st → state = st) ↔ (code = 5 ∨ code = state.code) := by
  match code, hc, h4 with
  | 0, _, _ => exact ⟨_, rfl, fun state => by cases state <;> simp [CaseState.code]⟩
  | 1, _, _ => exact ⟨_, rfl, fun state => by cases state <;> simp [CaseState.code]⟩
  | 2, _, _ => exact ⟨_, rfl, fun state => by cases state <;> simp [CaseState.code]⟩
  | 3, _, _ => exact ⟨_, rfl, fun state => by cases state <;> simp [CaseState.code]⟩
  | 5, _, _ => exact ⟨_, rfl, fun state => by simp⟩

theorem filterOfCode_eq_none {code : Nat} (hc : code = 4 ∨ 5 < code) : filterOfCode code = none := by
  rcases hc with rfl | hc
  · rfl
  · match code, hc with
    | n + 6, _ => rfl

end Sys2Proof.Machine

open Sys2Proof Sys2Proof.Machine

/-- Settles O12: source and handle first, then the chain of checks of the case named (`withdraw_eq`). -/
theorem withdrawChecks : Obligations.WithdrawChecks := by
  intro s src h refused
  split
  · next hbad =>
    show exec _ s = _
    by_cases hs : src ≤ 15 ∨ src = 31
    · rw [exec_withdraw hs, State.withdraw, State.withHandle_badValue (hbad.resolve_left (not_not.mpr hs))]
      rfl
    · exact congrArg _ (if_neg hs)
  · next hgood =>
    rw [not_or, not_not, not_lt] at hgood
    obtain ⟨hs, hh⟩ := hgood
    cases hk : s.caseOfHandle h with
    | none =>
      show exec _ s = _
      rw [exec_withdraw hs, State.withdraw, State.withHandle_noCase hh (by rwa [State.takeFrame_caseOfHandle])]
      rfl
    | some k =>
      obtain ⟨x, hx⟩ := State.caseOfHandle_caseAt hk
      have hex := exec_withdraw (s := s) (h := h) hs
      rw [State.withdraw_eq (k := k) (x := x) (by rwa [State.takeFrame_caseOfHandle]) (by rwa [State.takeFrame_caseAt])] at hex
      refine ⟨x, hx, ?_⟩
      split_ifs at hex ⊢
      · exact hex
      · exact hex
      · exact hex
      · exact hex
      · exact ⟨_, hex, rfl⟩

/-- Settles O15: a key in range is looked up, and found where its one case stands (`KeysDistinct.caseOfKey`). -/
theorem findLooksUp : Obligations.FindLooksUp := by
  intro s src ks zone code hs answered
  have hex : exec (.find src ks zone code) s = .next ((s.takeFrame 7).findKey ks zone code) := congrArg _ (State.anySource_eq hs _)
  refine ⟨fun hbad => ?_, fun c hc hks hz => ⟨fun k x hd hx hkey => ?_, fun hnone => ?_⟩⟩
  all_goals
    show exec _ s = _
    rw [hex, State.findKey]
  · by_cases hrange : 24 < ks ∨ 999 < zone
    · rw [if_pos hrange]; rfl
    · rw [if_neg hrange, clsOfCode_eq_none (by omega)]; rfl
  · have hk : s.caseOfKey ⟨ks, zone, c⟩ = some k := hkey ▸ hd.caseOfKey hx
    rw [if_neg (by omega), ← hc, clsOfCode_code]
    simp only [State.takeFrame_caseOfKey, hk]
    rw [State.answerHandle, State.takeFrame_handleOf]
    rfl
  · rw [if_neg (by omega), ← hc, clsOfCode_code]
    simp only [State.takeFrame_caseOfKey, s.caseOfKey_eq_none.mpr hnone]
    rfl

/-- Settles O16: the body is a list of 29 bytes, read off position by position, the flags by their bits. -/
theorem readCaseLayout : Obligations.ReadCaseLayout := by
  refine ⟨fun s src h k x hs hk hx => ?_, fun s src h hs => ⟨fun hh => ?_, fun hh hk => ?_⟩⟩
  · refine ⟨(s.takeFrame 5).caseBody k x, exec_readCase_found hs hk hx, ?_⟩
    rw [State.caseBody_eq, State.takeFrame_handleOf, State.handleOf_eq hk]
    refine ⟨rfl, rfl, rfl, rfl, rfl, fun f hf => ?_, rfl, rfl, rfl, fun j hj => ?_, rfl, rfl, rfl, rfl, rfl, rfl, rfl, rfl, rfl⟩
    · have hf : byteOf x.flags = f := Option.some.inj hf
      exact hf ▸ x.flags_bits
    · match j, hj with
      | 0, _ | 1, _ | 2, _ => rfl
  · rw [exec_readCase hs, State.withHandle_badValue hh]; rfl
  · rw [exec_readCase hs, State.withHandle_noCase hh (by rwa [State.takeFrame_caseOfHandle])]; rfl

/-- Settles O17: the slots the scan accepts are those that fit (`matchesFrom_iff`), and the search finds the first of them. -/
theorem nextCaseScans : Obligations.NextCaseScans := by
  intro s src start code hs answered low fits
  have hex : exec (.nextCase src start code) s = .next ((s.takeFrame 6).next start code) := congrArg _ (State.anySource_eq hs _)
  refine ⟨fun hbad => ?_, fun hstart hc h4 => ?_⟩
  · show exec _ s = _
    rw [hex, State.next]
    by_cases hstart : 1023 < start ∧ start ≠ 65535
    · rw [if_pos hstart]; rfl
    · rw [if_neg hstart, filterOfCode_eq_none (hbad.resolve_left hstart)]; rfl
  · obtain ⟨filter, hfilter, hstates⟩ := filterOfCode_of_le hc h4
    have hfits : ∀ k, (s.takeFrame 6).matchesFrom low filter k = true ↔ fits k := fun k => by
      simp only [State.matchesFrom_iff, State.takeFrame_caseAt, hstates, fits]
    have hnot : ∀ k, ¬ fits k → (s.takeFrame 6).matchesFrom low filter k = false := fun k hk =>
      Bool.eq_false_iff.mpr (mt (hfits k).mp hk)
    refine ⟨fun k hk first => ?_, fun hnone => ?_⟩
    · show exec _ s = _
      rw [hex, State.next_found hstart hfilter (find?_finRange_eq ((hfits k).mpr hk) fun j hj => hnot j (first j hj)),
        State.answerHandle, State.takeFrame_handleOf]
      rfl
    · show exec _ s = _
      rw [hex, State.next_noCase hstart hfilter (List.find?_eq_none.mpr fun k _ => Bool.eq_false_iff.mp (hnot k (hnone k)))]
      rfl
end

