-- ==== Sys2Proof/Proofs/Creation.lean ====
section
/-! CLAIM. POST turned away or creating its case, and REARM, which starts a plan again (O10, O14). -/

namespace Sys2Proof.Machine

variable {s : State} {k : Fin 48} {x : Case}

/-! ### A case at the start of its plan -/

/-- The current destination of a case at the start of its plan is the plan's first entry (R80). -/
theorem State.currentDest_start (hp : x.progress = ⟨0, 0, 0⟩) : s.currentDest x = (s.plan x.key.cls).dests.head? := by
  rw [State.currentDest, hp, List.head?_eq_getElem?]

/-- A case at the start of its plan waits there where the first entry is usable or the plan empty, and the Arbiter is told (R10, R67). -/
theorem State.settle_start (hx : s.caseAt k = some x) (hp : x.progress = ⟨0, 0, 0⟩)
    (hd : ∀ d : Fin 8, (s.plan x.key.cls).dests.head? = some d → s.usable d = true) : s.settle k = s.notify := by
  rw [State.settle_eq s k x hx, if_pos]
  rw [State.currentDest_start hp]
  exact hd

/-- A case written at the start of its plan makes no offer where nobody lingers on the first entry. -/
theorem State.NoOffer.setCase_start (h : s.NoOffer) (hp : x.progress = ⟨0, 0, 0⟩)
    (hd : ∀ d : Fin 8, (s.plan x.key.cls).dests.head? = some d → s.NobodyOn d) : (s.setCase k x).NoOffer :=
  h.setCase k x fun _ d e => hd d (State.currentDest_start hp ▸ e)

/-- A sweep of a plan without a usable entry strands (R65). -/
theorem Plan.sweep_strands (p : Plan) {usable : Fin 8 → Bool} (h : ∀ d ∈ p.dests, usable d = false) (moves step round : Nat) :
    ∃ q, p.sweep usable moves step round = .strand q := by
  cases hs : p.sweep usable moves step round with
  | strand q => exact ⟨q, rfl⟩
  | rest d q =>
    obtain ⟨hd, hu, -⟩ := Plan.sweep_rest p usable hs
    rw [h d (List.mem_of_getElem? hd)] at hu
    cases hu

/-- A case at the start of a plan without a usable entry strands at once (R10, R65, R66). -/
theorem State.settle_strands (hx : s.caseAt k = some x) (hp : x.progress = ⟨0, 0, 0⟩) (hne : (s.plan x.key.cls).dests ≠ [])
    (hu : ∀ d ∈ (s.plan x.key.cls).dests, s.usable d = false) : ∃ q, q.attempts = 0 ∧ s.settle k = s.strand k x q := by
  obtain ⟨d, hd⟩ := Option.isSome_iff_exists.mp (List.isSome_head?.mpr hne)
  obtain ⟨q, hq⟩ := Plan.sweep_strands _ hu (s.plan x.key.cls).dests.length x.progress.step x.progress.round
  refine ⟨q, Plan.sweep_strand _ _ hq, ?_⟩
  rw [State.settle_eq s k x hx, if_neg, State.advance_strands hx hne hq]
  intro hall
  have := hall d (State.currentDest_start hp ▸ hd)
  rw [hu d (List.mem_of_mem_head? hd)] at this
  cases this

/-- A frame taken leaves a plan's first entry usable with nobody lingering on it. -/
theorem State.takeFrame_start {c : Cls} (hd : ∀ d : Fin 8, (s.plan c).dests.head? = some d → s.usable d = true ∧ s.NobodyOn d) (len : Nat) :
    ∀ d : Fin 8, ((s.takeFrame len).plan c).dests.head? = some d → (s.takeFrame len).usable d = true ∧ (s.takeFrame len).NobodyOn d := by
  rw [State.takeFrame_eq]
  exact hd

/-! ### POST -/

/-- A POST whose checks fail before its entry is looked up (R36). -/
theorem State.post_badValue {src zone code : Nat} (h : 15 < src ∨ 999 < zone ∨ code = 0 ∨ 4 < code) (detail : Option Nat) :
    s.post src zone code detail = s.answer .badValue := by
  unfold State.post
  by_cases hs : src < 16
  · rw [indexOf, dif_pos hs]
    simp only []
    by_cases hz : 999 < zone
    · rw [if_pos hz]
    · rw [if_neg hz, postableOfCode_eq_none (by omega)]
  · rw [indexOf, dif_neg hs]

theorem State.post_denied (i : Fin 16) {zone code : Nat} {c : Cls} {p : Fin 4} (hz : zone ≤ 999)
    (hc : postableOfCode code = some (c, p)) (ha : s.admissionOf i p = .deny) (detail : Option Nat) :
    s.post i.val zone code detail = s.answer .denied := by
  unfold State.post
  simp only [indexOf_val, if_neg (Nat.not_lt.mpr hz), hc, ha]

theorem State.postAdmitted_full {key : Key} (hk : s.caseOfKey key = none) (hr : s.NoRoom key.cls) (detail : Option Nat) (mark : Mark) :
    s.postAdmitted key detail mark = s.answer .full := by
  rw [State.postAdmitted, hk]
  simp only [State.acceptPost_full (State.hasRoom_false hr)]

/-- TABLE LOW is raised with a non-FIRE admission that leaves the free capacity at or below the threshold, and nothing else changes (R18). -/
theorem State.noteAdmission_causes (c : Cls) : s.noteAdmission c = { s with
    causes := s.causes ||| (if c ≠ .fire ∧ s.freeCapacity ≤ s.lowThreshold then 0x10 else 0) } := by
  unfold State.noteAdmission
  split
  · rfl
  · simp

/-- A non-FIRE case written to a free slot takes one of the free capacity (R18). -/
theorem State.freeCapacity_setCase (hk : s.caseAt k = none) (hf : x.key.cls ≠ .fire) :
    (s.setCase k x).freeCapacity = 48 - s.reserve - (s.otherCases + 1) := by
  rw [State.freeCapacity, State.otherCount_setCase s hk (by simp [Case.isFire, hf]), State.otherCount_eq, State.setCase_reserve]

/-- A case created where its plan's first entry is usable or its plan empty waits there (R3, R10, R18). -/
theorem State.createAt_start {key : Key} (hk : s.caseAt k = none)
    (hd : ∀ d : Fin 8, (s.plan key.cls).dests.head? = some d → s.usable d = true) (detail : Option Nat) (mark : Mark) :
    s.createAt k key detail mark = { s.setCase k (Case.new key detail mark s.clock) with
      causes := s.causes ||| (if key.cls ≠ .fire ∧ 48 - s.reserve - (s.otherCases + 1) ≤ s.lowThreshold then 0x10 else 0)
      passesDue := s.passesDue + 1 } := by
  have hlow : (key.cls ≠ .fire ∧ (s.setCase k (Case.new key detail mark s.clock)).freeCapacity ≤ s.lowThreshold) ↔
      (key.cls ≠ .fire ∧ 48 - s.reserve - (s.otherCases + 1) ≤ s.lowThreshold) :=
    and_congr_right fun hf => by rw [State.freeCapacity_setCase hk hf]
  rw [State.createAt, State.noteAdmission_causes]
  simp only [State.setCase_lowThreshold, hlow]
  exact State.settle_start (x := Case.new key detail mark s.clock) ((s.setCase_caseAt k k _).trans (if_pos rfl)) rfl hd

/-! ### REARM -/

theorem exec_rearm (s : State) (h : Nat) : exec (.rearm 31 h) s = .next ((s.takeFrame 5).rearm h) := rfl

theorem State.rearm_wrongState {h : Nat} (hk : s.caseOfHandle h = some k) (hx : s.caseAt k = some x) (hs : x.state ≠ .stranded) :
    s.rearm h = s.answer .wrongState := by
  rw [State.rearm, State.withHandle_eq hk hx, if_neg hs]

/-- A case that was STRANDED, at the start of its plan again (R49). -/
def Case.rearmed (x : Case) (now : Time) : Case := { x with state := .pending, progress := ⟨0, 0, 0⟩, failed := 0, retry := now }

/-- A REARM that leaves the case `y` in the slot, and no lingering line an offer, answers the state of `y` (R50). -/
theorem State.rearm_eq {h : Nat} (hk : s.caseOfHandle h = some k) (hx : s.caseAt k = some x) (hs : x.state = .stranded) {t : State} {y : Case}
    (ht : (s.setCase k (x.rearmed s.clock)).settle k = t) (hy : t.caseAt k = some y) (hno : t.NoOffer) :
    s.rearm h = t.answer .ok (field1 y.state.code) := by
  have hr : s.rearmCase k x = t := ht
  rw [State.rearm, State.withHandle_eq hk hx, if_pos hs]
  simp only [hr, hy, Option.map_some, Option.getD_some, State.answerLingers_eq_self t hno]

theorem State.rearm_rests {h : Nat} (hk : s.caseOfHandle h = some k) (hx : s.caseAt k = some x) (hs : x.state = .stranded) (hno : s.NoOffer)
    (hd : ∀ d : Fin 8, (s.plan x.key.cls).dests.head? = some d → s.usable d = true ∧ s.NobodyOn d) :
    s.rearm h = { s.setCase k (x.rearmed s.clock) with passesDue := s.passesDue + 1, reply := some ⟨.ok, [0]⟩ } := by
  have hy : (s.setCase k (x.rearmed s.clock)).caseAt k = some (x.rearmed s.clock) := by simp
  have hno' : (s.setCase k (x.rearmed s.clock)).NoOffer := hno.setCase_start rfl fun d e => (hd d e).2
  rw [State.rearm_eq hk hx hs (State.settle_start hy rfl fun d e => (hd d e).1) hy (State.SameOffers.noOffer {} hno')]
  rfl

theorem State.rearm_strands {h : Nat} (hk : s.caseOfHandle h = some k) (hx : s.caseAt k = some x) (hs : x.state = .stranded) (hno : s.NoOffer)
    (hne : (s.plan x.key.cls).dests ≠ []) (hu : ∀ d ∈ (s.plan x.key.cls).dests, s.usable d = false) :
    ∃ q : Progress, q.attempts = 0 ∧ s.rearm h = { s.setCase k { x with progress := q, failed := 0, retry := s.clock } with
      causes := s.causes ||| 0x01
      passesDue := s.passesDue + (if x.key.cls = .fire ∧ s.fireWaiting = true then 1 else 0)
      reply := some ⟨.ok, [3]⟩ } := by
  have hy : (s.setCase k (x.rearmed s.clock)).caseAt k = some (x.rearmed s.clock) := by simp
  obtain ⟨q, hq, hst⟩ := State.settle_strands hy rfl hne hu
  rw [State.strand_eq, State.setCase_setCase] at hst
  have hstays : { x.rearmed s.clock with state := .stranded, progress := q } = { x with progress := q, failed := 0, retry := s.clock } := by
    rw [← hs]; rfl
  rw [hstays] at hst
  have hno' : (s.setCase k { x with progress := q, failed := 0, retry := s.clock }).NoOffer := hno.setCase k _ fun hp => by
    cases hs.symm.trans hp
  refine ⟨q, hq, ?_⟩
  rw [State.rearm_eq hk hx hs hst ((s.setCase_caseAt k k _).trans (if_pos rfl)) (State.SameOffers.noOffer {} hno'), hs]
  rfl

end Sys2Proof.Machine

open Sys2Proof Sys2Proof.Machine

/-- Settles O10: the checks in their order, then the creation at the start of the plan (`createAt_start`), which makes no offer. -/
theorem postAnswered : Obligations.PostAnswered := by
  refine ⟨fun s src zone code detail => ?_, fun s i zone code detail c p k hz hc ha hn hlen hres hl hno hd => ?_⟩
  · intro refused
    refine ⟨fun hbad => congrArg _ (State.post_badValue hbad detail), fun i c p hi hz hc => ?_⟩
    subst hi
    refine ⟨fun ha => ?_, fun ha hn hroom => ?_⟩
    · exact congrArg _ (State.post_denied i hz hc (by rwa [State.takeFrame_admissionOf]) detail)
    · show exec _ s = _
      rw [exec_post_admitted i detail hz hc ha, State.postAdmitted_full (by rwa [State.takeFrame_caseOfKey])
        ((s.takeFrame_noRoom _ c).mpr hroom)]
      rfl
  · generalize hm : (if s.admissionOf i p = .flag then Mark.flagged else .verified) = mark
    generalize hu : s.takeFrame (if detail.isSome then 8 else 6) = u
    have htest : c ≠ .test := postableOfCode_cls hc
    have hd' : ∀ d : Fin 8, (u.plan c).dests.head? = some d → u.usable d = true ∧ u.NobodyOn d := hu ▸ State.takeFrame_start hd _
    have hfree : u.caseAt k = none := by rw [← hu, State.takeFrame_caseAt]; exact s.lowestFree_some hl
    have hn' : u.caseOfKey ⟨i.val, zone, c⟩ = none := by rw [← hu, State.takeFrame_caseOfKey]; exact hn
    have hl' : u.lowestFree = some k := by rw [← hu, State.takeFrame_lowestFree]; exact hl
    have hroom : u.hasRoom c = true := by rw [← hu, State.takeFrame_hasRoom]; exact State.hasRoom_of hlen hres
    have hcreate := State.createAt_start (key := ⟨i.val, zone, c⟩) hfree (fun d e => (hd' d e).1) detail mark
    have hno' : (u.createAt k ⟨i.val, zone, c⟩ detail mark).NoOffer := by
      rw [hcreate]
      exact State.SameOffers.noOffer {} (State.NoOffer.setCase_start (s := u) (hu ▸ hno.takeFrame _)
        (x := Case.new ⟨i.val, zone, c⟩ detail mark u.clock) rfl fun d e => (hd' d e).2)
    rw [exec_post_admitted i detail hz hc ha, hu, hm, State.postAdmitted, hn']
    simp only [State.acceptPost_of_room (key := ⟨i.val, zone, c⟩) hroom hn' hl', State.answerLingers_eq_self _ hno']
    have hhandle : (u.createAt k ⟨i.val, zone, c⟩ detail mark).handleOf k = s.handleOf k := by
      rw [hcreate, ← s.takeFrame_handleOf, hu]
      exact u.setCase_handleOf k k _
    rw [State.answerHandle_eq hhandle, hcreate]
    subst hu
    simp [Case.new, htest, Progress.zero, State.handleOf]

/-- Settles O14: a STRANDED case starts its plan again, and waits or strands by the plan rule. -/
theorem rearmStartsAgain : Obligations.RearmStartsAgain := by
  refine ⟨fun s h k x hk hx hno => ?_, fun s h => ⟨fun hh => ?_, fun hh hk => ?_⟩⟩
  · have hk' : (s.takeFrame 5).caseOfHandle h = some k := by rwa [State.takeFrame_caseOfHandle]
    have hx' : (s.takeFrame 5).caseAt k = some x := by rwa [State.takeFrame_caseAt]
    rw [exec_rearm]
    refine ⟨fun hs => ?_, fun hs => ⟨fun hd => ?_, fun hne hu => ?_⟩⟩
    · rw [State.rearm_wrongState hk' hx' hs]; rfl
    · rw [State.rearm_rests hk' hx' hs (hno.takeFrame 5) (State.takeFrame_start hd 5), State.takeFrame_clock, State.takeFrame_passesDue]
      rfl
    · obtain ⟨q, hq, hr⟩ := State.rearm_strands hk' hx' hs (hno.takeFrame 5) (by rwa [State.takeFrame_plan]) fun d hd => by
        rw [State.takeFrame_plan] at hd
        rw [State.takeFrame_usable]
        exact hu d hd
      refine ⟨q, hq, ?_⟩
      rw [hr, State.takeFrame_clock, State.takeFrame_passesDue, State.takeFrame_fireWaiting]
  · rw [exec_rearm, State.rearm, State.withHandle_badValue hh]; rfl
  · rw [exec_rearm, State.rearm, State.withHandle_noCase hh (by rwa [State.takeFrame_caseOfHandle])]; rfl
end

