-- ==== Sys2Proof/Proofs/TableSettings.lean ====
section
/-! CLAIM. WRITE ADMISSION, WRITE CASE LIMITS with the offer of a lowered reserve, and WRITE CLASS (O18). -/

namespace Sys2Proof.Machine

variable {s t : State} {k : Fin 48}

/-! ### Codes and clamps -/

theorem admissionOfCode_code (a : Admission) : admissionOfCode a.code = some a := by cases a <;> rfl

/-- No admission entry has a code above 2 (R35). -/
theorem admissionOfCode_eq_none {code : Nat} (hc : 2 < code) : admissionOfCode code = none := by
  match code, hc with
  | n + 3, _ => rfl

theorem clamp_zero (hi x : Nat) : clamp 0 hi x = min hi x := by rw [clamp, Nat.zero_max]

/-! ### WRITE ADMISSION and WRITE CLASS -/

theorem State.writeAdmission_eq {i : Fin 16} {code : Nat} {c : Cls} {p : Fin 4} {a : Admission}
    (hc : postableOfCode code = some (c, p)) : s.writeAdmission i.val code a.code = (s.setAdmission i p a).answer .ok := by
  rw [State.writeAdmission, indexOf_val, hc, admissionOfCode_code]

/-- A WRITE ADMISSION with a source, class or entry out of range (R35). -/
theorem State.writeAdmission_badValue {linkSource code entry : Nat} (h : 15 < linkSource ∨ code = 0 ∨ 4 < code ∨ 2 < entry) :
    s.writeAdmission linkSource code entry = s.answer .badValue := by
  have hnone : indexOf 16 linkSource = none ∨ postableOfCode code = none ∨ admissionOfCode entry = none := by
    rcases h with h | h | h | h
    · exact .inl (dif_neg (by omega))
    · exact .inr (.inl (postableOfCode_eq_none (.inl h)))
    · exact .inr (.inl (postableOfCode_eq_none (.inr h)))
    · exact .inr (.inr (admissionOfCode_eq_none h))
  unfold State.writeAdmission
  split
  · next h1 h2 h3 => simp [h1, h2, h3] at hnone
  · rfl

theorem ClassEntry.eq_mk_iff (e : ClassEntry) (base step cap rb rm : Nat) :
    e = ⟨base, step, cap, rb, rm⟩ ↔ e.base = base ∧ e.ageStep = step ∧ e.ageCap = cap ∧ e.retryBase = rb ∧ e.retryMax = rm := by
  cases e
  simp only [ClassEntry.mk.injEq]

theorem State.writeClass_eq (c : Cls) (base step cap rb rm : Nat) :
    s.writeClass c.code base step cap rb rm = (s.setClassEntry c (ClassEntry.clamped base step cap rb rm)).answer
      (if ClassEntry.clamped base step cap rb rm = ⟨base, step, cap, rb, rm⟩ then .ok else .adjusted) := by
  simp only [State.writeClass, clsOfCode_code, State.answerWrite, decide_eq_true_eq, ite_not]

/-! ### The requests of the controller -/

theorem exec_writeAdmission (s : State) (linkSource cls entry : Nat) :
    exec (.writeAdmission 31 linkSource cls entry) s = .next ((s.takeFrame 6).writeAdmission linkSource cls entry) := rfl

theorem exec_writeCaseLimits (s : State) (reserve threshold : Nat) :
    exec (.writeCaseLimits 31 reserve threshold) s = .next ((s.takeFrame 5).writeCaseLimits reserve threshold) := rfl

theorem exec_writeClass (s : State) (cls base step cap rb rm : Nat) :
    exec (.writeClass 31 cls base step cap rb rm) s = .next ((s.takeFrame 11).writeClass cls base step cap rb rm) := rfl

/-! ### WRITE CASE LIMITS -/

/-- The two limits written. -/
def State.limited (s : State) (reserve threshold : Nat) : State := { s with reserve := reserve, lowThreshold := threshold }

theorem State.writeCaseLimits_eq (reserve threshold : Nat) :
    s.writeCaseLimits reserve threshold =
      (if min 16 reserve < s.reserve then (s.limited (min 16 reserve) (min 16 threshold)).offerSpace.answerLingers
        else s.limited (min 16 reserve) (min 16 threshold)).answer (if 16 < reserve ∨ 16 < threshold then .adjusted else .ok) := by
  have h : (decide (min 16 reserve ≠ reserve) || decide (min 16 threshold ≠ threshold)) = decide (16 < reserve ∨ 16 < threshold) := by
    rw [← Bool.decide_or, decide_eq_decide]
    omega
  simp only [State.writeCaseLimits, clamp_zero, State.answerWrite, h, decide_eq_true_eq]
  rfl

/-- Limits that make no room, or that nobody waits for, change nothing else (R19). -/
theorem State.limited_unheard {reserve threshold : Nat} (h : s.reserve ≤ reserve ∨ s.NoHeld) (hno : s.NoOffer) :
    (if reserve < s.reserve then (s.limited reserve threshold).offerSpace.answerLingers else s.limited reserve threshold) =
      s.limited reserve threshold := by
  split
  · next hlt =>
    rw [State.offerSpace_eq_self (s := s.limited reserve threshold) (h.resolve_left (Nat.not_le.mpr hlt)), State.answerLingers_eq_self]
    exact State.SameOffers.noOffer (s := s) {} hno
  · rfl

/-- A held post admitted goes to the lowest free slot (R3, R24). -/
theorem State.offerHeld_lowest {p : Poster} {key : Key} (hp : s.heldAt p.position = some key) (hk : s.caseOfKey key = none)
    (hr : ¬ s.NoRoom key.cls) (hl : s.lowestFree = some k) :
    (s.offerHeld p).heldAt p.position = none ∧ ∃ x, (s.offerHeld p).caseAt k = some x ∧ x.FromHeld key s.clock (s.conditionPresent p) := by
  rcases s.offerHeld_cases p with ⟨-, hn⟩ | ⟨key', had⟩
  · exact ((hn key hp).elim (fun g => g hk) hr).elim
  cases hp.symm.trans had.held
  obtain ⟨j, c, hj, hfrom, hc⟩ := had.made
  have hfilled : (s.offerHeld p).caseAt k ≠ none := by
    obtain ⟨y, -, htold⟩ := s.createAt_told k key none .verified
    have hy : ((s.createAt k key none .verified).setHeld p.position none).caseAt k = some y := htold.caseAt_setCase
    obtain ⟨z, hz, -⟩ := (State.restoreCase_tame _ k).kept k y hy
    rw [State.offerHeld, hp]
    simp only [State.acceptPost_of_room ((s.hasRoom_iff _).mpr hr) hk hl]
    split
    · rw [hy]; simp
    · rw [hz]; simp
  have hjk : j = k := by
    by_contra hne
    rw [hc, if_neg hne] at hfilled
    exact hfilled (s.lowestFree_some hl)
  subst hjk
  exact ⟨by rw [had.heldAt, if_pos rfl], c, by rw [hc, if_pos rfl], hfrom⟩

/-- The post held first goes to the lowest free slot where it fits (R23, R24). -/
theorem State.offerSpace_lowest {p : Poster} {key : Key} (hp : s.heldAt p.position = some key)
    (first : ∀ q : Poster, q.position < p.position → s.heldAt q.position = none) (hk : s.caseOfKey key = none)
    (hr : ¬ s.NoRoom key.cls) (hl : s.lowestFree = some k) :
    s.offerSpace.heldAt p.position = none ∧
      ∃ x, s.offerSpace.caseAt k = some x ∧ x.FromHeld key s.clock (s.conditionPresent p) := by
  obtain ⟨as, bs, e, ha, -⟩ := p.order_split
  rw [State.offerSpace, e, List.foldl_append, List.foldl_cons, State.offers_eq_self as s fun q hq => first q (ha q hq)]
  obtain ⟨hn, x, hx, hfrom⟩ := State.offerHeld_lowest hp hk hr hl
  have g := State.offers_grow bs (s.offerHeld p)
  exact ⟨g.none _ hn, x, g.cases k x hx, hfrom⟩

theorem State.takeFrame_conditionPresent (s : State) (len : Nat) (p : Poster) : (s.takeFrame len).conditionPresent p = s.conditionPresent p := by
  rw [State.takeFrame_eq]
  cases p <;> rfl

/-- Lower limits admit the post held first where it fits, whatever the lingering lines then take up (R19, R23, R24). -/
theorem State.limited_admits {reserve threshold : Nat} {p : Poster} {key : Key} (hp : s.heldAt p.position = some key)
    (first : ∀ q : Poster, q.position < p.position → s.heldAt q.position = none) (hk : s.caseOfKey key = none)
    (hlen : s.cases.length < 48) (hres : key.cls ≠ .fire → s.otherCases < 48 - reserve) (hl : s.lowestFree = some k)
    (ht : (s.limited reserve threshold).offerSpace.answerLingers = t) :
    t.reserve = reserve ∧ t.heldAt p.position = none ∧ ∃ x, t.caseAt k = some x ∧ x.FromHeld key s.clock (s.conditionPresent p) := by
  have hroom : ¬ (s.limited reserve threshold).NoRoom key.cls := by
    rintro (h | ⟨hc, h⟩)
    · exact absurd hlen (Nat.not_lt.mpr h)
    · exact absurd (hres hc) (Nat.not_lt.mpr h)
  obtain ⟨hn, x, hx, hfrom⟩ := State.offerSpace_lowest (s := s.limited reserve threshold) hp first hk hroom hl
  have hpresent : (s.limited reserve threshold).conditionPresent p = s.conditionPresent p := by cases p <;> rfl
  rw [hpresent] at hfrom
  have hsends := (s.limited reserve threshold).offerSpace.answerLingers_sends
  rw [ht] at hsends
  obtain ⟨st, l, hx', -⟩ := hsends.caseAt hx
  exact ⟨hsends.reserve.trans (State.offerSpace_grows _).onTable.reserve, (hsends.heldAt _).trans hn, _, hx', hfrom⟩

end Sys2Proof.Machine

open Sys2Proof Sys2Proof.Machine

/-- Settles O18: each write by its own equation, and the offer of a lowered reserve by `limited_admits`. -/
theorem tableSettingsWritten : Obligations.TableSettingsWritten := by
  refine ⟨fun s ls code entry => ⟨fun i c p a hi hc ha => ?_, fun hbad => ?_⟩, fun s reserve threshold h hno => ?_,
    fun s reserve threshold p key hlt hp first hk hlen hres => ?_, fun s code base step cap rb rm => ?_⟩
  · subst hi ha
    refine ⟨(s.takeFrame 6).setAdmission i p a, ?_, rfl, ?_, fun j q hne => ?_⟩
    · rw [exec_writeAdmission, State.writeAdmission_eq hc]; rfl
    · rw [State.setAdmission_admissionOf, if_pos ⟨rfl, rfl⟩]
    · rw [State.setAdmission_admissionOf, if_neg fun e => hne ⟨e.1.symm, e.2.symm⟩, State.takeFrame_admissionOf]
  · rw [exec_writeAdmission, State.writeAdmission_badValue hbad]; rfl
  · rw [exec_writeCaseLimits, State.writeCaseLimits_eq, State.limited_unheard _ (hno.takeFrame 5)]
    · rfl
    · rw [State.takeFrame_reserve]
      exact h.imp_right fun hh q => (s.takeFrame_heldAt 5 q).trans (hh q)
  · obtain ⟨k, hl⟩ := State.lowestFree_of_lt hlen
    have hex := exec_writeCaseLimits s reserve threshold
    rw [State.writeCaseLimits_eq, State.takeFrame_reserve, if_pos hlt] at hex
    generalize ht : ((s.takeFrame 5).limited (min 16 reserve) (min 16 threshold)).offerSpace.answerLingers = t at hex
    obtain ⟨hr, hn, x, hx, hkey, hmark, hdetail, hposted, -, howed⟩ :=
      State.limited_admits ((s.takeFrame_heldAt 5 _).trans hp)
        (fun q hq => (s.takeFrame_heldAt 5 _).trans (first q hq)) ((s.takeFrame_caseOfKey 5 key).trans hk)
        (by rwa [State.takeFrame_cases]) (by rwa [State.takeFrame_otherCases]) ((s.takeFrame_lowestFree 5).trans hl) ht
    rw [State.takeFrame_clock] at hposted
    rw [State.takeFrame_conditionPresent] at howed
    exact ⟨_, k, x, hex, hr, hn, hl, hx, hkey, hmark, hdetail, hposted, fun hc => howed.trans (if_neg hc)⟩
  · intro rb' e
    have he : ClassEntry.clamped base step cap rb rm = e := by
      simp only [ClassEntry.clamped, clamp_zero]
      rfl
    refine ⟨fun c hc => ?_, fun hbad => ?_⟩
    · subst hc
      rw [exec_writeClass, State.writeClass_eq, he]
      simp only [ClassEntry.eq_mk_iff]
      rfl
    · rw [exec_writeClass, State.writeClass, clsOfCode_eq_none hbad]
      rfl
end

