-- ==== Sys2Proof/Proofs/Ranking.lean ====
section
/-! CLAIM. Urgency by its bands, and the ranking as the insertion sort of the order of R59 (O34). -/

namespace Sys2Proof.Machine

variable {s : State} {x : Case}

/-! ### Urgency -/

theorem Case.isFireAlarm_iff : x.isFireAlarm = true ↔ x.key.cls = .fire ∧ x.owed.head? = some .alarm := by
  simp only [Case.isFireAlarm, Case.isFire, Bool.and_eq_true, decide_eq_true_eq]

/-- The urgency of a FIRE case whose head is an ALARM (R57). -/
theorem State.urgency_of_fireAlarm (h : x.isFireAlarm = true) :
    s.urgency x =
      224 + min (s.age x / (s.classEntry x.key.cls).ageStep) (min (s.classEntry x.key.cls).ageCap 31) := by
  simp only [State.urgency, if_pos h]

/-- The urgency of every other case, whose subtraction stops at 0 (R58). -/
theorem State.urgency_of_not_fireAlarm (h : ¬ x.isFireAlarm = true) :
    s.urgency x = min 223 ((s.classEntry x.key.cls).base +
      min (s.age x / (s.classEntry x.key.cls).ageStep) (s.classEntry x.key.cls).ageCap -
        ((if x.owed.head? = some .restore then 32 else 0) + min (4 * x.failed) 32)) := by
  simp only [State.urgency, if_neg h]

/-! ### The order of R59 -/

theorem Rank.before_iff (a b : Rank) :
    a.before b = true ↔ b.urgency < a.urgency ∨ (a.urgency = b.urgency ∧
      (b.elapsed < a.elapsed ∨ (a.elapsed = b.elapsed ∧ a.slot ≤ b.slot))) := by
  simp only [Rank.before, Bool.or_eq_true, Bool.and_eq_true, decide_eq_true_eq]

theorem Rank.before_total (a b : Rank) : a.before b = true ∨ b.before a = true := by
  simp only [Rank.before_iff, Fin.le_def]
  omega

theorem Rank.before_trans (a b c : Rank) (hab : a.before b = true) (hbc : b.before c = true) : a.before c = true := by
  simp only [Rank.before_iff, Fin.le_def] at hab hbc ⊢
  omega

/-- A rank is put in its place as Mathlib's insertion sort puts it. -/
theorem insertRank_eq_orderedInsert (r : Rank) (rs : List Rank) :
    insertRank r rs = rs.orderedInsert (fun a b => a.before b = true) r := by
  induction rs with
  | nil => rfl
  | cons x xs ih => rw [insertRank, List.orderedInsert_cons, ih]

/-- The ranks of the slots, sorted. -/
theorem foldr_insertRank_eq (ks : List (Fin 48)) :
    ks.foldr (fun k rs => insertRank (s.rankOf k) rs) [] = (ks.map s.rankOf).insertionSort fun a b => a.before b = true := by
  rw [List.insertionSort, List.foldr_map]
  simp only [insertRank_eq_orderedInsert]

/-- The slots stand in the order of their ranks (R59). -/
theorem State.ranked_pairwise (s : State) (p : Fin 48 → Bool) :
    (s.ranked p).Pairwise fun j k => (s.rankOf j).before (s.rankOf k) = true := by
  have : Std.Total fun a b : Rank => a.before b = true := ⟨Rank.before_total⟩
  have : IsTrans Rank fun a b => a.before b = true := ⟨Rank.before_trans⟩
  have sorted := List.pairwise_insertionSort (fun a b : Rank => a.before b = true) (((List.finRange 48).filter p).map s.rankOf)
  rw [State.ranked, List.pairwise_map, foldr_insertRank_eq]
  refine sorted.imp_of_mem fun {a b} ha hb hab => ?_
  have own : ∀ r ∈ (((List.finRange 48).filter p).map s.rankOf).insertionSort (fun a b => a.before b = true), s.rankOf r.slot = r := by
    intro r hr
    obtain ⟨k, -, rfl⟩ := List.mem_map.mp ((List.mem_insertionSort _).mp hr)
    rw [State.rankOf_slot]
  rwa [own a ha, own b hb]

end Sys2Proof.Machine

open Sys2Proof Sys2Proof.Machine

/-- Settles O34: the two bands of urgency, and the ranking, which is the slots reordered (`ranked_perm`) and sorted (`ranked_pairwise`). -/
theorem casesRanked : Obligations.CasesRanked := by
  refine ⟨fun s x => ?_, fun s p => ⟨s.ranked_perm p, ?_⟩⟩
  · intro e age
    refine ⟨fun hc ho => ?_, fun h => ?_⟩
    · have hu : s.urgency x = 224 + min (age / e.ageStep) (min e.ageCap 31) :=
        State.urgency_of_fireAlarm (Case.isFireAlarm_iff.mpr ⟨hc, ho⟩)
      refine ⟨hu, ?_⟩
      rw [hu]
      generalize age / e.ageStep = credit
      omega
    · have hu : s.urgency x = min 223 (e.base + min (age / e.ageStep) e.ageCap -
          ((if x.owed.head? = some .restore then 32 else 0) + min (4 * x.failed) 32)) :=
        State.urgency_of_not_fireAlarm fun g => h (Case.isFireAlarm_iff.mp g)
      rw [hu]
      generalize age / e.ageStep = credit
      split <;> omega
  · refine (s.ranked_pairwise p).imp fun {j k} h a b ha hb => ?_
    rw [State.rankOf_eq ha, State.rankOf_eq hb, Rank.before_iff] at h
    exact h
end

