-- ==== Sys2Proof/Proofs/Advances.lean ====
section
/-! CLAIM. An advance, move by move: where the entries of a plan lie after a step, and what a sweep passes over before it rests or strands (O35). -/

namespace Sys2Proof.Machine

variable {p : Plan} {usable : Fin 8 → Bool} {step round : Nat}

/-- The step after `j` moves from `step` round the plan. -/
def Plan.entryAfter (p : Plan) (step j : Nat) : Nat := (step + j) % p.dests.length

/-- The round after `j` moves from `step` in `round`: one more for each wrap. -/
def Plan.roundAfter (p : Plan) (step round j : Nat) : Nat := round + (step + j) / p.dests.length

/-- The entry `j` moves on is a usable destination. -/
def Plan.UsableAfter (p : Plan) (usable : Fin 8 → Bool) (step j : Nat) : Prop :=
  ∃ d : Fin 8, p.dests[p.entryAfter step j]? = some d ∧ usable d = true

/-- One more in a count by `m`s: the remainder wraps to 0, and the quotient goes up, exactly at a multiple. -/
theorem succ_mod_div {m : Nat} (hm : 0 < m) (n : Nat) :
    (n + 1) % m = (if m ≤ n % m + 1 then 0 else n % m + 1) ∧ (n + 1) / m = (if m ≤ n % m + 1 then n / m + 1 else n / m) := by
  have hlt := Nat.mod_lt n hm
  have hn := Nat.div_add_mod n m
  split
  · have e : n + 1 = m * (n / m + 1) := by rw [Nat.mul_succ]; omega
    exact ⟨by rw [e, Nat.mul_mod_right], by rw [e, Nat.mul_div_cancel_left _ hm]⟩
  · have e : n + 1 = (n % m + 1) + m * (n / m) := by omega
    exact ⟨by rw [e, Nat.add_mul_mod_self_left, Nat.mod_eq_of_lt (by omega)],
      by rw [e, Nat.add_mul_div_left _ _ hm, Nat.div_eq_of_lt (by omega), Nat.zero_add]⟩

/-- One move of a sweep, by the number of moves already made (R65). -/
theorem Plan.sweep_move (hp : 0 < p.dests.length) (moves j : Nat) :
    p.sweep usable (moves + 1) (p.entryAfter step j) (p.roundAfter step round j) =
      if p.rounds ≤ p.roundAfter step round (j + 1) then .strand ⟨0, 0, p.rounds - 1⟩
      else match p.dests[p.entryAfter step (j + 1)]? with
        | some d =>
          if usable d then .rest d ⟨p.entryAfter step (j + 1), 0, p.roundAfter step round (j + 1)⟩
          else p.sweep usable moves (p.entryAfter step (j + 1)) (p.roundAfter step round (j + 1))
        | none => .strand ⟨p.entryAfter step (j + 1), 0, p.roundAfter step round (j + 1)⟩ := by
  obtain ⟨hmod, hdiv⟩ := succ_mod_div hp (step + j)
  have he : p.entryAfter step (j + 1) = if p.dests.length ≤ p.entryAfter step j + 1 then 0 else p.entryAfter step j + 1 := hmod
  have hr : p.roundAfter step round (j + 1) =
      if p.dests.length ≤ p.entryAfter step j + 1 then p.roundAfter step round j + 1 else p.roundAfter step round j := by
    rw [Plan.roundAfter, ← Nat.add_assoc, hdiv, Plan.entryAfter, Plan.roundAfter]
    split <;> omega
  rw [he, hr]
  rfl

theorem Plan.roundAfter_mono {i j : Nat} (h : i ≤ j) : p.roundAfter step round i ≤ p.roundAfter step round j :=
  Nat.add_le_add_left (Nat.div_le_div_right (Nat.add_le_add_left h step)) round

/-- What an advance of `last` moves from `step` and `round` may come to: it rests at the first usable entry, within the rounds, or no
entry within the rounds is usable. -/
def Plan.SweepsTo (p : Plan) (usable : Fin 8 → Bool) (step round last : Nat) : AdvanceEnd → Prop
  | .rest d q => ∃ j, 1 ≤ j ∧ j ≤ last ∧ p.roundAfter step round j < p.rounds ∧ usable d = true ∧
      p.dests[p.entryAfter step j]? = some d ∧ q = ⟨p.entryAfter step j, 0, p.roundAfter step round j⟩ ∧
      ∀ i, 1 ≤ i → i < j → ¬ p.UsableAfter usable step i
  | .strand q => (∀ i, 1 ≤ i → i ≤ last → p.roundAfter step round i < p.rounds → ¬ p.UsableAfter usable step i) ∧
      (if p.roundAfter step round last < p.rounds then q = ⟨p.entryAfter step last, 0, p.roundAfter step round last⟩
        else q = ⟨0, 0, p.rounds - 1⟩)

/-- A sweep with some moves made, all past entries that are not usable, comes to its end with the moves that are left. -/
theorem Plan.sweep_sweepsTo (hp : 0 < p.dests.length) :
    ∀ (moves j : Nat), p.roundAfter step round j < p.rounds → (∀ i, 1 ≤ i → i ≤ j → ¬ p.UsableAfter usable step i) →
      p.SweepsTo usable step round (j + moves) (p.sweep usable moves (p.entryAfter step j) (p.roundAfter step round j)) := by
  intro moves
  induction moves with
  | zero => intro j hr passed; exact ⟨fun i h1 hi _ => passed i h1 hi, (if_pos hr).mpr rfl⟩
  | succ moves ih =>
    intro j hr passed
    rw [Plan.sweep_move hp]
    split
    · next hover =>
      refine ⟨fun i h1 hi hir => passed i h1 (Nat.not_lt.mp fun hji => ?_), ?_⟩
      · exact absurd hir (Nat.not_lt.mpr (hover.trans (Plan.roundAfter_mono hji)))
      · rw [if_neg (Nat.not_lt.mpr (hover.trans (Plan.roundAfter_mono (by omega))))]
    · next hin =>
      have hlt : p.entryAfter step (j + 1) < p.dests.length := Nat.mod_lt _ hp
      rw [List.getElem?_eq_getElem hlt]
      simp only []
      split
      · next hu =>
        exact ⟨j + 1, by omega, by omega, Nat.not_le.mp hin, hu, List.getElem?_eq_getElem hlt, rfl,
          fun i h1 hi => passed i h1 (Nat.le_of_lt_succ hi)⟩
      · next hu =>
        have := ih (j + 1) (Nat.not_le.mp hin) fun i h1 hi => by
          rcases Nat.lt_or_eq_of_le hi with h | rfl
          · exact passed i h1 (Nat.le_of_lt_succ h)
          · rintro ⟨d, hd, hud⟩
            rw [List.getElem?_eq_getElem hlt] at hd
            cases hd
            exact hu hud
        rwa [Nat.add_right_comm, Nat.add_assoc] at this

end Sys2Proof.Machine

open Sys2Proof Sys2Proof.Machine

/-- Settles O35: the sweep with no move made yet, its last move bringing it round to the step it left (`sweep_sweepsTo`). -/
theorem advanceSweeps : Obligations.AdvanceSweeps := by
  intro p usable step round hstep hround entry roundAt usableAt
  have hp : 0 < p.dests.length := Nat.zero_lt_of_lt hstep
  have hentry : p.entryAfter step 0 = step := Nat.mod_eq_of_lt hstep
  have hroundAt : p.roundAfter step round 0 = round := by rw [Plan.roundAfter, Nat.add_zero, Nat.div_eq_of_lt hstep, Nat.add_zero]
  have hlast : p.entryAfter step p.dests.length = step := by rw [Plan.entryAfter, Nat.add_mod_right, Nat.mod_eq_of_lt hstep]
  have hwrap : p.roundAfter step round p.dests.length = round + 1 := by
    rw [Plan.roundAfter, Nat.add_div_right _ hp, Nat.div_eq_of_lt hstep]
  have h := Plan.sweep_sweepsTo (usable := usable) (step := step) (round := round) hp p.dests.length 0 (by rwa [hroundAt])
    fun i h1 hi => absurd h1 (by omega)
  rw [hentry, hroundAt, Nat.zero_add] at h
  split
  · next hs => rw [hs] at h; exact h
  · next hs =>
    rw [hs] at h
    obtain ⟨passed, hq⟩ := h
    have hround : (⟨p.entryAfter step p.dests.length, 0, p.roundAfter step round p.dests.length⟩ : Progress) = ⟨step, 0, round + 1⟩ := by
      rw [hlast, hwrap]
    rw [hround] at hq
    exact ⟨passed, hq⟩
end

