-- ==== Sys2Proof/Proofs/DestinationStates.lean ====
section
/-! CLAIM. SET DESTINATION STATE: an enable touches no case, and a disable moves on the cases that wait there, of which the lingering lines may take some up (O20). -/

namespace Sys2Proof.Machine

variable {s t u : State} {n : Fin 4} {k j : Fin 48} {x : Case} {d e : Fin 8}

/-! ### A case moved on -/

/-- The case `x` after an advance that no charged failure brings about (R65, R66). -/
def State.movedOn (s : State) (x : Case) : Case :=
  match (s.plan x.key.cls).sweep s.usable (s.plan x.key.cls).dests.length x.progress.step x.progress.round with
  | .rest _ q => { x with state := .pending, progress := q, retry := s.clock }
  | .strand q => { x with state := .stranded, progress := q }

theorem State.movedOn_rest {q : Progress}
    (h : (s.plan x.key.cls).sweep s.usable (s.plan x.key.cls).dests.length x.progress.step x.progress.round = .rest e q) :
    s.movedOn x = { x with state := .pending, progress := q, retry := s.clock } := by
  rw [State.movedOn, h]

theorem State.movedOn_strand {q : Progress}
    (h : (s.plan x.key.cls).sweep s.usable (s.plan x.key.cls).dests.length x.progress.step x.progress.round = .strand q) :
    s.movedOn x = { x with state := .stranded, progress := q } := by
  rw [State.movedOn, h]

/-- From `s` to `t` cases are moved on: only slots, notices and causes change, every generation and every cause stands, and CASE STRANDED
is raised with each case that is STRANDED anew. -/
structure State.Swept (s t : State) : Prop where
  onSlots : ∃ slots passes causes, t = { s with slots := slots, passesDue := passes, causes := causes }
  gens : ∀ j, (t.slot j).gen = (s.slot j).gen
  raises : s.Raises t
  stranded : ∀ k x, t.caseAt k = some x → x.state = .stranded → s.caseAt k = some x ∨ t.causes.getLsbD 0 = true

theorem State.Swept.refl (s : State) : s.Swept s := ⟨⟨_, _, _, rfl⟩, fun _ => rfl, .of_eq rfl, fun _ _ h _ => .inl h⟩

theorem State.Swept.trans (h : s.Swept t) (g : t.Swept u) : s.Swept u where
  onSlots := by
    obtain ⟨_, _, _, rfl⟩ := h.onSlots
    obtain ⟨_, _, _, e⟩ := g.onSlots
    exact ⟨_, _, _, e⟩
  gens j := (g.gens j).trans (h.gens j)
  raises := h.raises.trans g.raises
  stranded k x hx hs := (g.stranded k x hx hs).elim (fun ht => (h.stranded k x ht hs).imp_right g.raises.bit) .inr

theorem State.Swept.dest (h : s.Swept t) (d : Fin 8) : t.dest d = s.dest d := by obtain ⟨_, _, _, rfl⟩ := h.onSlots; rfl
theorem State.Swept.line (h : s.Swept t) (n : Fin 4) : t.line n = s.line n := by obtain ⟨_, _, _, rfl⟩ := h.onSlots; rfl
theorem State.Swept.currentDest (h : s.Swept t) (x : Case) : t.currentDest x = s.currentDest x := by
  obtain ⟨_, _, _, rfl⟩ := h.onSlots; rfl
theorem State.Swept.movedOn (h : s.Swept t) : t.movedOn = s.movedOn := by obtain ⟨_, _, _, rfl⟩ := h.onSlots; rfl

theorem State.Swept.pendingAt (h : s.Swept t) (hj : t.caseAt j = s.caseAt j) (d : Fin 8) : t.pendingAt d j = s.pendingAt d j := by
  simp only [State.pendingAt, hj, h.currentDest]

/-- The turn of a case that waits at the destination: it is written moved on, with the notice or the cause that calls for. -/
theorem State.moveOn_of_pendingAt (hp : s.pendingAt d k = true) (hx : s.caseAt k = some x) :
    ∃ passes causes, s.moveOn d k = { s.setCase k (s.movedOn x) with passesDue := passes, causes := causes } ∧
      (causes = s.causes ∧ (s.movedOn x).state = .pending ∨ causes = s.causes ||| 0x01) := by
  obtain ⟨z, hz, -, hd⟩ := (s.pendingAt_iff d k).mp hp
  cases hx.symm.trans hz
  have hne : (s.plan x.key.cls).dests ≠ [] := fun e => by simp [State.currentDest, e] at hd
  rw [State.moveOn, if_pos hp]
  cases h : (s.plan x.key.cls).sweep s.usable (s.plan x.key.cls).dests.length x.progress.step x.progress.round with
  | rest e q =>
    rw [State.movedOn_rest h, State.advance_rests hx h]
    exact ⟨_, _, rfl, .inl ⟨rfl, rfl⟩⟩
  | strand q =>
    rw [State.movedOn_strand h, State.advance_strands hx hne h, State.strand_eq]
    exact ⟨_, _, rfl, .inr rfl⟩

theorem State.moveOn_of_not_pendingAt (hp : ¬ s.pendingAt d k = true) : s.moveOn d k = s := if_neg hp

/-- A turn writes its own case alone. -/
theorem State.moveOn_caseAt (s : State) (d : Fin 8) (k j : Fin 48) :
    (s.moveOn d k).caseAt j = if k = j ∧ s.pendingAt d j = true then (s.caseAt j).map s.movedOn else s.caseAt j := by
  by_cases hk : k = j
  · subst hk
    by_cases hp : s.pendingAt d k = true
    · obtain ⟨x, hx, -⟩ := (s.pendingAt_iff d k).mp hp
      obtain ⟨_, _, he, -⟩ := State.moveOn_of_pendingAt hp hx
      rw [he, if_pos ⟨rfl, hp⟩, hx]
      exact (s.setCase_caseAt k k _).trans (if_pos rfl)
    · rw [State.moveOn_of_not_pendingAt hp, if_neg fun h => hp h.2]
  · rw [(s.moveOn_touches d k).other j (Ne.symm hk), if_neg fun h => hk h.1]

theorem State.moveOn_swept (s : State) (d : Fin 8) (k : Fin 48) : s.Swept (s.moveOn d k) := by
  by_cases hp : s.pendingAt d k = true
  · obtain ⟨x, hx, -⟩ := (s.pendingAt_iff d k).mp hp
    obtain ⟨passes, causes, he, hc⟩ := State.moveOn_of_pendingAt hp hx
    have other := (s.moveOn_touches d k).other
    rw [he] at other ⊢
    refine ⟨⟨_, _, _, rfl⟩, fun j => s.setCase_gen k j _, ?_, fun j y hy hs => ?_⟩
    · rcases hc with ⟨h, -⟩ | h
      · exact .of_eq h
      · exact ⟨0x01, h⟩
    · by_cases hj : j = k
      · subst hj
        have hy : (s.setCase j (s.movedOn x)).caseAt j = some y := hy
        rw [State.setCase_caseAt, if_pos rfl] at hy
        cases hy
        rcases hc with ⟨-, h⟩ | h
        · cases h.symm.trans hs
        · refine .inr ?_
          show causes.getLsbD 0 = true
          rw [h, BitVec.getLsbD_or]
          simp
      · exact .inl ((other j hj).symm.trans hy)
  · rw [State.moveOn_of_not_pendingAt hp]
    exact .refl s

theorem State.advanceWaiting_swept (s : State) (d : Fin 8) : s.Swept (s.advanceWaiting d) :=
  State.foldl_moveOn .refl .trans (fun s k => s.moveOn_swept d k) s

/-- Over the turns of a list of slots, none twice, each case of the list that waits at the destination is moved on once. -/
theorem State.foldl_moveOn_caseAt (d : Fin 8) (j : Fin 48) : ∀ (ks : List (Fin 48)) (s : State), ks.Nodup →
    (ks.foldl (State.moveOn d) s).caseAt j =
      if j ∈ ks ∧ s.pendingAt d j = true then (s.caseAt j).map s.movedOn else s.caseAt j := by
  intro ks
  induction ks with
  | nil => intro s _; rw [if_neg fun h => List.not_mem_nil h.1]; rfl
  | cons k ks ih =>
    intro s hn
    obtain ⟨hk, hn⟩ := List.nodup_cons.mp hn
    have turn := s.moveOn_caseAt d k j
    rw [List.foldl_cons, ih _ hn, (s.moveOn_swept d k).movedOn]
    by_cases hj : k = j
    · subst hj
      rw [if_neg fun h => hk h.1, turn]
      simp
    · rw [if_neg fun h => hj h.1] at turn
      rw [turn, (s.moveOn_swept d k).pendingAt turn]
      simp [Ne.symm hj]

/-- The sweep of a destination: the cases that wait there are moved on, and no other (R63, R76). -/
theorem State.advanceWaiting_movedOn (s : State) (d : Fin 8) (j : Fin 48) :
    (s.advanceWaiting d).caseAt j = if s.pendingAt d j = true then (s.caseAt j).map s.movedOn else s.caseAt j := by
  rw [State.advanceWaiting_eq, State.foldl_moveOn_caseAt d j _ s (List.nodup_finRange 48)]
  simp

/-! ### The lines that take cases up -/

/-- From `s` to `t` lingering lines are answered, as `Spares` says; besides, only slots, destinations, lines and notices change, of a
destination its call line alone and that only where a case waits, and of a case that waits where a line lingers, that the line takes
it up. -/
structure State.Answered (s t : State) : Prop extends State.Spares s t where
  onCalls : ∃ slots dests lines passes, t = { s with slots := slots, dests := dests, lines := lines, passesDue := passes }
  callLines : ∀ e, t.dest e = { s.dest e with callLine := (t.dest e).callLine }
  unasked : ∀ e, (∀ k, s.pendingAt e k = false) → t.dest e = s.dest e
  takes : ∀ k, t.caseAt k = s.caseAt k ∨ ∃ x n e, s.caseAt k = some x ∧ x.state = .pending ∧ s.currentDest x = some e ∧
    s.lingersOn n = some e ∧ t.caseAt k = some { x with state := .sending, line := some n }

theorem State.Answered.refl (s : State) : s.Answered s := ⟨.refl s, ⟨_, _, _, _, rfl⟩, fun _ => rfl, fun _ _ => rfl, fun _ => .inl rfl⟩

/-- No case begins to wait. -/
theorem State.Answered.pendingAt (h : s.Answered t) (hp : s.pendingAt e k = false) : t.pendingAt e k = false := by
  rw [Bool.eq_false_iff, Ne, State.pendingAt_iff]
  rintro ⟨x, hx, hs, hd⟩
  rcases h.takes k with same | ⟨y, m, f, -, -, -, -, taken⟩
  · exact Bool.eq_false_iff.mp hp ((s.pendingAt_iff e k).mpr ⟨x, same ▸ hx, hs, (h.currentDest x).symm.trans hd⟩)
  · cases taken.symm.trans hx
    cases hs

theorem State.Answered.trans (h : s.Answered t) (g : t.Answered u) : s.Answered u where
  toSpares := h.toSpares.trans g.toSpares
  onCalls := by
    obtain ⟨_, _, _, _, rfl⟩ := h.onCalls
    obtain ⟨_, _, _, _, e⟩ := g.onCalls
    exact ⟨_, _, _, _, e⟩
  callLines e := (g.callLines e).trans (by rw [h.callLines e])
  unasked e hp := (g.unasked e fun k => h.pendingAt (hp k)).trans (h.unasked e hp)
  takes k := by
    rcases g.takes k with e | ⟨x, n, e, hx, hs, hd, hl, hu⟩
    · rw [e]; exact h.takes k
    · rcases h.takes k with same | ⟨y, m, f, -, -, -, -, taken⟩
      · exact .inr ⟨x, n, e, same ▸ hx, hs, (h.currentDest x).symm.trans hd, h.lingers n e hl, hu⟩
      · cases taken.symm.trans hx
        cases hs

/-- A release, in whichever state it leaves its line. -/
theorem State.release_eq {c : Call} (hc : s.call n = some c) :
    ∃ l, s.release n =
      { (s.setDest c.dest { s.dest c.dest with callLine := none }).setLine n l with passesDue := s.passesDue + 1 } := by
  cases h : c.closePending with
  | true => exact ⟨_, State.release_off hc h⟩
  | false => exact ⟨_, State.release_guarded hc h⟩

theorem State.answerLinger_answered (s : State) (n : Fin 4) : s.Answered (s.answerLinger n) := by
  have spares := s.answerLinger_spares n
  rcases s.answerLinger_moves n with h | ⟨c, hc, hl, h | ⟨k, x, hx, hs, hd, h⟩⟩
  · rw [h]; exact .refl s
  · obtain ⟨l, hr⟩ := State.release_eq hc
    have hdest : ∀ e, (s.release n).dest e = if c.dest = e then { s.dest c.dest with callLine := none } else s.dest e := fun e => by
      rw [hr]; exact s.setDest_dest c.dest e _
    refine ⟨spares, h ▸ hr ▸ ⟨_, _, _, _, rfl⟩, fun e => ?_, fun e hp => ?_, fun k => .inl (by rw [h, State.release_caseAt])⟩
    · rw [h, hdest]
      split
      · next he => subst he; rfl
      · rfl
    · by_cases he : c.dest = e
      · subst he
        rw [s.answerLinger_eq_self n fun d hd k => by cases hl.symm.trans hd; exact hp k]
      · rw [h, hdest, if_neg he]
  · rw [h] at spares ⊢
    rw [State.takeUp_eq hc hx] at spares ⊢
    refine ⟨spares, ⟨_, _, _, _, rfl⟩, fun _ => rfl, fun _ _ => rfl, fun j => ?_⟩
    by_cases hj : k = j
    · subst hj
      exact .inr ⟨x, n, c.dest, hx, hs, hd, hl, (s.setCase_caseAt k k _).trans (if_pos rfl)⟩
    · exact .inl ((s.setCase_caseAt k j _).trans (if_neg hj))

theorem State.answerLingers_answered (s : State) : s.Answered s.answerLingers :=
  s.foldl_answerLinger .refl .trans State.answerLinger_answered

/-! ### A sweep and then the answers -/

/-- The cases that wait at a destination are moved on, and then the lingering lines answered. -/
@[irreducible] def State.redirected (s : State) (d : Fin 8) : State := (s.advanceWaiting d).answerLingers

theorem State.redirected_def (s : State) (d : Fin 8) : s.redirected d = (s.advanceWaiting d).answerLingers := by
  unfold State.redirected
  rfl

theorem State.redirected_answered (s : State) (d : Fin 8) : (s.advanceWaiting d).Answered (s.redirected d) := by
  rw [State.redirected_def]
  exact State.answerLingers_answered _

theorem State.redirected_sends (s : State) (d : Fin 8) : (s.advanceWaiting d).Sends (s.redirected d) := by
  rw [State.redirected_def]
  exact State.answerLingers_sends _

theorem State.redirected_eq (s : State) (d : Fin 8) : s.redirected d =
    { s with slots := (s.redirected d).slots, dests := (s.redirected d).dests, lines := (s.redirected d).lines
             causes := (s.redirected d).causes, passesDue := (s.redirected d).passesDue } := by
  have swept := s.advanceWaiting_swept d
  have answered := s.redirected_answered d
  generalize s.redirected d = u at *
  generalize s.advanceWaiting d = v at *
  obtain ⟨_, _, _, rfl⟩ := swept.onSlots
  obtain ⟨_, _, _, _, rfl⟩ := answered.onCalls
  rfl

theorem State.redirected_pendingAt (hd : s.usable d = false) (k : Fin 48) : (s.redirected d).pendingAt d k = false :=
  (s.redirected_answered d).pendingAt (s.advanceWaiting_pendingAt d hd k)

/-- The destination itself stands: no case waits there that a line could take up. -/
theorem State.redirected_dest (hd : s.usable d = false) : (s.redirected d).dest d = s.dest d :=
  ((s.redirected_answered d).unasked d (s.advanceWaiting_pendingAt d hd)).trans ((s.advanceWaiting_swept d).dest d)

theorem State.redirected_callLines (s : State) (d e : Fin 8) :
    (s.redirected d).dest e = { s.dest e with callLine := ((s.redirected d).dest e).callLine } := by
  have h := (s.redirected_answered d).callLines e
  rwa [(s.advanceWaiting_swept d).dest e] at h

theorem State.redirected_usable (s : State) (d : Fin 8) : (s.redirected d).usable = s.usable := by
  funext e
  rw [State.usable, s.redirected_callLines d e]
  rfl

theorem State.redirected_line (hn : s.lingersOn n = none) : (s.redirected d).line n = s.line n := by
  have hline := (s.advanceWaiting_swept d).line n
  exact ((s.redirected_answered d).line n ((State.lingersOn_of_line hline).trans hn)).trans hline

theorem State.redirected_gen (s : State) (d : Fin 8) (k : Fin 48) : ((s.redirected d).slot k).gen = (s.slot k).gen :=
  ((s.redirected_sends d).gens k).trans ((s.advanceWaiting_swept d).gens k)

theorem State.redirected_free (hk : s.caseAt k = none) : (s.redirected d).caseAt k = none := by
  have hv : (s.advanceWaiting d).caseAt k = none := by rw [s.advanceWaiting_movedOn, hk]; simp
  rcases (s.redirected_answered d).takes k with same | ⟨x, -, -, hx, -⟩
  · exact same.trans hv
  · cases hv.symm.trans hx

/-- A case that does not wait is left exactly as it was. -/
theorem State.redirected_idle (hx : s.caseAt k = some x) (hs : x.state ≠ .pending) : (s.redirected d).caseAt k = some x :=
  (s.redirected_answered d).case k x (State.advanceWaiting_caseAt hx hs) fun h => absurd h hs

/-- A case that does not wait at the destination keeps all but what a take-up sets. -/
theorem State.redirected_elsewhere (hx : s.caseAt k = some x) (hp : s.pendingAt d k = false) :
    ∃ y : Case, (s.redirected d).caseAt k = some y ∧ y = { x with state := y.state, line := y.line } := by
  have hv : (s.advanceWaiting d).caseAt k = some x := by rw [s.advanceWaiting_movedOn, hp]; exact hx
  obtain ⟨st, l, hy, -⟩ := (s.redirected_sends d).caseAt hv
  exact ⟨_, hy, rfl⟩

/-- A case that waited at the destination and comes to rest: it waits there, or a line that lingers there has taken it up. -/
theorem State.redirected_rests {q : Progress} (hx : s.caseAt k = some x) (hp : s.pendingAt d k = true)
    (h : (s.plan x.key.cls).sweep s.usable (s.plan x.key.cls).dests.length x.progress.step x.progress.round = .rest e q) :
    ∃ y : Case, (s.redirected d).caseAt k = some y ∧
      y = { x with state := y.state, line := y.line, progress := q, retry := s.clock } ∧
      ((y.state = .pending ∧ y.line = x.line) ∨ ∃ n : Fin 4, s.lingersOn n = some e ∧ y.state = .sending ∧ y.line = some n) := by
  obtain ⟨hstep, -⟩ := Plan.sweep_rest _ _ h
  have hv : (s.advanceWaiting d).caseAt k = some { x with state := .pending, progress := q, retry := s.clock } := by
    rw [s.advanceWaiting_movedOn, if_pos hp, hx, Option.map_some, State.movedOn_rest h]
  have swept := s.advanceWaiting_swept d
  rcases (s.redirected_answered d).takes k with same | ⟨z, n, f, hz, -, hf, hl, taken⟩
  · exact ⟨_, same.trans hv, rfl, .inl ⟨rfl, rfl⟩⟩
  · cases hv.symm.trans hz
    cases hstep.symm.trans ((swept.currentDest _).symm.trans hf)
    exact ⟨_, taken, rfl, .inr ⟨n, (State.lingersOn_of_line (swept.line n)).symm.trans hl, rfl, rfl⟩⟩

/-- A case that waited at the destination and strands, with CASE STRANDED raised (R66). -/
theorem State.redirected_strands {q : Progress} (hx : s.caseAt k = some x) (hp : s.pendingAt d k = true)
    (h : (s.plan x.key.cls).sweep s.usable (s.plan x.key.cls).dests.length x.progress.step x.progress.round = .strand q) :
    (s.redirected d).caseAt k = some { x with state := .stranded, progress := q } ∧ (s.redirected d).causes.getLsbD 0 = true := by
  have hv : (s.advanceWaiting d).caseAt k = some { x with state := .stranded, progress := q } := by
    rw [s.advanceWaiting_movedOn, if_pos hp, hx, Option.map_some, State.movedOn_strand h]
  have answered := s.redirected_answered d
  refine ⟨answered.case k _ hv (by simp), ?_⟩
  rw [answered.causes]
  refine ((s.advanceWaiting_swept d).stranded k _ hv rfl).resolve_left fun e => ?_
  obtain ⟨z, hz, hs, -⟩ := (s.pendingAt_iff d k).mp hp
  cases hz.symm.trans e
  cases hs

/-! ### The request -/

theorem exec_setDestinationState (s : State) (dest state : Nat) :
    exec (.setDestinationState 31 dest state) s = .next ((s.takeFrame 5).setDestinationState dest state) := rfl

/-- A SET DESTINATION STATE with a destination or a state out of range (R75). -/
theorem State.setDestinationState_badValue {dest state : Nat} (h : 7 < dest ∨ 1 < state) :
    s.setDestinationState dest state = s.answer .badValue := by
  unfold State.setDestinationState
  rcases h with h | h
  · rw [indexOf, dif_neg (by omega)]
  · match state, h with
    | m + 2, _ => cases indexOf 8 dest <;> rfl

theorem State.setDestinationState_enable (s : State) (d : Fin 8) : s.setDestinationState d.val 0 = s.enableDest d := by
  rw [State.setDestinationState, indexOf_val]
  rfl

theorem State.setDestinationState_disable (s : State) (d : Fin 8) : s.setDestinationState d.val 1 = s.disableDest d := by
  rw [State.setDestinationState, indexOf_val]
  rfl

/-- Destination `d` set DISABLED, before its cases are moved on. -/
def State.disabled (s : State) (d : Fin 8) : State := s.updDest d fun x => { x with state := .disabled }

section
variable (s : State) (d : Fin 8)

@[simp] theorem State.disabled_slot (k : Fin 48) : (s.disabled d).slot k = s.slot k := rfl
@[simp] theorem State.disabled_caseAt (k : Fin 48) : (s.disabled d).caseAt k = s.caseAt k := rfl
@[simp] theorem State.disabled_plan (c : Cls) : (s.disabled d).plan c = s.plan c := rfl
@[simp] theorem State.disabled_clock : (s.disabled d).clock = s.clock := rfl
@[simp] theorem State.disabled_line (n : Fin 4) : (s.disabled d).line n = s.line n := rfl
@[simp] theorem State.disabled_lingersOn (n : Fin 4) : (s.disabled d).lingersOn n = s.lingersOn n := rfl
@[simp] theorem State.disabled_pendingAt (e : Fin 8) (k : Fin 48) : (s.disabled d).pendingAt e k = s.pendingAt e k := rfl

end

theorem State.disabled_dest (s : State) (d : Fin 8) : (s.disabled d).dest d = { s.dest d with state := .disabled } :=
  (s.updDest_dest d d _).trans (if_pos rfl)

theorem State.disabled_dest_ne (s : State) (h : e ≠ d) : (s.disabled d).dest e = s.dest e :=
  (s.updDest_dest d e _).trans (if_neg h.symm)

theorem State.disabled_not_usable (s : State) (d : Fin 8) : (s.disabled d).usable d = false := by
  rw [State.usable, s.disabled_dest]
  rfl

/-- What is usable with `d` DISABLED is another destination, usable before. -/
theorem State.disabled_usable (h : (s.disabled d).usable e = true) : e ≠ d ∧ s.usable e = true := by
  have hne : e ≠ d := by
    rintro rfl
    rw [s.disabled_not_usable] at h
    cases h
  rw [State.usable, s.disabled_dest_ne hne] at h
  exact ⟨hne, h⟩

theorem State.disableDest_eq (h : (s.dest d).state ≠ .disabled) :
    s.disableDest d = ((s.disabled d).redirected d).answer .ok := by
  rw [State.disableDest, if_neg h, State.redirected_def]
  rfl

/-- The frame of a disable: all but the cases, the destinations, the lines, the causes, the notices and the reply stands. -/
theorem State.disabled_redirected_eq (s : State) (d : Fin 8) :
    let t := ((s.disabled d).redirected d).answer .ok
    t = { s with slots := t.slots, dests := t.dests, lines := t.lines, causes := t.causes, passesDue := t.passesDue
                 reply := some ⟨.ok, []⟩ } :=
  congrArg (State.answer · .ok) ((s.disabled d).redirected_eq d)

end Sys2Proof.Machine

open Sys2Proof Sys2Proof.Machine

/-- Settles O20: an enable by its checks, and a disable as the destination written (`disabled`), its cases moved on and the lingering lines
answered (`redirected`). -/
theorem destinationStateSet : Obligations.DestinationStateSet := by
  refine ⟨fun s d => ?_, fun s d => ?_⟩
  · intro request
    have hdest : (s.takeFrame 5).dest d = s.dest d := s.takeFrame_dest 5 d
    refine ⟨fun h => ?_, fun h => ?_, fun dest state hbad => ?_⟩
    · rw [exec_setDestinationState, State.setDestinationState_enable, State.enableDest, hdest, if_pos h]
      rfl
    · rw [exec_setDestinationState, State.setDestinationState_enable, State.enableDest, hdest, if_neg h]
      split
      · rfl
      · rw [State.updDest, hdest, State.takeFrame_eq]; rfl
    · rw [exec_setDestinationState, State.setDestinationState_badValue hbad]
      rfl
  · intro request
    have hdest : ∀ e, (s.takeFrame 5).dest e = s.dest e := s.takeFrame_dest 5
    have hex : exec request s = .next ((s.takeFrame 5).disableDest d) := by
      rw [exec_setDestinationState, State.setDestinationState_disable]
    refine ⟨fun h => ?_, fun h => ?_⟩
    · rw [hex, State.disableDest, hdest, if_pos h]
      rfl
    · rw [State.disableDest_eq (by rwa [hdest])] at hex
      -- what the state with the frame taken and `d` DISABLED keeps of `s`
      have hnot : ((s.takeFrame 5).disabled d).usable d = false := (s.takeFrame 5).disabled_not_usable d
      have husable : ∀ e, ((s.takeFrame 5).disabled d).usable e = true → e ≠ d ∧ s.usable e = true := fun e he =>
        (State.disabled_usable he).imp_right fun h => by rwa [State.takeFrame_usable] at h
      have hother : ∀ e, e ≠ d → ((s.takeFrame 5).disabled d).dest e = s.dest e := fun e he => by
        rw [State.disabled_dest_ne _ he, hdest]
      have hself : ((s.takeFrame 5).disabled d).dest d = { s.dest d with state := .disabled } := by
        rw [State.disabled_dest, hdest]
      have hcase : ∀ k, ((s.takeFrame 5).disabled d).caseAt k = s.caseAt k := by simp
      have hgen : ∀ k, (((s.takeFrame 5).disabled d).slot k).gen = (s.slot k).gen := by simp
      have hpending : ∀ k, ((s.takeFrame 5).disabled d).pendingAt d k = s.pendingAt d k := by simp
      have hline : ∀ n, ((s.takeFrame 5).disabled d).line n = s.line n := by simp
      have hlingers : ∀ n, ((s.takeFrame 5).disabled d).lingersOn n = s.lingersOn n := by simp
      have hplan : ∀ c, ((s.takeFrame 5).disabled d).plan c = s.plan c := by simp
      have hclock : ((s.takeFrame 5).disabled d).clock = s.clock := by simp
      -- the sweep and the answers from there
      refine ⟨_, hex, (s.takeFrame 5).disabled_redirected_eq d, ?_⟩
      generalize (s.takeFrame 5).disabled d = w at *
      refine ⟨(State.redirected_dest hnot).trans hself, fun e he => ?_,
        fun n hn => (State.redirected_line ((hlingers n).trans hn)).trans (hline n),
        fun k => ⟨(w.redirected_gen d k).trans (hgen k), State.redirected_pendingAt hnot k,
          fun hk => State.redirected_free ((hcase k).trans hk)⟩,
        fun k x hx hs => State.redirected_idle ((hcase k).trans hx) hs,
        fun k x hx hp => State.redirected_elsewhere ((hcase k).trans hx) ((hpending k).trans hp), fun k x hx hp => ?_⟩
      · have h := w.redirected_callLines d e
        rwa [hother e he] at h
      · have hx : w.caseAt k = some x := (hcase k).trans hx
        have hp : w.pendingAt d k = true := (hpending k).trans hp
        intro p
        have hsame : State.usable ((w.redirected d).answer .ok) = w.usable := by
          funext e
          rw [State.answer_usable, w.redirected_usable]
        have hown : w.plan x.key.cls = p := hplan _
        rw [hsame]
        split
        · next e q hq =>
          obtain ⟨hstep, hu, ha, -⟩ := Plan.sweep_rest _ _ hq
          rw [← hown] at hq
          have hrest := State.redirected_rests hx hp hq
          simp only [hlingers, hclock] at hrest
          exact ⟨(husable e hu).1, (husable e hu).2, hstep, ha, hrest⟩
        · next q hq =>
          have ha := Plan.sweep_strand _ _ hq
          rw [← hown] at hq
          exact ⟨ha, State.redirected_strands hx hp hq⟩
end

