-- ==== Sys2Proof/Proofs/DestinationWrites.lean ====
section
/-! CLAIM. WRITE DESTINATION: the operands that decode, which are the codes of a record's values, and the record written (O19). -/

namespace Sys2Proof.Machine

variable {s : State}

/-! ### Operands that decode -/

/-- A list decodes, code by code, exactly where it holds the codes of the values. -/
theorem mapM_eq_some_iff {α β : Type} {decode : α → Option β} {code : β → α} (h : ∀ x y, decode x = some y ↔ code y = x) :
    ∀ {xs : List α} {ys : List β}, xs.mapM decode = some ys ↔ ys.map code = xs
  | [], ys => by simp [eq_comm]
  | x :: xs, ys => by
    simp only [List.mapM_cons, Option.bind_eq_bind, Option.bind_eq_some_iff, h, mapM_eq_some_iff h, List.map_eq_cons_iff]
    constructor
    · rintro ⟨y, hy, zs, hzs, e⟩
      cases e
      exact ⟨y, zs, rfl, hy, hzs⟩
    · rintro ⟨y, zs, rfl, hy, hzs⟩
      exact ⟨y, hy, zs, hzs, rfl⟩

theorem indexOf_eq_some {n x : Nat} {i : Fin n} : indexOf n x = some i ↔ i.val = x := by
  constructor
  · intro h
    unfold indexOf at h
    split at h
    · cases h; rfl
    · cases h
  · rintro rfl
    exact indexOf_val n i

theorem accountOfCodes_eq_some {d1 d2 d3 d4 : Nat} {a : Account} :
    accountOfCodes d1 d2 d3 d4 = some a ↔ a.digits = [d1, d2, d3, d4] := by
  have digit : ∀ {x : Nat} {d : Fin 10}, digitOfCode x = some d ↔ d.val = x := indexOf_eq_some
  constructor
  · intro h
    unfold accountOfCodes at h
    split at h
    · next h1 h2 h3 h4 =>
      cases h
      simp only [Account.digits, digit.mp h1, digit.mp h2, digit.mp h3, digit.mp h4]
    · cases h
  · intro h
    cases h
    simp only [accountOfCodes, digit.mpr rfl]

theorem policyOfCode_eq_some {code : Nat} {p : TogglePolicy} : policyOfCode code = some p ↔ p.code = code := by
  match code with
  | 0 | 1 => cases p <;> decide
  | m + 2 => cases p <;> simp [policyOfCode, firstOfTwo, TogglePolicy.code]

theorem DialSym.code_le (y : DialSym) : y.code ≤ 12 := by
  cases y with
  | digit d => exact d.isLt.le.trans (by decide)
  | star | hash | pause => decide

theorem DialSym.code_eq_pause {y : DialSym} (h : y.code = 12) : y = .pause := by
  cases y with
  | digit d => exact absurd h (by have := d.isLt; simp only [DialSym.code]; omega)
  | star | hash => cases h
  | pause => rfl

theorem dialSymOfCode_eq_some (x : Nat) (y : DialSym) : dialSymOfCode x = some y ↔ y.code = x := by
  constructor
  · intro h
    unfold dialSymOfCode at h
    split at h
    · cases h; rfl
    · repeat' split at h
      all_goals cases h
      all_goals exact Eq.symm ‹_›
  · rintro rfl
    cases y with
    | digit d => exact dif_pos d.isLt
    | star | hash | pause => rfl

/-- The dial strings of R69. -/
theorem dialStringOfCodes_eq_some {xs : List Nat} {dial : List DialSym} :
    dialStringOfCodes xs = some dial ↔
      dial.map DialSym.code = xs ∧ 1 ≤ dial.length ∧ dial.length ≤ 24 ∧ ∃ y ∈ dial, y ≠ .pause := by
  have symbols := @mapM_eq_some_iff _ _ _ _ dialSymOfCode_eq_some xs
  unfold dialStringOfCodes
  constructor
  · intro h
    split at h
    · next hlen =>
      split at h
      · next ds hds =>
        split at h
        · cases h
        · next hp =>
          cases h
          have hmap := symbols.mp hds
          rw [← hmap, List.length_map] at hlen
          exact ⟨hmap, hlen.1, hlen.2, by simpa using hp⟩
      · cases h
    · cases h
  · rintro ⟨hmap, hlo, hhi, hp⟩
    have hlen : xs.length = dial.length := by rw [← hmap, List.length_map]
    rw [if_pos (hlen ▸ ⟨hlo, hhi⟩), symbols.mpr hmap]
    exact if_neg (by simpa using hp)

/-! ### The request -/

theorem exec_writeDestination (s : State) (dest d1 d2 d3 d4 policy : Nat) (symbols : List Nat) :
    exec (.writeDestination 31 dest d1 d2 d3 d4 policy symbols) s =
      .next ((s.takeFrame (10 + symbols.length)).writeDestination dest d1 d2 d3 d4 policy symbols) := rfl

/-- A WRITE DESTINATION with an operand that does not decode (R74). -/
theorem State.writeDestination_badValue {dest d1 d2 d3 d4 policy : Nat} {symbols : List Nat}
    (h : 7 < dest ∨ 9 < d1 ∨ 9 < d2 ∨ 9 < d3 ∨ 9 < d4 ∨ 1 < policy ∨ symbols = [] ∨ 24 < symbols.length ∨
      (∃ y ∈ symbols, 12 < y) ∨ ∀ y ∈ symbols, y = 12) :
    s.writeDestination dest d1 d2 d3 d4 policy symbols = s.answer .badValue := by
  unfold State.writeDestination
  split
  · next d a p dial hd ha hp hdial =>
    exfalso
    have hd := indexOf_eq_some.mp hd
    have ha := accountOfCodes_eq_some.mp ha
    have hp := policyOfCode_eq_some.mp hp
    obtain ⟨hmap, hlo, hhi, y, hy, hne⟩ := dialStringOfCodes_eq_some.mp hdial
    subst hmap
    simp only [Account.digits, List.cons.injEq] at ha
    have hpolicy : p.code ≤ 1 := by cases p <;> decide
    rcases h with h | h | h | h | h | h | h | h | ⟨z, hz, h⟩ | h
    any_goals omega
    · rw [List.map_eq_nil_iff.mp h] at hlo
      exact absurd hlo (by decide)
    · rw [List.length_map] at h
      omega
    · obtain ⟨w, -, rfl⟩ := List.mem_map.mp hz
      exact absurd w.code_le (Nat.not_le.mpr h)
    · exact hne (DialSym.code_eq_pause (h _ (List.mem_map_of_mem hy)))
  · rfl

/-- A WRITE DESTINATION whose operands decode (R74). -/
theorem State.writeDestination_eq {d : Fin 8} {a : Account} {p : TogglePolicy} {dial : List DialSym} {d1 d2 d3 d4 : Nat}
    {symbols : List Nat} (ha : accountOfCodes d1 d2 d3 d4 = some a) (hdial : dialStringOfCodes symbols = some dial) :
    s.writeDestination d.val d1 d2 d3 d4 p.code symbols =
      if (s.dest d).callLine.isSome then s.answer .busy
      else State.answer { s.setDest d { s.dest d with dial := dial, account := a, policy := p, toggle := false, last := .none } with
        passesDue := s.passesDue + (if (s.dest d).state = .enabled then 1 else 0) } .ok := by
  rw [State.writeDestination, indexOf_val, ha, policyOfCode_eq_some.mpr rfl, hdial]
  simp only [State.usable, decide_eq_true_eq]
  split
  · rfl
  · split <;> rfl

end Sys2Proof.Machine

open Sys2Proof Sys2Proof.Machine

/-- Settles O19: the operands decode exactly where they are the codes of a record's values, and the destination's call line then decides
between BUSY and the write. -/
theorem destinationWritten : Obligations.DestinationWritten := by
  intro s dest d1 d2 d3 d4 policy symbols request taken
  have hex : exec request s = .next (taken.writeDestination dest d1 d2 d3 d4 policy symbols) := exec_writeDestination ..
  have hdest : ∀ d, taken.dest d = s.dest d := s.takeFrame_dest _
  have hpasses : taken.passesDue = s.passesDue := s.takeFrame_passesDue _
  refine ⟨fun h => ?_, fun d a p dial hd ha hp hmap hlo hhi hne => ?_⟩
  · rw [hex, State.writeDestination_badValue h]
    rfl
  · subst hd hp
    have heq := State.writeDestination_eq (s := taken) (d := d) (p := p) (accountOfCodes_eq_some.mpr ha)
      (dialStringOfCodes_eq_some.mpr ⟨hmap, hlo, hhi, hne⟩)
    rw [hdest] at heq
    refine ⟨fun h => ?_, fun h => ?_⟩
    · rw [hex, heq, if_pos h]
      rfl
    · rw [hex, heq, hpasses, h]
      rfl
end

