-- ==== Sys2Proof/Proofs/PlanWrites.lean ====
section
/-! CLAIM. WRITE PLAN: the plan replaced, and every case of its class started again, of which the waiting ones may move or be taken up (O21). -/

namespace Sys2Proof.Machine

variable {s t u : State} {j k : Fin 48} {x y z : Case} {cls : Cls}

/-! ### The operands -/

/-- The destination lists of R80 and R81. -/
theorem planListOfCodes_eq_some {xs : List Nat} {ds : List (Fin 8)} :
    planListOfCodes xs = some ds ↔ ds.map Fin.val = xs ∧ ds.length ≤ 4 ∧ ds.Nodup := by
  have entries := @mapM_eq_some_iff _ _ _ _ (fun x d => @indexOf_eq_some 8 x d) xs
  unfold planListOfCodes
  constructor
  · intro h
    split at h
    · next hlen =>
      split at h
      · next es hes =>
        split at h
        · next hn =>
          cases h
          have hmap := entries.mp hes
          rw [← hmap, List.length_map] at hlen
          exact ⟨hmap, hlen, hn⟩
        · cases h
      · cases h
    · cases h
  · rintro ⟨hmap, hlen, hn⟩
    have hlen : xs.length ≤ 4 := by rwa [← hmap, List.length_map]
    rw [if_pos hlen, entries.mpr hmap]
    exact if_pos hn

theorem clamp_eq_self_iff {lo hi x : Nat} (h : lo ≤ hi) : clamp lo hi x = x ↔ lo ≤ x ∧ x ≤ hi := by
  unfold clamp
  omega

/-! ### A case started again -/

/-- The case `x` at the start of its plan, with no failure charged (R82). -/
def Case.startedAgain (x : Case) : Case := { x with progress := ⟨0, 0, 0⟩, failed := 0 }

/-- `y` is the case `x` started again under the plans of `s`: at the start of its plan, but that a waiting case whose first destination is
not usable may have moved on (R10, R82). -/
structure State.StartsAgain (s : State) (x y : Case) : Prop where
  only : y = { x with state := y.state, progress := y.progress, failed := 0, retry := y.retry }
  attempts : y.progress.attempts = 0
  stays : (x.state = .pending → ∀ d : Fin 8, (s.plan x.key.cls).dests.head? = some d → s.usable d = true) → y = x.startedAgain

theorem State.StartsAgain.of_samePlans (h : s.SamePlans t) (g : t.StartsAgain x y) : s.StartsAgain x y :=
  ⟨g.only, g.attempts, fun hx => g.stays (by simpa only [h.plan, h.usable] using hx)⟩

/-- A case started again: it stays where it does not wait or where its first destination is usable, and is advanced otherwise (R10, R82). -/
theorem State.restartCase_eq (hx : s.caseAt k = some x) :
    s.restartCase k =
      if x.state = .pending → ∀ d : Fin 8, (s.plan x.key.cls).dests.head? = some d → s.usable d = true then s.setCase k x.startedAgain
      else (s.setCase k x.startedAgain).advance k none := by
  have hhead : s.currentDest x.startedAgain = (s.plan x.key.cls).dests.head? := State.currentDest_start rfl
  unfold State.restartCase
  rw [hx]
  show (if x.state = .pending then
    match s.currentDest x.startedAgain with
    | none => s.setCase k x.startedAgain
    | some d => if s.usable d then s.setCase k x.startedAgain else (s.setCase k x.startedAgain).advance k none
    else s.setCase k x.startedAgain) = _
  rw [hhead]
  by_cases hp : x.state = .pending
  · cases (s.plan x.key.cls).dests.head? with
    | none => simp [hp]
    | some d => cases hu : s.usable d <;> simp [hp, hu]
  · simp [hp]

/-- The turn of a case of the plan's class: it starts again, and no notice is lost. -/
theorem State.restartCase_startsAgain (hx : s.caseAt k = some x) :
    s.passesDue ≤ (s.restartCase k).passesDue ∧ ∃ y, s.StartsAgain x y ∧ (s.restartCase k).caseAt k = some y := by
  have written : ∀ z, (s.setCase k z).caseAt k = some z := fun z => (s.setCase_caseAt k k z).trans (if_pos rfl)
  have again : ∀ z, ((s.setCase k x.startedAgain).setCase k z).caseAt k = some z := fun z => by
    rw [State.setCase_setCase]
    exact written z
  rw [State.restartCase_eq hx]
  split
  · exact ⟨Nat.le_refl _, _, ⟨rfl, rfl, fun _ => rfl⟩, written _⟩
  · next hmoves =>
    rcases (s.setCase k x.startedAgain).advance_cases k none with h | ⟨z, hz, h⟩
    · rw [h]
      exact ⟨Nat.le_refl _, _, ⟨rfl, rfl, fun g => absurd g hmoves⟩, written _⟩
    · cases (written _).symm.trans hz
      rcases h with ⟨_, q, retry, -, -, ha, -, h⟩ | ⟨q, ha, h⟩
      · rw [h]
        exact ⟨Nat.le_succ _, _, ⟨rfl, ha, fun g => absurd g hmoves⟩, again _⟩
      · rw [h, State.strand_eq]
        exact ⟨Nat.le_add_right _ _, _, ⟨rfl, ha, fun g => absurd g hmoves⟩, again _⟩

/-! ### Every case of the class -/

/-- A sweep in which each slot's turn touches its own case alone: a slot of the sweep reads as after its own turn, taken from a state that
has its case and the plans as they were. -/
theorem State.foldl_touches_caseAt {g : State → Fin 48 → State} (touch : ∀ (t : State) k, t.Touches (g t k) k) :
    ∀ (ks : List (Fin 48)) (s : State), ks.Nodup → j ∈ ks →
      ∃ t, s.SamePlans t ∧ t.caseAt j = s.caseAt j ∧ (ks.foldl g s).caseAt j = (g t j).caseAt j := by
  have rest : ∀ (ks : List (Fin 48)) (s : State), j ∉ ks → (ks.foldl g s).caseAt j = s.caseAt j := by
    intro ks
    induction ks with
    | nil => exact fun _ _ => rfl
    | cons k ks ih =>
      intro s hj
      exact (ih _ fun h => hj (List.mem_cons_of_mem _ h)).trans ((touch s k).other j fun h => hj (h ▸ List.mem_cons_self))
  intro ks
  induction ks with
  | nil => exact fun _ _ h => absurd h List.not_mem_nil
  | cons k ks ih =>
    intro s hn hj
    obtain ⟨hk, hn⟩ := List.nodup_cons.mp hn
    by_cases hjk : j = k
    · subst hjk
      exact ⟨s, .refl s, rfl, rest ks _ hk⟩
    · obtain ⟨t, hs, hc, h⟩ := ih (g s k) hn ((List.mem_cons.mp hj).resolve_left hjk)
      exact ⟨t, (touch s k).same.trans hs, hc.trans ((touch s k).other j hjk), h⟩

/-- A relation that each turn keeps holds over the cases of the class. -/
theorem State.foldl_restartOf {P : State → State → Prop} (refl : ∀ s, P s s) (trans : ∀ {s t u}, P s t → P t u → P s u)
    (one : ∀ s k, P s (s.restartOf cls k)) (ks : List (Fin 48)) (s : State) : P s (ks.foldl (State.restartOf cls) s) := by
  induction ks generalizing s with
  | nil => exact refl s
  | cons k ks ih => exact trans (one s k) (ih _)

theorem State.restartOf_eq (hx : s.caseAt k = some x) : s.restartOf cls k = if x.key.cls = cls then s.restartCase k else s := by
  simp only [State.restartOf, State.ofClass, hx, decide_eq_true_eq]

theorem State.restartOf_passesDue (s : State) (cls : Cls) (k : Fin 48) : s.passesDue ≤ (s.restartOf cls k).passesDue := by
  cases hx : s.caseAt k with
  | none => simp [State.restartOf, State.ofClass, hx]
  | some x =>
    rw [State.restartOf_eq hx]
    split
    · exact (State.restartCase_startsAgain hx).1
    · exact Nat.le_refl _

/-- A plan replaced leaves the other plans. -/
theorem State.replacePlan_plan (s : State) (cls : Cls) (p : Plan) (e : Cls) :
    (s.replacePlan cls p).plan e = if cls = e then p else s.plan e := by
  rw [State.replacePlan_eq, State.notify_plan, ← s.setPlan_plan cls e p]
  exact (State.foldl_restartOf .refl .trans (fun s k => (s.restartOf_touches cls k).same) _ _).plan e

/-- The Arbiter is told of a plan replaced (R82). -/
theorem State.replacePlan_passesDue (s : State) (cls : Cls) (p : Plan) : s.passesDue + 1 ≤ (s.replacePlan cls p).passesDue := by
  rw [State.replacePlan_eq, State.notify_passesDue]
  exact Nat.succ_le_succ (State.foldl_restartOf (P := fun s t => s.passesDue ≤ t.passesDue) (fun _ => Nat.le_refl _) Nat.le_trans
    (fun s k => s.restartOf_passesDue cls k) _ (s.setPlan cls p))

/-- A plan replaced: a case of another class is left exactly as it was, and one of its class starts again (R82). -/
theorem State.replacePlan_caseAt (p : Plan) (hx : s.caseAt k = some x) :
    (x.key.cls ≠ cls → (s.replacePlan cls p).caseAt k = some x) ∧
    (x.key.cls = cls → ∃ y, (s.setPlan cls p).StartsAgain x y ∧ (s.replacePlan cls p).caseAt k = some y) := by
  obtain ⟨t, hs, ht, h⟩ := State.foldl_touches_caseAt (fun t k => t.restartOf_touches cls k) (List.finRange 48) (s.setPlan cls p)
    (List.nodup_finRange 48) (List.mem_finRange k)
  have ht : t.caseAt k = some x := ht.trans hx
  rw [State.replacePlan_eq, State.notify_caseAt, h, State.restartOf_eq ht]
  refine ⟨fun hc => ?_, fun hc => ?_⟩
  · rwa [if_neg hc]
  · rw [if_pos hc]
    obtain ⟨-, y, hy, h⟩ := State.restartCase_startsAgain ht
    exact ⟨y, hy.of_samePlans hs, h⟩

/-! ### The request -/

theorem exec_writePlan (s : State) (code : Nat) (dests : List Nat) (attempts rounds : Nat) :
    exec (.writePlan 31 code dests attempts rounds) s =
      .next ((s.takeFrame (7 + dests.length)).writePlan code dests attempts rounds) := rfl

/-- A WRITE PLAN with a class, a list or a destination that does not decode (R81). -/
theorem State.writePlan_badValue {code : Nat} {dests : List Nat} (attempts rounds : Nat)
    (h : code = 0 ∨ 5 < code ∨ 4 < dests.length ∨ (∃ y ∈ dests, 7 < y) ∨ ¬ dests.Nodup) :
    s.writePlan code dests attempts rounds = s.answer .badValue := by
  unfold State.writePlan
  split
  · next c ds hc hds =>
    exfalso
    obtain ⟨hmap, hlen, hn⟩ := planListOfCodes_eq_some.mp hds
    subst hmap
    rcases h with h | h | h | ⟨y, hy, h⟩ | h
    · cases hc.symm.trans (clsOfCode_eq_none (.inl h))
    · cases hc.symm.trans (clsOfCode_eq_none (.inr h))
    · exact absurd hlen (by rwa [← List.length_map, Nat.not_le])
    · obtain ⟨d, -, rfl⟩ := List.mem_map.mp hy
      omega
    · exact h (hn.map Fin.val_injective)
  · rfl

/-- A WRITE PLAN whose operands decode (R81). -/
theorem State.writePlan_eq {dests : List Nat} {ds : List (Fin 8)} (attempts rounds : Nat) (hds : planListOfCodes dests = some ds) :
    s.writePlan cls.code dests attempts rounds =
      (s.replacePlan cls ⟨ds, clamp 1 8 attempts, clamp 1 3 rounds⟩).answerLingers.answer
        (if 1 ≤ attempts ∧ attempts ≤ 8 ∧ 1 ≤ rounds ∧ rounds ≤ 3 then .ok else .adjusted) := by
  have held : (decide (clamp 1 8 attempts ≠ attempts) || decide (clamp 1 3 rounds ≠ rounds)) = true ↔
      ¬ (1 ≤ attempts ∧ attempts ≤ 8 ∧ 1 ≤ rounds ∧ rounds ≤ 3) := by
    rw [Bool.or_eq_true, decide_eq_true_eq, decide_eq_true_eq, Ne, Ne, clamp_eq_self_iff (by decide), clamp_eq_self_iff (by decide)]
    omega
  rw [State.writePlan, clsOfCode_code, hds]
  simp only [State.answerWrite, held, ite_not]

/-- The answers to the lingering lines lose no notice. -/
theorem State.answerLingers_passesDue (s : State) : s.passesDue ≤ s.answerLingers.passesDue :=
  s.foldl_answerLinger (P := fun s t => s.passesDue ≤ t.passesDue) (fun _ => Nat.le_refl _) Nat.le_trans fun s n => by
    rcases s.answerLinger_moves n with h | ⟨c, hc, -, h | ⟨k, x, hx, -, -, h⟩⟩
    · rw [h]
    · obtain ⟨l, hr⟩ := State.release_eq hc
      rw [h, hr]
      exact Nat.le_succ _
    · rw [h, State.takeUp_eq hc hx]
      exact Nat.le_refl _

end Sys2Proof.Machine

open Sys2Proof Sys2Proof.Machine

/-- Settles O21: the plan replaced, case by case (`replacePlan_caseAt`), and the lingering lines then answered, which may take up the cases
that wait. -/
theorem planWritten : Obligations.PlanWritten := by
  intro s code attempts rounds dests request
  refine ⟨fun h => ?_, fun c ds hc hmap hlen hn => ?_⟩
  · rw [exec_writePlan, State.writePlan_badValue attempts rounds h]
    rfl
  · subst hc
    have hex := exec_writePlan s c.code dests attempts rounds
    rw [State.writePlan_eq attempts rounds (planListOfCodes_eq_some.mpr ⟨hmap, hlen, hn⟩)] at hex
    have hplan := (s.takeFrame (7 + dests.length)).replacePlan_plan c ⟨ds, clamp 1 8 attempts, clamp 1 3 rounds⟩
    have hpasses := (s.takeFrame (7 + dests.length)).replacePlan_passesDue c ⟨ds, clamp 1 8 attempts, clamp 1 3 rounds⟩
    have hcase := fun k x (hx : s.caseAt k = some x) => State.replacePlan_caseAt (cls := c) ⟨ds, clamp 1 8 attempts, clamp 1 3 rounds⟩
      ((s.takeFrame_caseAt (7 + dests.length) k).trans hx)
    generalize (s.takeFrame (7 + dests.length)).replacePlan c _ = u at *
    have spares := u.answerLingers_spares
    have sends := u.answerLingers_sends
    have hmore := u.answerLingers_passesDue
    generalize u.answerLingers = v at *
    have plans : ∀ e, v.plan e = u.plan e := fun e => by rw [State.plan, spares.plans]; rfl
    -- a case that does not wait is nothing to the lingering lines
    have idle : ∀ k y, u.caseAt k = some y → y.state ≠ .pending → v.caseAt k = some y := fun k y hy hs =>
      spares.case k y hy fun h => absurd h hs
    refine ⟨_, hex, rfl, ?_, fun e he => ?_, ?_, fun k x hx hs => ?_, fun k x hx hs hc => ?_⟩
    · exact (plans c).trans ((hplan c).trans (if_pos rfl))
    · exact (plans e).trans ((hplan e).trans ((if_neg he.symm).trans (s.takeFrame_plan _ e)))
    · rw [State.takeFrame_passesDue] at hpasses
      exact hpasses.trans hmore
    · obtain ⟨other, own⟩ := hcase k x hx
      by_cases hc : x.key.cls = c
      · obtain ⟨y, hy, hk⟩ := own hc
        rw [hy.stays fun h => absurd h hs] at hk
        rw [if_pos hc]
        exact idle k _ hk hs
      · rw [if_neg hc]
        exact idle k x (other hc) hs
    · obtain ⟨y, hy, hk⟩ := (hcase k x hx).2 hc
      obtain ⟨st, l, ht, -⟩ := sends.caseAt hk
      refine ⟨_, ht, ?_, hy.attempts, ?_, fun d hd hu => ?_⟩
      · rw [hy.only]
      · rw [hy.only]
      · have hz := hy.stays fun _ e he => by
          rw [hc, State.setPlan_plan, if_pos rfl] at he
          cases hd.symm.trans he
          exact (s.takeFrame_usable _ d).trans hu
        rw [hz]
        exact ⟨rfl, rfl⟩
end

