-- ==== Sys2Proof/Proofs/BlockExchange.lean ====
section
/-! CLAIM. The report exchange before its end: the ready symbol, BLOCK_SENT, the symbols that are discarded and the repeat of a block (O48). -/

namespace Sys2Proof.Machine

variable {s : State} {n : Fin 4} {c : Call} {b : BlockRun} {k : Fin 48} {x : Case} {y : Nat}

/-! ### One call written -/

theorem State.updCall_eq (hc : s.call n = some c) (f : Call → Call) : s.updCall n f = s.setLine n { s.line n with call := some (f c) } := by
  have hcall : (s.line n).call = some c := hc
  rw [State.updCall, State.updLine, hcall, Option.map_some]

theorem State.updBlock_eq (hc : s.call n = some c) (hb : c.block = some b) (f : BlockRun → BlockRun) :
    s.updBlock n f = s.setLine n { s.line n with call := some { c with block := some (f b) } } := by
  rw [State.updBlock, State.updCall_eq hc, hb, Option.map_some]

theorem State.blockPhase_eq (hl : (s.line n).state = .exchange) (hc : s.call n = some c) (hb : c.block = some b) :
    s.blockPhase n = some b.phase := by
  rw [State.blockPhase, if_pos hl, hc, Option.bind_some, hb, Option.map_some]

/-! ### Symbols -/

theorem exec_receivedSymbol_handshake (hl : (s.line n).state = .awaitHandshake) :
    exec (.receivedSymbol n y) s = .next (if y = 15 then s.ready n else s) := by
  show execReceivedSymbol n y s = _
  rw [execReceivedSymbol, hl]
  exact (apply_ite Host.Outcome.next _ _ _).symm

/-- The symbols that say nothing to a line (R105, R147, R152): all in a state that takes none, and in EXCHANGE all while no block is
AWAITING, and all but 'A', 'B' and 'C' while one is. -/
theorem exec_receivedSymbol_ignored (hl : (s.line n).state ≠ .awaitHandshake)
    (h : (s.line n).state = .exchange → s.blockPhase n = some .awaiting → y < 12 ∨ 14 < y) :
    exec (.receivedSymbol n y) s = .next s := by
  show execReceivedSymbol n y s = _
  unfold execReceivedSymbol
  split
  · next hs => exact absurd hs hl
  · next hs =>
    split
    · next hp =>
      have hy := h hs hp
      rw [if_neg (by omega), if_neg (by omega), if_neg (by omega)]
    · rfl
  · rfl

/-- The station is ready (R72, R115, R143). -/
theorem State.ready_eq (hc : s.call n = some c) (hk : c.current = some k) (hx : s.caseAt k = some x) :
    let d := if (s.dest c.dest).policy = .perCall then { s.dest c.dest with toggle := false } else s.dest c.dest
    s.ready n = (s.setDest c.dest d).setLine n { s.line n with
      state := .exchange, failures := 0
      call := some { c with
        handshake := none
        block := (composeBlock x d).map fun b => { symbols := b, phase := .sending, repeats := 0, response := none } } } := by
  intro d
  have hcall : (s.line n).call = some c := hc
  have hdest : (s.setDest c.dest d).dest c.dest = d := (s.setDest_dest c.dest c.dest d).trans (if_pos rfl)
  have hblock : (s.setDest c.dest d).newBlock k c.dest =
      (composeBlock x d).map fun b => { symbols := b, phase := .sending, repeats := 0, response := none } := by
    rw [State.newBlock, State.setDest_caseAt, hx, hdest]
  have hready : s.ready n = (s.setDest c.dest d).updLine n fun l => { l with
      state := .exchange, failures := 0
      call := l.call.map fun c' => { c' with
        handshake := none, block := c.current.bind fun k => (s.setDest c.dest d).newBlock k c.dest } } := by
    rw [State.ready, hc]
    rfl
  rw [hready, State.updLine, State.setDest_line, hcall, Option.map_some, hk, Option.bind_some, hblock]

/-! ### BLOCK_SENT and the repeat -/

theorem exec_blockSent (h : s.blockPhase n = some .sending) :
    exec (.blockSent n) s =
      .next (s.updBlock n fun b => { b with phase := .awaiting, response := some (s.exchange.response * 1000) }) :=
  if_pos h

theorem exec_responseWaitExpiry (hp : s.blockPhase n = some .awaiting) (hc : s.call n = some c) (hb : c.block = some b)
    (hr : b.response.isSome) : exec (.responseWaitExpiry n) s = .next (s.repeatBlock n).answerLingers := by
  refine if_pos ⟨hp, ?_⟩
  rw [hc, Option.bind_some, hb, Option.bind_some]
  exact hr

/-- A repeat decision at or below the limit (R150). -/
theorem State.repeatBlock_again (hc : s.call n = some c) (hb : c.block = some b) (hr : b.repeats + 1 ≤ s.exchange.repeatLimit) :
    s.repeatBlock n = s.setLine n { s.line n with
      call := some { c with block := some { b with phase := .sending, repeats := b.repeats + 1, response := none } } } := by
  have hwritten (l : Line) : (s.setLine n l).call n = l.call := (s.setLine_call n n l).trans (if_pos rfl)
  rw [State.repeatBlock, hc, Option.bind_some, hb]
  simp only [if_pos hr, State.updBlock_eq hc hb]
  rw [State.updBlock_eq (hwritten _) rfl, State.setLine_setLine, State.setLine_line, if_pos rfl]

end Sys2Proof.Machine

open Sys2Proof Sys2Proof.Machine

/-- Settles O48: the ready symbol, BLOCK_SENT and the repeat decision each as one line written, and the symbols of R105, R147 and R152
ignored. -/
theorem blockExchanged : Obligations.BlockExchanged := by
  refine ⟨fun s n c k x hl hc hk hx => ?_, fun s n => ⟨fun c b hl hc hb => ⟨fun hp => ⟨?_, fun y => ?_⟩, fun hp y hy => ?_⟩, fun hh he y => ?_⟩,
    fun s n c b hl hc hb hp hr hno => ?_⟩
  · intro d
    refine ⟨?_, fun y hy => ?_⟩
    · rw [exec_receivedSymbol_handshake hl, if_pos rfl, State.ready_eq hc hk hx]
    · rw [exec_receivedSymbol_handshake hl, if_neg hy]
  · rw [exec_blockSent (by rw [State.blockPhase_eq hl hc hb, hp]), State.updBlock_eq hc hb]
  · exact exec_receivedSymbol_ignored (by simp [hl]) fun _ h => by
      rw [State.blockPhase_eq hl hc hb, hp] at h
      cases h
  · exact exec_receivedSymbol_ignored (by simp [hl]) fun _ _ => hy
  · exact exec_receivedSymbol_ignored hh fun h => absurd h he
  · intro again
    have hphase : s.blockPhase n = some .awaiting := by rw [State.blockPhase_eq hl hc hb, hp]
    have hagain : (s.repeatBlock n).answerLingers = again := by
      rw [State.repeatBlock_again hc hb hr]
      exact State.answerLingers_eq_self _ (hno.setLine (by simp [hl]))
    refine ⟨?_, fun hw => ?_⟩
    · rw [exec_repeat hl hphase, hagain]
    · rw [exec_responseWaitExpiry hphase hc hb hw, hagain]
end

