-- ==== Sys2Proof/Proofs/RecordReads.lean ====
section
/-! CLAIM. READ LINE, READ DESTINATION and READ INPUT: the fields of each body in their places (O29). -/

namespace Sys2Proof.Machine

variable {s : State} {src x : Nat}

/-! ### Fields -/

theorem byteOf_codeOfFirst (b : Bool) : byteOf (codeOfFirst b) = if b = true then 0 else 1 := by cases b <;> rfl

/-- The fields of a list, one byte each. -/
theorem flatMap_field1 {α : Type} (f : α → Nat) (xs : List α) : xs.flatMap (fun y => field1 (f y)) = xs.map fun y => byteOf (f y) :=
  List.flatMap_pure_eq_map ..

/-- A one-byte field that may be absent (R183). -/
theorem fieldOpt_byte {α : Type} (f : α → Nat) (o : Option α) :
    fieldOpt 1 (o.map fun a => field1 (f a)) = [if o.isSome then 1 else 0, byteOf ((o.map f).getD 0)] := by cases o <;> rfl

theorem fieldOpt_field1 (o : Option Nat) : fieldOpt 1 (o.map field1) = [if o.isSome then 1 else 0, byteOf (o.getD 0)] := by
  cases o <;> rfl

/-- A key that may be absent takes five bytes (R183). -/
theorem fieldOpt_key_length (o : Option Key) : (fieldOpt 4 (o.map fieldKey)).length = 5 := by cases o <;> rfl

/-! ### The bodies, byte by byte -/

/-- The 14 bytes of READ LINE (R127). -/
theorem State.lineBody_eq (s : State) (n : Fin 4) : s.lineBody n =
    [byteOf (s.line n).state.code, byteOf (s.line n).cause.code, byteOf (s.line n).learned.code, byteOf (s.line n).failures,
      if ((s.call n).bind Call.reference).isSome then 1 else 0, byteOf (((s.call n).bind Call.reference).getD 0),
      if (s.line n).sample.isSome then 1 else 0, byteOf (((s.line n).sample.map LineSample.volts).getD 0),
      byteOf (((s.line n).sample.map LineSample.milliamps).getD 0),
      if (s.line n).enabled = true then 0 else 1, if (s.line n).forced = true then 0 else 1, byteOf (s.line n).mode.code,
      if (s.call n).isSome then 1 else 0, byteOf (((s.call n).map fun c => c.dest.val).getD 0)] := by
  have hsample (o : Option LineSample) : fieldOpt 2 (o.map fun x => field1 x.volts ++ field1 x.milliamps) =
      [if o.isSome then 1 else 0, byteOf ((o.map LineSample.volts).getD 0), byteOf ((o.map LineSample.milliamps).getD 0)] := by
    cases o <;> rfl
  simp only [State.lineBody]
  rw [hsample, fieldOpt_field1, fieldOpt_byte fun c : Call => c.dest.val]
  simp only [field1, byteOf_codeOfFirst]
  rfl

/-- The fields of READ DESTINATION (R77). -/
theorem Destination.body_eq (x : Destination) : x.body =
    byteOf x.dial.length :: x.dial.map (fun y => byteOf y.code) ++ x.account.digits.map byteOf ++
      [byteOf x.state.code, if x.toggle = true then 1 else 0, byteOf x.policy.code, byteOf x.last.code] ++
      [if x.callLine.isSome then 1 else 0, byteOf ((x.callLine.map Fin.val).getD 0)] := by
  have hdigits : x.account.digits.flatMap field1 = x.account.digits.map byteOf := flatMap_field1 id _
  have htoggle : byteOf (if x.toggle then 1 else 0) = if x.toggle = true then 1 else 0 := by cases x.toggle <;> rfl
  rw [Destination.body, flatMap_field1, hdigits, fieldOpt_byte Fin.val]
  simp only [field1, htoggle, List.append_assoc, List.cons_append, List.nil_append]

/-- The retard whose seconds READ INPUT gives: the one that runs in the stage RETARDING (R183). -/
def Channel.retardShown (c : Channel) : Option RetardRun := if c.alarm = .retarding then c.retardTimer else none

theorem State.retardField_eq (s : State) (c : Channel) : s.retardField c = c.retardShown.map fun r => field1 (s.retardLeft r) := by
  unfold State.retardField Channel.retardShown
  split <;> rfl

/-- The bytes of READ INPUT, the two held keys behind (R171). -/
theorem State.inputBody_eq (s : State) (i : Fin 8) : s.inputBody i =
    [if (s.input i).enabled = true then 0 else 1, byteOf (s.input i).cls.code, byteOf ((s.input i).zone / 256), byteOf (s.input i).zone,
      byteOf (s.input i).latch.code, byteOf (s.input i).sampling.code, byteOf ((s.input i).filterMs / 256), byteOf (s.input i).filterMs,
      byteOf (s.input i).retard,
      if (s.input i).sample.isSome then 1 else 0, byteOf ((s.input i).sample.getD 0), byteOf (s.input i).accepted.code,
      if (s.input i).candidate.isSome then 1 else 0, byteOf (((s.input i).candidate.map Level.code).getD 0),
      byteOf (s.input i).alarm.code,
      if (s.input i).retardShown.isSome then 1 else 0, byteOf (((s.input i).retardShown.map s.retardLeft).getD 0),
      if (s.input i).latch = .latching ∧ (s.input i).alarm = .raised then 1 else 0, byteOf (s.input i).trouble.code] ++
    (fieldOpt 4 ((s.heldAt (Poster.inputAlarm i).position).map fieldKey) ++
      fieldOpt 4 ((s.heldAt (Poster.inputTrouble i).position).map fieldKey)) := by
  have hlatched : byteOf (if (s.input i).latched then 1 else 0) =
      if (s.input i).latch = .latching ∧ (s.input i).alarm = .raised then 1 else 0 := by
    simp only [Channel.latched, Bool.and_eq_true, decide_eq_true_eq]
    split <;> rfl
  simp only [State.inputBody]
  rw [State.retardField_eq, fieldOpt_field1, fieldOpt_byte Level.code, fieldOpt_byte s.retardLeft]
  simp only [field1, hlatched, byteOf_codeOfFirst, List.append_assoc]
  rfl

/-! ### The requests -/

theorem exec_readLine (hs : src ≤ 15 ∨ src = 31) : exec (.readLine src x) s = .next ((s.takeFrame 4).readLine x) :=
  congrArg _ (State.anySource_eq hs _)

theorem exec_readDestination (hs : src ≤ 15 ∨ src = 31) :
    exec (.readDestination src x) s = .next ((s.takeFrame 4).readDestination x) :=
  congrArg _ (State.anySource_eq hs _)

theorem exec_readInput (hs : src ≤ 15 ∨ src = 31) : exec (.readInput src x) s = .next ((s.takeFrame 4).readInput x) :=
  congrArg _ (State.anySource_eq hs _)

/-- A number that names no record. -/
theorem indexOf_eq_none {n : Nat} (h : n ≤ x) : indexOf n x = none := dif_neg (Nat.not_lt.mpr h)

theorem State.readLine_eq (s : State) (n : Fin 4) : s.readLine n.val = s.answer .ok (s.lineBody n) := by
  rw [State.readLine, indexOf_val]

theorem State.readDestination_eq (s : State) (d : Fin 8) : s.readDestination d.val = s.answer .ok (s.dest d).body := by
  rw [State.readDestination, indexOf_val]

/-- READ INPUT may draw a free value behind its answer (R171, log entry 9). -/
theorem State.readInput_eq (s : State) (i : Fin 8) :
    ∃ draws, s.readInput i.val = { s.answer .ok (s.inputBody i) with freeCount := draws } := by
  rw [State.readInput, indexOf_val]
  simp only []
  split
  · exact ⟨_, rfl⟩
  · exact ⟨_, rfl⟩

/-- A frame taken leaves what READ LINE gives. -/
theorem State.takeFrame_lineBody (s : State) (len : Nat) (n : Fin 4) : (s.takeFrame len).lineBody n = s.lineBody n := by
  rw [s.takeFrame_eq]
  rfl

/-- A frame taken leaves what READ INPUT gives. -/
theorem State.takeFrame_inputBody (s : State) (len : Nat) (i : Fin 8) : (s.takeFrame len).inputBody i = s.inputBody i := by
  rw [s.takeFrame_eq]
  rfl

/-- The seconds of a retard left are those on the clock, or one less (R183, log entry 9). -/
theorem State.retardLeft_cases (s : State) (r : RetardRun) :
    s.retardLeft r = r.seconds - (s.clock - r.started).toNat ∨ s.retardLeft r = r.seconds - (s.clock - r.started).toNat - 1 := by
  unfold State.retardLeft State.since
  split
  · exact .inr rfl
  · exact .inl rfl

end Sys2Proof.Machine

open Sys2Proof Sys2Proof.Machine

/-- Settles O29: the bodies byte by byte (`lineBody_eq`, `Destination.body_eq`, `inputBody_eq`), each clause one part of them. -/
theorem recordsRead : Obligations.RecordsRead := by
  intro s src hs held
  refine ⟨fun n => ⟨s.lineBody n, ?_, ?_⟩, fun d => ?_, fun i => ?_, fun x => ⟨fun h => ?_, fun h => ⟨?_, ?_⟩⟩⟩
  · rw [exec_readLine hs, State.readLine_eq, State.takeFrame_lineBody]
    rfl
  · rw [s.lineBody_eq n]
    refine ⟨rfl, ?_, ?_, rfl, ?_⟩
    · cases (s.call n).bind Call.reference <;> rfl
    · cases (s.line n).sample <;> rfl
    · cases s.call n <;> rfl
  · rw [exec_readDestination hs, State.readDestination_eq, s.takeFrame_dest, Destination.body_eq]
    cases (s.dest d).callLine <;> rfl
  · obtain ⟨draws, hread⟩ := (s.takeFrame 4).readInput_eq i
    refine ⟨s.inputBody i, draws, ?_, ?_⟩
    · rw [exec_readInput hs, hread, State.takeFrame_inputBody]
      rfl
    have hheld (o : Option Key) : fieldOpt 4 (o.map fieldKey) = held o := by cases o <;> rfl
    rw [s.inputBody_eq i]
    refine ⟨rfl, ?_, ?_, fun r ha hr => ?_, fun ha => ?_, rfl, ?_, ?_⟩
    · cases (s.input i).sample <;> rfl
    · cases (s.input i).candidate <;> rfl
    · have hshown : (s.input i).retardShown = some r := (if_pos ha).trans hr
      rw [hshown]
      exact ⟨rfl, (s.retardLeft_cases r).imp (congrArg fun m => some (byteOf m)) (congrArg fun m => some (byteOf m))⟩
    · have hshown : (s.input i).retardShown = none := if_neg ha
      rw [hshown]
      rfl
    · exact (List.take_left' (fieldOpt_key_length _)).trans (hheld _)
    · exact (List.drop_left' (fieldOpt_key_length _)).trans (hheld _)
  · rw [exec_readLine hs, State.readLine, indexOf_eq_none h]
    rfl
  · rw [exec_readDestination hs, State.readDestination, indexOf_eq_none h]
    rfl
  · rw [exec_readInput hs, State.readInput, indexOf_eq_none h]
    rfl
end

