-- ==== Sys2Proof/Proofs/StandingRequests.lean ====
section
/-! CLAIM. No step leaves a standing request that could be answered (O58): the answers to the lingering lines leave none, and a command
without them makes no line linger and no case wait. -/

namespace Sys2Proof.Machine

variable {s t u : State} {n : Fin 4} {k : Fin 48} {d : Fin 8}

/-! ### Fewer offers -/

/-- From `s` to `t` no line begins to linger on a destination, and no case begins to wait at one. -/
structure State.FewerOffers (s t : State) : Prop where
  lingers : ∀ n d, t.lingersOn n = some d → s.lingersOn n = some d
  waits : ∀ d k, t.pendingAt d k = true → s.pendingAt d k = true

theorem State.FewerOffers.refl (s : State) : s.FewerOffers s := ⟨fun _ _ => id, fun _ _ => id⟩

theorem State.FewerOffers.trans (h : s.FewerOffers t) (g : t.FewerOffers u) : s.FewerOffers u :=
  ⟨fun n d e => h.lingers n d (g.lingers n d e), fun d k e => h.waits d k (g.waits d k e)⟩

/-- The standing request of line `n` has been answered as far as it can be (R101). -/
def State.NoOfferTo (s : State) (n : Fin 4) : Prop := ∀ d, s.lingersOn n = some d → ∀ k, s.pendingAt d k = false

theorem State.FewerOffers.noOfferTo (h : s.FewerOffers t) (g : s.NoOfferTo n) : t.NoOfferTo n := fun d e k =>
  Bool.eq_false_iff.mpr fun hk => Bool.eq_false_iff.mp (g d (h.lingers n d e) k) (h.waits d k hk)

theorem State.FewerOffers.noOffer (h : s.FewerOffers t) (g : s.NoOffer) : t.NoOffer := fun n => h.noOfferTo (g n)

theorem State.NoOfferTo.of_not_linger (h : (s.line n).state ≠ .linger) : s.NoOfferTo n := fun d e => by
  rw [State.lingersOn, if_neg h] at e
  cases e

/-! ### The changes that make no offer -/

/-- The destination a line lingers on, read in the line alone. -/
def Line.lingersOn (l : Line) : Option (Fin 8) := if l.state = .linger then l.call.map Call.dest else none

theorem State.lingersOn_eq (s : State) (n : Fin 4) : s.lingersOn n = (s.line n).lingersOn := rfl

theorem Line.lingersOn_of_ne {l : Line} (h : l.state ≠ .linger) : l.lingersOn = none := if_neg h

/-- A line written lingers on no other destination. -/
theorem State.FewerOffers.updLine {f : Line → Line} (h : ∀ d, (f (s.line n)).lingersOn = some d → (s.line n).lingersOn = some d) :
    s.FewerOffers (s.updLine n f) := by
  refine ⟨fun m d e => ?_, fun _ _ => id⟩
  rw [State.lingersOn_eq, State.updLine_line] at e
  split at e
  · next hm => subst hm; exact h d e
  · exact e

/-- A line that leaves LINGER, or was not in it, makes no offer. -/
theorem State.FewerOffers.updLine_gone {f : Line → Line} (h : (f (s.line n)).state ≠ .linger) : s.FewerOffers (s.updLine n f) :=
  .updLine fun d e => by rw [Line.lingersOn_of_ne h] at e; cases e

/-- A line whose state and call stand makes no offer. -/
theorem State.FewerOffers.updLine_same {f : Line → Line} (state : (f (s.line n)).state = (s.line n).state)
    (call : (f (s.line n)).call = (s.line n).call) : s.FewerOffers (s.updLine n f) :=
  .updLine fun d e => by rwa [Line.lingersOn, state, call] at e

/-- A call that keeps its destination makes no offer. -/
theorem State.FewerOffers.updCall {f : Call → Call} (h : ∀ c, (f c).dest = c.dest := by exact fun _ => rfl) :
    s.FewerOffers (s.updCall n f) :=
  .updLine fun d e => by
    have hd : ((s.line n).call.map f).map Call.dest = (s.line n).call.map Call.dest := by
      rw [Option.map_map]
      exact congrArg (fun g => (s.line n).call.map g) (funext h)
    rwa [Line.lingersOn, hd] at e

/-- A case written makes no offer where it does not wait, or waited at the same destination before. -/
theorem State.FewerOffers.setCase {x : Case} (h : x.state = .pending → ∀ d, s.currentDest x = some d → s.pendingAt d k = true) :
    s.FewerOffers (s.setCase k x) := by
  refine ⟨fun _ _ => id, fun d j e => ?_⟩
  obtain ⟨y, hy, hs, hd⟩ := (State.pendingAt_iff _ d j).mp e
  rw [State.setCase_caseAt] at hy
  split at hy
  · next hj => subst hj; cases hy; exact h hs d hd
  · exact (s.pendingAt_iff d j).mpr ⟨y, hy, hs, hd⟩

/-- Neither the settings but the plans, nor the destinations, nor the model's own records are seen by an offer. -/
theorem State.SameOffers.fewer (h : s.SameOffers t) : s.FewerOffers t := by
  obtain ⟨hs, hp, hl⟩ := h
  refine ⟨fun n d e => ?_, fun d k e => ?_⟩
  · rwa [State.lingersOn_eq, State.line, hl] at e
  · rw [State.pendingAt_iff] at e ⊢
    simpa only [State.caseAt, State.slot, State.currentDest, State.plan, hs, hp] using e

theorem State.FewerOffers.notifyWhileFire (s : State) : s.FewerOffers s.notifyWhileFire := by
  rw [State.notifyWhileFire_eq]
  exact State.SameOffers.fewer {}

theorem State.FewerOffers.tellEntry (s : State) (st : LineState) : s.FewerOffers (s.tellEntry st) := by
  unfold State.tellEntry
  split
  · exact State.SameOffers.fewer {}
  · exact .notifyWhileFire s

/-! ### The operations that make no offer -/

theorem State.FewerOffers.endCall (s : State) (n : Fin 4) : s.FewerOffers (s.endCall n) := by
  cases hc : s.call n with
  | none => rw [State.endCall, hc]; exact .refl s
  | some c =>
    have hline : s.FewerOffers (s.updLine n fun l => { l with call := none }) :=
      .updLine fun d e => by simp [Line.lingersOn] at e
    rw [State.endCall_eq s n c hc]
    exact hline.trans (State.SameOffers.fewer {})

theorem State.release_not_linger (s : State) (n : Fin 4) : ((s.release n).line n).state ≠ .linger := by
  rw [State.release, State.updLine_line, if_pos rfl]
  split <;> simp

theorem State.FewerOffers.release (s : State) (n : Fin 4) : s.FewerOffers (s.release n) := by
  unfold State.release
  refine (State.FewerOffers.endCall s n).trans (.updLine_gone ?_)
  split <;> simp

theorem State.FewerOffers.sendOn (s : State) (k : Fin 48) (n : Fin 4) : s.FewerOffers (s.sendOn k n) := by
  unfold State.sendOn
  split
  · exact .refl s
  · exact .setCase (by simp)

theorem State.takeUp_not_linger {c : Call} (hc : s.call n = some c) (k : Fin 48) : ((s.takeUp n k).line n).state ≠ .linger := by
  simp [State.takeUp, hc]

theorem State.FewerOffers.grantPermit (s : State) (n : Fin 4) : s.FewerOffers (s.grantPermit n) := by
  have permit : s.FewerOffers { s with permit := { s.permit with holder := some n, stagger := some s.timing.stagger } } :=
    State.SameOffers.fewer {}
  exact (permit.trans (.updLine_gone (f := fun l => { l with state := .offHook }) (by simp))).trans .updCall

theorem State.FewerOffers.askPermit (s : State) (n : Fin 4) (fire : Bool) : s.FewerOffers (s.askPermit n fire) := by
  unfold State.askPermit
  split
  · exact .grantPermit s n
  · exact State.SameOffers.fewer {}

theorem State.FewerOffers.bind (s : State) (k : Fin 48) (d : Fin 8) (n : Fin 4) : s.FewerOffers (s.bind k d n) := by
  have dest : (s.sendOn k n).FewerOffers ((s.sendOn k n).updDest d fun x => { x with callLine := some n }) := State.SameOffers.fewer {}
  have bound : s.FewerOffers (s.bound k d n) := ((State.FewerOffers.sendOn s k n).trans dest).trans (.updLine_gone (by simp))
  rw [State.bind_eq]
  exact bound.trans (.askPermit _ n _)

/-- A dispatch pass binds cases and releases lines (R91, R94). -/
theorem State.FewerOffers.pass (s : State) : s.FewerOffers s.pass := by
  unfold State.pass
  refine State.FewerOffers.trans (PassRun.foldl_take (P := State.FewerOffers) .refl .trans (fun r k _ => ?_) _ ⟨s, []⟩
    (s.ranked_nodup _) s.eligible_allPending) (State.SameOffers.fewer {})
  rcases r.take_cases k with e | ⟨c, d, n, -, -, -, -, e⟩ | ⟨n, -, e⟩ <;> rw [e]
  · exact .refl _
  · exact .bind _ k d n
  · exact .release _ n

theorem State.FewerOffers.classify (s : State) (n : Fin 4) : s.FewerOffers (s.classify n) := by
  unfold State.classify
  refine State.FewerOffers.trans (.updLine_gone ?_) (.tellEntry _ _)
  generalize Option.getD _ _ = b
  show (if b = .high then LineState.idle else .inUse) ≠ .linger
  split <;> simp

theorem State.FewerOffers.updDialling (s : State) (n : Fin 4) (f : Dialling → Dialling) : s.FewerOffers (s.updDialling n f) := .updCall

theorem State.FewerOffers.updBlock (s : State) (n : Fin 4) (f : BlockRun → BlockRun) : s.FewerOffers (s.updBlock n f) := .updCall

theorem State.FewerOffers.dialled (s : State) (n : Fin 4) : s.FewerOffers (s.dialled n) := by
  unfold State.dialled
  exact .updLine_gone (by simp)

theorem State.FewerOffers.nextElement (s : State) (n : Fin 4) : s.FewerOffers (s.nextElement n) := by
  unfold State.nextElement
  split
  · exact .refl s
  · split
    · exact .refl s
    · split
      · exact .updDialling s n _
      · exact .dialled s n

theorem State.FewerOffers.learn (s : State) (n : Fin 4) (m : LearnedMode) : s.FewerOffers (s.updLine n fun l => l.learn m) :=
  .updLine_same (Line.learn_state _ m) (by unfold Line.learn; split <;> rfl)

theorem State.FewerOffers.decideTone (s : State) (n : Fin 4) (g : Dialling) : s.FewerOffers (s.decideTone n g) := by
  unfold State.decideTone
  have decided := (State.FewerOffers.learn s n .tone).trans
    (State.FewerOffers.updDialling _ n fun g => { g with adaptiveCheck := none, learning := false })
  simp only []
  split
  · exact decided.trans (.nextElement _ n)
  · exact decided

theorem State.FewerOffers.redial (s : State) (n : Fin 4) : s.FewerOffers (s.redial n) :=
  (State.FewerOffers.updDialling s n _).trans (.nextElement _ n)

theorem State.FewerOffers.ready (s : State) (n : Fin 4) : s.FewerOffers (s.ready n) := by
  unfold State.ready
  split
  · exact .refl s
  · next c _ =>
    have dest : s.FewerOffers (s.updDest c.dest fun d => if d.policy = .perCall then { d with toggle := false } else d) :=
      State.SameOffers.fewer {}
    exact dest.trans (.updLine_gone (by simp))

/-- A post leaves a case that waits where it waited, and makes none wait (R13). -/
theorem State.FewerOffers.postCase (s : State) (k : Fin 48) (detail : Option Nat) : s.FewerOffers (s.postCase k detail) := by
  unfold State.postCase
  split
  · exact .refl s
  · next x hx =>
    refine .setCase fun hs d hd => ?_
    rcases x.reposted_state detail with ⟨hstate, -, hprogress⟩ | ⟨hheld, -⟩
    · rw [State.currentDest, x.reposted_key, hprogress] at hd
      exact (s.pendingAt_iff d k).mpr ⟨x, hx, hstate ▸ hs, hd⟩
    · rw [hheld] at hs; cases hs

/-! ### The answers to the lingering lines -/

/-- What the answer to one line leaves (`Answered`) makes no offer. -/
theorem State.FewerOffers.answerLinger (s : State) (n : Fin 4) : s.FewerOffers (s.answerLinger n) :=
  ⟨(s.answerLinger_answered n).lingers, fun d k e => by
    by_contra hk
    exact Bool.eq_false_iff.mp ((s.answerLinger_answered n).pendingAt (Bool.eq_false_iff.mpr hk)) e⟩

/-- Where a case waits the Arbiter has an answer (R98, R99). -/
theorem State.answerFor_ne_nothing {carried : Nat} (h : s.pendingAt d k = true) : s.answerFor d carried ≠ .nothing := by
  unfold State.answerFor
  split
  · simp
  · split
    · next hnone =>
      rw [List.head?_eq_none_iff] at hnone
      exact absurd (s.mem_ranked.mpr h) (by simp [hnone])
    · simp only []
      split <;> simp

/-- A line that has been asked is answered: it has left LINGER, or no case waits at its destination (R101). -/
theorem State.answerLinger_noOfferTo (s : State) (n : Fin 4) : (s.answerLinger n).NoOfferTo n := by
  unfold State.answerLinger
  split
  · next hc =>
    intro d e
    rw [State.lingersOn, hc] at e
    simp at e
  · next c hc =>
    split
    · next h =>
      obtain ⟨k, -, hk⟩ := List.any_eq_true.mp h.2
      split
      · exact .of_not_linger (s.release_not_linger n)
      · next e => exact absurd e (State.answerFor_ne_nothing hk)
      · exact .of_not_linger (State.takeUp_not_linger hc _)
    · next h =>
      intro d e j
      rw [State.lingersOn, hc] at e
      split at e
      · next hl =>
        cases e
        rw [Bool.eq_false_iff]
        exact fun hj => h ⟨hl, List.any_eq_true.mpr ⟨j, List.mem_finRange j, hj⟩⟩
      · cases e

/-- Lines once answered stay so while others are. -/
theorem State.foldl_answerLinger_noOfferTo : ∀ (ns : List (Fin 4)) (s : State), n ∈ ns ∨ s.NoOfferTo n →
    (ns.foldl State.answerLinger s).NoOfferTo n
  | [], _, h => h.resolve_left List.not_mem_nil
  | m :: ns, s, h => by
    refine foldl_answerLinger_noOfferTo ns (s.answerLinger m) ?_
    rcases h with h | h
    · rcases List.mem_cons.mp h with rfl | h
      · exact .inr (s.answerLinger_noOfferTo n)
      · exact .inl h
    · exact .inr ((State.FewerOffers.answerLinger s m).noOfferTo h)

/-- The answers to the lingering lines leave no offer, whatever the state (R101). -/
theorem State.answerLingers_noOffer (s : State) : s.answerLingers.NoOffer := fun n =>
  State.foldl_answerLinger_noOfferTo _ s (.inl (List.mem_finRange n))

/-! ### What a command owes -/

/-- Where no line had an offer before, none has one after. -/
def State.Unoffered (s t : State) : Prop := s.NoOffer → t.NoOffer

theorem State.FewerOffers.unoffered (h : s.FewerOffers t) : s.Unoffered t := h.noOffer

theorem State.Unoffered.refl (s : State) : s.Unoffered s := id

/-- An event that ends with the answers to the lingering lines. -/
theorem State.Unoffered.answered (s t : State) : s.Unoffered t.answerLingers := fun _ => t.answerLingers_noOffer

/-- The reply is outside the offers. -/
theorem State.Unoffered.answer (h : s.Unoffered t) (st : Status) (b : List Byte) : s.Unoffered (t.answer st b) := h

theorem State.Unoffered.refused (s : State) (st : Status) (b : List Byte) : s.Unoffered (s.answer st b) := id

/-- A check before the rest of a request. -/
theorem State.Unoffered.unless {p : Prop} [Decidable p] {st : Status} {b : List Byte} (h : s.Unoffered t) :
    s.Unoffered (if p then s.answer st b else t) := by
  split
  · exact .refused s st b
  · exact h

/-- Every next state a command answers with has no offer where the state before had none. -/
def State.Quells (s : State) (r : Result) : Prop := ∀ t, r = .next t → s.Unoffered t

theorem State.Unoffered.next (h : s.Unoffered t) : s.Quells (.next t) := by rintro _ ⟨⟩; exact h

theorem State.Quells.refl (s : State) : s.Quells (.next s) := (State.Unoffered.refl s).next

theorem State.Quells.answered (s t : State) : s.Quells (.next t.answerLingers) := (State.Unoffered.answered s t).next

/-- A command that acts only under a condition. -/
theorem State.Quells.when {p : Prop} [Decidable p] {r : Result} (h : s.Quells r) : s.Quells (if p then r else .next s) := by
  split
  · exact h
  · exact .refl s

theorem State.FewerOffers.quells (h : s.FewerOffers t) : s.Quells (.next t) := h.unoffered.next

/-! ### The requests -/

theorem State.Unoffered.takeFrame (len : Nat) {t : State} (h : (s.takeFrame len).Unoffered t) : s.Unoffered t :=
  fun g => h (g.takeFrame len)

theorem State.anySource_quells (s : State) (len src : Nat) {f : State → State} (h : ∀ u : State, u.Unoffered (f u)) :
    s.Quells (.next ((s.takeFrame len).anySource src f)) := by
  refine State.Unoffered.next (.takeFrame len ?_)
  unfold State.anySource
  split
  · exact h _
  · exact .refused _ _ _

theorem State.controller_quells (s : State) (len src : Nat) {f : State → State} (h : ∀ u : State, u.Unoffered (f u)) :
    s.Quells (.next ((s.takeFrame len).controller src f)) := by
  refine State.Unoffered.next (.takeFrame len ?_)
  unfold State.controller
  split
  · exact h _
  · split <;> exact .refused _ _ _

theorem State.withHandle_unoffered (s : State) (h : Nat) {f : Fin 48 → Case → State} (hf : ∀ k x, s.Unoffered (f k x)) :
    s.Unoffered (s.withHandle h f) := by
  unfold State.withHandle
  split
  · exact .refused _ _ _
  · split
    · exact .refused _ _ _
    · split
      · exact .refused _ _ _
      · exact hf _ _

theorem State.postAdmitted_unoffered (s : State) (key : Key) (detail : Option Nat) (mark : Mark) :
    s.Unoffered (s.postAdmitted key detail mark) := by
  unfold State.postAdmitted
  split
  · exact (State.FewerOffers.postCase s _ detail).unoffered.answer _ _
  · split
    · exact .refused _ _ _
    · exact (State.Unoffered.answered s _).answer _ _

theorem State.post_unoffered (s : State) (src zone cls : Nat) (detail : Option Nat) : s.Unoffered (s.post src zone cls detail) := by
  unfold State.post
  split
  · exact .refused _ _ _
  · split
    · exact .refused _ _ _
    · split
      · exact .refused _ _ _
      · split
        · exact .refused _ _ _
        · exact s.postAdmitted_unoffered _ _ _
        · exact s.postAdmitted_unoffered _ _ _

theorem State.restoreNamed_unoffered (s : State) (k : Fin 48) (x : Case) : s.Unoffered (s.restoreNamed k x) :=
  .unless ((State.Unoffered.answered s _).answer _ _)

theorem State.restoreByHandle_unoffered (s : State) (src h : Nat) : s.Unoffered (s.restoreByHandle src h) :=
  s.withHandle_unoffered h fun k x => by
    split
    · exact s.restoreNamed_unoffered k x
    · exact .refused _ _ _

theorem State.restoreByKey_unoffered (s : State) (src zone cls : Nat) : s.Unoffered (s.restoreByKey src zone cls) := by
  unfold State.restoreByKey
  split
  · exact .refused _ _ _
  · split
    · exact .refused _ _ _
    · split
      · exact .refused _ _ _
      · split
        · exact .refused _ _ _
        · exact s.restoreNamed_unoffered _ _

theorem State.withdraw_unoffered (s : State) (src h : Nat) : s.Unoffered (s.withdraw src h) :=
  s.withHandle_unoffered h fun _ _ => .unless (.unless (.unless (.unless ((State.Unoffered.answered s _).answer _ _))))

theorem State.findKey_unoffered (s : State) (ks zone cls : Nat) : s.Unoffered (s.findKey ks zone cls) := by
  unfold State.findKey
  split
  · exact .refused _ _ _
  · split
    · exact .refused _ _ _
    · split <;> exact .refused _ _ _

theorem State.next_unoffered (s : State) (start filter : Nat) : s.Unoffered (s.next start filter) := by
  unfold State.next
  split
  · exact .refused _ _ _
  · split
    · exact .refused _ _ _
    · simp only []
      split <;> exact .refused _ _ _

theorem State.clear_unoffered (s : State) (h : Nat) : s.Unoffered (s.clear h) :=
  s.withHandle_unoffered h fun _ _ => .unless ((State.Unoffered.answered s _).answer _ _)

theorem State.rearm_unoffered (s : State) (h : Nat) : s.Unoffered (s.rearm h) :=
  s.withHandle_unoffered h fun k x => by
    split
    · exact (State.Unoffered.answered s _).answer _ _
    · exact .refused _ _ _

theorem State.writeAdmission_unoffered (s : State) (linkSource cls entry : Nat) : s.Unoffered (s.writeAdmission linkSource cls entry) := by
  unfold State.writeAdmission
  split
  · exact (State.SameOffers.fewer {}).unoffered
  · exact .refused _ _ _

theorem State.writeCaseLimits_unoffered (s : State) (reserve threshold : Nat) : s.Unoffered (s.writeCaseLimits reserve threshold) := by
  unfold State.writeCaseLimits
  refine State.Unoffered.answer ?_ _ _
  split
  · exact .answered s _
  · exact (State.SameOffers.fewer {}).unoffered

theorem State.writeClass_unoffered (s : State) (cls base step cap rb rm : Nat) : s.Unoffered (s.writeClass cls base step cap rb rm) := by
  unfold State.writeClass
  split
  · exact .refused _ _ _
  · exact (State.SameOffers.fewer {}).unoffered

theorem State.writeDestination_unoffered (s : State) (dest d1 d2 d3 d4 policy : Nat) (symbols : List Nat) :
    s.Unoffered (s.writeDestination dest d1 d2 d3 d4 policy symbols) := by
  unfold State.writeDestination
  split
  · split
    · exact .refused _ _ _
    · refine State.Unoffered.answer ?_ _ _
      split <;> exact (State.SameOffers.fewer {}).unoffered
  · exact .refused _ _ _

theorem State.enableDest_unoffered (s : State) (d : Fin 8) : s.Unoffered (s.enableDest d) :=
  .unless (.unless (State.SameOffers.fewer {}).unoffered)

theorem State.disableDest_unoffered (s : State) (d : Fin 8) : s.Unoffered (s.disableDest d) :=
  .unless ((State.Unoffered.answered s _).answer _ _)

theorem State.setDestinationState_unoffered (s : State) (dest state : Nat) : s.Unoffered (s.setDestinationState dest state) := by
  unfold State.setDestinationState
  split
  · split
    · exact s.enableDest_unoffered _
    · exact s.disableDest_unoffered _
  · exact .refused _ _ _

theorem State.writePlan_unoffered (s : State) (cls : Nat) (dests : List Nat) (attempts rounds : Nat) :
    s.Unoffered (s.writePlan cls dests attempts rounds) := by
  unfold State.writePlan
  split
  · exact (State.Unoffered.answered s _).answer _ _
  · exact .refused _ _ _

theorem State.writeLine_unoffered (s : State) (line enable forced mode : Nat) : s.Unoffered (s.writeLine line enable forced mode) := by
  unfold State.writeLine
  split
  · exact (State.Unoffered.answered s _).answer _ _
  · exact .refused _ _ _

theorem State.writeInput_unoffered (s : State) (input cls zone latch sampling filter retard : Nat) :
    s.Unoffered (s.writeInput input cls zone latch sampling filter retard) := by
  unfold State.writeInput
  split
  · exact .unless (.unless (State.SameOffers.fewer {}).unoffered)
  · exact .refused _ _ _

theorem State.setInputState_unoffered (s : State) (input state : Nat) : s.Unoffered (s.setInputState input state) := by
  unfold State.setInputState
  split
  · split
    · exact .refused _ _ _
    · split
      · exact (State.SameOffers.fewer {}).unoffered
      · exact (State.Unoffered.answered s _).answer _ _
  · exact .refused _ _ _

theorem State.unlatchInput_unoffered (s : State) (input : Nat) : s.Unoffered (s.unlatchInput input) := by
  unfold State.unlatchInput
  split
  · exact .refused _ _ _
  · exact .unless (.unless ((State.Unoffered.answered s _).answer _ _))

theorem State.writeTestTimer_unoffered (s : State) (mode period : Nat) : s.Unoffered (s.writeTestTimer mode period) := by
  unfold State.writeTestTimer
  split
  · exact .refused _ _ _
  · exact (State.SameOffers.fewer {}).unoffered

/-- An internal post that creates no case makes no offer (R20). -/
theorem State.internalPost_fewer {p : Poster} {key : Key} (h : ∀ k, (s.internalPost p key).1 ≠ .created k) :
    s.FewerOffers (s.internalPost p key).2 := by
  unfold State.internalPost at h ⊢
  split
  · exact .postCase s _ none
  · next hk =>
    simp only [hk] at h
    split
    · exact .refl s
    · next hp =>
      rw [if_neg hp] at h
      split
      · next he =>
        simp only [he] at h
        exact absurd rfl (h _)
      · unfold State.recordHeld
        split <;> exact State.SameOffers.fewer {}

theorem State.startTest_unoffered (s : State) : s.Unoffered s.startTest := by
  unfold State.startTest
  split
  · exact (State.Unoffered.answered s _).answer _ _
  · next e =>
    have := State.internalPost_fewer (s := s) (p := .test) (key := testKey) fun k => by rw [e]; simp
    rw [e] at this
    exact this.unoffered.answer _ _
  · next e =>
    have := State.internalPost_fewer (s := s) (p := .test) (key := testKey) fun k => by rw [e]; simp
    rw [e] at this
    exact this.unoffered.answer _ _

theorem State.readConfig_unoffered (s : State) (item index : Nat) : s.Unoffered (s.readConfig item index) := by
  unfold State.readConfig
  split <;> exact .refused _ _ _

theorem State.readLine_unoffered (s : State) (line : Nat) : s.Unoffered (s.readLine line) := by
  unfold State.readLine
  split <;> exact .refused _ _ _

theorem State.readDestination_unoffered (s : State) (dest : Nat) : s.Unoffered (s.readDestination dest) := by
  unfold State.readDestination
  split <;> exact .refused _ _ _

theorem State.readInput_unoffered (s : State) (input : Nat) : s.Unoffered (s.readInput input) := by
  unfold State.readInput
  split
  · exact .refused _ _ _
  · simp only []
    split
    · exact (State.SameOffers.fewer {}).unoffered
    · exact .refused _ _ _

/-! ### The resets -/

/-- An empty table makes no offer. -/
theorem State.noOffer_of_empty (h : ∀ k, t.caseAt k = none) : t.NoOffer := fun _ d _ k => by
  simp [State.pendingAt, h k]

theorem State.afterSoftReset_unoffered (s : State) : s.Unoffered s.afterSoftReset := fun _ =>
  State.noOffer_of_empty s.afterSoftReset_caseAt

theorem execPowerOnReset_quells (s : State) : s.Quells (execPowerOnReset s) :=
  State.Unoffered.next fun _ => State.noOffer_of_empty State.reset_caseAt

/-! ### The events -/

theorem execTestTimerExpiry_quells (s : State) : s.Quells (execTestTimerExpiry s) := .when (.answered s _)

theorem execDispatchPass_quells (s : State) : s.Quells (execDispatchPass s) := by
  unfold execDispatchPass
  have taken : s.FewerOffers { s with passesDue := s.passesDue - 1 } := State.SameOffers.fewer {}
  split
  · exact .refl s
  · exact (taken.trans (.pass _)).quells

theorem execDialToneOn_quells (s : State) (n : Fin 4) : s.Quells (execDialToneOn n s) := by
  unfold execDialToneOn
  split
  · exact .answered s _
  · exact (State.FewerOffers.updCall).quells
  · exact .refl s

theorem execDialToneOff_quells (s : State) (n : Fin 4) : s.Quells (execDialToneOff n s) := by
  unfold execDialToneOff
  have cleared : s.FewerOffers (s.updCall n fun c => { c with dialTone := false }) := .updCall
  simp only []
  split
  · exact cleared.quells
  · split
    · split
      · exact (cleared.trans (.decideTone _ n _)).quells
      · exact cleared.quells
    · exact cleared.quells
  · exact .refl s

theorem execBusyTone_quells (s : State) (n : Fin 4) : s.Quells (execBusyTone n s) := .when (.answered s _)

theorem execReceivedSymbol_quells (s : State) (n : Fin 4) (sym : Nat) : s.Quells (execReceivedSymbol n sym s) := by
  unfold execReceivedSymbol
  split
  · exact .when (State.FewerOffers.ready s n).quells
  · refine .when ?_
    split
    · exact .answered s _
    · split
      · exact .answered s _
      · exact .when (.answered s _)
  · exact .refl s

theorem execClassificationFilterExpiry_quells (s : State) (n : Fin 4) : s.Quells (execClassificationFilterExpiry n s) := by
  unfold execClassificationFilterExpiry
  simp only []
  split
  · split
    · exact .answered s _
    · exact (State.FewerOffers.trans (.updLine_gone (by simp)) (.tellEntry _ _)).quells
    · exact (State.FewerOffers.trans (.updLine_gone (by simp)) (.tellEntry _ _)).quells
  · exact .refl s

theorem execRecoveryTimerExpiry_quells (s : State) (n : Fin 4) : s.Quells (execRecoveryTimerExpiry n s) := .when (.answered s _)

theorem execStaggerTimerExpiry_quells (s : State) : s.Quells (execStaggerTimerExpiry s) := by
  unfold execStaggerTimerExpiry
  split
  · simp only []
    split
    · exact (State.SameOffers.fewer {}).quells
    · next w q _ =>
      have freed : s.FewerOffers { s with permit := { s.permit with holder := none, stagger := none, queue := q } } :=
        State.SameOffers.fewer {}
      exact (freed.trans (.grantPermit _ w.line)).quells
  · exact .refl s

theorem execOffHookCheckExpiry_quells (s : State) (n : Fin 4) : s.Quells (execOffHookCheckExpiry n s) := by
  unfold execOffHookCheckExpiry
  split
  · exact .refl s
  · split
    · split
      · split
        · exact .answered s _
        · exact (State.FewerOffers.updCall).quells
      · exact .refl s
    · exact .refl s

theorem execSettleTimerExpiry_quells (s : State) (n : Fin 4) : s.Quells (execSettleTimerExpiry n s) := by
  unfold execSettleTimerExpiry
  split
  · exact .refl s
  · exact .when (.answered s _)

theorem execDialToneWaitExpiry_quells (s : State) (n : Fin 4) : s.Quells (execDialToneWaitExpiry n s) := by
  unfold execDialToneWaitExpiry
  split
  · exact .refl s
  · exact .when (.answered s _)

theorem execIntrusionFilterExpiry_quells (s : State) (n : Fin 4) : s.Quells (execIntrusionFilterExpiry n s) := by
  unfold execIntrusionFilterExpiry
  have yields : s.Quells (if s.carriesFire n then .next (s.updCall n fun c => { c with intrusion := some s.timing.intrusion })
      else .next (s.failCall n .yielded).answerLingers) := by
    split
    · exact (State.FewerOffers.updCall).quells
    · exact .answered s _
  split
  · exact .refl s
  · split
    · split
      · exact (State.FewerOffers.release s n).quells
      · exact yields
      · exact yields
      · exact yields
      · exact .refl s
    · exact .refl s

theorem execGuardExpiry_quells (s : State) (n : Fin 4) : s.Quells (execGuardExpiry n s) := by
  unfold execGuardExpiry
  have stopped : s.FewerOffers (s.updLine n fun l => { l with guardTimer := none }) := .updLine_same rfl rfl
  simp only []
  split
  · split
    · exact .answered s _
    · exact (stopped.trans (.classify _ n)).quells
  · exact .refl s

theorem execFaultHoldExpiry_quells (s : State) (n : Fin 4) : s.Quells (execFaultHoldExpiry n s) := .when (.answered s _)

theorem execElementTimerExpiry_quells (s : State) (n : Fin 4) : s.Quells (execElementTimerExpiry n s) := by
  unfold execElementTimerExpiry
  have ended : s.FewerOffers (s.updDialling n fun g => { g with element := none }) := .updDialling s n _
  split
  · exact .refl s
  · split
    · simp only []
      split
      · exact ended.quells
      · exact (ended.trans (.nextElement _ n)).quells
    · exact .refl s

theorem execAdaptiveCheckExpiry_quells (s : State) (n : Fin 4) : s.Quells (execAdaptiveCheckExpiry n s) := by
  unfold execAdaptiveCheckExpiry
  split
  · exact .refl s
  · split
    · simp only []
      split
      · exact .answered s _
      · exact ((State.FewerOffers.learn s n .pulse).trans (.redial _ n)).quells
    · exact .refl s

theorem execHandshakeWaitExpiry_quells (s : State) (n : Fin 4) : s.Quells (execHandshakeWaitExpiry n s) := by
  unfold execHandshakeWaitExpiry
  split
  · exact .refl s
  · exact .when (.answered s _)

theorem execBlockSent_quells (s : State) (n : Fin 4) : s.Quells (execBlockSent n s) := .when (State.FewerOffers.updBlock s n _).quells

theorem execResponseWaitExpiry_quells (s : State) (n : Fin 4) : s.Quells (execResponseWaitExpiry n s) := .when (.answered s _)

theorem execLingerExpiry_quells (s : State) (n : Fin 4) : s.Quells (execLingerExpiry n s) := by
  unfold execLingerExpiry
  split
  · exact .refl s
  · exact .when (State.FewerOffers.release s n).quells

theorem execLevelFilterExpiry_quells (s : State) (i : Fin 8) : s.Quells (execLevelFilterExpiry i s) := by
  unfold execLevelFilterExpiry
  simp only []
  split
  · exact .answered s _
  · exact .refl s

theorem execRetardTimerExpiry_quells (s : State) (i : Fin 8) : s.Quells (execRetardTimerExpiry i s) := .when (.answered s _)

/-! ### Every command -/

/-- No command leaves an offer where there was none. -/
theorem exec_quells (i : Instr) (s : State) : s.Quells (exec i s) := by
  cases i with
  | post src zone cls detail => exact State.Unoffered.next (.takeFrame _ (State.post_unoffered _ _ _ _ _))
  | restore src target =>
    cases target with
    | byHandle h => exact s.anySource_quells _ _ fun u => u.restoreByHandle_unoffered src h
    | byKey zone cls => exact s.anySource_quells _ _ fun u => u.restoreByKey_unoffered src zone cls
  | withdraw src h => exact s.anySource_quells _ _ fun u => u.withdraw_unoffered src h
  | find src ks zone cls => exact s.anySource_quells _ _ fun u => u.findKey_unoffered ks zone cls
  | readCase src h => exact s.anySource_quells _ _ fun u => u.withHandle_unoffered h fun _ _ => .refused _ _ _
  | nextCase src start filter => exact s.anySource_quells _ _ fun u => u.next_unoffered start filter
  | clear src h => exact s.controller_quells _ _ fun u => u.clear_unoffered h
  | rearm src h => exact s.controller_quells _ _ fun u => u.rearm_unoffered h
  | writeAdmission => exact s.controller_quells _ _ fun u => u.writeAdmission_unoffered _ _ _
  | writeCaseLimits => exact s.controller_quells _ _ fun u => u.writeCaseLimits_unoffered _ _
  | writeClass => exact s.controller_quells _ _ fun u => u.writeClass_unoffered _ _ _ _ _ _
  | writeDestination => exact s.controller_quells _ _ fun u => u.writeDestination_unoffered _ _ _ _ _ _ _
  | setDestinationState => exact s.controller_quells _ _ fun u => u.setDestinationState_unoffered _ _
  | writePlan => exact s.controller_quells _ _ fun u => u.writePlan_unoffered _ _ _ _
  | writeLine => exact s.controller_quells _ _ fun u => u.writeLine_unoffered _ _ _ _
  | writeLineTiming => exact s.controller_quells _ _ fun u => (State.SameOffers.fewer {}).unoffered
  | writeExchangeTiming => exact s.controller_quells _ _ fun u => (State.SameOffers.fewer {}).unoffered
  | writeInput => exact s.controller_quells _ _ fun u => u.writeInput_unoffered _ _ _ _ _ _ _
  | setInputState => exact s.controller_quells _ _ fun u => u.setInputState_unoffered _ _
  | unlatchInput => exact s.controller_quells _ _ fun u => u.unlatchInput_unoffered _
  | writeTestTimer => exact s.controller_quells _ _ fun u => u.writeTestTimer_unoffered _ _
  | startTest => exact s.controller_quells _ _ fun u => u.startTest_unoffered
  | readConfig => exact s.anySource_quells _ _ fun u => u.readConfig_unoffered _ _
  | readLine => exact s.anySource_quells _ _ fun u => u.readLine_unoffered _
  | readDestination => exact s.anySource_quells _ _ fun u => u.readDestination_unoffered _
  | readInput => exact s.anySource_quells _ _ fun u => u.readInput_unoffered _
  | readStatus => exact s.controller_quells _ _ fun u => (State.SameOffers.fewer {}).unoffered
  | writeMask => exact s.controller_quells _ _ fun u => (State.SameOffers.fewer {}).unoffered
  | readTime => exact s.anySource_quells _ _ fun u => .refused _ _ _
  | softReset src => exact s.controller_quells _ _ fun u => u.afterSoftReset_unoffered.answer _ _
  | badRequest frame => exact State.Unoffered.next (.takeFrame _ (.refused _ _ _))
  | readTransaction clocked => exact (State.SameOffers.fewer {}).quells
  | powerOnReset => exact execPowerOnReset_quells s
  | secondsClockAdvance => exact (State.SameOffers.fewer {}).quells
  | testTimerExpiry => exact execTestTimerExpiry_quells s
  | dispatchPass => exact execDispatchPass_quells s
  | lineSample => exact .answered s _
  | dialToneOn n => exact execDialToneOn_quells s n
  | dialToneOff n => exact execDialToneOff_quells s n
  | busyTone n => exact execBusyTone_quells s n
  | receivedSymbol n x => exact execReceivedSymbol_quells s n x
  | classificationFilterExpiry n => exact execClassificationFilterExpiry_quells s n
  | recoveryTimerExpiry n => exact execRecoveryTimerExpiry_quells s n
  | staggerTimerExpiry => exact execStaggerTimerExpiry_quells s
  | offHookCheckExpiry n => exact execOffHookCheckExpiry_quells s n
  | settleTimerExpiry n => exact execSettleTimerExpiry_quells s n
  | dialToneWaitExpiry n => exact execDialToneWaitExpiry_quells s n
  | intrusionFilterExpiry n => exact execIntrusionFilterExpiry_quells s n
  | guardExpiry n => exact execGuardExpiry_quells s n
  | faultHoldExpiry n => exact execFaultHoldExpiry_quells s n
  | elementTimerExpiry n => exact execElementTimerExpiry_quells s n
  | adaptiveCheckExpiry n => exact execAdaptiveCheckExpiry_quells s n
  | handshakeWaitExpiry n => exact execHandshakeWaitExpiry_quells s n
  | blockSent n => exact execBlockSent_quells s n
  | responseWaitExpiry n => exact execResponseWaitExpiry_quells s n
  | lingerExpiry n => exact execLingerExpiry_quells s n
  | inputSample => exact .answered s _
  | levelFilterExpiry i => exact execLevelFilterExpiry_quells s i
  | retardTimerExpiry i => exact execRetardTimerExpiry_quells s i

end Sys2Proof.Machine

open Sys2Proof Sys2Proof.Machine

/-- Settles O58: every command quells the offers (`exec_quells`), and an idle step changes nothing. -/
theorem stepAnswersOffers : Obligations.StepAnswersOffers := by
  intro s t g h
  rcases step_cases h with ⟨-, rfl⟩ | ⟨i, rest, -, he⟩
  · exact g
  · exact exec_quells i { s with pending := rest } t he g
end

