-- ==== Sys2Proof/Proofs/FireMeasures.lean ====
section
/-! CLAIM. The lines the Arbiter may use (O36), and the fire measures of a pass in which a fire alarm alone is eligible (O38). -/

namespace Sys2Proof.Machine

variable {s t : State} {n : Fin 4} {k : Fin 48} {d : Fin 8} {x : Case}

/-! ### Compatible and selectable lines (R88, R89) -/

theorem Destination.toneOnly_iff (y : Destination) : y.toneOnly = true ↔ .star ∈ y.dial ∨ .hash ∈ y.dial := by
  simp only [Destination.toneOnly, List.any_eq_true, Bool.or_eq_true, decide_eq_true_eq]
  constructor
  · rintro ⟨z, hz, rfl | rfl⟩
    · exact .inl hz
    · exact .inr hz
  · rintro (hz | hz)
    · exact ⟨_, hz, .inl rfl⟩
    · exact ⟨_, hz, .inr rfl⟩

theorem Line.dialsPulse_iff (l : Line) : l.dialsPulse = true ↔ l.mode = .pulse ∨ (l.mode = .auto ∧ l.learned = .pulse) := by
  simp only [Line.dialsPulse, Bool.or_eq_true, Bool.and_eq_true, decide_eq_true_eq]

theorem State.compatible_iff : s.compatible n d = true ↔ ¬ ((s.dest d).toneOnly = true ∧ (s.line n).dialsPulse = true) := by
  rw [State.compatible, Bool.not_eq_true', Bool.eq_false_iff, Ne, Bool.and_eq_true]

theorem State.selectable_iff :
    s.selectable d n = true ↔ (s.line n).state = .idle ∧ (s.line n).enabled = true ∧ s.compatible n d = true := by
  simp only [State.selectable, Bool.and_eq_true, decide_eq_true_eq, and_assoc]

theorem State.compatibleIn_iff {st : LineState} :
    s.compatibleIn d st n = true ↔ (s.line n).state = st ∧ s.compatible n d = true := by
  simp only [State.compatibleIn, Bool.and_eq_true, decide_eq_true_eq]

theorem State.forceable_iff :
    s.forceable d n = true ↔ ((s.line n).state = .inUse ∧ s.compatible n d = true) ∧ (s.line n).forced = true := by
  rw [State.forceable, Bool.and_eq_true, State.compatibleIn_iff]

/-! ### The measures (R94) -/

theorem exists_firstLine {p : Fin 4 → Bool} (h : p n = true) : ∃ m, firstLine p = some m :=
  Option.isSome_iff_exists.mp (List.find?_isSome.mpr ⟨n, List.mem_finRange n, h⟩)

/-- The turn of a fire alarm without a selectable line comes to the fire measures (R91). -/
theorem PassRun.take_measured {r : PassRun} (hx : r.st.caseAt k = some x) (hd : r.st.currentDest x = some d)
    (hc : (r.st.dest d).callLine = none) (hn : ∀ m, r.st.selectable d m = false) (hf : x.isFireAlarm = true) :
    r.take k = r.fireMeasure k d := by
  unfold PassRun.take
  simp only [hx, hd, hc, firstLine_eq_none hn, hf, Option.isSome_none, Bool.false_eq_true, if_false, if_true]

/-- A compatible line in GUARD is counted, and the part stands as it is. -/
theorem State.measure_counts (h : s.compatibleIn d .guarded n = true) : ((PassRun.mk s []).fireMeasure k d).st = s := by
  obtain ⟨m, hm⟩ := exists_firstLine (p := fun n => s.compatibleIn d .guarded n && !([] : List (Fin 4)).contains n) (n := n) (by simp [h])
  simp only [PassRun.fireMeasure, hm]

section
variable (hguard : ∀ m, s.compatibleIn d .guarded m = false)
include hguard

theorem firstLine_guarded_none : (firstLine fun n => s.compatibleIn d .guarded n && !([] : List (Fin 4)).contains n) = none :=
  firstLine_eq_none fun m => by simp [hguard m]

/-- Without a line in GUARD the lowest lingering line is cut (R95). -/
theorem State.measure_cuts (hn : firstLine (s.compatibleIn d .linger) = some n) :
    ((PassRun.mk s []).fireMeasure k d).st = s.release n := by
  simp only [PassRun.fireMeasure, firstLine_guarded_none hguard, hn]

/-- Without a lingering line either, the lowest line that permits it is seized (R96). -/
theorem State.measure_seizes (hlinger : ∀ m, s.compatibleIn d .linger m = false) (hn : firstLine (s.forceable d) = some n) :
    ((PassRun.mk s []).fireMeasure k d).st = s.bind k d n := by
  simp only [PassRun.fireMeasure, firstLine_guarded_none hguard, firstLine_eq_none hlinger, hn]

theorem State.measure_nothing (hlinger : ∀ m, s.compatibleIn d .linger m = false) (hforce : ∀ m, s.forceable d m = false) :
    ((PassRun.mk s []).fireMeasure k d).st = s := by
  simp only [PassRun.fireMeasure, firstLine_guarded_none hguard, firstLine_eq_none hlinger, firstLine_eq_none hforce]

end

/-! ### The pass -/

/-- The fire alarm `x` in slot `k` is the only eligible case, and finds no selectable line for its destination `d`. -/
structure State.FireAlone (s : State) (k : Fin 48) (x : Case) (d : Fin 8) : Prop where
  ranked : s.ranked s.eligible = [k]
  case : s.caseAt k = some x
  dest : s.currentDest x = some d
  noLine : ∀ n, s.selectable d n = false
  alarm : x.isFireAlarm = true

theorem State.FireAlone.eligible (h : s.FireAlone k x d) : s.eligible k = true := by
  rw [← s.mem_ranked, h.ranked]
  exact List.mem_cons_self ..

/-- The fire alarm waits, until a pass binds it. -/
theorem State.FireAlone.unbound (h : s.FireAlone k x d) (ht : t.caseAt k = s.caseAt k) : t.fireUnbound k = true := by
  obtain ⟨y, hy, hs⟩ := s.eligible_pending h.eligible
  cases h.case.symm.trans hy
  simp [State.fireUnbound, ht, h.case, h.alarm, hs]

/-- The part with one notice taken (R90). -/
def State.noticed (s : State) : State := { s with passesDue := s.passesDue - 1 }

theorem State.FireAlone.noticed (h : s.FireAlone k x d) : s.noticed.FireAlone k x d := ⟨h.ranked, h.case, h.dest, h.noLine, h.alarm⟩

/-- The pass of a fire alarm alone is its fire measure; fire waits where it is left unbound (R86). -/
theorem State.FireAlone.pass_eq (h : s.FireAlone k x d) :
    s.pass = { ((PassRun.mk s []).fireMeasure k d).st with fireWaiting := ((PassRun.mk s []).fireMeasure k d).st.fireUnbound k } := by
  have hcall := State.eligible_callLine h.eligible h.case h.dest
  have htake : (PassRun.mk s []).take k = (PassRun.mk s []).fireMeasure k d :=
    PassRun.take_measured h.case h.dest hcall h.noLine h.alarm
  rw [State.pass, h.ranked]
  simp only [List.foldl_cons, List.foldl_nil, htake, List.any_cons, List.any_nil, Bool.or_false]

/-- A pass whose measure comes to `t`, the case left as it was: fire waits. -/
theorem State.FireAlone.exec_waits (h : s.FireAlone k x d) (hp : s.passesDue ≠ 0)
    (ht : ((PassRun.mk s.noticed []).fireMeasure k d).st = t) (hk : t.caseAt k = s.caseAt k) :
    exec .dispatchPass s = .next { t with fireWaiting := true } := by
  have hpass := h.noticed.pass_eq
  rw [ht, h.unbound hk] at hpass
  exact (exec_dispatchPass hp).trans (congrArg _ hpass)

/-- A linger cut ends the call, and its notice makes up for the one the pass took (R95, R71). -/
theorem State.noticed_release {c : Call} (hp : s.passesDue ≠ 0) (hc : s.call n = some c) (hcl : c.closePending = false) :
    { s.noticed.release n with fireWaiting := true } =
      { ({ s with passesDue := s.passesDue - 1, fireWaiting := true } : State).callDropped c.dest n
          ((s.line n).released (s.timing.guardTime * 1000)) with passesDue := s.passesDue, fireWaiting := true } := by
  have hc' : s.noticed.call n = some c := hc
  have hdue : s.noticed.passesDue + 1 = s.passesDue := Nat.sub_add_cancel (Nat.one_le_iff_ne_zero.mpr hp)
  rw [State.release_guarded hc' hcl, hdue]
  rfl

/-- The call a binding opens names its destination and its lead case, with one report carried (R92). -/
theorem State.bind_call (s : State) (k : Fin 48) (d : Fin 8) (n : Fin 4) : ∃ c, (s.bind k d n).call n = some c ∧
    c.dest = d ∧ c.lead = s.handleOf k ∧ c.current = some k ∧ c.carried = 1 := by
  have hbound := s.bound_call k d n
  rw [State.bind_eq]
  unfold State.askPermit
  split
  · refine ⟨(Call.opened d (s.handleOf k) k).granted (s.bound k d n).timing, ?_, rfl, rfl, rfl, rfl⟩
    rw [State.call, State.grantPermit_line, if_pos rfl]
    exact congrArg (Option.map _) hbound
  · exact ⟨_, hbound, rfl, rfl, rfl, rfl⟩

/-- A seizure binds the case, and no fire alarm is left unbound (R86, R96). -/
theorem State.FireAlone.exec_seizes (h : s.FireAlone k x d) (hp : s.passesDue ≠ 0)
    (hm : ((PassRun.mk s.noticed []).fireMeasure k d).st = s.noticed.bind k d n) :
    ∃ (t : State) (c : Call), exec .dispatchPass s = .next t ∧ t.fireWaiting = false ∧
      t.caseAt k = some { x with state := .sending, line := some n } ∧ (t.dest d).callLine = some n ∧
      t.call n = some c ∧ c.dest = d ∧ c.lead = s.handleOf k ∧ c.current = some k ∧ c.carried = 1 ∧
      ((t.line n).state = .awaitPermit ∨ (t.line n).state = .offHook) := by
  have hx : s.noticed.caseAt k = some x := h.case
  have hcase : (s.noticed.bind k d n).caseAt k = some { x with state := .sending, line := some n } := by
    rw [State.bind_caseAt, if_pos rfl, hx]
    rfl
  have hbound : (s.noticed.bind k d n).fireUnbound k = false := by simp [State.fireUnbound, hcase]
  have hpass := h.noticed.pass_eq
  rw [hm, hbound] at hpass
  have hopens := s.noticed.bind_opens (n := n) hx d
  obtain ⟨c, hcall, hdest, hlead, hcurrent, hcarried⟩ := s.noticed.bind_call k d n
  refine ⟨_, c, (exec_dispatchPass hp).trans (congrArg _ hpass), rfl, hcase, ?_, hcall, hdest, hlead, hcurrent, hcarried, ?_⟩
  · exact (hopens.callLine d).trans (if_pos rfl)
  · exact (hopens.state.imp And.left And.left).symm

end Sys2Proof.Machine

open Sys2Proof Sys2Proof.Machine

/-- Settles O36. -/
theorem selectableLines : Obligations.SelectableLines := by
  intro s d n pulses starHash
  have hcompatible : s.compatible n d = true ↔ ¬ (starHash ∧ pulses) := by
    rw [State.compatible_iff, Destination.toneOnly_iff, Line.dialsPulse_iff]
  exact ⟨hcompatible, by rw [State.selectable_iff, hcompatible]⟩

/-- Settles O38: the pass is the fire measure (`FireAlone.pass_eq`), which each clause names. -/
theorem fireMeasures : Obligations.FireMeasures := by
  intro s k x d hp hr hx hd hsel hfire halarm in' waits
  have h : s.FireAlone k x d := ⟨hr, hx, hd, hsel, Case.isFireAlarm_iff.mpr ⟨hfire, halarm⟩⟩
  have none_in {st : LineState} (hn : ∀ n, ¬ in' st n) (n : Fin 4) : s.noticed.compatibleIn d st n = false :=
    Bool.eq_false_iff.mpr fun e => hn n (State.compatibleIn_iff.mp e)
  have not_forceable {n : Fin 4} (hn : ¬ (in' .inUse n ∧ (s.line n).forced = true)) : s.noticed.forceable d n = false :=
    Bool.eq_false_iff.mpr fun e => hn (State.forceable_iff.mp e)
  refine ⟨fun ⟨n, hn⟩ => ?_, fun hguard => ⟨fun n c hn hlow hc hcl => ?_, fun hlinger => ⟨fun n hn hforced hlow => ?_, fun hforce => ?_⟩⟩⟩
  · exact h.exec_waits hp (State.measure_counts (State.compatibleIn_iff.mpr hn)) rfl
  · have hfirst : firstLine (s.noticed.compatibleIn d .linger) = some n :=
      firstLine_eq (State.compatibleIn_iff.mpr hn) fun m hm => Bool.eq_false_iff.mpr fun e => hlow m hm (State.compatibleIn_iff.mp e)
    rw [h.exec_waits hp (State.measure_cuts (none_in hguard) hfirst) (s.noticed.release_caseAt n k), State.noticed_release hp hc hcl]
  · have hfirst : firstLine (s.noticed.forceable d) = some n :=
      firstLine_eq (State.forceable_iff.mpr ⟨hn, hforced⟩) fun m hm => not_forceable (hlow m hm)
    exact h.exec_seizes hp (State.measure_seizes (none_in hguard) (none_in hlinger) hfirst)
  · exact h.exec_waits hp (State.measure_nothing (none_in hguard) (none_in hlinger) fun m => not_forceable (hforce m)) rfl
end

