-- ==== Sys2Proof/Proofs/LineWrites.lean ====
section
/-! SUPPORT. A line written: what a change of a line or its call comes to, when it makes no offer, and the end of a call with an uncharged outcome. -/

namespace Sys2Proof.Machine

variable {s t : State} {n : Fin 4} {k : Fin 48} {x : Case} {c : Call} {kind : OutcomeKind} {l : Line} {g : Dialling}

/-! ### One line written -/

theorem State.updLine_setLine (s : State) (n : Fin 4) (l : Line) (f : Line → Line) : (s.setLine n l).updLine n f = s.setLine n (f l) := by
  rw [State.updLine, State.setLine_line, if_pos rfl, State.setLine_setLine]

theorem State.setLine_line_same (s : State) (n : Fin 4) (l : Line) : (s.setLine n l).line n = l := (s.setLine_line n n l).trans (if_pos rfl)

theorem State.setLine_call_same (s : State) (n : Fin 4) (l : Line) : (s.setLine n l).call n = l.call := (s.setLine_call n n l).trans (if_pos rfl)

theorem State.updCall_setLine (hc : l.call = some c) (f : Call → Call) :
    (s.setLine n l).updCall n f = s.setLine n { l with call := some (f c) } := by
  rw [State.updCall_eq ((s.setLine_call_same n l).trans hc), State.setLine_line_same, State.setLine_setLine]

theorem State.updDialling_eq (hc : s.call n = some c) (hg : c.dialling = some g) (f : Dialling → Dialling) :
    s.updDialling n f = s.setLine n { s.line n with call := some { c with dialling := some (f g) } } := by
  rw [State.updDialling, State.updCall_eq hc, hg, Option.map_some]

/-- The element at the position of a line just written begins (R132). -/
theorem State.nextElement_setLine (hc : l.call = some c) (hg : c.dialling = some g) {y : DialSym}
    (hy : (s.dest c.dest).dial[g.position - 1]? = some y) :
    (s.setLine n l).nextElement n = s.setLine n { l with call := some { c with dialling := some (g.begin y) } } := by
  have hcall : (s.setLine n l).call n = some c := (s.setLine_call_same n l).trans hc
  simp only [State.nextElement, hcall, hg, State.setLine_dest, hy]
  rw [State.updDialling_eq hcall hg, State.setLine_line_same, State.setLine_setLine]

/-- A line written that lingers on no other destination makes no offer. -/
theorem State.NoOffer.setLine_kept (h : s.NoOffer) (hl : ∀ d, l.lingersOn = some d → s.lingersOn n = some d) : (s.setLine n l).NoOffer :=
  (State.FewerOffers.updLine (f := fun _ => l) hl).noOffer h

/-- A line written in its state, with its call's destination kept, makes no offer. -/
theorem State.NoOffer.setLine_same (h : s.NoOffer) (hl : l.state = (s.line n).state)
    (hd : l.call.map Call.dest = (s.call n).map Call.dest) : (s.setLine n l).NoOffer :=
  h.setLine_kept fun d e => by rwa [Line.lingersOn, hl, hd] at e

theorem State.answerLingers_setLine (h : s.NoOffer) (hl : l.state = (s.line n).state)
    (hd : l.call.map Call.dest = (s.call n).map Call.dest) : (s.setLine n l).answerLingers = s.setLine n l :=
  State.answerLingers_eq_self _ (h.setLine_same hl hd)

/-! ### A line placed by its latest sample -/

theorem State.tellEntry_idle (s : State) : s.tellEntry .idle = s.notify := if_pos rfl

theorem State.tellEntry_inUse (s : State) : s.tellEntry .inUse = s.notifyWhileFire := if_neg (by simp)

/-- A line whose latest sample is below HIGH enters IN USE, the no-line filter running for a LOW one (R108). -/
theorem State.classify_below {y : LineSample} (hy : (s.line n).sample = some y) (hv : y.volts < 20) :
    s.classify n = { s.setLine n { s.line n with
        state := .inUse, band := if y.volts ≤ 2 then .low else .mid, classFilter := if y.volts ≤ 2 then some 10000 else none } with
      passesDue := s.passesDue + (if s.fireWaiting = true then 1 else 0) } := by
  have hband : ((s.line n).sample.map fun x => Band.ofVolts x.volts).getD .high = if y.volts ≤ 2 then .low else .mid := by
    rw [hy, Option.map_some, Option.getD_some, Band.ofVolts, if_pos (show y.volts ≤ 19 by omega)]
  simp only [State.classify, hband]
  by_cases h : y.volts ≤ 2
  · simp only [if_pos h, reduceCtorEq, if_false, LineState.ownBand, State.tellEntry_inUse, State.notifyWhileFire_eq]
    rfl
  · simp only [if_neg h, reduceCtorEq, if_false, if_true, LineState.ownBand, State.tellEntry_inUse, State.notifyWhileFire_eq]
    rfl

/-! ### A call that ends with an uncharged outcome -/

/-- The case a call carries waits again after an uncharged outcome (R28). -/
theorem State.Carries.handOutcome_eq (h : s.Carries n c k x) (ha : kind ≠ .accepted) (hu : kind.charged = false) (hr : kind ≠ .refused) :
    s.handOutcome n kind = ((s.handed n c.dest kind).setCase k (x.uncharged kind s.clock)).notify := by
  have waits : (s.handed n c.dest kind).applyOutcome k kind c.dest = _ :=
    State.applyOutcome_waits h.case h.sending ha (fun _ => ⟨hu, hr⟩) fun e he => by
      cases h.onPlan.symm.trans he
      exact (State.handed_usable c.dest).trans h.usable
  rw [State.handOutcome_eq h.call h.current, waits]
  rfl

theorem State.Carries.uncharged_noOffer (h : s.Carries n c k x) (hs : (s.line n).state ≠ .linger) (hl : l.state ≠ .linger) :
    (s.callOver k (x.uncharged kind s.clock) c.dest kind n l).NoOffer :=
  h.noOffer.callOver (fun _ e he => by
    cases h.onPlan.symm.trans he
    exact h.nobodyOn hs) hl

/-- A release after an uncharged outcome (R28, R121). -/
theorem State.Carries.uncharged_over (h : s.Carries n c k x) (hs : (s.line n).state ≠ .linger) (hcl : c.closePending = false)
    (ha : kind ≠ .accepted) (hu : kind.charged = false) (hr : kind ≠ .refused) :
    (s.failCall n kind).answerLingers = s.callOver k (x.uncharged kind s.clock) c.dest kind n
      ((s.line n).released (s.timing.guardTime * 1000)) := by
  rw [State.failCall, h.handOutcome_eq ha hu hr, State.release_handed h.call hcl, State.answerLingers_eq_self]
  exact h.uncharged_noOffer hs (by simp [Line.released])

/-- A failure counted before the outcome is handed over or after it: the line is the same. -/
theorem State.countFailure_handed {d : Fin 8} {y : Case} (cause : FaultCause) :
    ((s.handed n d kind).setCase k y).notify.countFailure n cause = (((s.countFailure n cause).handed n d kind).setCase k y).notify := by
  simp [State.countFailure, State.handed, State.updCall, State.updLine, State.setLine, State.line, State.notify, State.setCase,
    State.setSlot, State.slot, State.updDest, State.setDest, State.dest]

/-- A release after an uncharged outcome that counts against the line (R112, R113, R115). -/
theorem State.Carries.failLine_over (h : s.Carries n c k x) (hs : (s.line n).state ≠ .linger) (hcl : c.closePending = false)
    (cause : FaultCause) (ha : kind ≠ .accepted) (hu : kind.charged = false) (hr : kind ≠ .refused) :
    (s.failLine n kind cause).answerLingers = s.callOver k (x.uncharged kind s.clock) c.dest kind n
      { (s.line n).released (s.timing.guardTime * 1000) with failures := min 3 ((s.line n).failures + 1), failureCause := cause } := by
  have hcall : (s.countFailure n cause).call n = some c := by
    rw [State.countFailure, State.updLine_call, if_pos rfl]
    exact h.call
  rw [State.failLine, h.handOutcome_eq ha hu hr, State.countFailure_handed, State.release_handed hcall hcl, State.countFailure,
    State.updLine_line, if_pos rfl]
  rw [State.updLine, State.callOver_setLine, State.answerLingers_eq_self]
  · rfl
  · exact h.uncharged_noOffer hs (by simp [Line.released])

end Sys2Proof.Machine
end

