-- ==== Sys2Proof/Proofs/TimerWrites.lean ====
section
/-! CLAIM. WRITE LINE TIMING, WRITE EXCHANGE TIMING and WRITE TEST TIMER clamp and write their values (O24). -/

namespace Sys2Proof.Machine

variable {s : State}

/-- The statuses of a write that clamps, by what was written. -/
theorem State.answerWrite_ne {α : Type} [DecidableEq α] (s : State) (x y : α) :
    s.answerWrite (decide (x ≠ y)) = s.answer (if x = y then .ok else .adjusted) := by
  rw [State.answerWrite]
  by_cases h : x = y <;> simp [h]

/-- A differential is rounded down to a multiple of 3 (R126). -/
theorem div_mul_three (x : Nat) : x / 3 * 3 = x - x % 3 := by omega

theorem testModeOfCode_code (m : TestMode) : testModeOfCode m.code = some m := by cases m <;> rfl

/-- No test mode has a code above 2 (R175). -/
theorem testModeOfCode_eq_none {code : Nat} (h : 2 < code) : testModeOfCode code = none := by
  match code, h with
  | n + 3, _ => rfl

/-- A period is kept exactly where it lies in its range (R175). -/
theorem clamp_period_eq_iff (period : Nat) : clamp 1 168 period = period ↔ 1 ≤ period ∧ period ≤ 168 := by
  rw [clamp]
  omega

theorem exec_writeLineTiming (s : State) (stagger check settle tone guardTime hold differential filter : Nat) :
    exec (.writeLineTiming 31 stagger check settle tone guardTime hold differential filter) s =
      .next ((s.takeFrame 16).writeLineTiming ⟨stagger, check, settle, tone, guardTime, hold, differential, filter⟩) := rfl

theorem exec_writeExchangeTiming (s : State) (handshake response repeats blocks linger : Nat) :
    exec (.writeExchangeTiming 31 handshake response repeats blocks linger) s =
      .next ((s.takeFrame 8).writeExchangeTiming ⟨handshake, response, repeats, blocks, linger⟩) := rfl

theorem exec_writeTestTimer (s : State) (mode period : Nat) :
    exec (.writeTestTimer 31 mode period) s = .next ((s.takeFrame 5).writeTestTimer mode period) := rfl

end Sys2Proof.Machine

open Sys2Proof Sys2Proof.Machine

/-- Settles O24: each write stores the clamped values, and its reply says whether they are the ones given. -/
theorem timersWritten : Obligations.TimersWritten := by
  refine ⟨⟨fun s stagger check settle tone guardTime hold differential filter => ?_, fun s handshake response repeats blocks linger => ?_⟩,
    fun s code period => ⟨fun m hm => ?_, fun hbad => ?_⟩⟩
  · intro x
    have hx : LineTiming.clamped ⟨stagger, check, settle, tone, guardTime, hold, differential, filter⟩ = x := by
      simp only [LineTiming.clamped, div_mul_three]
      rfl
    rw [exec_writeLineTiming, State.writeLineTiming, State.answerWrite_ne, hx]
    rfl
  · intro x
    have hx : ExchangeTiming.clamped ⟨handshake, response, repeats, blocks, linger⟩ = x := by
      simp only [ExchangeTiming.clamped, clamp_zero]
      rfl
    rw [exec_writeExchangeTiming, State.writeExchangeTiming, State.answerWrite_ne, hx]
    rfl
  · subst hm
    simp only [exec_writeTestTimer, State.writeTestTimer, testModeOfCode_code, State.answerWrite_ne, clamp_period_eq_iff]
    rfl
  · rw [exec_writeTestTimer, State.writeTestTimer, testModeOfCode_eq_none hbad]
    rfl
end

