-- ==== Sys2Proof/Proofs/LineOutputs.lean ====
section
/-! CLAIM. The hook relay, break drive and symbol drive of a line follow its state, element and block (O60). -/

namespace Sys2Proof.Machine

variable {s t : State} {n : Fin 4} {c : Call} {g : Dialling} {b : BlockRun} {m : Manner} {e : Option DialSym} {y : DialSym} {k : Fin 48} {x : Case}
  {l : Line}

/-! ### The hook relay -/

theorem LineState.offHookState_iff (st : LineState) : st.offHookState = true ↔
    st = .offHook ∨ st = .dialling ∨ st = .awaitHandshake ∨ st = .exchange ∨ st = .linger := by
  cases st <;> simp [LineState.offHookState]

/-! ### No dialling, and no exchange -/

theorem State.elementInProgress_of_ne (h : (s.line n).state ≠ .dialling) : s.elementInProgress n = none := by
  unfold State.elementInProgress
  split
  · next hs _ => exact absurd hs h
  · rfl

theorem State.breakDrive_of_no_element (h : s.elementInProgress n = none) : s.breakDrive n = 0 := by
  unfold State.breakDrive
  rw [h]
  split
  · next hs => cases hs
  · rfl

theorem State.breakDrive_of_ne (h : (s.line n).state ≠ .dialling) : s.breakDrive n = 0 :=
  State.breakDrive_of_no_element (State.elementInProgress_of_ne h)

theorem State.symbolDrive_of_ne (hd : (s.line n).state ≠ .dialling) (he : (s.line n).state ≠ .exchange) : s.symbolDrive n = .silent := by
  unfold State.symbolDrive
  split
  · next h => exact absurd h hd
  · next h => exact absurd h he
  · rfl

/-! ### An element of a dialling -/

/-- Line `n` dials in the manner `m`, the element `e` in progress (R130). -/
structure State.Dials (s : State) (n : Fin 4) (m : Manner) (e : Option DialSym) : Prop where
  state : (s.line n).state = .dialling
  manner : s.manner n = some m
  element : s.elementInProgress n = e

theorem State.dials_of (hs : (s.line n).state = .dialling) (hc : s.call n = some c) (hg : c.dialling = some g) :
    s.Dials n g.manner (if g.element.isSome then (s.dest c.dest).dial[g.position - 2]? else none) := by
  refine ⟨hs, ?_, ?_⟩
  · rw [State.manner, hc, Option.bind_some, hg, Option.map_some]
  · simp only [State.elementInProgress, hs, hc, hg]

theorem State.Dials.silent (h : s.Dials n m none) : s.symbolDrive n = .silent ∧ s.breakDrive n = 0 := by
  refine ⟨?_, State.breakDrive_of_no_element h.element⟩
  cases m <;> simp only [State.symbolDrive, h.state, h.manner, h.element]

/-- A pause sends nothing (R134). -/
theorem State.Dials.pause (h : s.Dials n m (some .pause)) : s.symbolDrive n = .silent ∧ s.breakDrive n = 0 := by
  cases m <;> simp only [State.symbolDrive, State.breakDrive, h.state, h.manner, h.element, and_self]

/-- A tone dialling sends the symbol, and breaks nothing (R132). -/
theorem State.Dials.tone (h : s.Dials n .tone (some y)) :
    s.symbolDrive n = (if y = .pause then .silent else .dial y) ∧ s.breakDrive n = 0 := by
  cases y <;> simp [State.symbolDrive, State.breakDrive, h.state, h.manner, h.element]

/-- A pulse dialling sends no symbol (R133). -/
theorem State.Dials.pulse (h : s.Dials n .pulse e) : s.symbolDrive n = .silent := by
  simp only [State.symbolDrive, h.state, h.manner]

theorem breaksOf_eq (d : Fin 10) : breaksOf d = if d = 0 then 10 else d.val := by
  simp only [breaksOf, Fin.ext_iff, Fin.val_zero]

theorem State.Dials.breaks {d : Fin 10} (h : s.Dials n .pulse (some (.digit d))) : s.breakDrive n = if d = 0 then 10 else d.val := by
  simp only [State.breakDrive, h.manner, h.element, breaksOf_eq]

/-- Breaks are sent only in a pulse dialling, and at most 10 of them (R133). -/
theorem State.breakDrive_ne_zero (h : s.breakDrive n ≠ 0) : s.symbolDrive n = .silent ∧ s.hookDrive n = true ∧ s.breakDrive n ≤ 10 := by
  have hs : (s.line n).state = .dialling := by
    by_contra hn
    exact h (State.breakDrive_of_ne hn)
  have hm : ∃ d, s.manner n = some .pulse ∧ s.elementInProgress n = some (.digit d) := by
    unfold State.breakDrive at h
    split at h
    · exact ⟨_, by assumption, by assumption⟩
    · exact absurd rfl h
  obtain ⟨d, hm, he⟩ := hm
  have dials : s.Dials n .pulse (some (.digit d)) := ⟨hs, hm, he⟩
  refine ⟨dials.pulse, ?_, ?_⟩
  · rw [State.hookDrive, hs]; rfl
  · rw [dials.breaks]
    split <;> omega

/-! ### A block in EXCHANGE -/

theorem State.symbolDrive_exchange (hs : (s.line n).state = .exchange) (hc : s.call n = some c) (hb : c.block = some b) :
    s.symbolDrive n = if b.phase = .sending then .block b.symbols else .silent := by
  simp only [State.symbolDrive, hs, hc, Option.bind_some, hb]

/-! ### The events -/

/-- The end of an element that leaves another to send, where no adaptive check runs (R132, R141). -/
theorem exec_elementTimerExpiry_next (hs : (s.line n).state = .dialling) (hc : s.call n = some c) (hg : c.dialling = some g)
    (he : g.element.isSome) (hcheck : g.adaptiveCheck = none) (hy : (s.dest c.dest).dial[g.position - 1]? = some y) :
    ∃ g', g'.manner = g.manner ∧ g'.element.isSome = true ∧ g'.position = g.position + 1 ∧
      exec (.elementTimerExpiry n) s = .next (s.setLine n { s.line n with call := some { c with dialling := some g' } }) := by
  let g₀ : Dialling := { g with element := none }
  refine ⟨g₀.begin y, rfl, rfl, rfl, ?_⟩
  have hex : exec (.elementTimerExpiry n) s = .next ((s.updDialling n fun g => { g with element := none }).nextElement n) := by
    show execElementTimerExpiry n s = _
    simp only [execElementTimerExpiry, hc, Option.bind_some, hg]
    rw [if_pos ⟨he, hs⟩, if_neg (by simp [hcheck])]
  rw [hex, State.updDialling_eq hc hg, State.nextElement_setLine (c := { c with dialling := some g₀ }) rfl rfl hy]

/-- A case that owes a report has a block (R145). -/
theorem composeBlock_of_owed (ho : x.owed ≠ []) (d : Destination) : ∃ symbols, composeBlock x d = some symbols := by
  obtain ⟨kind, rest, e⟩ := List.exists_cons_of_ne_nil ho
  exact ⟨_, by rw [composeBlock, e]; rfl⟩

/-- The ready symbol begins the block of the case the line carries (R143). -/
theorem State.ready_begins (hc : s.call n = some c) (hk : c.current = some k) (hx : s.caseAt k = some x) (ho : x.owed ≠ []) :
    ∃ d l c' symbols, s.ready n = (s.setDest c.dest d).setLine n l ∧ composeBlock x d = some symbols ∧ l.state = .exchange ∧
      l.call = some c' ∧ c'.block = some { symbols := symbols, phase := .sending, repeats := 0, response := none } := by
  obtain ⟨symbols, hb⟩ := composeBlock_of_owed ho
    (if (s.dest c.dest).policy = .perCall then { s.dest c.dest with toggle := false } else s.dest c.dest)
  exact ⟨_, _, _, symbols, State.ready_eq hc hk hx, hb, rfl, rfl, congrArg (Option.map _) hb⟩

/-- A block being sent is sent until BLOCK_SENT ends it, the line off-hook (R147). -/
theorem State.block_driven (hl : l.state = .exchange) (hc : l.call = some c) (hb : c.block = some b) (hp : b.phase = .sending) :
    (s.setLine n l).hookDrive n = true ∧ (s.setLine n l).symbolDrive n = .block b.symbols ∧
      ∃ u : State, exec (.blockSent n) (s.setLine n l) = .next u ∧ u.hookDrive n = true ∧ u.symbolDrive n = .silent := by
  have hstate : ((s.setLine n l).line n).state = .exchange := by rw [State.setLine_line_same, hl]
  have hcall : (s.setLine n l).call n = some c := (State.setLine_call_same ..).trans hc
  refine ⟨by rw [State.hookDrive, hstate]; rfl, ?_, _, exec_blockSent ?_, ?_, ?_⟩
  · rw [State.symbolDrive_exchange hstate hcall hb, if_pos hp]
  · rw [State.blockPhase_eq hstate hcall hb, hp]
  · rw [State.updBlock_eq hcall hb, State.hookDrive, State.setLine_line_same, hstate]
    rfl
  · rw [State.updBlock_eq hcall hb]
    let b' : BlockRun := { b with phase := .awaiting, response := some ((s.setLine n l).exchange.response * 1000) }
    exact State.symbolDrive_exchange (c := { c with block := some b' }) (b := b')
      ((congrArg Line.state (State.setLine_line_same ..)).trans hstate) (State.setLine_call_same ..) rfl

theorem exec_lingerExpiry (hs : (s.line n).state = .linger) (hc : s.call n = some c) (hl : c.linger.isSome) :
    exec (.lingerExpiry n) s = .next (s.release n) := by
  show execLingerExpiry n s = _
  simp only [execLingerExpiry, hc]
  exact if_pos ⟨hl, hs⟩

theorem State.release_state (s : State) (n : Fin 4) : ((s.release n).line n).state = .off ∨ ((s.release n).line n).state = .guarded := by
  rw [State.release, State.updLine_line, if_pos rfl]
  split
  · exact .inl rfl
  · exact .inr rfl

end Sys2Proof.Machine

open Sys2Proof Sys2Proof.Machine

/-- Settles O60: the outputs by state, manner, element and block, then each of the four events as the line it writes. -/
theorem lineOutputsDriven : Obligations.LineOutputsDriven := by
  refine ⟨fun s n => ⟨LineState.offHookState_iff _, State.breakDrive_of_ne, State.symbolDrive_of_ne, State.breakDrive_ne_zero,
    fun c b hs hc hb => ?_, fun c g hs hc hg => ?_⟩, ?_, ?_, ?_⟩
  · rw [State.symbolDrive_exchange hs hc hb]
    cases b.phase <;> rfl
  · have dials := State.dials_of hs hc hg
    refine ⟨fun he => ?_, fun y he hy => ?_⟩
    · rw [he] at dials
      exact dials.silent
    · rw [if_pos he, hy] at dials
      refine ⟨fun e => (e ▸ dials).pause, fun hp hm => ?_, fun hm => (hm ▸ dials).pulse, fun d e hm => ?_⟩
      · rw [hm] at dials
        exact ⟨dials.tone.1.trans (if_neg hp), dials.tone.2⟩
      · rw [hm, e] at dials
        exact dials.breaks
  · intro s n c g y hs hc hg he hcheck hpos hy
    obtain ⟨g', hm, he', hp, hex⟩ := exec_elementTimerExpiry_next hs hc hg he hcheck hy
    refine ⟨_, hex, ?_⟩
    have dials := State.dials_of (s := s.setLine n { s.line n with call := some { c with dialling := some g' } }) (n := n)
      ((congrArg Line.state (State.setLine_line_same ..)).trans hs) (State.setLine_call_same ..) rfl
    rw [if_pos he', hm, hp, show g.position + 1 - 2 = g.position - 1 by omega, State.setLine_dest, hy] at dials
    refine ⟨by rw [State.hookDrive, dials.state]; rfl, fun hm => ?_, fun hm => ?_, fun e => (e ▸ dials).pause.2⟩
    · rw [hm] at dials
      exact dials.tone.symm
    · rw [hm] at dials
      exact ⟨dials.pulse, fun d e => (e ▸ dials).breaks⟩
  · intro s n c k x hs hc hk hx ho
    obtain ⟨d, l, c', symbols, hready, hb, hl, hc', hb'⟩ := State.ready_begins hc hk hx ho
    obtain ⟨hhook, hdrive, hsent⟩ := State.block_driven (s := s.setDest c.dest d) (n := n) hl hc' hb' rfl
    refine ⟨_, symbols, ?_, hhook, ?_, hdrive, hsent⟩
    · rw [exec_receivedSymbol_handshake hs, if_pos rfl, hready]
    · rw [State.setLine_dest, State.setDest_dest, if_pos rfl]
      exact hb
  · intro s n c hs hc hl
    refine ⟨_, exec_lingerExpiry hs hc hl, ?_, State.symbolDrive_of_ne ?_ ?_, State.breakDrive_of_ne ?_⟩
    · rw [State.hookDrive]
      rcases s.release_state n with e | e <;> rw [e] <;> rfl
    all_goals rcases s.release_state n with e | e <;> simp [e]
end

