-- ==== Sys2Proof/Proofs/Samples.lean ====
section
/-! CLAIM. LINE_SAMPLE is recorded and judged by the state of the line (O39). -/

namespace Sys2Proof.Machine

variable {s : State} {n : Fin 4} {c : Call} {l : Line} {volts milliamps i : Nat}

/-! ### The latest sample -/

/-- Line `l` with its latest sample (R105). -/
def Line.sampled (l : Line) (volts milliamps : Nat) : Line := { l with sample := some ⟨volts, min 150 milliamps⟩ }

theorem Line.sampled_eq (h : milliamps ≤ 150) : l.sampled volts milliamps = { l with sample := some ⟨volts, milliamps⟩ } := by
  rw [Line.sampled, min_eq_right h]

/-- What a sample comes to where it makes no offer. -/
theorem exec_lineSample (h : s.takeSample n volts milliamps = s.setLine n l) (hno : s.NoOffer) (hl : l.state = (s.line n).state)
    (hd : l.call.map Call.dest = (s.call n).map Call.dest) : exec (.lineSample n volts milliamps) s = .next (s.setLine n l) := by
  show Host.Outcome.next (s.takeSample n volts milliamps).answerLingers = _
  rw [h, State.answerLingers_setLine hno hl hd]

/-! ### On-hook -/

/-- OFF, AWAIT PERMIT, GUARD and the faults but NO VOLTAGE judge no sample (R105). -/
theorem State.takeSample_recorded (hs : (s.line n).state = .off ∨ (s.line n).state = .awaitPermit ∨ (s.line n).state = .guarded ∨
    ((s.line n).state = .fault ∧ (s.line n).cause ≠ .noVoltage)) :
    s.takeSample n volts milliamps = s.setLine n ((s.line n).sampled volts milliamps) := by
  rcases hs with h | h | h | ⟨h, hc⟩
  iterate 3
    simp only [State.takeSample, h]
    rfl
  · simp only [State.takeSample, h, if_neg hc]
    rfl

theorem State.takeSample_classified (hs : (s.line n).state = .idle ∨ (s.line n).state = .inUse) :
    s.takeSample n volts milliamps =
      s.setLine n (((s.line n).sampled volts milliamps).classifySample (Band.ofVolts volts)) := by
  rcases hs with h | h <;>
  · simp only [State.takeSample, h]
    exact State.updLine_setLine ..

theorem State.takeSample_watched (hs : (s.line n).state = .fault) (hc : (s.line n).cause = .noVoltage) :
    s.takeSample n volts milliamps =
      s.setLine n (((s.line n).sampled volts milliamps).watchRecovery (Band.ofVolts volts)) := by
  simp only [State.takeSample, hs, if_pos hc]
  exact State.updLine_setLine ..

theorem Line.classifySample_own {b : Band} (h : b = l.state.ownBand) :
    l.classifySample b = { l with band := b, classFilter := none } := if_pos h

theorem Line.classifySample_other {b : Band} (h : b ≠ l.state.ownBand) (hb : b ≠ l.band) :
    l.classifySample b = { l with band := b, classFilter := some b.filterMs } := by
  rw [Line.classifySample, if_neg h, if_pos hb]

theorem Line.classifySample_candidate {b : Band} (h : b ≠ l.state.ownBand) (hb : b = l.band) : l.classifySample b = l := by
  rw [Line.classifySample, if_neg h, if_neg (not_not.mpr hb)]

/-- The band of a line's own state, in IDLE and in IN USE (R107). -/
theorem LineState.ownBand_iff {st : LineState} (hs : st = .idle ∨ st = .inUse) (b : Band) :
    b = st.ownBand ↔ (st = .idle ∧ b = .high) ∨ (st = .inUse ∧ b = .mid) := by
  rcases hs with rfl | rfl <;> simp [LineState.ownBand]

theorem Band.filterMs_ofVolts (v : Nat) : (Band.ofVolts v).filterMs = if v ≤ 2 then 10000 else if v ≤ 19 then 200 else 1000 := by
  unfold Band.ofVolts
  split
  · rfl
  · split <;> rfl

theorem Band.ofVolts_low (v : Nat) : Band.ofVolts v = .low ↔ v ≤ 2 := by
  unfold Band.ofVolts
  split
  · simp [*]
  · split <;> simp [*]

theorem Line.watchRecovery_eq (l : Line) (v : Nat) :
    l.watchRecovery (Band.ofVolts v) = { l with recovery := if v ≤ 2 then none else some (l.recovery.getD 10000) } := by
  simp only [Line.watchRecovery, Band.ofVolts_low]
  split <;> rfl

/-! ### Off-hook -/

/-- A current of at most 120 mA is no overcurrent (R114). -/
theorem State.judgeCurrent_watch (hi : i ≤ 120) (watch : State → State) : s.judgeCurrent n i watch = watch s :=
  if_neg (Nat.not_lt.mpr hi)

/-- Line `n` off-hook with a sample taken in its call (R112). -/
def State.sampledCall (s : State) (n : Fin 4) (c : Call) (volts milliamps : Nat) : State :=
  s.setLine n { (s.line n).sampled volts milliamps with call := some { c with sampled := true } }

/-- A sample in OFF HOOK is judged by how far the off-hook check has come (R112). -/
theorem State.takeSample_offHook (hs : (s.line n).state = .offHook) (hc : s.call n = some c) :
    s.takeSample n volts milliamps =
      match c.check with
      | .awaitingSample => (s.sampledCall n c volts milliamps).judgeLoop n (min 150 milliamps)
      | .judged => (s.sampledCall n c volts milliamps).judgeCurrent n (min 150 milliamps) fun u => u.monitorSettled n (min 150 milliamps)
      | _ => s.sampledCall n c volts milliamps := by
  have hcall : ((s.line n).sampled volts milliamps).call = some c := hc
  have htaken : (s.setLine n ((s.line n).sampled volts milliamps)).updCall n (fun c => { c with sampled := true }) =
      s.sampledCall n c volts milliamps := State.updCall_setLine hcall _
  simp only [State.takeSample, hs, hc, Option.map_some]
  rw [show (s.updLine n fun l => { l with sample := some ⟨volts, min Config.currentMaxMa milliamps⟩ }) =
    s.setLine n ((s.line n).sampled volts milliamps) from rfl, htaken]
  cases c.check <;> rfl

/-- While the check runs, a sample is recorded alone (R112). -/
theorem State.takeSample_checking {ms : Nat} (hs : (s.line n).state = .offHook) (hc : s.call n = some c) (hcheck : c.check = .running ms) :
    s.takeSample n volts milliamps = s.sampledCall n c volts milliamps := by
  rw [State.takeSample_offHook hs hc, hcheck]

/-- The first sample after a check without one is judged as the loop (R112). -/
theorem State.takeSample_awaited (hs : (s.line n).state = .offHook) (hc : s.call n = some c) (hcheck : c.check = .awaitingSample) :
    s.takeSample n volts milliamps = (s.sampledCall n c volts milliamps).judgeLoop n (min 150 milliamps) := by
  rw [State.takeSample_offHook hs hc, hcheck]

/-- After the check, a sample is judged for intrusion (R118). -/
theorem State.takeSample_judged (hs : (s.line n).state = .offHook) (hc : s.call n = some c) (hcheck : c.check = .judged)
    (hi : milliamps ≤ 120) : s.takeSample n volts milliamps = (s.sampledCall n c volts milliamps).monitorSettled n milliamps := by
  rw [State.takeSample_offHook hs hc, hcheck, min_eq_right (hi.trans (by decide))]
  exact State.judgeCurrent_watch hi _

theorem State.takeSample_dialling (hs : (s.line n).state = .dialling) (hi : milliamps ≤ 120) :
    s.takeSample n volts milliamps = s.setLine n ((s.line n).sampled volts milliamps) := by
  simp only [State.takeSample, hs, State.judgeCurrent_watch ((min_le_right _ _).trans hi)]
  rfl

/-- The states in which the first sample is the reference (R118). -/
theorem State.takeSample_monitored (hs : (s.line n).state = .awaitHandshake ∨ (s.line n).state = .exchange ∨ (s.line n).state = .linger)
    (hi : milliamps ≤ 120) :
    s.takeSample n volts milliamps = (s.setLine n ((s.line n).sampled volts milliamps)).monitor n milliamps := by
  have hmin : min Config.currentMaxMa milliamps = milliamps := min_eq_right (hi.trans (by decide))
  rcases hs with h | h | h <;>
  · simp only [State.takeSample, h, hmin, State.judgeCurrent_watch hi]
    rw [Line.sampled_eq (hi.trans (by decide))]
    rfl

/-! ### The loop and the intrusion -/

/-- Dialling starts neither before settle is over nor without dial tone (R113). -/
theorem State.tryDial_waits (hc : s.call n = some c) (h : c.settled = false ∨ c.dialTone = false) : s.tryDial n = s := by
  simp only [State.tryDial, hc]
  refine if_neg fun ⟨_, hs, _, hd⟩ => ?_
  rcases h with e | e
  · rw [e] at hs; cases hs
  · rw [e] at hd; cases hd

/-- A current of 8 to 120 mA is a sound loop (R112, R114). -/
theorem State.judgeLoop_sound (hc : s.call n = some c) (hlow : 8 ≤ i) (hhigh : i ≤ 120) (hs : c.settled = false) :
    s.judgeLoop n i = s.setLine n { s.line n with call := some { c with check := .judged } } := by
  have hjudged : s.updCall n (fun c => { c with
      check := .judged, reference := if c.settled ∧ c.reference = none then some i else c.reference }) =
      s.setLine n { s.line n with call := some { c with check := .judged } } := by
    rw [State.updCall_eq hc, if_neg (by simp [hs])]
  rw [State.judgeLoop, if_neg (show ¬ i < Config.loopMinMa from Nat.not_lt.mpr hlow),
    if_neg (show ¬ Config.overcurrentMa < i from Nat.not_lt.mpr hhigh), hjudged]
  exact State.tryDial_waits (State.setLine_call_same ..) (.inl hs)

/-- A fall of at least the differential, which is not 0 (R118). -/
theorem Call.judgeIntrusion_low {r d filter : Nat} (h : d ≤ r - i ∧ i < r) :
    c.judgeIntrusion r i d filter = { c with intrusion := some (c.intrusion.getD filter) } := if_pos h.1

theorem Call.judgeIntrusion_high {r d filter : Nat} (hd : 1 ≤ d) (h : ¬ (d ≤ r - i ∧ i < r)) :
    c.judgeIntrusion r i d filter = { c with intrusion := none } := if_neg fun e => h ⟨e, by omega⟩

theorem State.monitor_first (hc : l.call = some c) (hr : c.reference = none) :
    (s.setLine n l).monitor n i = s.setLine n { l with call := some { c with reference := some i } } := by
  rw [State.monitor, State.updCall_setLine hc, hr]

theorem State.monitor_later {r : Nat} (hc : l.call = some c) (hr : c.reference = some r) :
    (s.setLine n l).monitor n i =
      s.setLine n { l with call := some (c.judgeIntrusion r i s.timing.differential s.timing.intrusion) } := by
  rw [State.monitor, State.updCall_setLine hc, hr]
  rfl

theorem State.monitorSettled_none (hc : l.call = some c) (hr : c.reference = none) :
    (s.setLine n l).monitorSettled n i = s.setLine n l := by
  rw [State.monitorSettled, State.updCall_setLine hc, hr, ← hc]

theorem State.monitorSettled_later {r : Nat} (hc : l.call = some c) (hr : c.reference = some r) :
    (s.setLine n l).monitorSettled n i =
      s.setLine n { l with call := some (c.judgeIntrusion r i s.timing.differential s.timing.intrusion) } := by
  rw [State.monitorSettled, State.updCall_setLine hc, hr]
  rfl

end Sys2Proof.Machine

open Sys2Proof Sys2Proof.Machine

/-- Settles O39: what the state of the line makes of a sample (`takeSample_…`), then of its band or its current. -/
theorem sampleTaken : Obligations.SampleTaken := by
  refine ⟨fun s n volts milliamps hno => ?_, fun s n volts milliamps c hno hc hma => ?_⟩
  · intro band time l becomes own
    refine ⟨fun hs => ?_, fun hs => ?_, fun hs hc => ?_, fun c ms hs hc hcheck => ?_⟩
    · exact exec_lineSample (State.takeSample_recorded hs) hno rfl rfl
    · have hown : own band ↔ band = l.state.ownBand := (LineState.ownBand_iff hs band).symm
      have taken {l' : Line} (h : l.classifySample band = l') (hstate : l'.state = l.state) (hcall : l'.call = l.call) : becomes l' :=
        exec_lineSample ((State.takeSample_classified hs).trans (congrArg _ h)) hno hstate (congrArg _ hcall)
      refine ⟨fun ho => ?_, fun ho hb => ?_, fun ho hb => ?_⟩
      · exact taken (Line.classifySample_own (hown.mp ho)) rfl rfl
      · refine taken ((Line.classifySample_other (mt hown.mpr ho) hb).trans ?_) rfl rfl
        rw [show time = band.filterMs from (Band.filterMs_ofVolts volts).symm]
      · exact taken (Line.classifySample_candidate (mt hown.mpr ho) hb) rfl rfl
    · exact exec_lineSample ((State.takeSample_watched hs hc).trans (congrArg _ (Line.watchRecovery_eq l volts))) hno rfl rfl
    · refine exec_lineSample ?_ hno rfl (by rw [hc]; rfl)
      exact State.takeSample_checking hs hc hcheck
  · intro l becomes low
    have hl : (s.line n).sampled volts milliamps = l := Line.sampled_eq (hma.trans (by decide))
    have hmin : min 150 milliamps = milliamps := min_eq_right (hma.trans (by decide))
    have hcall : l.call = some c := hc
    have taken {c' : Call} (h : s.takeSample n volts milliamps = s.setLine n { l with call := some c' }) (hd : c'.dest = c.dest) :
        becomes c' := exec_lineSample h hno rfl (by rw [hc]; exact congrArg some hd)
    let c' : Call := { c with sampled := true }
    have hu : s.sampledCall n c volts milliamps = s.setLine n { l with call := some c' } := by rw [State.sampledCall, hl]
    refine ⟨fun ms hs hcheck => ?_, fun hs hcheck hi hsettled => ?_,
      fun hs hcheck hd => ⟨fun hr => ?_, fun r hr => ⟨fun h => ?_, fun h => ?_⟩⟩,
      fun hs => ?_, fun hs hd => ⟨fun hr => ?_, fun r hr => ⟨fun h => ?_, fun h => ?_⟩⟩⟩
    · exact taken ((State.takeSample_checking hs hc hcheck).trans hu) rfl
    · refine taken ?_ rfl
      rw [State.takeSample_awaited hs hc hcheck, hu, hmin, State.judgeLoop_sound (c := c') (State.setLine_call_same ..) hi hma hsettled,
        State.setLine_line_same, State.setLine_setLine]
    · refine taken ?_ rfl
      rw [State.takeSample_judged hs hc hcheck hma, hu, State.monitorSettled_none (c := c') rfl hr]
    · refine taken ?_ rfl
      rw [State.takeSample_judged hs hc hcheck hma, hu, State.monitorSettled_later (c := c') rfl hr, Call.judgeIntrusion_low h]
    · refine taken ?_ rfl
      rw [State.takeSample_judged hs hc hcheck hma, hu, State.monitorSettled_later (c := c') rfl hr, Call.judgeIntrusion_high hd h]
    · refine taken ?_ rfl
      rw [State.takeSample_dialling hs hma, hl, ← hcall]
    · refine taken ?_ rfl
      rw [State.takeSample_monitored hs hma, hl, State.monitor_first hcall hr]
    · refine taken ?_ rfl
      rw [State.takeSample_monitored hs hma, hl, State.monitor_later hcall hr, Call.judgeIntrusion_low h]
    · refine taken ?_ rfl
      rw [State.takeSample_monitored hs hma, hl, State.monitor_later hcall hr, Call.judgeIntrusion_high hd h]
end

