-- ==== Sys2Proof/Proofs/Reclassifications.lean ====
section
/-! CLAIM. CLASSIFICATION_FILTER_EXPIRY and GUARD_EXPIRY place a line in IDLE or IN USE (O40). -/

namespace Sys2Proof.Machine

variable {s : State} {n : Fin 4}

theorem exec_classificationFilterExpiry_none (h : (s.line n).classFilter = none) : exec (.classificationFilterExpiry n) s = .next s := by
  show execClassificationFilterExpiry n s = _
  simp only [execClassificationFilterExpiry, h]
  exact if_neg (by simp)

theorem exec_guardExpiry_none (h : (s.line n).guardTimer = none) : exec (.guardExpiry n) s = .next s := by
  show execGuardExpiry n s = _
  simp only [execGuardExpiry, h]
  exact if_neg (by simp)

/-- A HIGH or MID candidate that has held moves the line to IDLE or IN USE (R107). -/
theorem exec_classificationFilterExpiry {st : LineState} (hf : (s.line n).classFilter.isSome)
    (hs : (s.line n).state = .idle ∨ (s.line n).state = .inUse)
    (hb : ((s.line n).band = .high ∧ st = .idle) ∨ ((s.line n).band = .mid ∧ st = .inUse)) :
    exec (.classificationFilterExpiry n) s = .next ((s.setLine n { s.line n with state := st, classFilter := none }).tellEntry st) := by
  show execClassificationFilterExpiry n s = _
  simp only [execClassificationFilterExpiry]
  rw [if_pos ⟨hf, hs⟩]
  split
  · next e => simp [e] at hb
  · next e =>
    have hst : st = .inUse := by simpa [e] using hb
    subst hst
    rfl
  · next e =>
    have hst : st = .idle := by simpa [e] using hb
    subst hst
    rfl

/-- A guard that ends after fewer than three failures has the line classified (R122). -/
theorem exec_guardExpiry (hg : (s.line n).guardTimer.isSome) (hs : (s.line n).state = .guarded) (hf : (s.line n).failures ≠ 3) :
    exec (.guardExpiry n) s = .next ((s.setLine n { s.line n with guardTimer := none }).classify n) := by
  show execGuardExpiry n s = _
  simp only [execGuardExpiry]
  rw [if_pos ⟨hg, hs⟩, if_neg hf]
  rfl

end Sys2Proof.Machine

open Sys2Proof Sys2Proof.Machine

/-- Settles O40: the candidate band, or the latest sample (`classify_high`, `classify_below`), gives the state. -/
theorem lineReclassified : Obligations.LineReclassified := by
  refine ⟨fun s n => ⟨exec_classificationFilterExpiry_none, fun hf hs => ⟨fun hb => ?_, fun hb => ?_⟩⟩,
    fun s n => ⟨exec_guardExpiry_none, fun hg hs hf => ⟨fun hhigh => ?_, fun x hx hv => ?_⟩⟩⟩
  · rw [exec_classificationFilterExpiry hf hs (.inl ⟨hb, rfl⟩), State.tellEntry_idle]
    rfl
  · rw [exec_classificationFilterExpiry hf hs (.inr ⟨hb, rfl⟩), State.tellEntry_inUse, State.notifyWhileFire_eq]
    rfl
  · have hline := State.setLine_line_same s n { s.line n with guardTimer := none }
    rw [exec_guardExpiry hg hs hf, State.classify_high (by rw [hline]; exact hhigh), hline, State.setLine_setLine]
    rfl
  · have hline := State.setLine_line_same s n { s.line n with guardTimer := none }
    rw [exec_guardExpiry hg hs hf, State.classify_below (by rw [hline]; exact hx) hv, hline, State.setLine_setLine]
    rfl
end

