-- ==== Sys2Proof/Proofs/Seizures.lean ====
section
/-! CLAIM. The stagger, off-hook check, settle and dial-tone wait of a seizure (O43). -/

namespace Sys2Proof.Machine

variable {s : State} {n : Fin 4} {k : Fin 48} {x : Case} {c : Call} {y : LineSample} {volts milliamps : Nat}

/-! ### The permit -/

/-- A line with a call is granted the permit (R111). -/
theorem State.grantPermit_eq (hc : s.call n = some c) :
    s.grantPermit n = { s.setLine n { s.line n with state := .offHook, call := some (c.granted s.timing) } with
      permit := { s.permit with holder := some n, stagger := some s.timing.stagger } } := by
  let t : State := { s with permit := { s.permit with holder := some n, stagger := some s.timing.stagger } }
  have hcall : ({ s.line n with state := .offHook } : Line).call = some c := hc
  exact (State.updCall_setLine (s := t) hcall (·.granted s.timing)).trans rfl

theorem exec_staggerTimerExpiry_none (h : s.permit.stagger = none) : exec .staggerTimerExpiry s = .next s :=
  if_neg (by simp [h])

theorem exec_staggerTimerExpiry_empty (h : s.permit.stagger.isSome) (hq : s.permit.queue = []) :
    exec .staggerTimerExpiry s = .next { s with permit := ⟨none, none, []⟩ } := by
  show execStaggerTimerExpiry s = _
  simp only [execStaggerTimerExpiry, hq]
  exact if_pos h

/-- The permit is granted to the head of the queue (R110). -/
theorem exec_staggerTimerExpiry_head {w : PermitWait} {q : List PermitWait} (h : s.permit.stagger.isSome) (hq : s.permit.queue = w :: q) :
    exec .staggerTimerExpiry s = .next (State.grantPermit { s with permit := ⟨none, none, q⟩ } w.line) := by
  show execStaggerTimerExpiry s = _
  simp only [execStaggerTimerExpiry, hq]
  exact if_pos h

/-! ### The off-hook check -/

theorem exec_offHookCheckExpiry_unsampled {ms : Nat} (hs : (s.line n).state = .offHook) (hc : s.call n = some c) (hcheck : c.check = .running ms)
    (hn : c.sampled = false) :
    exec (.offHookCheckExpiry n) s = .next (s.setLine n { s.line n with call := some { c with check := .awaitingSample } }) := by
  have hex : exec (.offHookCheckExpiry n) s = .next (s.updCall n fun c => { c with check := .awaitingSample }) := by
    show execOffHookCheckExpiry n s = _
    simp only [execOffHookCheckExpiry, hc, hcheck, hn]
    exact if_pos hs
  rw [hex, State.updCall_eq hc]

theorem exec_offHookCheckExpiry_sampled {ms : Nat} (hs : (s.line n).state = .offHook) (hc : s.call n = some c) (hcheck : c.check = .running ms)
    (hsampled : c.sampled = true) (hy : (s.line n).sample = some y) :
    exec (.offHookCheckExpiry n) s = .next (s.judgeLoop n y.milliamps).answerLingers := by
  show execOffHookCheckExpiry n s = _
  simp only [execOffHookCheckExpiry, hc, hcheck, hsampled, hy]
  exact if_pos hs

/-- A current below 8 mA is no loop (R112). -/
theorem State.judgeLoop_none (h : milliamps < 8) : s.judgeLoop n milliamps = s.failLine n .noLoop .noLoop := if_pos h

theorem State.Carries.noLoop_over (h : s.Carries n c k x) (hs : (s.line n).state = .offHook) (hcl : c.closePending = false)
    (hi : milliamps < 8) :
    (s.judgeLoop n milliamps).answerLingers = s.callOver k (x.uncharged .noLoop s.clock) c.dest .noLoop n
      { (s.line n).released (s.timing.guardTime * 1000) with failures := min 3 ((s.line n).failures + 1), failureCause := .noLoop } := by
  rw [State.judgeLoop_none hi, h.failLine_over (by simp [hs]) hcl _ (by simp) rfl (by simp)]

/-! ### Settle and the wait for dial tone -/

/-- The call of a line whose settle is over with the latest sample `y` (R113). -/
def Call.settledBy (c : Call) (y : LineSample) : Call := { c with settleTimer := none, settled := true, reference := some y.milliamps }

theorem exec_settleTimerExpiry (hs : (s.line n).state = .offHook) (hc : s.call n = some c) (ht : c.settleTimer.isSome)
    (hcheck : c.check = .judged) (hy : (s.line n).sample = some y) :
    exec (.settleTimerExpiry n) s =
      .next ((s.setLine n { s.line n with call := some (c.settledBy y) }).tryDial n).answerLingers := by
  have hex : exec (.settleTimerExpiry n) s = .next ((s.updCall n (·.settledBy y)).tryDial n).answerLingers := by
    show execSettleTimerExpiry n s = _
    simp only [execSettleTimerExpiry, hc, hcheck, reduceCtorEq, if_false, hy, Option.map_some]
    exact if_pos ⟨ht, hs⟩
  rw [hex, State.updCall_eq hc]

theorem exec_dialToneWaitExpiry (hs : (s.line n).state = .offHook) (hc : s.call n = some c) (hw : c.dialToneWait.isSome) :
    exec (.dialToneWaitExpiry n) s = .next (s.failLine n .noDialTone .noDialTone).answerLingers := by
  show execDialToneWaitExpiry n s = _
  simp only [execDialToneWaitExpiry, hc]
  exact if_pos ⟨hw, hs⟩

end Sys2Proof.Machine

open Sys2Proof Sys2Proof.Machine

/-- Settles O43: the permit moves on, the check judges the loop (`judgeLoop_sound`, `noLoop_over`), settle takes the reference, and the
wait's end is a counted failure. -/
theorem seizureTimed : Obligations.SeizureTimed := by
  refine ⟨fun s => ⟨exec_staggerTimerExpiry_none, exec_staggerTimerExpiry_empty, fun w q c h hq hc => ?_⟩,
    fun s n c ms hs hc hcheck => ⟨exec_offHookCheckExpiry_unsampled hs hc hcheck, fun y hsampled hy hlow hhigh hsettled hno => ?_,
      fun y k x hsampled hy hi h hcl => ?_⟩,
    fun s n c hs hc => ⟨fun y ht hcheck htone hy hno => ?_, fun k x hw h hcl => ?_⟩,
    fun s n c volts milliamps k x hs hcheck hi h hcl => ?_⟩
  · rw [exec_staggerTimerExpiry_head h hq, State.grantPermit_eq (s := { s with permit := ⟨none, none, q⟩ }) hc]
    rfl
  · rw [exec_offHookCheckExpiry_sampled hs hc hcheck hsampled hy, State.judgeLoop_sound hc hlow hhigh hsettled]
    exact congrArg _ (State.answerLingers_setLine hno rfl (by rw [hc]; rfl))
  · rw [exec_offHookCheckExpiry_sampled hs hc hcheck hsampled hy, h.noLoop_over hs hcl hi]
  · rw [exec_settleTimerExpiry hs hc ht hcheck hy, State.tryDial_waits (c := c.settledBy y) (State.setLine_call_same ..) (.inr htone)]
    exact congrArg _ (State.answerLingers_setLine hno rfl (by rw [hc]; rfl))
  · rw [exec_dialToneWaitExpiry hs hc hw, h.failLine_over (by simp [hs]) hcl _ (by simp) rfl (by simp)]
  · have hmin : min 150 milliamps = milliamps := min_eq_right (by omega)
    have hex : exec (.lineSample n volts milliamps) s = .next ((s.sampledCall n c volts milliamps).judgeLoop n milliamps).answerLingers := by
      show Host.Outcome.next (s.takeSample n volts milliamps).answerLingers = _
      rw [State.takeSample_awaited hs h.call hcheck, hmin]
    have hline := State.setLine_line_same s n { (s.line n).sampled volts milliamps with call := some { c with sampled := true } }
    have h' : (s.sampledCall n c volts milliamps).Carries n { c with sampled := true } k x :=
      h.setLine (by simp [Line.sampled, hs]) rfl rfl rfl
    rw [hex, h'.noLoop_over ((congrArg Line.state hline).trans hs) hcl hi, State.sampledCall, hline, State.callOver_setLine,
      Line.sampled_eq (by omega)]
    rfl
end

