-- ==== Sys2Proof/Proofs/DialTones.lean ====
section
/-! CLAIM. Dial tone starts dialling once settle is over, abandons what cannot be pulsed, and is noted or ignored otherwise (O44). -/

namespace Sys2Proof.Machine

variable {s : State} {n : Fin 4} {k : Fin 48} {x : Case} {c : Call} {l : Line} {y : DialSym} {g : Dialling}

/-! ### The entry to DIALLING -/

/-- A call whose dialling begins: the timers of its seizure and its reference are gone (R113, R118). -/
def Call.dials (c : Call) (g : Dialling) : Call :=
  { c with dialling := some g, reference := none, intrusion := none, check := .judged, settleTimer := none, dialToneWait := none }

/-- Dialling may start on call `c`: settle is over, the reference captured and dial tone present (R113). -/
structure Call.Ready (c : Call) : Prop where
  settled : c.settled = true
  reference : c.reference.isSome
  dialTone : c.dialTone = true

/-- The dialling context once element 1, `y`, has begun (R130, R135). -/
theorem Line.startDialling_begin (l : Line) (y : DialSym) :
    l.startDialling.begin y =
      let manner : Manner := if l.mode = .pulse ∨ (l.mode = .auto ∧ l.learned = .pulse) then .pulse else .tone
      let learns := l.mode = .auto ∧ l.learned = .unknown
      ⟨manner, 2, if learns ∧ y ≠ .pause then some 2000 else none, learns, some (elementMs manner y), false⟩ := by
  simp [Line.startDialling, Dialling.begin, Line.dialsPulse_iff, Config.adaptiveCheckMs]

theorem State.tryDial_ready (hs : l.state = .offHook) (hc : l.call = some c) (h : c.Ready) :
    (s.setLine n l).tryDial n = (s.setLine n l).startDialling n := by
  simp only [State.tryDial, State.setLine_call_same, State.setLine_line_same, hc]
  exact if_pos ⟨hs, h.settled, h.reference, h.dialTone⟩

/-- Once DIALLING is entered, a string that the line cannot send is abandoned (R131); of any other the first element begins. -/
theorem State.startDialling_setLine (hc : l.call = some c) :
    (s.setLine n l).startDialling n =
      let t := s.setLine n { l with state := .dialling, call := some (c.dials l.startDialling) }
      if l.dialsPulse && (s.dest c.dest).toneOnly then t.failCall n .abandoned else t.nextElement n := by
  simp only [State.startDialling, State.setLine_call_same, State.setLine_line_same, State.setLine_dest, State.updLine_setLine, hc,
    Option.map_some]
  rfl

/-- A compatible line begins element 1 of the string (R130, R132). -/
theorem State.tryDial_dials (hs : l.state = .offHook) (hc : l.call = some c) (h : c.Ready)
    (hy : (s.dest c.dest).dial.head? = some y) (hm : (l.dialsPulse && (s.dest c.dest).toneOnly) = false) :
    (s.setLine n l).tryDial n = s.setLine n { l with state := .dialling, call := some (c.dials (l.startDialling.begin y)) } := by
  rw [State.tryDial_ready hs hc h, State.startDialling_setLine hc, hm, if_neg Bool.false_ne_true]
  exact State.nextElement_setLine (c := c.dials l.startDialling) rfl rfl (List.head?_eq_getElem?.symm.trans hy)

/-- What an incompatible line would have to dial is abandoned (R131). -/
theorem State.tryDial_abandons (hs : l.state = .offHook) (hc : l.call = some c) (h : c.Ready)
    (hm : (l.dialsPulse && (s.dest c.dest).toneOnly) = true) :
    (s.setLine n l).tryDial n =
      (s.setLine n { l with state := .dialling, call := some (c.dials l.startDialling) }).failCall n .abandoned := by
  rw [State.tryDial_ready hs hc h, State.startDialling_setLine hc, hm, if_pos rfl]

/-- The call `c'` of line `n` is the call `c` it had, but for what its seizure has reached. -/
structure Call.Follows (c' c : Call) : Prop where
  dest : c'.dest = c.dest
  current : c'.current = c.current
  closePending : c'.closePending = c.closePending

theorem State.Carries.tryDial_over {c' : Call} (h : s.Carries n c k x) (hs : (s.line n).state = .offHook) (hcl : c.closePending = false)
    (hf : c'.Follows c) (hr : c'.Ready) (hm : ((s.line n).dialsPulse && (s.dest c.dest).toneOnly) = true) :
    ((s.setLine n { s.line n with call := some c' }).tryDial n).answerLingers =
      s.callOver k (x.uncharged .abandoned s.clock) c.dest .abandoned n ((s.line n).released (s.timing.guardTime * 1000)) := by
  let l : Line := { s.line n with state := .dialling, call := some (c'.dials (s.line n).startDialling) }
  have hline : (s.setLine n l).line n = l := State.setLine_line_same ..
  have hl : (s.setLine n l).Carries n (c'.dials (s.line n).startDialling) k x := h.setLine (by simp [l]) rfl hf.dest hf.current
  have htry : (s.setLine n { s.line n with call := some c' }).tryDial n = (s.setLine n l).failCall n .abandoned :=
    State.tryDial_abandons hs rfl hr (by rw [hf.dest]; exact hm)
  rw [htry, hl.uncharged_over (by rw [hline]; simp [l]) (hf.closePending.trans hcl) (by simp) rfl (by simp), hline, State.callOver_setLine]
  exact congrArg (s.callOver k _ · _ n _) hf.dest

/-! ### The indication -/

theorem exec_dialToneOn_offHook (hs : (s.line n).state = .offHook) (hc : s.call n = some c) :
    exec (.dialToneOn n) s = .next ((s.setLine n { s.line n with call := some { c with dialTone := true } }).tryDial n).answerLingers := by
  show execDialToneOn n s = _
  rw [execDialToneOn, hs, State.updCall_eq hc]

theorem exec_dialToneOn_dialling (hs : (s.line n).state = .dialling) (hc : s.call n = some c) :
    exec (.dialToneOn n) s = .next (s.setLine n { s.line n with call := some { c with dialTone := true } }) := by
  show execDialToneOn n s = _
  rw [execDialToneOn, hs, State.updCall_eq hc]

theorem exec_dialToneOff_offHook (hs : (s.line n).state = .offHook) (hc : s.call n = some c) :
    exec (.dialToneOff n) s = .next (s.setLine n { s.line n with call := some { c with dialTone := false } }) := by
  show execDialToneOff n s = _
  rw [execDialToneOff, hs, State.updCall_eq hc]

/-- DIAL_TONE_OFF decides no adaptive check where none runs (R140). -/
theorem exec_dialToneOff_dialling (hs : (s.line n).state = .dialling) (hc : s.call n = some c)
    (hg : ∀ g : Dialling, c.dialling = some g → g.adaptiveCheck = none) :
    exec (.dialToneOff n) s = .next (s.setLine n { s.line n with call := some { c with dialTone := false } }) := by
  show execDialToneOff n s = _
  rw [execDialToneOff, hs, State.updCall_eq hc, hc, Option.bind_some]
  cases hd : c.dialling with
  | none => rfl
  | some g => exact if_neg (by simp [hg g hd])

theorem exec_dialTone_ignored (ho : (s.line n).state ≠ .offHook) (hd : (s.line n).state ≠ .dialling) :
    exec (.dialToneOn n) s = .next s ∧ exec (.dialToneOff n) s = .next s := by
  constructor
  · show execDialToneOn n s = _
    unfold execDialToneOn
    split
    · exact absurd ‹_› ho
    · exact absurd ‹_› hd
    · rfl
  · show execDialToneOff n s = _
    unfold execDialToneOff
    split
    · exact absurd ‹_› ho
    · exact absurd ‹_› hd
    · rfl

end Sys2Proof.Machine

open Sys2Proof Sys2Proof.Machine

/-- Settles O44: with settle over and dial tone present dialling starts (`tryDial_dials`) or is abandoned (`tryDial_over`), from either
event; before that the tone is only noted. -/
theorem dialToneHeard : Obligations.DialToneHeard := by
  refine ⟨fun s n c y hs hc hno hy hm => ?_, fun s n => ⟨fun c hc hno => ⟨fun h => ?_, fun h => ?_⟩, exec_dialTone_ignored⟩,
    fun s n c k x hs h hcl hstar hpulse => ?_⟩
  · intro pulses learns manner dials
    have hm' : ((s.line n).dialsPulse && (s.dest c.dest).toneOnly) = false := by
      rwa [State.compatible, Bool.not_eq_true', Bool.and_comm] at hm
    let g := (s.line n).startDialling.begin y
    have hdials : dials = { s.line n with
        state := .dialling, call := some (Call.dials { c with dialTone := true, settled := true } g) } := by
      simp only [dials, manner, g, Line.startDialling_begin]
      rfl
    have starts {c' : Call} (hr : c'.Ready) (hf : c'.dest = c.dest) (hd : c'.dials g = Call.dials { c with dialTone := true, settled := true } g) :
        ((s.setLine n { s.line n with call := some c' }).tryDial n).answerLingers = s.setLine n dials := by
      have hline : ({ s.line n with state := .dialling, call := some (c'.dials g) } : Line) = dials := by
        rw [hd]
        exact hdials.symm
      have htry : (s.setLine n { s.line n with call := some c' }).tryDial n = s.setLine n dials :=
        (State.tryDial_dials (l := { s.line n with call := some c' }) hs rfl hr (by rwa [hf]) (by rwa [hf])).trans (congrArg _ hline)
      rw [htry, State.answerLingers_eq_self _ (hno.setLine (by simp [dials]))]
    refine ⟨fun x ht hcheck htone hx => ?_, fun hsettled href => ?_⟩
    · rw [exec_settleTimerExpiry hs hc ht hcheck hx,
        starts (c' := c.settledBy x) ⟨rfl, rfl, htone⟩ rfl (by simp [Call.settledBy, Call.dials, htone])]
    · rw [exec_dialToneOn_offHook hs hc, starts (c' := { c with dialTone := true }) ⟨hsettled, href, rfl⟩ rfl (by simp [Call.dials, hsettled])]
  · rcases h with ⟨hs, hset⟩ | hs
    · rw [exec_dialToneOn_offHook hs hc, State.tryDial_waits (c := { c with dialTone := true }) (State.setLine_call_same ..) (.inl hset)]
      exact congrArg _ (State.answerLingers_setLine hno rfl (by rw [hc]; rfl))
    · exact exec_dialToneOn_dialling hs hc
  · rcases h with hs | ⟨hs, hg⟩
    · exact exec_dialToneOff_offHook hs hc
    · exact exec_dialToneOff_dialling hs hc hg
  · have hm : ((s.line n).dialsPulse && (s.dest c.dest).toneOnly) = true := by
      rw [Bool.and_eq_true, Line.dialsPulse_iff, Destination.toneOnly_iff]
      exact ⟨hpulse, hstar⟩
    intro abandoned
    refine ⟨fun y ht hcheck htone hy => ?_, fun hsettled href => ?_⟩
    · rw [exec_settleTimerExpiry hs h.call ht hcheck hy, h.tryDial_over (c' := c.settledBy y) hs hcl ⟨rfl, rfl, rfl⟩ ⟨rfl, rfl, htone⟩ hm]
    · rw [exec_dialToneOn_offHook hs h.call,
        h.tryDial_over (c' := { c with dialTone := true }) hs hcl ⟨rfl, rfl, rfl⟩ ⟨hsettled, href, rfl⟩ hm]
end

