-- ==== Sys2Proof/Proofs/Yields.lean ====
section
/-! CLAIM. INTRUSION_FILTER_EXPIRY yields but for FIRE, and LINGER_EXPIRY releases (O45). -/

namespace Sys2Proof.Machine

variable {s : State} {n : Fin 4} {k : Fin 48} {x : Case} {c : Call}

/-- The states in which an intruded call yields or, for FIRE, goes on (R119). -/
def Line.Engaged (l : Line) : Prop := l.state = .offHook ∨ l.state = .awaitHandshake ∨ l.state = .exchange

theorem Line.Engaged.not_linger {l : Line} (h : l.Engaged) : l.state ≠ .linger := by
  rcases h with e | e | e <;> simp [e]

theorem State.release_dropped (hc : s.call n = some c) (hcl : c.closePending = false) :
    s.release n = s.callDropped c.dest n ((s.line n).released (s.timing.guardTime * 1000)) := State.release_guarded hc hcl

theorem State.carriesFire_of_current (hc : s.call n = some c) (hk : c.current = some k) (hx : s.caseAt k = some x) :
    s.carriesFire n = decide (x.key.cls = .fire) := by
  simp [State.carriesFire, hc, hk, hx, Case.isFire]

theorem exec_intrusionFilterExpiry_linger (hc : s.call n = some c) (hi : c.intrusion.isSome) (hs : (s.line n).state = .linger) :
    exec (.intrusionFilterExpiry n) s = .next (s.release n) := by
  show execIntrusionFilterExpiry n s = _
  simp only [execIntrusionFilterExpiry, hc, hs]
  exact if_pos hi

theorem exec_intrusionFilterExpiry_engaged (hc : s.call n = some c) (hi : c.intrusion.isSome) (hs : (s.line n).Engaged) :
    exec (.intrusionFilterExpiry n) s =
      if s.carriesFire n then .next (s.updCall n fun c => { c with intrusion := some s.timing.intrusion })
      else .next (s.failCall n .yielded).answerLingers := by
  show execIntrusionFilterExpiry n s = _
  rcases hs with e | e | e <;>
  · simp only [execIntrusionFilterExpiry, hc, e]
    exact if_pos hi

end Sys2Proof.Machine

open Sys2Proof Sys2Proof.Machine

/-- Settles O45: a lingering line is released, a call that carries FIRE goes on, any other yields (`uncharged_over`). -/
theorem lineYields : Obligations.LineYields := by
  refine ⟨fun s n c hc hi => ⟨fun hs hcl => ?_, fun k x hk hx hs => ⟨fun hf => ?_, fun hf h hcl => ?_⟩⟩, fun s n c hs hc hl hcl => ?_⟩
  · rw [exec_intrusionFilterExpiry_linger hc hi hs, State.release_dropped hc hcl]
  · rw [exec_intrusionFilterExpiry_engaged hc hi hs, State.carriesFire_of_current hc hk hx, if_pos (decide_eq_true hf),
      State.updCall_eq hc]
  · rw [exec_intrusionFilterExpiry_engaged hc hi hs, State.carriesFire_of_current hc hk hx, if_neg (by simp [hf]),
      h.uncharged_over (Line.Engaged.not_linger hs) hcl (by simp) rfl (by simp)]
  · rw [exec_lingerExpiry hs hc hl, State.release_dropped hc hcl]
end

