-- ==== Sys2Proof/Proofs/LineEnables.lean ====
section
/-! CLAIM. WRITE LINE with enable yes, by the state of the line (O22). -/

namespace Sys2Proof.Machine

variable {s t : State} {n : Fin 4} {c : Call} {l : Line} {f : Bool} {m : DialMode} {forced mode : Nat}

/-! ### The write -/

/-- Line `l` with its settings written (R123). -/
def Line.written (l : Line) (enable forced : Bool) (mode : DialMode) : Line :=
  { l with enabled := enable, forced := forced, mode := mode, learned := .unknown }

/-- The part once WRITE LINE has written the settings of line `n`, before the enable acts (R123). -/
def State.lineWritten (s : State) (n : Fin 4) (enable forced : Bool) (mode : DialMode) : State :=
  (s.takeFrame 7).setLine n ((s.line n).written enable forced mode)

/-- The Arbiter is told, the lingering lines are answered, and the write is answered OK (R123). -/
def State.finishWrite (s : State) : State := s.notify.answerLingers.answer .ok

theorem dialModeOfCode_code (m : DialMode) : dialModeOfCode m.code = some m := by cases m <;> rfl

theorem State.lineWritten_line (s : State) (n : Fin 4) (e f : Bool) (m : DialMode) :
    (s.lineWritten n e f m).line n = (s.line n).written e f m := State.setLine_line_same ..

theorem State.lineWritten_setLine {e : Bool} (l : Line) : (s.lineWritten n e f m).setLine n l = (s.takeFrame 7).setLine n l :=
  State.setLine_setLine ..

theorem State.lineWritten_noOffer {e : Bool} (h : s.NoOffer) : (s.lineWritten n e f m).NoOffer :=
  (h.takeFrame 7).setLine_same (by rw [State.takeFrame_line]; rfl) (by rw [State.takeFrame_call]; rfl)

theorem exec_writeLine {code : Nat} {e : Bool} (he : firstOfTwo code = some e) (hf : firstOfTwo forced = some f) (hm : m.code = mode) :
    exec (.writeLine 31 n.val code forced mode) s = .next
      (if e then (s.lineWritten n e f m).enableLine n else (s.lineWritten n e f m).disableLine n).finishWrite := by
  subst hm
  show Host.Outcome.next ((s.takeFrame 7).writeLine n.val code forced m.code) = _
  simp only [State.writeLine, indexOf_val, he, hf, dialModeOfCode_code, State.updLine, State.takeFrame_line]
  rfl

theorem State.finishWrite_eq (h : s.NoOffer) : s.finishWrite = { s with passesDue := s.passesDue + 1, reply := some ⟨.ok, []⟩ } := by
  rw [State.finishWrite, State.answerLingers_eq_self s.notify (State.SameOffers.noOffer (s := s) {} h)]
  rfl

/-- A write whose enable leaves the line as `l` in its state, with its call's destination. -/
theorem State.finishWrite_setLine (h : s.NoOffer) (hl : ∀ d, l.lingersOn = some d → s.lingersOn n = some d) :
    ((s.takeFrame 7).setLine n l).finishWrite =
      { (s.takeFrame 7).setLine n l with passesDue := s.passesDue + 1, reply := some ⟨.ok, []⟩ } := by
  have hno : ((s.takeFrame 7).setLine n l).NoOffer := (h.takeFrame 7).setLine_kept fun d e => by
    rw [State.takeFrame_lingersOn]
    exact hl d e
  rw [State.finishWrite_eq hno, State.setLine_passesDue, State.takeFrame_passesDue]

/-! ### The enable -/

theorem State.enableLine_onHook (h : (s.line n).state = .idle ∨ (s.line n).state = .inUse) :
    s.enableLine n = s.setLine n { s.line n with failures := 0 } := by
  rcases h with h | h <;>
  · rw [State.enableLine, h]
    rfl

theorem State.enableLine_off (h : (s.line n).state = .off) : s.enableLine n = (s.setLine n { s.line n with failures := 0 }).classify n := by
  rw [State.enableLine, h]
  rfl

theorem State.enableLine_exchange (h : (s.line n).state = .exchange) :
    s.enableLine n = s.setLine n { s.line n with call := (s.call n).map fun c => { c with closePending := false } } := by
  rw [State.enableLine, h]
  rfl

theorem State.enableLine_dialling (h : (s.line n).state = .dialling) :
    s.enableLine n = s.setLine n { s.line n with
      call := (s.call n).map fun c => { c with dialling := c.dialling.map fun g => g.rewritten (s.line n).mode } } := by
  rw [State.enableLine, h]
  rfl

theorem State.enableLine_other (h : (s.line n).state = .awaitPermit ∨ (s.line n).state = .offHook ∨
    (s.line n).state = .awaitHandshake ∨ (s.line n).state = .linger ∨ (s.line n).state = .guarded ∨
    ((s.line n).state = .fault ∧ (s.line n).cause = .noVoltage)) : s.enableLine n = s := by
  rcases h with h | h | h | h | h | ⟨h, hc⟩
  iterate 5
    rw [State.enableLine, h]
  rw [State.enableLine, h]
  exact if_pos hc

/-- An enable that leaves line `n` as `l`, which lingers on nothing new, is answered and nothing else changes. -/
theorem exec_writeLine_enabled (hf : firstOfTwo forced = some f) (hm : m.code = mode) (h : s.NoOffer)
    (he : (s.lineWritten n true f m).enableLine n = (s.lineWritten n true f m).setLine n l)
    (hl : ∀ d, l.lingersOn = some d → s.lingersOn n = some d) :
    exec (.writeLine 31 n.val 0 forced mode) s = .next
      { (s.takeFrame 7).setLine n l with passesDue := s.passesDue + 1, reply := some ⟨.ok, []⟩ } := by
  rw [exec_writeLine (code := 0) rfl hf hm, if_pos rfl, he, State.lineWritten_setLine, State.finishWrite_setLine h hl]

/-- An enable that takes line `n` from OFF to `l` (R108), with `p` notices. -/
theorem exec_writeLine_placed {p : Nat} (hf : firstOfTwo forced = some f) (hm : m.code = mode) (h : s.NoOffer)
    (he : (s.lineWritten n true f m).enableLine n = { (s.lineWritten n true f m).setLine n l with passesDue := s.passesDue + p })
    (hl : l.state ≠ .linger) :
    exec (.writeLine 31 n.val 0 forced mode) s = .next
      { (s.takeFrame 7).setLine n l with passesDue := s.passesDue + (p + 1), reply := some ⟨.ok, []⟩ } := by
  rw [exec_writeLine (code := 0) rfl hf hm, if_pos rfl, he, State.lineWritten_setLine, State.finishWrite_eq]
  · rfl
  · exact State.SameOffers.noOffer (s := (s.takeFrame 7).setLine n l) {} ((h.takeFrame 7).setLine hl)

/-- An enable of a line in OFF whose latest sample is below HIGH (R108). -/
theorem exec_writeLine_below {y : LineSample} (hf : firstOfTwo forced = some f) (hm : m.code = mode) (h : s.NoOffer)
    (hs : (s.line n).state = .off) (hy : (s.line n).sample = some y) (hv : y.volts < 20) :
    exec (.writeLine 31 n.val 0 forced mode) s = .next
      { (s.takeFrame 7).setLine n { (s.line n).written true f m with
          failures := 0, state := .inUse, band := if y.volts ≤ 2 then .low else .mid
          classFilter := if y.volts ≤ 2 then some 10000 else none } with
        passesDue := s.passesDue + (if s.fireWaiting = true then 2 else 1), reply := some ⟨.ok, []⟩ } := by
  have hline := s.lineWritten_line n true f m
  have notices : (if s.fireWaiting = true then 1 else 0) + 1 = if s.fireWaiting = true then 2 else 1 := by split <;> rfl
  rw [← notices]
  refine exec_writeLine_placed hf hm h ?_ (by simp)
  rw [State.enableLine_off (by rwa [hline]), hline,
    State.classify_below (y := y) (by rw [State.setLine_line_same]; exact hy) hv, State.setLine_line_same, State.setLine_setLine]
  simp [State.lineWritten]

end Sys2Proof.Machine

open Sys2Proof Sys2Proof.Machine

/-- Settles O22: the enable rewrites the line and nothing else (`exec_writeLine_enabled`), or brings it from OFF to what its sample
shows (`classify_high`, `classify_below`). -/
theorem lineEnabled : Obligations.LineEnabled := by
  intro s n forced mode f m hf hm hno request l written
  have hline : (s.lineWritten n true f m).line n = l := s.lineWritten_line n true f m
  have hcall : (s.lineWritten n true f m).call n = l.call := congrArg Line.call hline
  have same {l' : Line} (he : (s.lineWritten n true f m).enableLine n = (s.lineWritten n true f m).setLine n l')
      (hl : ∀ d, l'.lingersOn = some d → s.lingersOn n = some d) : written l' 1 := exec_writeLine_enabled hf hm hno he hl
  refine ⟨fun hs => ?_, fun hs hh => ?_, fun hs hx => ?_, fun hs hx => ?_, fun hs => ?_, fun hs => ?_, fun hs => ?_⟩
  · exact same (by rw [State.enableLine_onHook (by rwa [hline]), hline]) fun _ => id
  · refine exec_writeLine_placed (p := 1) hf hm hno ?_ (by simp)
    rw [State.enableLine_off (by rwa [hline]), hline, State.classify_high (by rw [State.setLine_line_same]; exact hh),
      State.setLine_line_same, State.setLine_setLine, State.notify]
    simp [State.lineWritten, l]
  · obtain ⟨y, hy, hlow, hv⟩ := hx
    have h := exec_writeLine_below hf hm hno hs hy hv
    rw [if_neg (by omega), if_neg (by omega)] at h
    exact h
  · obtain ⟨y, hy, hv⟩ := hx
    have h := exec_writeLine_below hf hm hno hs hy (by omega)
    rw [if_pos (by omega), if_pos (by omega)] at h
    exact h
  · exact same (by rw [State.enableLine_exchange (by rwa [hline]), hline, hcall]) (by simp [Line.lingersOn, l, hs])
  · exact same (by rw [State.enableLine_dialling (by rwa [hline]), hline, hcall]; rfl) (by simp [Line.lingersOn, l, hs])
  · exact same (by rw [State.enableLine_other (by rwa [hline]), ← hline, State.setLine_self]) fun _ => id
end

