-- ==== Sys2Proof/Proofs/LineDisables.lean ====
section
/-! CLAIM. WRITE LINE with enable no, by the state of the line (O23). -/

namespace Sys2Proof.Machine

variable {s t u : State} {n m : Fin 4} {k : Fin 48} {x : Case} {c : Call} {l : Line} {f : Bool} {dm : DialMode} {forced mode : Nat}
  {kind : OutcomeKind}

/-! ### What a disable keeps of its line -/

/-- The settings of a line with its failure count (R123). -/
def Line.settings (l : Line) : Bool × Bool × DialMode × LearnedMode × Nat := (l.enabled, l.forced, l.mode, l.learned, l.failures)

/-- From `s` to `t` line `n` keeps its settings and the destination of its call, the call lines stand, and it does not enter the queue. -/
structure State.Retains (s t : State) (n : Fin 4) : Prop where
  settings : (t.line n).settings = (s.line n).settings
  dest : (t.call n).map Call.dest = (s.call n).map Call.dest
  callLine : ∀ d, (t.dest d).callLine = (s.dest d).callLine
  queue : n ∈ t.permit.queue.map PermitWait.line → n ∈ s.permit.queue.map PermitWait.line

theorem State.Retains.trans (h : s.Retains t n) (g : t.Retains u n) : s.Retains u n :=
  ⟨g.settings.trans h.settings, g.dest.trans h.dest, fun d => (g.callLine d).trans (h.callLine d), fun e => h.queue (g.queue e)⟩

theorem State.Retains.refl (s : State) (n : Fin 4) : s.Retains s n := ⟨rfl, rfl, fun _ => rfl, id⟩

theorem State.Retains.updLine (s : State) (n : Fin 4) (f : Line → Line) (hf : (f (s.line n)).settings = (s.line n).settings)
    (hc : (f (s.line n)).call.map Call.dest = (s.call n).map Call.dest) : s.Retains (s.updLine n f) n where
  settings := by rwa [State.updLine_line, if_pos rfl]
  dest := by rwa [State.updLine_call, if_pos rfl]
  callLine _ := rfl
  queue := id

theorem State.OnTable.retains (h : s.OnTable t) : s.Retains t n where
  settings := by rw [h.line]
  dest := by rw [h.call]
  callLine d := by rw [h.dest]
  queue := by rw [h.permit]; exact id

/-- An outcome handed over leaves the call's destination and the call lines (R73). -/
theorem State.Retains.handOutcome (s : State) (n : Fin 4) (kind : OutcomeKind) : s.Retains (s.handOutcome n kind) n := by
  unfold State.handOutcome
  split
  · exact .refl s n
  · next c hc =>
    split
    · exact .refl s n
    · have recorded : s.Retains (s.updDest c.dest fun d => { d with last := kind }) n := ⟨rfl, rfl, fun d => by
        rw [State.updDest_dest]
        split
        · next e => rw [e]
        · rfl, id⟩
      exact (recorded.trans (.updLine _ n _ rfl (by rw [Option.map_map]; rfl))).trans (State.OnTable.applyOutcome ..).retains

theorem State.Retains.leaveQueue (s : State) (n : Fin 4) : s.Retains (s.leaveQueue n) n := by
  refine ⟨rfl, rfl, fun _ => rfl, fun h => ?_⟩
  obtain ⟨w, hw, e⟩ := List.mem_map.mp h
  exact List.mem_map.mpr ⟨w, List.mem_of_mem_filter hw, e⟩

theorem State.leaveQueue_not_mem (s : State) (n : Fin 4) : n ∉ (s.leaveQueue n).permit.queue.map PermitWait.line := by
  simp [State.leaveQueue]

/-! ### A line shut -/

/-- Line `n` is OFF without a call: no destination names it and it does not wait for the permit (R106, R124). -/
structure State.Shut (s : State) (n : Fin 4) : Prop where
  off : (s.line n).state = .off
  call : s.call n = none
  callLine : ∀ d : Fin 8, (s.dest d).callLine ≠ some n
  queue : n ∉ s.permit.queue.map PermitWait.line

/-- A line on-hook without a call is put to OFF. -/
theorem State.Retains.shut (h : s.Retains t n) (hs : s.CallsSound) (hi : (s.line n).state.inCall = false) (ho : (t.line n).state = .off) :
    t.Shut n := by
  have hnone : (s.call n).map Call.dest = none := by
    have := hs.opened n
    rw [hi, Option.isSome_eq_false_iff, Option.isNone_iff_eq_none] at this
    rw [this, Option.map_none]
  refine ⟨ho, Option.map_eq_none_iff.mp (h.dest.trans hnone), fun d e => ?_, fun e => ?_⟩
  · rw [h.callLine, hs.callLine, hnone] at e
    cases e
  · rw [(hs.queued n).mp (h.queue e)] at hi
    cases hi

theorem State.endCall_permit (s : State) (n : Fin 4) : (s.endCall n).permit = s.permit := by
  unfold State.endCall
  split <;> rfl

theorem State.endCall_callLine_eq_some {d : Fin 8} (h : ((s.endCall n).dest d).callLine = some m) :
    (s.dest d).callLine = some m ∧ (s.call n).map Call.dest ≠ some d := by
  cases hc : s.call n with
  | none =>
    rw [State.endCall, hc] at h
    exact ⟨h, by simp⟩
  | some c =>
    rw [State.endCall_eq _ n c hc] at h
    have hd : ((s.setDest c.dest { s.dest c.dest with callLine := none }).dest d).callLine = some m := h
    rw [State.setDest_dest] at hd
    split at hd
    · cases hd
    · next hne => exact ⟨hd, by simpa using hne⟩

/-- A line's call is ended and the line put to OFF. -/
theorem State.Retains.endCall_shut (h : s.Retains t n) (hs : s.CallsSound) (hq : n ∉ t.permit.queue.map PermitWait.line) :
    ((t.endCall n).updLine n fun l => { l with state := .off }).Shut n ∧
      (((t.endCall n).updLine n fun l => { l with state := .off }).line n).settings = (s.line n).settings := by
  have hline : ((t.endCall n).updLine n fun l => { l with state := .off }).line n = { t.line n with call := none, state := .off } := by
    rw [State.updLine_line, if_pos rfl, State.endCall_line_same]
  refine ⟨⟨congrArg Line.state hline, congrArg Line.call hline, fun d e => ?_, ?_⟩, (congrArg Line.settings hline).trans h.settings⟩
  · obtain ⟨hd, hne⟩ := State.endCall_callLine_eq_some e
    rw [h.callLine, hs.callLine, ← h.dest] at hd
    exact hne hd
  · rw [State.updLine_permit, State.endCall_permit]
    exact hq

/-- A disable outside EXCHANGE shuts the line and keeps its settings (R124). -/
theorem State.disableLine_shut (hs : s.CallsSound) (hx : (s.line n).state ≠ .exchange) :
    (s.disableLine n).Shut n ∧ ((s.disableLine n).line n).settings = (s.line n).settings := by
  have onHook {t : State} (h : s.Retains t n) (hi : (s.line n).state.inCall = false) (ho : (t.line n).state = .off) :
      t.Shut n ∧ (t.line n).settings = (s.line n).settings := ⟨h.shut hs hi ho, h.settings⟩
  have offHook (hw : (s.line n).state ≠ .awaitPermit) {t : State} (h : s.Retains t n) :=
    h.endCall_shut hs fun e => hw ((hs.queued n).mp (h.queue e))
  have handed := State.Retains.handOutcome s n .abandoned
  unfold State.disableLine
  split
  · next e => exact onHook (.refl s n) (by rw [e]; rfl) e
  · next e => exact onHook (.updLine s n _ rfl rfl) (by rw [e]; rfl) (by simp)
  · next e => exact onHook (.updLine s n _ rfl rfl) (by rw [e]; rfl) (by simp)
  · next e =>
    exact onHook ((State.Retains.updLine s n _ (by rfl) (by rfl)).trans (State.OnTable.notifyWhileFire _).retains)
      (by rw [e]; rfl) (by simp)
  · next e =>
    have restored : (State.raise (s.updLine n fun l => { l with state := .off, cause := .none, faultHold := none, recovery := none })
      .lineFault).OnTable (s.exitFault n .off) := .internalRestore _ _
    exact onHook ((State.Retains.updLine s n _ (by rfl) (by rfl)).trans ((State.OnTable.raise _ _).trans restored).retains) (by rw [e]; rfl)
      (by rw [restored.line]; simp)
  · exact (handed.trans (.leaveQueue _ n)).endCall_shut hs (State.leaveQueue_not_mem _ n)
  · next e => exact offHook (by simp [e]) handed
  · next e => exact offHook (by simp [e]) handed
  · next e => exact offHook (by simp [e]) handed
  · next e => exact absurd e hx
  · next e => exact offHook (by simp [e]) (.refl s n)

/-! ### The answers that follow a write -/

/-- No line comes to be named by a call line, nor to wait for the permit. -/
structure State.Frees (s t : State) : Prop where
  callLine : ∀ d m, (t.dest d).callLine = some m → (s.dest d).callLine = some m
  permit : t.permit = s.permit

theorem State.Frees.answerLinger (s : State) (n : Fin 4) : s.Frees (s.answerLinger n) := by
  rcases s.answerLinger_moves n with e | ⟨c, hc, -, e | ⟨k, x, hx, -, -, e⟩⟩
  · rw [e]
    exact ⟨fun _ _ => id, rfl⟩
  · rw [e]
    exact ⟨fun d m h => (State.endCall_callLine_eq_some h).1, s.endCall_permit n⟩
  · rw [e, State.takeUp_eq hc hx]
    exact ⟨fun _ _ => id, rfl⟩

theorem State.Frees.answerLingers (s : State) : s.Frees s.answerLingers :=
  s.foldl_answerLinger (fun _ => ⟨fun _ _ => id, rfl⟩)
    (fun h g => ⟨fun d m e => h.callLine d m (g.callLine d m e), g.permit.trans h.permit⟩) State.Frees.answerLinger

/-- The answers to the lingering lines leave a shut line alone. -/
theorem State.Shut.answerLingers (h : s.Shut n) : s.answerLingers.Shut n ∧ s.answerLingers.line n = s.line n := by
  have hline : s.answerLingers.line n = s.line n := s.answerLingers_spares.line n (if_neg (by rw [h.off]; simp))
  have frees := State.Frees.answerLingers s
  refine ⟨⟨(congrArg Line.state hline).trans h.off, (congrArg Line.call hline).trans h.call,
    fun d e => h.callLine d (frees.callLine d n e), ?_⟩, hline⟩
  rw [frees.permit]
  exact h.queue

theorem State.Shut.notify (h : s.Shut n) : s.notify.Shut n := ⟨h.off, h.call, h.callLine, h.queue⟩

theorem State.Shut.answer (h : s.Shut n) (st : Status) (b : List Byte) : (s.answer st b).Shut n := ⟨h.off, h.call, h.callLine, h.queue⟩

theorem State.Shut.finishWrite (h : s.Shut n) : s.finishWrite.Shut n ∧ s.finishWrite.line n = s.line n := by
  obtain ⟨hshut, hline⟩ := h.notify.answerLingers
  refine ⟨hshut.answer .ok [], ?_⟩
  rw [State.finishWrite, State.answer_line, hline, State.notify_line]

/-! ### The request -/

theorem exec_writeLine_disable (hf : firstOfTwo forced = some f) (hm : dm.code = mode) :
    exec (.writeLine 31 n.val 1 forced mode) s = .next ((s.lineWritten n false f dm).disableLine n).finishWrite := by
  rw [exec_writeLine (code := 1) (e := false) rfl hf hm, if_neg Bool.false_ne_true]

/-- A disable that rewrites line `n` as `l`, which lingers on nothing new, is answered and nothing else changes. -/
theorem exec_writeLine_disabled (hf : firstOfTwo forced = some f) (hm : dm.code = mode) (h : s.NoOffer)
    (he : (s.lineWritten n false f dm).disableLine n = (s.lineWritten n false f dm).setLine n l)
    (hl : ∀ d, l.lingersOn = some d → s.lingersOn n = some d) :
    exec (.writeLine 31 n.val 1 forced mode) s = .next
      { (s.takeFrame 7).setLine n l with passesDue := s.passesDue + 1, reply := some ⟨.ok, []⟩ } := by
  rw [exec_writeLine_disable hf hm, he, State.lineWritten_setLine, State.finishWrite_setLine h hl]

theorem dialModeOfCode_eq_none {code : Nat} (h : 2 < code) : dialModeOfCode code = none := by
  match code, h with
  | n + 3, _ => rfl

theorem firstOfTwo_eq_none {code : Nat} (h : 1 < code) : firstOfTwo code = none := by
  match code, h with
  | n + 2, _ => rfl

theorem State.writeLine_badValue {line enable permit dial : Nat} (h : 3 < line ∨ 1 < enable ∨ 1 < permit ∨ 2 < dial) :
    s.writeLine line enable permit dial = s.answer .badValue := by
  unfold State.writeLine
  split
  · next h1 h2 h3 h4 =>
    rcases h with h | h | h | h
    · rw [indexOf_eq_none h] at h1
      cases h1
    · rw [firstOfTwo_eq_none h] at h2
      cases h2
    · rw [firstOfTwo_eq_none h] at h3
      cases h3
    · rw [dialModeOfCode_eq_none h] at h4
      cases h4
  · rfl

theorem State.lineWritten_callsSound {e : Bool} (h : s.CallsSound) : (s.lineWritten n e f dm).CallsSound := by
  have hstate : ∀ m, ((s.lineWritten n e f dm).line m).state = (s.line m).state := fun m => by
    rw [State.lineWritten, State.setLine_line, State.takeFrame_line]
    split
    · next hm => subst hm; rfl
    · rfl
  have hcall : ∀ m, (s.lineWritten n e f dm).call m = s.call m := fun m => by
    rw [State.lineWritten, State.setLine_call, State.takeFrame_call]
    split
    · next hm => subst hm; rfl
    · rfl
  have hpermit : (s.lineWritten n e f dm).permit = s.permit := s.takeFrame_permit 7
  refine ⟨fun m => ?_, fun d m => ?_, fun m => ?_, ?_⟩
  · rw [hstate, hcall]
    exact h.opened m
  · rw [hcall, State.lineWritten, State.setLine_dest, State.takeFrame_dest]
    exact h.callLine d m
  · rw [hstate, hpermit]
    exact h.queued m
  · rw [hpermit]
    exact h.once

/-! ### The disable, by the state of the line -/

theorem State.disableLine_exchange (h : (s.line n).state = .exchange) :
    s.disableLine n = s.setLine n { s.line n with call := (s.call n).map fun c => { c with closePending := true } } := by
  rw [State.disableLine, h]
  rfl

theorem State.disableLine_onHook (h : (s.line n).state = .idle ∨ (s.line n).state = .inUse) :
    s.disableLine n = s.setLine n { s.line n with state := .off, classFilter := none } := by
  rcases h with h | h <;>
  · rw [State.disableLine, h]
    rfl

theorem State.disableLine_offHook (h : (s.line n).state = .offHook ∨ (s.line n).state = .dialling ∨ (s.line n).state = .awaitHandshake) :
    s.disableLine n = ((s.handOutcome n .abandoned).endCall n).updLine n fun l => { l with state := .off } := by
  rcases h with h | h | h <;> rw [State.disableLine, h]

theorem State.leaveQueue_endCall (s : State) (n : Fin 4) : (s.leaveQueue n).endCall n = (s.endCall n).leaveQueue n := by
  have hcall : (s.leaveQueue n).call n = s.call n := rfl
  unfold State.endCall
  rw [hcall]
  split <;> rfl

/-- In AWAIT PERMIT the line leaves the queue as well (R120). -/
theorem State.disableLine_awaitPermit (h : (s.line n).state = .awaitPermit) :
    s.disableLine n = (((s.handOutcome n .abandoned).endCall n).updLine n fun l => { l with state := .off }).leaveQueue n := by
  rw [State.disableLine, h]
  show State.updLine (State.endCall (State.leaveQueue _ n) n) n _ = _
  rw [State.leaveQueue_endCall]
  rfl

theorem State.disableLine_fault (h : (s.line n).state = .fault) : s.disableLine n = s.exitFault n .off := by
  rw [State.disableLine, h]

/-! ### A call that the disable ends -/

theorem State.Carries.takeFrame (h : s.Carries n c k x) (len : Nat) : (s.takeFrame len).Carries n c k x where
  call := by rw [State.takeFrame_call, h.call]
  current := h.current
  case := by rw [State.takeFrame_caseAt, h.case]
  sending := h.sending
  onPlan := by rw [State.takeFrame_currentDest, h.onPlan]
  usable := by rw [State.takeFrame_usable, h.usable]
  noOffer := h.noOffer.takeFrame len
  nobody m hm := by
    rw [State.takeFrame_lingersOn]
    exact h.nobody m hm

/-- The call ended by a disable, its case handed ABANDONED (R28, R124). -/
theorem State.Carries.disabled (h : s.Carries n c k x) (hs : (s.line n).state ≠ .linger) {e : Bool} :
    (((s.lineWritten n e f dm).handOutcome n .abandoned).endCall n).updLine n (fun l => { l with state := .off }) =
      (s.takeFrame 7).callOver k (x.uncharged .abandoned s.clock) c.dest .abandoned n
        { (s.line n).written e f dm with state := .off, call := none } := by
  have hw : (s.lineWritten n e f dm).Carries n c k x := (h.takeFrame 7).setLine (l := (s.line n).written e f dm) hs h.call rfl rfl
  have hclock : (s.lineWritten n e f dm).clock = s.clock := s.takeFrame_clock 7
  rw [hw.abandons, State.lineWritten_line, State.callOver_updLine, hclock]
  exact State.callOver_setLine _

theorem State.Carries.disabled_noOffer (h : s.Carries n c k x) (hs : (s.line n).state ≠ .linger) {l : Line} (hl : l.state ≠ .linger) :
    ((s.takeFrame 7).callOver k (x.uncharged .abandoned s.clock) c.dest .abandoned n l).NoOffer := by
  have hno := (h.takeFrame 7).uncharged_noOffer (kind := .abandoned) (by rwa [State.takeFrame_line]) hl
  rwa [State.takeFrame_clock] at hno

theorem State.callOver_takeFrame_passesDue {len : Nat} {d : Fin 8} {y : Case} {l : Line} :
    ((s.takeFrame len).callOver k y d kind n l).passesDue = s.passesDue + 2 := by rw [State.callOver, State.takeFrame_passesDue]

theorem State.callOver_takeFrame_permit {len : Nat} {d : Fin 8} {y : Case} {l : Line} :
    ((s.takeFrame len).callOver k y d kind n l).permit = s.permit := s.takeFrame_permit len

/-! ### A fault that the disable leaves -/

theorem State.takeFrame_raises (s : State) (len : Nat) : s.Raises (s.takeFrame len) :=
  ⟨if s.reply.isSome then 0x80 else 0, by rw [State.takeFrame_causes]; split <;> simp⟩

/-- Leaving FAULT for a state that does not linger: the trouble case is restored (R21, R117). -/
theorem State.exitFault_restored {st : LineState} (hst : st ≠ .linger) (hr : s.RestoredTo (lineKey n) u) (reply : Option Reply)
    (out : List Byte) (b : Byte) :
    State.exitFault { s.setLine n l with causes := s.causes ||| b, reply := reply, serialOut := out } n st =
      { u.setLine n { l with state := st, cause := .none, faultHold := none, recovery := none } with
        causes := u.causes ||| b ||| 0x04, reply := reply, serialOut := out } := by
  let l' : Line := { l with state := st, cause := .none, faultHold := none, recovery := none }
  have hr' := hr.elsewhere (b := b ||| 0x04) (reply := reply) (out := out) (lines := s.lines.set n l')
    fun d => State.nobodyOn_setLine hst d
  have hraised : State.raise (State.updLine { s.setLine n l with causes := s.causes ||| b, reply := reply, serialOut := out } n fun l =>
      { l with state := st, cause := .none, faultHold := none, recovery := none }) .lineFault =
      s.elsewhere (s.lines.set n l') (b ||| 0x04) reply out := by
    simp [State.updLine, State.setLine, State.line, State.raise, Cause.bit, State.elsewhere, l', BitVec.or_assoc]
  rw [State.exitFault, hraised, State.internalRestore_of_restoredTo _ hr', State.elsewhere, ← BitVec.or_assoc, ← hr.onTable.lines]
  rfl

end Sys2Proof.Machine

open Sys2Proof Sys2Proof.Machine

/-- Settles O23: the disable rewrites the line (`exec_writeLine_disabled`), ends its call (`disabled`) or leaves its fault
(`exitFault_restored`); outside EXCHANGE the line is shut (`disableLine_shut`). -/
theorem lineDisabled : Obligations.LineDisabled := by
  refine ⟨fun s n forced mode f m hf hm hs => ⟨fun hx hno => ?_, fun hi hno => ?_, fun hx => ?_, fun line enable permit dial h => ?_⟩,
    fun s n forced mode f m c k x hf hm h hs => ?_, fun s n forced mode f m hf hm => ⟨fun c k x h hs => ?_, fun u hs hno hr => ?_⟩⟩
  · have hline : (s.lineWritten n false f m).line n = (s.line n).written false f m := State.lineWritten_line ..
    refine exec_writeLine_disabled hf hm hno ?_ (by simp [Line.lingersOn, hx])
    rw [State.disableLine_exchange (by rwa [hline]), hline]
    exact congrArg (State.setLine _ n) (by rw [State.call, hline]; rfl)
  · have hline : (s.lineWritten n false f m).line n = (s.line n).written false f m := State.lineWritten_line ..
    refine exec_writeLine_disabled hf hm hno ?_ (by simp [Line.lingersOn])
    rw [State.disableLine_onHook (by rwa [hline]), hline]
    rfl
  · obtain ⟨shut, kept⟩ := State.disableLine_shut (State.lineWritten_callsSound (e := false) (f := f) (dm := m) hs)
      (n := n) (by rw [State.lineWritten_line]; exact hx)
    obtain ⟨⟨hoff, hcall, hd, hq⟩, hline⟩ := shut.finishWrite
    rw [← hline, State.lineWritten_line] at kept
    simp only [Line.settings, Line.written, Prod.mk.injEq] at kept
    obtain ⟨hen, hfo, hmode, hlearned, hfail⟩ := kept
    exact ⟨_, exec_writeLine_disable hf hm, rfl, hoff, hen, hfo, hmode, hlearned, hfail, hcall, hd, hq⟩
  · exact congrArg (fun t => Host.Outcome.next t) (State.writeLine_badValue (s := s.takeFrame 7) h)
  · have hl : (s.line n).state ≠ .linger := by rcases hs with e | e | e <;> simp [e]
    rw [exec_writeLine_disable hf hm, State.disableLine_offHook (by rwa [State.lineWritten_line]), h.disabled hl,
      State.finishWrite_eq (h.disabled_noOffer hl (by simp)), State.callOver_takeFrame_passesDue]
    rfl
  · have hl : (s.line n).state ≠ .linger := by simp [hs]
    rw [exec_writeLine_disable hf hm, State.disableLine_awaitPermit (by rw [State.lineWritten_line]; exact hs), h.disabled hl,
      State.finishWrite_eq]
    · simp only [State.leaveQueue, State.callOver_takeFrame_permit, State.callOver_takeFrame_passesDue]
      rfl
    · exact State.SameOffers.noOffer {} (h.disabled_noOffer hl (by simp))
  · obtain ⟨b, hb⟩ : ∃ b : Byte, (s.takeFrame 7).causes = s.causes ||| b := s.takeFrame_raises 7
    have hw : s.lineWritten n false f m = { s.setLine n ((s.line n).written false f m) with
        causes := s.causes ||| b, reply := none, serialOut := List.replicate 7 0 } := by
      rw [← hb, State.lineWritten, State.takeFrame_eq]
      rfl
    rw [exec_writeLine_disable hf hm, State.disableLine_fault (by rw [State.lineWritten_line]; exact hs), hw,
      State.exitFault_restored (by simp) hr, State.finishWrite_eq]
    · rw [hb, ← BitVec.or_assoc u.causes, hr.causes]
      rfl
    · exact State.SameOffers.noOffer (s := u.setLine n _) {} ((hr.noOffer hno).setLine (by simp))
end

