-- ==== Sys2Proof/Proofs/DiallingElements.lean ====
section
/-! CLAIM. The elements of a dialling end and begin, and the adaptive check decides for tone or pulse (O46). -/

namespace Sys2Proof.Machine

variable {s : State} {n : Fin 4} {k : Fin 48} {x : Case} {c : Call} {l : Line} {y : DialSym} {g : Dialling}

/-! ### The elements -/

theorem elementMs_pulse_digit (d : Fin 10) : elementMs .pulse (.digit d) = (if d = 0 then 10 else d.val) * 100 + 700 := by
  rw [← breaksOf_eq]
  rfl

/-- An element begun where no adaptive check runs: the first dial symbol of a dialling that has still to learn starts it (R135). -/
theorem Dialling.begin_unchecked (h : g.adaptiveCheck = none) (y : DialSym) :
    g.begin y = { g with
      element := some (elementMs g.manner y), position := g.position + 1
      adaptiveCheck := if g.learning = true ∧ y ≠ .pause then some 2000 else none } := by
  simp only [Dialling.begin, h, and_true, Config.adaptiveCheckMs]

/-- Line `l` in call `c`, its dialling context now `g`. -/
def Line.dialsOn (l : Line) (c : Call) (g : Dialling) : Line := { l with call := some { c with dialling := some g } }

/-- The element at the position begins (R132). -/
theorem State.nextElement_begins (hy : (s.dest c.dest).dial[g.position - 1]? = some y) :
    (s.setLine n (l.dialsOn c g)).nextElement n = s.setLine n (l.dialsOn c (g.begin y)) :=
  State.nextElement_setLine (c := { c with dialling := some g }) rfl rfl hy

/-- After the last element dialling is complete (R141). -/
theorem State.nextElement_done (hy : (s.dest c.dest).dial[g.position - 1]? = none) :
    (s.setLine n (l.dialsOn c g)).nextElement n = s.setLine n { l with
      state := .awaitHandshake, call := some { c with dialling := none, handshake := some (s.exchange.handshake * 1000) } } := by
  have hdone : (s.setLine n (l.dialsOn c g)).nextElement n = (s.setLine n (l.dialsOn c g)).dialled n := by
    simp only [State.nextElement, State.setLine_call_same, Line.dialsOn, State.setLine_dest, hy]
  rw [hdone, State.dialled, State.updLine_setLine]
  rfl

/-- The dialling context once the element in progress is over (R132). -/
def Dialling.elementEnded (g : Dialling) : Dialling := { g with element := none }

/-- The end of an element: the line waits while the adaptive check runs, and goes on otherwise (R132, R135). -/
theorem exec_elementTimerExpiry (hs : (s.line n).state = .dialling) (hc : s.call n = some c) (hg : c.dialling = some g)
    (he : g.element.isSome) :
    exec (.elementTimerExpiry n) s =
      let t := s.setLine n ((s.line n).dialsOn c g.elementEnded)
      if g.adaptiveCheck.isSome then .next t else .next (t.nextElement n) := by
  show execElementTimerExpiry n s = _
  simp only [execElementTimerExpiry, hc, Option.bind_some, hg, State.updDialling_eq hc hg]
  exact if_pos ⟨he, hs⟩

/-! ### The adaptive check -/

/-- A line that has learned `m` by the dialling `g`, which may leave its learned mode as it was (R136, R137, R139). -/
def Line.learnedBy (l : Line) (g : Dialling) (m : LearnedMode) : Line :=
  { l with learned := if g.leavesLearned = true then l.learned else m }

theorem Line.learn_eq (hc : l.call = some c) (hg : c.dialling = some g) (m : LearnedMode) : l.learn m = l.learnedBy g m := by
  have hmark : (l.call.bind Call.dialling).any Dialling.leavesLearned = g.leavesLearned := by
    rw [hc, Option.bind_some, hg, Option.any_some]
  rw [Line.learn, hmark, Line.learnedBy]
  split <;> rfl

theorem State.updLine_learn (hc : s.call n = some c) (hg : c.dialling = some g) (m : LearnedMode) :
    (s.updLine n fun l => l.learn m) = s.setLine n ((s.line n).learnedBy g m) :=
  congrArg (s.setLine n) (Line.learn_eq hc hg m)

/-- The dialling context once the adaptive check has decided (R136). -/
def Dialling.decided (g : Dialling) : Dialling := { g with adaptiveCheck := none, learning := false }

/-- An element begun after the decision starts no check (R135). -/
theorem Dialling.begin_decided (g : Dialling) (y : DialSym) :
    g.decided.begin y = { g.decided with element := some (elementMs g.manner y), position := g.position + 1 } := by
  rw [Dialling.begin_unchecked rfl, if_neg (by simp [Dialling.decided])]
  rfl

/-- The part once DIAL_TONE_OFF has decided the check of line `n` for tone (R136). -/
def State.toneDecided (s : State) (n : Fin 4) (c : Call) (g : Dialling) : State :=
  s.setLine n (((s.line n).learnedBy g .tone).dialsOn { c with dialTone := false } g.decided)

/-- The decision for tone: a line that was waiting for it goes on at once (R136). -/
theorem exec_dialToneOff_decides (hs : (s.line n).state = .dialling) (hc : s.call n = some c) (hg : c.dialling = some g)
    (hcheck : g.adaptiveCheck.isSome) :
    exec (.dialToneOff n) s =
      if g.element = none then .next ((s.toneDecided n c g).nextElement n) else .next (s.toneDecided n c g) := by
  let c' : Call := { c with dialTone := false }
  let l : Line := { s.line n with call := some c' }
  have hlearn : ((s.setLine n l).updLine n fun l => l.learn .tone) = s.setLine n (l.learnedBy g .tone) := by
    rw [State.updLine_setLine, Line.learn_eq (c := c') rfl hg]
  have hdecided : (s.setLine n (l.learnedBy g .tone)).updDialling n Dialling.decided = s.toneDecided n c g := by
    rw [State.updDialling_eq (c := c') (State.setLine_call_same ..) hg, State.setLine_line_same, State.setLine_setLine]
    rfl
  have hex : exec (.dialToneOff n) s = .next ((s.setLine n l).decideTone n g) := by
    show execDialToneOff n s = _
    have hdialling : (s.call n).bind Call.dialling = some g := by rw [hc, Option.bind_some, hg]
    rw [execDialToneOff, hs, hdialling, State.updCall_eq hc]
    exact if_pos hcheck
  rw [hex, State.decideTone, hlearn, ← hdecided]
  split <;> rfl

/-- The expiry of the check: a string with a star or a hash cannot be dialled again (R137, R138). -/
theorem exec_adaptiveCheckExpiry (hs : (s.line n).state = .dialling) (hc : s.call n = some c) (hg : c.dialling = some g)
    (hcheck : g.adaptiveCheck.isSome) :
    exec (.adaptiveCheckExpiry n) s =
      let t := s.setLine n ((s.line n).learnedBy g .pulse)
      if (s.dest c.dest).toneOnly then .next (t.failLine n .noDialTone .noDialTone).answerLingers else .next (t.redial n) := by
  show execAdaptiveCheckExpiry n s = _
  simp only [execAdaptiveCheckExpiry, hc, hg, Option.bind_some, State.updLine_learn hc hg]
  exact if_pos ⟨hcheck, hs⟩

/-- The string of a line just written begins again in pulse, with nothing left to learn (R137). -/
theorem State.redial_setLine (hc : l.call = some c) (hg : c.dialling = some g) (hy : (s.dest c.dest).dial.head? = some y) :
    (s.setLine n l).redial n = s.setLine n (l.dialsOn c { g with
      manner := .pulse, adaptiveCheck := none, learning := false, element := some (elementMs .pulse y), position := 2 }) := by
  let g₀ : Dialling := { g with manner := .pulse, position := 1, element := none }
  have hstart : (s.setLine n l).redial n = (s.setLine n (l.dialsOn c g₀.decided)).nextElement n := by
    rw [State.redial, State.updDialling_eq ((State.setLine_call_same ..).trans hc) hg, State.setLine_line_same, State.setLine_setLine]
    rfl
  rw [hstart, State.nextElement_begins (List.head?_eq_getElem?.symm.trans hy), Dialling.begin_decided]
  rfl

/-- A string that cannot be dialled again ends the call with a counted failure (R115, R138). -/
theorem State.Carries.undiallable_over (h : s.Carries n c k x) (hs : (s.line n).state = .dialling) (hcl : c.closePending = false) :
    ((s.setLine n ((s.line n).learnedBy g .pulse)).failLine n .noDialTone .noDialTone).answerLingers =
      s.callOver k (x.uncharged .noDialTone s.clock) c.dest .noDialTone n
        { (s.line n).released (s.timing.guardTime * 1000) with
          learned := if g.leavesLearned = true then (s.line n).learned else .pulse
          failures := min 3 ((s.line n).failures + 1), failureCause := .noDialTone } := by
  have hl : ((s.line n).learnedBy g .pulse).state ≠ .linger := by simp [Line.learnedBy, hs]
  have h' : (s.setLine n ((s.line n).learnedBy g .pulse)).Carries n c k x := h.setLine hl h.call rfl rfl
  rw [h'.failLine_over (by rwa [State.setLine_line_same]) hcl .noDialTone (by simp) rfl (by simp), State.setLine_line_same,
    State.callOver_setLine]
  rfl

end Sys2Proof.Machine

open Sys2Proof Sys2Proof.Machine

/-- Settles O46: the end of an element goes on with the string (`nextElement_begins`, `nextElement_done`), and the check's decision
goes on in tone (`exec_dialToneOff_decides`), begins again in pulse (`redial_setLine`), or ends the call (`undiallable_over`). -/
theorem diallingGoesOn : Obligations.DiallingGoesOn := by
  refine ⟨⟨fun d => ⟨rfl, elementMs_pulse_digit d⟩, rfl, rfl, rfl, rfl⟩, fun s n c g hs hc hg he => ?_,
    fun s n c g hs hc hg hcheck => ⟨fun he => ?_, fun y he hy => ?_, fun y hy hstar hhash => ?_, fun k x htone h hcl => ?_⟩⟩
  · have hex := exec_elementTimerExpiry hs hc hg he
    refine ⟨fun hcheck => hex.trans (if_pos hcheck), fun hcheck => ?_⟩
    have hgoes : exec (.elementTimerExpiry n) s = .next ((s.setLine n ((s.line n).dialsOn c g.elementEnded)).nextElement n) :=
      hex.trans (if_neg (by simp [hcheck]))
    refine ⟨fun y hy => hgoes.trans ?_, fun hy => hgoes.trans ?_⟩
    · rw [State.nextElement_begins (g := g.elementEnded) hy, Dialling.begin_unchecked (g := g.elementEnded) hcheck]
      rfl
    · rw [State.nextElement_done (g := g.elementEnded) hy]
  · rw [exec_dialToneOff_decides hs hc hg hcheck, if_neg (Option.isSome_iff_ne_none.mp he)]
    rfl
  · rw [exec_dialToneOff_decides hs hc hg hcheck, if_pos he, State.toneDecided,
      State.nextElement_begins (c := { c with dialTone := false }) (g := g.decided) hy, Dialling.begin_decided]
    rfl
  · have hpulse : ¬ (s.dest c.dest).toneOnly = true := fun h => ((Destination.toneOnly_iff _).mp h).elim hstar hhash
    rw [exec_adaptiveCheckExpiry hs hc hg hcheck, if_neg hpulse, State.redial_setLine (l := (s.line n).learnedBy g .pulse) hc hg hy]
    rfl
  · rw [exec_adaptiveCheckExpiry hs hc hg hcheck, if_pos ((Destination.toneOnly_iff _).mpr htone), h.undiallable_over hs hcl]
end

