-- ==== Sys2Proof/Proofs/ReportBlock.lean ====
section
/-! CLAIM. The report block: every field in its place, and the check symbol that completes the sum (O47). -/

namespace Sys2Proof.Machine

variable {x : Case} {d : Destination} {b : List Nat}

/-- A sum with its check symbol is a multiple of 15 (R146). -/
theorem checkSymbol_completes (sum : Nat) : (sum + checkSymbol sum) % 15 = 0 := by
  unfold checkSymbol
  split <;> omega

/-- A check symbol is one of the symbols 0 to 14 (R146). -/
theorem checkSymbol_le (sum : Nat) : checkSymbol sum ≤ 14 := by
  unfold checkSymbol
  split <;> omega

@[simp] theorem blockBody_length (x : Case) (kind : ReportKind) (d : Destination) : (blockBody x kind d).length = 13 := rfl

/-- A block is the body of the head report with its check symbol (R145, R146). -/
theorem composeBlock_eq_some_iff :
    composeBlock x d = some b ↔
      ∃ kind, x.owed.head? = some kind ∧ blockBody x kind d ++ [checkSymbol (blockBody x kind d).sum] = b :=
  Option.map_eq_some_iff

/-- The zone of a block in three digits, most significant first (R145). -/
theorem blockBody_zone (hz : x.key.zone ≤ 999) (kind : ReportKind) (d : Destination) (y : Nat) :
    ((blockBody x kind d ++ [y]).drop 6).take 3 = [x.key.zone / 100, x.key.zone / 10 % 10, x.key.zone % 10] := by
  have hundreds : x.key.zone / 100 % 10 = x.key.zone / 100 := Nat.mod_eq_of_lt (by omega)
  show [x.key.zone / 100 % 10, _, _] = _
  rw [hundreds]

/-- The source of a block in two digits, most significant first (R145). -/
theorem blockBody_source (hs : x.key.source ≤ 24) (kind : ReportKind) (d : Destination) (y : Nat) :
    ((blockBody x kind d ++ [y]).drop 9).take 2 = [x.key.source / 10, x.key.source % 10] := by
  have htens : x.key.source / 10 % 10 = x.key.source / 10 := Nat.mod_eq_of_lt (by omega)
  show [x.key.source / 10 % 10, _] = _
  rw [htens]

end Sys2Proof.Machine

open Sys2Proof Sys2Proof.Machine

/-- Settles O47: the check symbol completes the sum of the thirteen values before it (`checkSymbol_completes`,
`checkSymbol_le`), and the body holds each field at its position, the zone and the source digit by digit
(`blockBody_zone`, `blockBody_source`). -/
theorem blockComposed : Obligations.BlockComposed := by
  refine ⟨fun x d b hb => ?_, fun x d kind hk => ?_⟩
  · obtain ⟨kind, -, rfl⟩ := composeBlock_eq_some_iff.mp hb
    have hlast : (blockBody x kind d ++ [checkSymbol (blockBody x kind d).sum])[13]? =
        some (checkSymbol (blockBody x kind d).sum) := rfl
    refine ⟨by simp, ?_, hlast, fun y hy => ?_⟩
    · simpa using checkSymbol_completes (blockBody x kind d).sum
    · obtain rfl := Option.some.inj (hlast.symm.trans hy)
      exact checkSymbol_le _
  · exact ⟨_, composeBlock_eq_some_iff.mpr ⟨kind, hk, rfl⟩, rfl, rfl, rfl, (blockBody_zone · kind d _),
      (blockBody_source · kind d _), rfl, rfl⟩
end

