-- ==== Sys2Proof/Proofs/InputWrites.lean ====
section
/-! CLAIM. WRITE INPUT: the operands that decode, the channel's own cases, and the channel written (O25). -/

namespace Sys2Proof.Machine

variable {s : State} {i : Fin 8} {c : Cls} {la : LatchMode} {sa : Sampling} {input code zone latch sampling filter retard : Nat}

/-! ### Operands that decode -/

theorem inputClsOfCode_eq_some : inputClsOfCode code = some c ↔ c.code = code ∧ code ≤ 3 := by
  match code with
  | 0 | 1 | 2 | 3 | 4 | 5 => cases c <;> decide
  | m + 6 => cases c <;> simp [inputClsOfCode, clsOfCode, Cls.code]

theorem latchOfCode_eq_some : latchOfCode latch = some la ↔ la.code = latch := by
  match latch with
  | 0 | 1 => cases la <;> decide
  | m + 2 => cases la <;> simp [latchOfCode, firstOfTwo, LatchMode.code]

theorem samplingOfCode_eq_some : samplingOfCode sampling = some sa ↔ sa.code = sampling := by
  match sampling with
  | 0 | 1 => cases sa <;> decide
  | m + 2 => cases sa <;> simp [samplingOfCode, firstOfTwo, Sampling.code]

/-! ### The cases of a channel -/

/-- A case is held exactly where a slot holds it. -/
theorem State.mem_cases {x : Case} : x ∈ s.cases ↔ ∃ k, s.caseAt k = some x := by
  simp [State.cases, State.caseAt, State.slot, Vector.exists_mem_iff_exists_getElem, Fin.exists_iff]

theorem State.inputHasCase_iff : s.inputHasCase i = true ↔ ∃ k x, s.caseAt k = some x ∧ x.key.source = 16 + i.val := by
  simp only [State.inputHasCase, List.any_eq_true, State.mem_cases, decide_eq_true_eq]
  constructor
  · rintro ⟨x, ⟨k, hx⟩, hsource⟩
    exact ⟨k, x, hx, hsource⟩
  · rintro ⟨k, x, hx, hsource⟩
    exact ⟨x, ⟨k, hx⟩, hsource⟩

/-! ### The request -/

/-- Channel `ch` with its settings written and its working state started again (R169). -/
def Channel.rewritten (ch : Channel) (c : Cls) (zone : Nat) (la : LatchMode) (sa : Sampling) (filter retard : Nat) : Channel :=
  { ch.restart with
    cls := c, zone := zone, latch := la, sampling := sa, filterMs := min 5000 (max 50 filter), retard := min 120 retard, written := true }

theorem exec_writeInput (s : State) (input code zone latch sampling filter retard : Nat) :
    exec (.writeInput 31 input code zone latch sampling filter retard) s =
      .next ((s.takeFrame 12).writeInput input code zone latch sampling filter retard) := rfl

/-- A WRITE INPUT with an operand out of range (R169). -/
theorem State.writeInput_badValue (h : 7 < input ∨ code = 0 ∨ 3 < code ∨ 999 < zone ∨ 1 < latch ∨ 1 < sampling) :
    s.writeInput input code zone latch sampling filter retard = s.answer .badValue := by
  unfold State.writeInput
  split
  · next i c la sa hi hc hla hsa =>
    have hi := indexOf_eq_some.mp hi
    obtain ⟨hc, hcode⟩ := inputClsOfCode_eq_some.mp hc
    have hpos : 1 ≤ c.code := by cases c <;> decide
    have hla := latchOfCode_eq_some.mp hla
    have hlatch : la.code ≤ 1 := by cases la <;> decide
    have hsa := samplingOfCode_eq_some.mp hsa
    have hsampling : sa.code ≤ 1 := by cases sa <;> decide
    exact if_pos (by omega)
  · rfl

/-- A WRITE INPUT whose operands decode (R169). -/
theorem State.writeInput_eq (hc : c.code ≤ 3) (hz : zone ≤ 999) :
    s.writeInput i.val c.code zone la.code sa.code filter retard =
      if s.inputHasCase i then s.answer .busy
      else (s.setInput i ((s.input i).rewritten c zone la sa filter retard)).answer
        (if 50 ≤ filter ∧ filter ≤ 5000 ∧ retard ≤ 120 then .ok else .adjusted) := by
  have hkept : (decide (clamp 50 5000 filter ≠ filter) || decide (min 120 retard ≠ retard)) =
      decide ¬ (50 ≤ filter ∧ filter ≤ 5000 ∧ retard ≤ 120) := by
    rw [← Bool.decide_or, decide_eq_decide, Ne, clamp_eq_self_iff (by decide)]
    omega
  rw [State.writeInput, indexOf_val, inputClsOfCode_eq_some.mpr ⟨rfl, hc⟩, latchOfCode_eq_some.mpr rfl,
    samplingOfCode_eq_some.mpr rfl]
  simp only [if_neg (Nat.not_lt.mpr hz), clamp_zero, hkept, State.answerWrite, decide_eq_true_eq, ite_not]
  rfl

end Sys2Proof.Machine

open Sys2Proof Sys2Proof.Machine

/-- Settles O25: the operands decode exactly where they are in range, and the cases of the channel's source then decide between BUSY
and the write. -/
theorem inputWritten : Obligations.InputWritten := by
  intro s input code zone latch sampling filter retard request
  have hex : exec request s = .next ((s.takeFrame 12).writeInput input code zone latch sampling filter retard) := exec_writeInput ..
  refine ⟨fun h => ?_, fun i c la sa hi hc hcode hz hla hsa => ?_⟩
  · rw [hex, State.writeInput_badValue h]
    rfl
  · subst hi hc hla hsa
    have hhas : (s.takeFrame 12).inputHasCase i = s.inputHasCase i := by rw [State.inputHasCase, State.takeFrame_cases]; rfl
    rw [hex, State.writeInput_eq hcode hz, hhas, State.takeFrame_input]
    refine ⟨fun h => ?_, fun h => ?_⟩
    · rw [if_pos (State.inputHasCase_iff.mpr h)]
      rfl
    · rw [if_neg fun hb => by obtain ⟨k, x, hx, hsource⟩ := State.inputHasCase_iff.mp hb; exact h k x hx hsource]
      rfl
end

