-- ==== Sys2Proof/Proofs/InputSettings.lean ====
section
/-! CLAIM. SET INPUT STATE and UNLATCH INPUT: the setting of a channel, its raised cases restored, and its latch released (O26). -/

namespace Sys2Proof.Machine

variable {s t u v : State} {i : Fin 8} {key : Key} {p : Prop} [Decidable p] {b : Byte} {len input state : Nat}

/-! ### A restore that depends on a stage -/

/-- `u` is the part after the restore of `key` where `p` holds, and otherwise the part as it was. -/
def State.RestoredWhen (s : State) (p : Prop) [Decidable p] (key : Key) (u : State) : Prop :=
  if p then s.RestoredTo key u else u = s

theorem State.RestoredTo.when (h : s.RestoredTo key u) (hp : p) : s.RestoredWhen p key u := (if_pos hp).mpr h

theorem State.restoredWhen_not (hp : ¬ p) : s.RestoredWhen p key s := (if_neg hp).mpr rfl

/-- A restore took place, or there was none. -/
theorem State.RestoredWhen.cases (h : s.RestoredWhen p key u) : p ∧ s.RestoredTo key u ∨ ¬ p ∧ u = s := by
  unfold State.RestoredWhen at h
  split at h
  · next hp => exact .inl ⟨hp, h⟩
  · next hp => exact .inr ⟨hp, h⟩

theorem State.RestoredWhen.eq (h : s.RestoredWhen p key u) : (if p then s.internalRestore key else s) = u := by
  rcases h.cases with ⟨hp, hr⟩ | ⟨hp, rfl⟩
  · rw [if_pos hp, s.internalRestore_of_restoredTo hr]
  · exact if_neg hp

theorem State.RestoredWhen.onTable (h : s.RestoredWhen p key u) : s.OnTable u := by
  rcases h.cases with ⟨-, hr⟩ | ⟨-, rfl⟩
  · exact hr.onTable
  · exact .refl _

theorem State.RestoredWhen.noOffer (h : s.RestoredWhen p key u) (g : s.NoOffer) : u.NoOffer := by
  rcases h.cases with ⟨-, hr⟩ | ⟨-, rfl⟩
  · exact hr.noOffer g
  · exact g

theorem State.RestoredWhen.causes (h : s.RestoredWhen p key u) : u.causes ||| s.causes = u.causes := by
  rcases h.cases with ⟨-, hr⟩ | ⟨-, rfl⟩
  · exact hr.causes
  · exact BitVec.or_self

/-! ### A restore does not see the frame of its request -/

/-- `s` once a frame of `len` bytes is taken with the causes `b` raised. -/
def State.framed (s : State) (len : Nat) (b : Byte) : State := s.elsewhere s.lines b none (List.replicate len 0)

theorem State.takeFrame_framed (s : State) (len : Nat) :
    ∃ b, (s.takeFrame len).causes = s.causes ||| b ∧ s.takeFrame len = s.framed len b := by
  obtain ⟨b, hb⟩ := s.takeFrame_raises len
  refine ⟨b, hb, ?_⟩
  rw [State.framed, State.elsewhere, ← hb, State.takeFrame_eq]

theorem State.RestoredTo.framed (h : s.RestoredTo key u) : (s.framed len b).RestoredTo key (u.framed len b) := by
  rw [State.framed, State.framed, h.onTable.lines]
  exact h.elsewhere fun _ => id

theorem State.RestoredWhen.framed (h : s.RestoredWhen p key u) : (s.framed len b).RestoredWhen p key (u.framed len b) := by
  rcases h.cases with ⟨hp, hr⟩ | ⟨hp, rfl⟩
  · exact hr.framed.when hp
  · exact State.restoredWhen_not hp

/-- What restores since `s` have made of it, answered after the frame that was taken before them. -/
theorem State.framed_answer {ch : Channel} (hu : u.causes ||| s.causes = u.causes) (hb : (s.takeFrame len).causes = s.causes ||| b)
    (st : Status) :
    ((u.framed len b).setInput i ch).answer st =
      { u.setInput i ch with
        serialOut := List.replicate len 0, causes := u.causes ||| (s.takeFrame len).causes, reply := some ⟨st, []⟩ } := by
  rw [hb, ← BitVec.or_assoc, hu]
  rfl

/-! ### SET INPUT STATE -/

/-- Channel `ch` disabled, its working state started again (R170). -/
def Channel.shut (ch : Channel) : Channel := { ch.restart with enabled := false }

theorem exec_setInputState (s : State) (input state : Nat) :
    exec (.setInputState 31 input state) s = .next ((s.takeFrame 5).setInputState input state) := rfl

theorem State.setInputState_badValue (h : 7 < input ∨ 1 < state) : s.setInputState input state = s.answer .badValue := by
  unfold State.setInputState
  split
  · next hi hst =>
    rcases h with h | h
    · rw [indexOf_eq_none h] at hi
      cases hi
    · rw [firstOfTwo_eq_none h] at hst
      cases hst
  · rfl

theorem State.setInputState_unchanged {on : Bool} (hst : firstOfTwo state = some on) (h : (s.input i).enabled = on) :
    s.setInputState i.val state = s.answer .unchanged := by
  rw [State.setInputState, indexOf_val, hst]
  exact if_pos h

theorem State.setInputState_enables (h : (s.input i).enabled = false) :
    s.setInputState i.val 0 = (s.setInput i { s.input i with enabled := true }).answer .ok := by
  rw [State.setInputState, indexOf_val]
  simp only [firstOfTwo, h, Bool.false_eq_true, if_false, if_true]
  rfl

/-- A disable restores the raised cases of the channel, the alarm case first, and shuts it (R170). -/
theorem State.disableInput_eq (hu : s.RestoredWhen ((s.input i).alarm = .raised) (s.alarmKey i) u)
    (hv : u.RestoredWhen ((s.input i).trouble = .raised) (s.troubleKey i) v) :
    s.disableInput i = v.setInput i (s.input i).shut := by
  have hkey : u.troubleKey i = s.troubleKey i := by rw [State.troubleKey, State.troubleKey, hu.onTable.input]
  simp only [State.disableInput, hu.eq, hkey, hv.eq]
  rw [State.updInput, hv.onTable.input, hu.onTable.input]
  rfl

/-- A disable of an enabled channel, where no lingering line takes a case at once (R170). -/
theorem State.setInputState_disables (hno : s.NoOffer) (hen : (s.input i).enabled = true)
    (hu : s.RestoredWhen ((s.input i).alarm = .raised) (s.alarmKey i) u)
    (hv : u.RestoredWhen ((s.input i).trouble = .raised) (s.troubleKey i) v) :
    s.setInputState i.val 1 = (v.setInput i (s.input i).shut).answer .ok := by
  have hquiet : (v.setInput i (s.input i).shut).NoOffer := (hv.noOffer (hu.noOffer hno)).setInput
  rw [State.setInputState, indexOf_val]
  simp only [firstOfTwo, hen, Bool.true_eq_false, Bool.false_eq_true, if_false]
  rw [State.disableInput_eq hu hv, State.answerLingers_eq_self _ hquiet]

/-! ### UNLATCH INPUT -/

/-- Channel `ch` released from its latch (R166). -/
def Channel.released (ch : Channel) : Channel := { ch with alarm := .quiet }

theorem exec_unlatchInput (s : State) (input : Nat) :
    exec (.unlatchInput 31 input) s = .next ((s.takeFrame 4).unlatchInput input) := rfl

theorem Channel.latched_iff (ch : Channel) : ch.latched = true ↔ ch.latch = .latching ∧ ch.alarm = .raised := by
  rw [Channel.latched, Bool.and_eq_true, decide_eq_true_eq, decide_eq_true_eq]

theorem State.unlatchInput_badValue (h : 7 < input) : s.unlatchInput input = s.answer .badValue := by
  rw [State.unlatchInput, indexOf_eq_none h]

theorem State.unlatchInput_unchanged (h : (s.input i).latched = false) : s.unlatchInput i.val = s.answer .unchanged := by
  rw [State.unlatchInput, indexOf_val]
  exact if_pos (by rw [h]; rfl)

theorem State.unlatchInput_wrongState (h : (s.input i).latched = true) (ha : (s.input i).accepted ≠ .normal) :
    s.unlatchInput i.val = s.answer .wrongState := by
  rw [State.unlatchInput, indexOf_val]
  simp only [h, Bool.not_true, Bool.false_eq_true, if_false, if_pos ha]

/-- A latched channel at NORMAL is released and its alarm case restored, where no lingering line takes a case at once (R166). -/
theorem State.unlatchInput_releases (hno : s.NoOffer) (h : (s.input i).latched = true) (ha : (s.input i).accepted = .normal)
    (hu : s.RestoredTo (s.alarmKey i) u) :
    s.unlatchInput i.val = (u.setInput i (s.input i).released).answer .ok := by
  have hquiet : (u.setInput i (s.input i).released).NoOffer := (hu.noOffer hno).setInput
  have hwrite : (u.updInput i fun x => { x with alarm := .quiet }) = u.setInput i (s.input i).released := by
    rw [State.updInput, hu.onTable.input]
    rfl
  rw [State.unlatchInput, indexOf_val]
  simp only [h, Bool.not_true, Bool.false_eq_true, if_false, ha, ne_eq, not_true_eq_false]
  rw [s.internalRestore_of_restoredTo hu, hwrite, State.answerLingers_eq_self _ hquiet]

/-! ### The keys after the frame -/

theorem State.takeFrame_alarmKey (s : State) (len : Nat) (i : Fin 8) : (s.takeFrame len).alarmKey i = s.alarmKey i := by
  rw [State.alarmKey, State.alarmKey, State.takeFrame_input]

/-- An ACTIVE case that is not HELD takes RESTORE to its tail, after the frame of a request as before it (R12). -/
theorem State.takeFrame_joins {k : Fin 48} {x : Case} (hk : s.caseOfKey key = some k) (hx : s.caseAt k = some x)
    (ht : x.key.cls ≠ .test) (hc : x.condition = .active) (hh : x.state ≠ .held) :
    (s.takeFrame len).RestoredTo key ((s.takeFrame len).setCase k { x with owed := x.owed ++ [.restore], condition := .restored }) := by
  obtain ⟨y, hy, hkey⟩ := s.caseOfKey_some hk
  cases hx.symm.trans hy
  exact .joins k x (hkey ▸ ht) (by rwa [State.takeFrame_caseOfKey]) (by rwa [State.takeFrame_caseAt]) hc hh

end Sys2Proof.Machine

open Sys2Proof Sys2Proof.Machine

/-- Settles O26: each refusal by its own equation, and each restore by one lemma for a request taken (`setInputState_disables`,
`unlatchInput_releases`), on the state after the frame; a restore comes to the same there as before it (`RestoredWhen.framed`). -/
theorem inputStateSet : Obligations.InputStateSet := by
  refine ⟨fun s i hno => ?_, fun s i k x hno hen ha ht hk hx hcls hc hh => ?_, fun s i hno => ?_, fun s u v i hno hen hu hv => ?_,
    fun s u i hno hl ha hacc hu => ?_, fun s input h => ?_⟩
  · have hin : (s.takeFrame 5).input i = s.input i := s.takeFrame_input 5 i
    refine ⟨fun hen => ?_, fun hen => ⟨?_, ?_⟩, fun hen ha ht => ?_, fun input state h => ?_⟩
    · rw [exec_setInputState, State.setInputState_unchanged (on := true) rfl (hin ▸ hen)]
      rfl
    · rw [exec_setInputState, State.setInputState_enables (hin ▸ hen), hin]
      rfl
    · rw [exec_setInputState, State.setInputState_unchanged (on := false) rfl (hin ▸ hen)]
      rfl
    · rw [exec_setInputState, State.setInputState_disables (hno.takeFrame 5) (hin ▸ hen) (State.restoredWhen_not (hin ▸ ha))
        (State.restoredWhen_not (hin ▸ ht)), hin]
      rfl
    · rw [exec_setInputState, State.setInputState_badValue h]
      rfl
  · have hin : (s.takeFrame 5).input i = s.input i := s.takeFrame_input 5 i
    have hjoins := State.takeFrame_joins (key := s.alarmKey i) (len := 5) hk hx hcls hc hh
    rw [exec_setInputState, State.setInputState_disables (hno.takeFrame 5) (hin ▸ hen)
      ((s.takeFrame_alarmKey 5 i ▸ hjoins).when (hin ▸ ha)) (State.restoredWhen_not (hin ▸ ht)), hin]
    rfl
  · intro request latched
    have hin : (s.takeFrame 4).input i = s.input i := s.takeFrame_input 4 i
    have hkey : (s.takeFrame 4).alarmKey i = s.alarmKey i := s.takeFrame_alarmKey 4 i
    have hlatched : (s.input i).latched = true ↔ latched := Channel.latched_iff _
    have releases : ∀ {u : State}, latched → (s.input i).accepted = .normal → (s.takeFrame 4).RestoredTo (s.alarmKey i) u →
        exec request s = .next ((u.setInput i (s.input i).released).answer .ok) := fun {u} hl hacc hu => by
      rw [exec_unlatchInput, State.unlatchInput_releases (hno.takeFrame 4) (hin ▸ hlatched.mpr hl) (hin ▸ hacc) (hkey ▸ hu), hin]
    refine ⟨fun hl => ?_, fun hl hacc => ?_, fun hl hacc hk => ?_, fun k x hl hacc hk hx hcls hc hh => ?_⟩
    · rw [exec_unlatchInput, State.unlatchInput_unchanged]
      · rfl
      · rw [hin, Bool.eq_false_iff]
        exact fun h => hl (hlatched.mp h)
    · rw [exec_unlatchInput, State.unlatchInput_wrongState (hin ▸ hlatched.mpr hl) (hin ▸ hacc)]
      rfl
    · exact releases hl hacc (.absent ((s.takeFrame_caseOfKey 4 _).trans hk))
    · exact releases hl hacc (State.takeFrame_joins hk hx hcls hc hh)
  · obtain ⟨b, hb, htaken⟩ := s.takeFrame_framed 5
    have hu : s.RestoredWhen ((s.input i).alarm = .raised) (s.alarmKey i) u := hu
    have hv : u.RestoredWhen ((s.input i).trouble = .raised) (s.troubleKey i) v := hv
    have hcauses : v.causes ||| s.causes = v.causes := by rw [← hv.causes, BitVec.or_assoc, hu.causes]
    have hdisable : (s.framed 5 b).setInputState i.val 1 = ((v.framed 5 b).setInput i (s.input i).shut).answer .ok :=
      State.setInputState_disables (s := s.framed 5 b) (htaken ▸ hno.takeFrame 5) hen hu.framed hv.framed
    have hex := exec_setInputState s i.val 1
    rw [htaken, hdisable, State.framed_answer hcauses hb] at hex
    exact hex
  · obtain ⟨b, hb, htaken⟩ := s.takeFrame_framed 4
    have hrelease : (s.framed 4 b).unlatchInput i.val = ((u.framed 4 b).setInput i (s.input i).released).answer .ok :=
      State.unlatchInput_releases (s := s.framed 4 b) (htaken ▸ hno.takeFrame 4) ((Channel.latched_iff _).mpr ⟨hl, ha⟩) hacc hu.framed
    have hex := exec_unlatchInput s i.val
    rw [htaken, hrelease, State.framed_answer hu.causes hb] at hex
    exact hex
  · rw [exec_unlatchInput, State.unlatchInput_badValue h]
    rfl
end

