-- ==== Sys2Proof/Proofs/LinkFrames.lean ====
section
/-! CLAIM. The frames of the request link: a well-formed command is read back from its bytes, and every transaction is a well-formed
command that its bytes deliver (O2, O3). -/

namespace Sys2Proof

variable {i : Instr} {code n : Nat} {body : List Nat} {bytes : List Byte}

/-! ### Fields -/

theorem fits8_iff {x : Nat} : fits8 x = true ↔ x < 256 := decide_eq_true_iff

/-- Every list of bytes is one of values that fit a byte. -/
theorem all_fits8_toNat (bytes : List Byte) : (bytes.map BitVec.toNat).all fits8 = true :=
  List.all_map.trans (List.all_eq_true.mpr fun b _ => fits8_iff.mpr b.isLt)

theorem word16_be16 (x : Nat) : word16 (x / 256) (x % 256) = x := Nat.div_add_mod' x 256

theorem be16_word16 {hi lo : Nat} (h : fits8 lo = true) : be16 (word16 hi lo) = [hi, lo] := by
  have hlo := fits8_iff.mp h
  unfold be16 word16
  rw [show (hi * 256 + lo) / 256 = hi by omega, show (hi * 256 + lo) % 256 = lo by omega]

@[simp] theorem length_be16 (x : Nat) : (be16 x).length = 2 := rfl

/-- A value fits a two-byte field exactly where its two bytes are bytes (R183). -/
@[simp] theorem all_fits8_be16 (x : Nat) : (be16 x).all fits8 = fits16 x := by
  simp only [be16, List.all_cons, List.all_nil, Bool.and_true, fits8, fits16, ← Bool.decide_and, decide_eq_decide]
  omega

/-- The count of a list fits its byte where the body that holds the list fits its frame (R182). -/
theorem decide_le_eq_fits8_and {m : Nat} (n : Nat) (h : m < 256) : decide (n ≤ m) = (fits8 n && decide (n ≤ m)) := by
  rw [fits8, ← Bool.decide_and, decide_eq_decide]
  omega

/-! ### From a request to its body -/

/-- No request has the code 0, which is a read transaction's first byte, and every code is a byte (R179, R182). -/
theorem encodeRequest_code (h : encodeRequest i = some (code, body)) : code ≠ 0 ∧ code < 256 := by
  unfold encodeRequest at h
  split at h <;> cases h <;> decide

/-- A request is well-formed exactly where a frame can carry its body: at most 60 values, each of one byte (R179, R182, R183). -/
theorem wellFormed_eq_of_encodeRequest (h : encodeRequest i = some (code, body)) :
    i.wellFormed = (body.all fits8 && decide (body.length ≤ 60)) := by
  cases i with
  | post src z c detail => cases detail <;> cases h <;> simp [Instr.wellFormed, Bool.and_assoc]
  | restore src target =>
    have hform : fits8 0 = true ∧ fits8 1 = true := ⟨rfl, rfl⟩
    cases target <;> cases h <;> simp [Instr.wellFormed, Bool.and_assoc, hform]
  | writeDestination src d a1 a2 a3 a4 pol syms =>
    cases h
    rw [Instr.wellFormed, decide_le_eq_fits8_and syms.length (by decide)]
    simp [Bool.and_assoc, Bool.and_left_comm, Nat.add_assoc]
  | writePlan src c ds att rounds =>
    cases h
    rw [Instr.wellFormed, decide_le_eq_fits8_and ds.length (by decide)]
    simp [Bool.and_assoc, Bool.and_left_comm, Nat.add_assoc]
  | _ => cases h <;> simp [Instr.wellFormed, Bool.and_assoc]

/-- A request's body is read back under its code, whatever the values (R182, R183). -/
theorem parseBody_of_encodeRequest (h : encodeRequest i = some (code, body)) : parseBody code body = some i := by
  cases i with
  | post src z c detail => cases detail <;> cases h <;> simp [parseBody, parsePost, be16, word16_be16]
  | restore src target => cases target <;> cases h <;> simp [parseBody, parseRestore, be16, word16_be16]
  | withdraw | readCase | clear | rearm => cases h; simp [parseBody, parseHandle, be16, word16_be16]
  | find => cases h; simp [parseBody, parseFind, be16, word16_be16]
  | nextCase => cases h; simp [parseBody, parseNextCase, be16, word16_be16]
  | writeClass => cases h; simp [parseBody, parseWriteClass, be16, word16_be16]
  | writeDestination => cases h; simp [parseBody, parseWriteDestination]
  | writePlan => cases h; simp [parseBody, parseWritePlan]
  | writeLineTiming => cases h; simp [parseBody, parseWriteLineTiming, be16, word16_be16]
  | writeInput => cases h; simp [parseBody, parseWriteInput, be16, word16_be16]
  | _ => cases h <;> rfl

/-! ### From a body to its request -/

/-- What `parse` reads from a body of bytes is a request of the code `code` with that body. -/
def Encodes (code : Nat) (parse : List Nat → Option Instr) : Prop :=
  ∀ {body : List Nat} {i : Instr}, body.all fits8 = true → parse body = some i → encodeRequest i = some (code, body)

theorem parse1_encodes {mk : Nat → Instr} (hmk : ∀ a, encodeRequest (mk a) = some (code, [a])) :
    Encodes code (parse1 mk) := by
  intro body i _ h
  unfold parse1 at h
  split at h <;> cases h
  exact hmk _

theorem parse2_encodes {mk : Nat → Nat → Instr} (hmk : ∀ a b, encodeRequest (mk a b) = some (code, [a, b])) :
    Encodes code (parse2 mk) := by
  intro body i _ h
  unfold parse2 at h
  split at h <;> cases h
  exact hmk _ _

theorem parse3_encodes {mk : Nat → Nat → Nat → Instr} (hmk : ∀ a b c, encodeRequest (mk a b c) = some (code, [a, b, c])) :
    Encodes code (parse3 mk) := by
  intro body i _ h
  unfold parse3 at h
  split at h <;> cases h
  exact hmk _ _ _

theorem parse4_encodes {mk : Nat → Nat → Nat → Nat → Instr}
    (hmk : ∀ a b c d, encodeRequest (mk a b c d) = some (code, [a, b, c, d])) :
    Encodes code (parse4 mk) := by
  intro body i _ h
  unfold parse4 at h
  split at h <;> cases h
  exact hmk _ _ _ _

theorem parse5_encodes {mk : Nat → Nat → Nat → Nat → Nat → Instr}
    (hmk : ∀ a b c d e, encodeRequest (mk a b c d e) = some (code, [a, b, c, d, e])) :
    Encodes code (parse5 mk) := by
  intro body i _ h
  unfold parse5 at h
  split at h <;> cases h
  exact hmk _ _ _ _ _

theorem parse6_encodes {mk : Nat → Nat → Nat → Nat → Nat → Nat → Instr}
    (hmk : ∀ a b c d e f, encodeRequest (mk a b c d e f) = some (code, [a, b, c, d, e, f])) :
    Encodes code (parse6 mk) := by
  intro body i _ h
  unfold parse6 at h
  split at h <;> cases h
  exact hmk _ _ _ _ _ _

theorem parseHandle_encodes {mk : Nat → Nat → Instr} (hmk : ∀ a x, encodeRequest (mk a x) = some (code, a :: be16 x)) :
    Encodes code (parseHandle mk) := by
  intro body i hb h
  unfold parseHandle at h
  split at h <;> cases h
  simp only [List.all_cons, Bool.and_eq_true] at hb
  simp [hmk, be16_word16, hb]

theorem parsePost_encodes : Encodes 0x01 parsePost := by
  intro body i hb h
  unfold parsePost at h
  split at h <;> cases h
  all_goals
    simp only [List.all_cons, Bool.and_eq_true] at hb
    simp [encodeRequest, be16_word16, hb]

theorem parseRestore_encodes : Encodes 0x02 parseRestore := by
  intro body i hb h
  unfold parseRestore at h
  split at h
  · split at h <;> cases h
    next hform =>
      simp only [List.all_cons, Bool.and_eq_true] at hb
      simp [encodeRequest, be16_word16, hform, hb]
  · split at h <;> cases h
    next hform =>
      simp only [List.all_cons, Bool.and_eq_true] at hb
      simp [encodeRequest, be16_word16, hform, hb]
  · cases h

theorem parseFind_encodes : Encodes 0x04 parseFind := by
  intro body i hb h
  unfold parseFind at h
  split at h <;> cases h
  simp only [List.all_cons, Bool.and_eq_true] at hb
  simp [encodeRequest, be16_word16, hb]

theorem parseNextCase_encodes : Encodes 0x06 parseNextCase := by
  intro body i hb h
  unfold parseNextCase at h
  split at h <;> cases h
  simp only [List.all_cons, Bool.and_eq_true] at hb
  simp [encodeRequest, be16_word16, hb]

theorem parseWriteClass_encodes : Encodes 0x12 parseWriteClass := by
  intro body i hb h
  unfold parseWriteClass at h
  split at h <;> cases h
  simp only [List.all_cons, Bool.and_eq_true] at hb
  simp [encodeRequest, be16_word16, hb]

theorem parseWriteLineTiming_encodes : Encodes 0x17 parseWriteLineTiming := by
  intro body i hb h
  unfold parseWriteLineTiming at h
  split at h <;> cases h
  simp only [List.all_cons, Bool.and_eq_true] at hb
  simp [encodeRequest, be16_word16, hb]

theorem parseWriteInput_encodes : Encodes 0x19 parseWriteInput := by
  intro body i hb h
  unfold parseWriteInput at h
  split at h <;> cases h
  simp only [List.all_cons, Bool.and_eq_true] at hb
  simp [encodeRequest, be16_word16, hb]

theorem parseWriteDestination_encodes : Encodes 0x13 parseWriteDestination := by
  intro body i _ h
  unfold parseWriteDestination at h
  split at h
  · split at h <;> cases h
    next hcount => simp [encodeRequest, hcount]
  · cases h

/-- A list that is followed by two values is as long as its count. -/
theorem length_take_of_drop {rest : List Nat} {a b : Nat} (h : rest.drop n = [a, b]) : (rest.take n).length = n := by
  have hlen : rest.length - n = 2 := by rw [← List.length_drop, h]; rfl
  rw [List.length_take]
  omega

theorem parseWritePlan_encodes : Encodes 0x15 parseWritePlan := by
  intro body i _ h
  unfold parseWritePlan at h
  split at h
  · next src c n rest _ =>
    split at h
    · next att rounds hdrop =>
      cases h
      have hrest : rest.take n ++ [att, rounds] = rest := by rw [← hdrop, List.take_append_drop]
      simp only [encodeRequest, length_take_of_drop hdrop, List.cons_append, List.nil_append, hrest]
    · cases h
  · cases h

/-- A body of bytes is read as a request only where it is the body of that request, under its code (R182, R183). -/
theorem encodeRequest_of_parseBody (hb : body.all fits8 = true) (h : parseBody code body = some i) :
    encodeRequest i = some (code, body) := by
  unfold parseBody at h
  split at h
  · exact parsePost_encodes hb h
  · exact parseRestore_encodes hb h
  · exact parseHandle_encodes (fun _ _ => rfl) hb h
  · exact parseFind_encodes hb h
  · exact parseHandle_encodes (fun _ _ => rfl) hb h
  · exact parseNextCase_encodes hb h
  · exact parseHandle_encodes (fun _ _ => rfl) hb h
  · exact parseHandle_encodes (fun _ _ => rfl) hb h
  · exact parse4_encodes (fun _ _ _ _ => rfl) hb h
  · exact parse3_encodes (fun _ _ _ => rfl) hb h
  · exact parseWriteClass_encodes hb h
  · exact parseWriteDestination_encodes hb h
  · exact parse3_encodes (fun _ _ _ => rfl) hb h
  · exact parseWritePlan_encodes hb h
  · exact parse5_encodes (fun _ _ _ _ _ => rfl) hb h
  · exact parseWriteLineTiming_encodes hb h
  · exact parse6_encodes (fun _ _ _ _ _ _ => rfl) hb h
  · exact parseWriteInput_encodes hb h
  · exact parse3_encodes (fun _ _ _ => rfl) hb h
  · exact parse2_encodes (fun _ _ => rfl) hb h
  · exact parse3_encodes (fun _ _ _ => rfl) hb h
  · exact parse1_encodes (fun _ => rfl) hb h
  · exact parse3_encodes (fun _ _ _ => rfl) hb h
  · exact parse2_encodes (fun _ _ => rfl) hb h
  · exact parse2_encodes (fun _ _ => rfl) hb h
  · exact parse2_encodes (fun _ _ => rfl) hb h
  · exact parse1_encodes (fun _ => rfl) hb h
  · exact parse2_encodes (fun _ _ => rfl) hb h
  · exact parse1_encodes (fun _ => rfl) hb h
  · exact parse1_encodes (fun _ => rfl) hb h
  · cases h

/-! ### Frames and transactions -/

/-- A value that fits a byte comes back from it. -/
theorem toNat_ofNat_of_lt {x : Nat} (h : x < 256) : (BitVec.ofNat 8 x).toNat = x :=
  (BitVec.toNat_ofNat x 8).trans (Nat.mod_eq_of_lt h)

/-- A body that fits a frame comes back from its bytes. -/
theorem map_toNat_ofNat (hb : body.all fits8 = true) : (body.map (BitVec.ofNat 8)).map BitVec.toNat = body := by
  rw [List.map_map]
  refine (List.map_congr_left fun x hx => ?_).trans (List.map_id body)
  exact toNat_ofNat_of_lt (fits8_iff.mp (List.all_eq_true.mp hb x hx))

/-- A frame of a code and a body that fit it is read as that body under that code (R179). -/
theorem decodeFrame_frameOf (hc : code < 256) (hb : body.all fits8 = true) (hl : body.length ≤ 60) :
    decodeFrame (frameOf code body) = parseBody code body := by
  have hlen : (BitVec.ofNat 8 body.length).toNat = body.length := toNat_ofNat_of_lt (by omega)
  have hcode : (BitVec.ofNat 8 code).toNat = code := toNat_ofNat_of_lt hc
  rw [frameOf, decodeFrame, hlen, hcode, List.length_map, map_toNat_ofNat hb, if_pos ⟨hl, rfl⟩]

/-- A frame read as a request is that request's frame, and the request is well-formed (R179, R182, R183). -/
theorem decodeFrame_eq_some (h : decodeFrame bytes = some i) :
    i.wellFormed = true ∧ ∃ code body, encodeRequest i = some (code, body) ∧ frameOf code body = bytes := by
  unfold decodeFrame at h
  split at h
  · next code len rest =>
    split at h
    · next hlen =>
      have henc := encodeRequest_of_parseBody (all_fits8_toNat rest) h
      refine ⟨?_, _, _, henc, ?_⟩
      · rw [wellFormed_eq_of_encodeRequest henc, all_fits8_toNat, List.length_map, hlen.2, decide_eq_true hlen.1]
        rfl
      · have hrest : (rest.map BitVec.toNat).map (BitVec.ofNat 8) = rest := by simp [Function.comp_def]
        rw [frameOf, hrest, List.length_map, hlen.2, BitVec.ofNat_toNat, BitVec.ofNat_toNat, BitVec.setWidth_eq, BitVec.setWidth_eq]
    · cases h
  · cases h

theorem encodeTransaction_of_encodeRequest (h : encodeRequest i = some (code, body)) :
    encodeTransaction i = some (frameOf code body) := by
  unfold encodeTransaction
  split
  · cases h
  · cases h
  · rw [h]; rfl

/-- The bytes of a well-formed request are read back as that request (R179, R182, R183). -/
theorem decodeTransaction_frameOf (hw : i.wellFormed = true) (h : encodeRequest i = some (code, body)) :
    decodeTransaction (frameOf code body) = some i := by
  obtain ⟨hne, hlt⟩ := encodeRequest_code h
  rw [wellFormed_eq_of_encodeRequest h, Bool.and_eq_true, decide_eq_true_iff] at hw
  have hfirst : BitVec.ofNat 8 code ≠ 0 := fun e => hne ((toNat_ofNat_of_lt hlt).symm.trans (congrArg BitVec.toNat e))
  have hframe : decodeFrame (frameOf code body) = some i :=
    (decodeFrame_frameOf hlt hw.1 hw.2).trans (parseBody_of_encodeRequest h)
  rw [frameOf] at hframe ⊢
  rw [decodeTransaction, if_neg hfirst, hframe]
  rfl

end Sys2Proof

open Sys2Proof

/-- Settles O2: a request by the body of its frame (`decodeTransaction_frameOf`), a read transaction by its length, and a malformed
frame as it is well-formed by R182. -/
theorem frameDecodesBack : Obligations.FrameDecodesBack := by
  intro i bytes hw h
  unfold encodeTransaction at h
  split at h
  · cases h
    exact of_decide_eq_true hw
  · cases h
    rw [decodeTransaction, if_pos rfl, List.length_replicate]
  · obtain ⟨⟨code, body⟩, henc, rfl⟩ := Option.map_eq_some_iff.mp h
    exact decodeTransaction_frameOf hw henc

/-- Settles O3: by the first byte, and then by whether R182 finds the frame a request's (`decodeFrame_eq_some`). -/
theorem frameReadWhole : Obligations.FrameReadWhole := by
  intro bytes hne
  obtain ⟨first, rest, rfl⟩ := List.exists_cons_of_ne_nil hne
  by_cases hfirst : first = 0
  · exact ⟨.readTransaction rest.length, if_pos hfirst, rfl, .inl ⟨congrArg some hfirst, rfl⟩⟩
  · have hdec : decodeTransaction (first :: rest) = some ((decodeFrame (first :: rest)).getD (.badRequest (first :: rest))) :=
      if_neg hfirst
    have hhead : (first :: rest).head? ≠ some 0 := fun e => hfirst (Option.some.inj e)
    cases hf : decodeFrame (first :: rest) with
    | none =>
      rw [hf, Option.getD_none] at hdec
      exact ⟨_, hdec, decide_eq_true hdec, .inr ⟨hhead, rfl⟩⟩
    | some i =>
      rw [hf, Option.getD_some] at hdec
      obtain ⟨hw, code, body, henc, hframe⟩ := decodeFrame_eq_some hf
      exact ⟨i, hdec, hw, .inr ⟨hhead, (encodeTransaction_of_encodeRequest henc).trans (congrArg some hframe)⟩⟩
end

