-- ==== Sys2Proof/Proofs/LinkService.lean ====
section
/-! CLAIM. Frames taken, replies read, and the attention and clock of the part (O4, O5, O30, O31). -/

namespace Sys2Proof.Machine

variable {s : State} {i : Instr} {r : Reply} {src : Nat}

/-! ### A frame over an unread reply -/

/-- A frame finds an unread reply as it finds none with LINK OVERRUN raised (R181). -/
theorem State.takeFrame_overrun (h : s.reply = some r) (len : Nat) :
    s.takeFrame len = State.takeFrame { s with reply := none, causes := s.causes ||| 0x80 } len := by
  rw [State.takeFrame_eq, State.takeFrame_eq, h]
  rfl

/-- A request frame, malformed or not, acts by the state its taking leaves (R179, R182). -/
theorem exec_after_frame (h : (encodeRequest i).isSome ∨ ∃ f, i = .badRequest f) :
    ∃ (len : Nat) (f : State → Result), ∀ s, exec i s = f (s.takeFrame len) := by
  rcases h with h | ⟨frame, rfl⟩
  · obtain ⟨⟨code, body⟩, h⟩ := Option.isSome_iff_exists.mp h
    obtain ⟨src, rest, f, -, hf, -⟩ := request_handled h
    exact ⟨_, fun u => .next (u.checked code src f), hf⟩
  · exact ⟨frame.length, fun u => .next (u.answer .badRequest), fun _ => rfl⟩

/-! ### A reply read -/

/-- On `clocked` bytes the part sends what it has, and zeros beyond its end (R180). -/
theorem getElem?_sent {clocked j : Nat} (bytes : List Byte) (h : j < clocked) :
    ((bytes ++ List.replicate clocked 0).take clocked)[j]? = some (bytes.getD j 0) := by
  rw [List.getElem?_take_of_lt h, List.getD_eq_getElem?_getD]
  by_cases hj : j < bytes.length
  · rw [List.getElem?_append_left hj, List.getElem?_eq_getElem hj, Option.getD_some]
  · have hj := Nat.le_of_not_lt hj
    rw [List.getElem?_append_right hj, List.getElem?_replicate_of_lt (by omega), List.getElem?_eq_none hj, Option.getD_none]

/-- The bytes of a reply, one by one: status, body length, and the body from the third on (R180). -/
theorem Reply.bytes_getD (r : Reply) (j : Nat) :
    r.bytes.getD j 0 = if j = 0 then byteOf r.status.code else if j = 1 then byteOf r.body.length else r.body.getD (j - 2) 0 := by
  match j with
  | 0 | 1 | _ + 2 => rfl

/-! ### Attention -/

/-- ATTENTION is asserted exactly where a cause is set whose mask entry is not (R187). -/
theorem State.attention_iff (s : State) :
    s.attention = true ↔ ∃ b : Fin 8, s.causes.getLsbD b.val = true ∧ s.mask.getLsbD b.val = false := by
  have hbit (b : Fin 8) : (s.causes &&& ~~~s.mask).getLsbD b.val = true ↔
      s.causes.getLsbD b.val = true ∧ s.mask.getLsbD b.val = false := by
    simp
  have hzero (b : Nat) : (0 : Byte).getLsbD b = false := BitVec.getLsbD_zero
  simp only [← hbit, State.attention, ne_eq, decide_eq_true_eq]
  constructor
  · intro h
    by_contra hnone
    refine h (BitVec.eq_of_getLsbD_eq fun b hb => ?_)
    rw [hzero, Bool.eq_false_iff]
    exact fun hset => hnone ⟨⟨b, hb⟩, hset⟩
  · rintro ⟨b, hset⟩ h
    rw [h, hzero] at hset
    cases hset

theorem exec_readStatus (s : State) : exec (.readStatus 31) s = .next (s.takeFrame 3).readStatus := rfl

theorem exec_writeMask (s : State) (m : Nat) :
    exec (.writeMask 31 m) s = .next (State.answer { s.takeFrame 4 with mask := byteOf m } .ok) := rfl

/-! ### The clock -/

theorem exec_readTime (hs : src ≤ 15 ∨ src = 31) :
    exec (.readTime src) s = .next ((s.takeFrame 3).answer .ok (field4 s.clock.toNat)) := by
  rw [← s.takeFrame_clock 3]
  exact congrArg _ (State.anySource_eq hs _)

/-- The bytes of a four-byte field give its value (R183). -/
theorem field4_value {x : Nat} (h : x < 4294967296) :
    (byteOf (x / 16777216)).toNat * 16777216 + (byteOf (x / 65536)).toNat * 65536 + (byteOf (x / 256)).toNat * 256 +
      (byteOf x).toNat = x := by
  simp only [byteOf, BitVec.toNat_ofNat]
  omega

theorem exec_secondsClockAdvance (s : State) :
    exec .secondsClockAdvance s = .next
      { s with
        clock := s.clock + 1
        passesDue := s.passesDue + (List.finRange 48).countP (State.retryDue { s with clock := s.clock + 1 })
        testTimer := if s.testTimer.mode = .off then s.testTimer
          else { s.testTimer with remaining := s.testTimer.remaining - 1 } } := rfl

/-- The cases whose retry time is now, counted over the slots, are those of the table (R62). -/
theorem State.countP_retryDue (s : State) :
    (List.finRange 48).countP s.retryDue = s.cases.countP fun x => decide (x.state = .pending) && decide (x.retry = s.clock) := by
  rw [State.cases_eq, List.countP_filterMap]
  refine List.countP_congr fun k _ => ?_
  unfold State.retryDue
  cases s.caseAt k <;> simp

end Sys2Proof.Machine

open Sys2Proof Sys2Proof.Machine

/-- Settles O4: the state a frame leaves is known (`takeFrame_eq`), and a request frame acts by that state alone (`exec_after_frame`). -/
theorem frameTaken : Obligations.FrameTaken := by
  refine ⟨⟨fun s len => s.takeFrame_eq len, fun i s r h hr => ?_⟩, fun _ _ => rfl⟩
  obtain ⟨len, f, hf⟩ := exec_after_frame h
  rw [hf, hf, State.takeFrame_overrun hr]

/-- Settles O5: the bytes sent are those of the reply, or of NO_REPLY, and then zeros (`getElem?_sent`, `Reply.bytes_getD`). -/
theorem replyReadOnce : Obligations.ReplyReadOnce := by
  intro clocked s
  refine ⟨_, rfl, by simp, fun j hj => ?_⟩
  rw [getElem?_sent _ hj]
  cases s.reply with
  | some r => exact congrArg some (r.bytes_getD j)
  | none =>
    match j with
    | 0 | 1 | _ + 2 => rfl

/-- Settles O30: what READ STATUS and WRITE MASK leave, and ATTENTION bit by bit (`attention_iff`). -/
theorem attentionServed : Obligations.AttentionServed := by
  refine ⟨fun s => ⟨_, exec_readStatus s, ?_, ?_⟩, fun s m => ⟨_, exec_writeMask s m, rfl, State.attention_iff _⟩⟩
  · rw [s.takeFrame_eq]
    rfl
  · simp [State.attention, State.readStatus, State.answer]

/-- Settles O31: the clock's four bytes by their value (`field4_value`), and the notices by the cases due (`countP_retryDue`). -/
theorem clockServed : Obligations.ClockServed := by
  refine ⟨fun s src hs => ⟨_, _, _, _, exec_readTime hs, field4_value s.clock.isLt⟩, fun s => ?_⟩
  rw [exec_secondsClockAdvance, State.countP_retryDue]
  rfl
end

