-- ==== Sys2Proof/Proofs/ConfigReads.lean ====
section
/-! CLAIM. READ CONFIG: the body of each item and index, and none outside the table of R185 (O28). -/

namespace Sys2Proof.Machine

variable {s : State} {src item index : Nat} {body : List Byte}

/-! ### The request -/

theorem exec_readConfig (hs : src ≤ 15 ∨ src = 31) :
    exec (.readConfig src item index) s = .next ((s.takeFrame 5).readConfig item index) :=
  congrArg _ (State.anySource_eq hs _)

/-- A frame taken leaves what READ CONFIG gives. -/
theorem State.takeFrame_configBody (s : State) (len item index : Nat) :
    (s.takeFrame len).configBody item index = s.configBody item index := by
  rw [s.takeFrame_eq]
  rfl

theorem exec_readConfig_of_some (hs : src ≤ 15 ∨ src = 31) (h : s.configBody item index = some body) :
    exec (.readConfig src item index) s = .next { s.takeFrame 5 with reply := some ⟨.ok, body⟩ } := by
  rw [exec_readConfig hs, State.readConfig, State.takeFrame_configBody, h]
  rfl

theorem exec_readConfig_of_none (hs : src ≤ 15 ∨ src = 31) (h : s.configBody item index = none) :
    exec (.readConfig src item index) s = .next { s.takeFrame 5 with reply := some ⟨.badValue, []⟩ } := by
  rw [exec_readConfig hs, State.readConfig, State.takeFrame_configBody, h]
  rfl

/-! ### The bodies by item -/

theorem State.configBody_admission (s : State) (i : Fin 16) : s.configBody 1 i.val = some
    [byteOf (s.admissionOf i 0).code, byteOf (s.admissionOf i 1).code, byteOf (s.admissionOf i 2).code,
      byteOf (s.admissionOf i 3).code] := by
  simp only [State.configBody, indexOf_val]
  rfl

theorem State.configBody_class (s : State) (c : Cls) : s.configBody 2 c.code = some
    ([byteOf (s.classEntry c).base, byteOf (s.classEntry c).ageStep, byteOf (s.classEntry c).ageCap] ++
      field2 (s.classEntry c).retryBase ++ field2 (s.classEntry c).retryMax ++ [if s.fireWaiting = true then 1 else 0]) := by
  simp only [State.configBody, clsOfCode_code]
  cases s.fireWaiting <;> rfl

/-- The destinations of a plan, with 0 for those beyond its length (R185). -/
theorem Plan.entries_eq (p : Plan) (h : p.dests.length ≤ 4) :
    [0, 1, 2, 3].map (fun i => byteOf ((p.dests[i]?.map Fin.val).getD 0)) =
      p.dests.map (fun d => byteOf d.val) ++ List.replicate (4 - p.dests.length) 0 := by
  match p.dests, h with
  | [], _ | [_], _ | [_, _], _ | [_, _, _], _ | [_, _, _, _], _ => rfl

theorem State.configBody_plan (s : State) (c : Cls) (h : (s.plan c).dests.length ≤ 4) : s.configBody 3 c.code = some
    (byteOf (s.plan c).dests.length :: (s.plan c).dests.map (fun d => byteOf d.val) ++
      List.replicate (4 - (s.plan c).dests.length) 0 ++ [byteOf (s.plan c).attempts, byteOf (s.plan c).rounds]) := by
  rw [List.cons_append, ← (s.plan c).entries_eq h]
  simp only [State.configBody, clsOfCode_code]
  rfl

/-- The four bytes of one channel in the input map (R185, log entry 12). -/
def Channel.mapEntry (ch : Channel) : List Byte :=
  [if ch.enabled = true then 0 else 1, byteOf ch.cls.code] ++ field2 ch.zone

theorem State.configBody_inputs (s : State) : s.configBody 6 0 = some ((List.finRange 8).flatMap fun i => (s.input i).mapEntry) := by
  simp only [State.configBody, if_true, Channel.mapEntry, field1, byteOf_codeOfFirst]
  rfl

theorem State.configBody_held (s : State) (p : Fin 21) : s.configBody 8 p.val = some
    (match s.heldAt p with
      | some k => [1, byteOf k.source] ++ field2 k.zone ++ [byteOf k.cls.code]
      | none => [0, 0, 0, 0, 0]) := by
  simp only [State.configBody, indexOf_val, Option.map_some]
  cases s.heldAt p <;> rfl

/-- An item or an index outside the table of R185. -/
theorem State.configBody_eq_none (s : State) (h : 8 < item ∨ (item ∈ [0, 4, 5, 6, 7] ∧ index ≠ 0) ∨ (item = 1 ∧ 15 < index) ∨
    (item ∈ [2, 3] ∧ (index = 0 ∨ 5 < index)) ∨ (item = 8 ∧ 20 < index)) : s.configBody item index = none := by
  rcases h with h | ⟨hitem, hindex⟩ | ⟨rfl, hindex⟩ | ⟨hitem, hindex⟩ | ⟨rfl, hindex⟩
  · match item, h with
    | n + 9, _ => rfl
  · fin_cases hitem <;> exact if_neg hindex
  · simp only [State.configBody, indexOf_eq_none hindex, Option.map_none]
  · fin_cases hitem <;> simp only [State.configBody, clsOfCode_eq_none hindex, Option.map_none]
  · simp only [State.configBody, indexOf_eq_none hindex, Option.map_none]

end Sys2Proof.Machine

open Sys2Proof Sys2Proof.Machine

/-- Settles O28: the body of each item by its own lemma, those of a fixed layout by computation. -/
theorem configRead : Obligations.ConfigRead := by
  intro s src item index hs answered
  have gives {item index : Nat} {body : List Byte} (h : s.configBody item index = some body) : answered item index body :=
    exec_readConfig_of_some hs h
  refine ⟨gives rfl, fun i => gives (s.configBody_admission i), fun c => gives (s.configBody_class c),
    fun c h => gives (s.configBody_plan c h), gives rfl, gives rfl, ⟨_, gives s.configBody_inputs, rfl, fun i => ?_⟩, gives rfl,
    fun p => gives (s.configBody_held p), fun h => exec_readConfig_of_none hs (s.configBody_eq_none h)⟩
  fin_cases i <;> rfl
end

section
/-! CLAIM. One step: the command at the front of the queue, run on the rest, and the idle step (O1). -/

namespace Sys2Proof.Machine

theorem step_of_pending_nil {s : State} (h : s.pending = []) : step s = .next s := by
  simp only [step, h]

theorem step_of_pending_cons {c : Instr} {rest : List Instr} {s : State} (h : s.pending = c :: rest) :
    step s = exec c { s with pending := rest } := by
  simp only [step, h]

end Sys2Proof.Machine

open Sys2Proof Sys2Proof.Machine

/-- Settles O1: the two equations of a step; the queue a state had before is overwritten by the one it is given. -/
theorem stepRunsFront : Obligations.StepRunsFront :=
  ⟨fun _ _ _ => step_of_pending_cons rfl, fun _ h => step_of_pending_nil h⟩

end
